-- ==== Sys2Proof/Word.lean ====
section
/-! DEFINITION. The machine's words: byte, word and double-word as bit vectors (spec/00_scope.md R7, R11). -/

namespace Sys2Proof

/-- The smallest addressable unit, 8 bits (R7, R11). -/
abbrev Byte := BitVec 8

/-- A 16-bit word (R11). -/
abbrev Half := BitVec 16

/-- A 32-bit double-word: a general register, an address (R7, R11). -/
abbrev Word := BitVec 32

end Sys2Proof
end

