-- ==== Sys2Proof/Config.lean ====
section
/-! DEFINITION. What an implementation fixes and the free values: constants the spec's rules name, the open
parameters of R8 that a decoder needs, and the opaque constants that stand for values no rule gives. -/

namespace Sys2Proof

/-- The eight registers F0-F7 of the external FPU (spec/10_state.md R96). Their width is the FPU's and is
not in the spec: 64 bits, the long floating operand of R11 (log 12, PRESUMED). -/
structure FRegs where
  f0 : BitVec 64
  f1 : BitVec 64
  f2 : BitVec 64
  f3 : BitVec 64
  f4 : BitVec 64
  f5 : BitVec 64
  f6 : BitVec 64
  f7 : BitVec 64
deriving DecidableEq, Repr, Inhabited

/-- The FPU's state as the CPU's protocol names it: F0-F7 and the status register FSR (R96, R513). -/
structure FpuState where
  regs : FRegs
  fsr  : Word
deriving DecidableEq, Repr, Inhabited

/-- What the CPU sends in one slave protocol: the ID byte, the operation word, and the operands that
Table 3-1 marks "Issued" (spec/48_floating_point.md R512 steps 1-3, R513, R514). -/
structure FpuRequest where
  idByte : Byte
  opWord : Half
  op1    : Option (BitVec 64)
  op2    : Option (BitVec 64)
deriving DecidableEq, Repr, Inhabited

/-- What the FPU answers: its next state, the 16-bit Status Word and the result (used only where
Table 3-1 returns one to the CPU side) (R512 steps 6-7, R513, R515). -/
structure FpuReply where
  state  : FpuState
  status : Half
  result : BitVec 64
deriving DecidableEq, Repr, Inhabited

/-- FPU_EXEC, the open parameter of R8, R513 and decision D1: what the FPU computes. Opaque, so no claim
can depend on any particular floating-point arithmetic (log 12). -/
opaque Config.fpuExec : FpuState → FpuRequest → FpuReply

/-- The stream of free values: the n-th unspecified value the machine produces in a run. Opaque: it stands
for reserved bits as read, results the spec leaves unspecified, and latches never loaded (log 5). -/
opaque Config.freeWord : Nat → Word

/-- The open codes of format 5: GRAPHICS_OPCODES, the op fields of the eleven graphics instructions (spec/30_encoding.md
R206, G9), and SETCFG_DE_ENC, the instruction bit that carries SETCFG's option DE (R218, D3). -/
structure Codes where
  bbstod : Nat
  extblt : Nat
  bbor   : Nat
  movmp  : Nat
  bitwt  : Nat
  tbits  : Nat
  bband  : Nat
  sbitps : Nat
  bbfor  : Nat
  sbits  : Nat
  bbxor  : Nat
  deBit  : Nat
deriving DecidableEq, Repr, Inhabited

/-- The op fields of the graphics instructions. -/
def Codes.ops (c : Codes) : List Nat :=
  [c.bbstod, c.extblt, c.bbor, c.movmp, c.bitwt, c.tbits, c.bband, c.sbitps, c.bbfor, c.sbits, c.bbxor]

/-- The graphics op fields are distinct and no other operation's of format 5, and DE's bit is one that no other option of
SETCFG takes: 19 + k (R206, R230, D3). -/
def Codes.wf (c : Codes) : Bool :=
  decide (c.ops.Pairwise (· ≠ ·)) && c.ops.all (fun op => decide (4 ≤ op) && decide (op ≤ 14))
    && decide (19 ≤ c.deBit) && decide (c.deBit ≤ 23)

/-- The default codes: R206's table (log 11), and DE at bit 19 (log 10, DESIGN CHOICE). -/
def Codes.standard : Codes :=
  { bbstod := 4, extblt := 5, bbor := 6, movmp := 7, bitwt := 8, tbits := 9, bband := 10, sbitps := 11, bbfor := 12,
    sbits := 13, bbxor := 14, deBit := 19 }

/-- The end of the external address space, 2^24 (spec/20_memory.md R130, R131). -/
def Config.externalEnd : Nat := 0x1000000

/-- The first address of the top 8-Mbyte block (R131). -/
def Config.topBlock : Nat := 0xFF800000

/-- What a byte of memory that nothing has written reads as (log 3, DESIGN CHOICE: the spec leaves the
contents of memory at power-on to the platform, R766). -/
def Config.blankByte : Byte := 0

/-- The address of DMA STAT, the one DMA register address the spec gives (spec/10_state.md R78). -/
def Config.statAddr : Word := 0xFFFFF010

/-- The addresses of the six BPU registers (R69). -/
def Config.bbscAddr : Word := 0xFFFFE000
def Config.brmAddr : Word := 0xFFFFE004
def Config.blmAddr : Word := 0xFFFFE008
def Config.bfsAddr : Word := 0xFFFFE00C
def Config.bcntlAddr : Word := 0xFFFFE010
def Config.bcAddr : Word := 0xFFFFE014

/-- The addresses of the two ICU registers (R89). -/
def Config.ivctAddr : Word := 0xFFFFFE00
def Config.isrvAddr : Word := 0xFFFFFE04

/-- The address of the non-maskable interrupt acknowledge cycle (R132). -/
def Config.nmiAckAddr : Word := 0xFFFFFF00

end Sys2Proof
end

