-- ==== Sys2Proof/Syntax.lean ====
section
/-! DEFINITION. The instruction set as syntax: operand forms (spec/30_encoding.md R184-R196, spec/40_operands.md) and one
constructor of `Instr` for every row of spec/opcode_table.json. Raw register numbers and operation codes end here. -/

namespace Sys2Proof

/-- The general registers R0-R7 (spec/10_state.md R31). -/
inductive Reg where
  | r0 | r1 | r2 | r3 | r4 | r5 | r6 | r7
deriving DecidableEq, Repr

/-- The integer length suffix i: byte, word, double-word (R184). -/
inductive Size where
  | b | w | d
deriving DecidableEq, Repr

/-- The floating length suffix f: standard (32 bits) or long (64 bits) (R185). -/
inductive FSize where
  | std | long
deriving DecidableEq, Repr

/-- The scale factor of a scaled index: 1, 2, 4 or 8 (R195 codes 11100-11111). -/
inductive Scale where
  | x1 | x2 | x4 | x8
deriving DecidableEq, Repr

/-- The dedicated registers the memory-relative and memory-space modes use (R259, R262). -/
inductive Area where
  | fp | sp | sb
deriving DecidableEq, Repr

/-- A displacement with its encoded length (R186): 1, 2 or 4 bytes holding 7, 14 or 30 value bits. -/
inductive Disp where
  | d7 (v : BitVec 7)
  | d14 (v : BitVec 14)
  | d30 (v : BitVec 30)
deriving DecidableEq, Repr

/-- An immediate value with its length in the instruction stream (R187). -/
inductive Imm where
  | b (v : Byte)
  | w (v : Half)
  | d (v : Word)
  | q (v : BitVec 64)
deriving DecidableEq, Repr

/-- The addressing modes that may stand alone or as the base of a scaled index (R195, R188): all but
Immediate and Scaled Index. -/
inductive Mode where
  | reg (r : Reg)
  | regRel (r : Reg) (d : Disp)
  | memRel (a : Area) (d1 d2 : Disp)
  | abs (d : Disp)
  | ext (d1 d2 : Disp)
  | tos
  | space (a : Area) (d : Disp)
  | prog (d : Disp)
deriving DecidableEq, Repr

/-- A general operand (R195). -/
inductive Gen where
  | mode (m : Mode)
  | imm (v : Imm)
  | scaled (k : Scale) (base : Mode) (x : Reg)
deriving DecidableEq, Repr

/-- The condition codes of Bcond and Scond, in code order (R215). -/
inductive Cond where
  | eq | ne | cs | cc | hi | ls | gt | le | fs | fc | lo | hs | lt | ge | always | never
deriving DecidableEq, Repr

/-- The processor registers of LPRi and SPRi (R217). -/
inductive AReg where
  | us | fp | sp | sb | psr | intbase | mod
deriving DecidableEq, Repr

/-- The Until/While option of the string instructions (R219, R421). -/
inductive Match where
  | none | whileMatch | untilMatch
deriving DecidableEq, Repr

/-- The options of a string instruction: Backward, and Until or While (R421). -/
structure StrOpts where
  back : Bool
  uw   : Match
deriving DecidableEq, Repr

/-- The options of a BB instruction: DA (decreasing address) and -S (inverted source) (R553). -/
structure BBOpts where
  da   : Bool
  negS : Bool
deriving DecidableEq, Repr

/-- The option list of SETCFG (R218, R486). -/
structure CfgOpts where
  i  : Bool
  f  : Bool
  m  : Bool
  c  : Bool
  de : Bool
deriving DecidableEq, Repr

/-- The fixed f and i bits of MOVLF, MOVFL, LFSR and SFSR, which the CPU does not decode but passes to the
FPU in the operation word (R210). -/
structure FBits where
  f : BitVec 1
  i : BitVec 2
deriving DecidableEq, Repr

/-- One constructor per row of spec/opcode_table.json. Operands stand in the order of the assembly line
(R241): `Gen` operands are gen1 then gen2, an implied displacement or immediate byte comes last. -/
inductive Instr where
  -- format 0 (R201, R441)
  | beq (d : Disp) | bne (d : Disp) | bcs (d : Disp) | bcc (d : Disp)
  | bhi (d : Disp) | bls (d : Disp) | bgt (d : Disp) | ble (d : Disp)
  | bfs (d : Disp) | bfc (d : Disp) | blo (d : Disp) | bhs (d : Disp)
  | blt (d : Disp) | bge (d : Disp) | br (d : Disp) | bnever (d : Disp)
  -- format 1 (R202)
  | bsr (d : Disp) | ret (d : Disp) | cxp (d : Disp) | rxp (d : Disp) | rett (d : Disp) | reti
  | save (list : Byte) | restore (list : Byte) | enter (list : Byte) (d : Disp) | exit (list : Byte)
  | nop | wait | dia | flag | svc | bpt
  -- format 2 (R203)
  | addqi (i : Size) (q : BitVec 4) (dst : Gen)
  | cmpqi (i : Size) (q : BitVec 4) (src : Gen)
  | spri (i : Size) (a : AReg) (dst : Gen)
  | scondi (i : Size) (c : Cond) (dst : Gen)
  | acbi (i : Size) (q : BitVec 4) (idx : Gen) (d : Disp)
  | movqi (i : Size) (q : BitVec 4) (dst : Gen)
  | lpri (i : Size) (a : AReg) (src : Gen)
  -- format 3 (R204)
  | cxpd (desc : Gen)
  | bicpsri (i : Size) (src : Gen)
  | jump (dst : Gen)
  | bispsri (i : Size) (src : Gen)
  | adjspi (i : Size) (src : Gen)
  | jsr (dst : Gen)
  | casei (i : Size) (idx : Gen)
  -- format 4 (R205)
  | addi (i : Size) (src dst : Gen) | cmpi (i : Size) (src dst : Gen) | bici (i : Size) (src dst : Gen)
  | addci (i : Size) (src dst : Gen) | movi (i : Size) (src dst : Gen) | ori (i : Size) (src dst : Gen)
  | subi (i : Size) (src dst : Gen) | addr (src dst : Gen) | andi (i : Size) (src dst : Gen)
  | subci (i : Size) (src dst : Gen) | tbiti (i : Size) (off base : Gen) | xori (i : Size) (src dst : Gen)
  -- format 5 (R206)
  | movsi (i : Size) (o : StrOpts) | movst (o : StrOpts)
  | cmpsi (i : Size) (o : StrOpts) | cmpst (o : StrOpts)
  | skpsi (i : Size) (o : StrOpts) | skpst (o : StrOpts)
  | setcfg (o : CfgOpts)
  | bband (o : BBOpts) | bbor (o : BBOpts) | bbxor (o : BBOpts) | bbstod (o : BBOpts) | bbfor
  | bitwt | extblt | sbits | sbitps | movmpi (i : Size) | tbits (opt : Bool)
  -- format 6 (R207)
  | roti (i : Size) (count dst : Gen) | ashi (i : Size) (count dst : Gen)
  | cbiti (i : Size) (off base : Gen) | cbitii (i : Size) (off base : Gen)
  | lshi (i : Size) (count dst : Gen)
  | sbiti (i : Size) (off base : Gen) | sbitii (i : Size) (off base : Gen)
  | negi (i : Size) (src dst : Gen) | noti (i : Size) (src dst : Gen) | subpi (i : Size) (src dst : Gen)
  | absi (i : Size) (src dst : Gen) | comi (i : Size) (src dst : Gen)
  | ibiti (i : Size) (off base : Gen) | addpi (i : Size) (src dst : Gen)
  -- format 7 (R208)
  | movmi (i : Size) (blk1 blk2 : Gen) (d : Disp) | cmpmi (i : Size) (blk1 blk2 : Gen) (d : Disp)
  | inssi (i : Size) (src base : Gen) (imm : Byte) | extsi (i : Size) (base dst : Gen) (imm : Byte)
  | movxbw (src dst : Gen) | movzbw (src dst : Gen)
  | movzid (i : Size) (src dst : Gen) | movxid (i : Size) (src dst : Gen)
  | muli (i : Size) (src dst : Gen) | meii (i : Size) (src dst : Gen) | deii (i : Size) (src dst : Gen)
  | quoi (i : Size) (src dst : Gen) | remi (i : Size) (src dst : Gen)
  | modi (i : Size) (src dst : Gen) | divi (i : Size) (src dst : Gen)
  -- format 8 (R209)
  | exti (i : Size) (off : Reg) (base dst : Gen) (len : Disp)
  | cvtp (off : Reg) (base dst : Gen)
  | insi (i : Size) (off : Reg) (src base : Gen) (len : Disp)
  | checki (i : Size) (dst : Reg) (bounds src : Gen)
  | indexi (i : Size) (acc : Reg) (len idx : Gen)
  | ffsi (i : Size) (base off : Gen)
  -- format 9 (R210)
  | movif (f : FSize) (i : Size) (src dst : Gen)
  | lfsr (x : FBits) (src : Gen)
  | movlf (x : FBits) (src dst : Gen) | movfl (x : FBits) (src dst : Gen)
  | roundfi (f : FSize) (i : Size) (src dst : Gen) | truncfi (f : FSize) (i : Size) (src dst : Gen)
  | sfsr (x : FBits) (dst : Gen)
  | floorfi (f : FSize) (i : Size) (src dst : Gen)
  -- format 11 (R211)
  | addf (f : FSize) (src dst : Gen) | movf (f : FSize) (src dst : Gen) | cmpf (f : FSize) (src dst : Gen)
  | subf (f : FSize) (src dst : Gen) | negf (f : FSize) (src dst : Gen) | divf (f : FSize) (src dst : Gen)
  | mulf (f : FSize) (src dst : Gen) | absf (f : FSize) (src dst : Gen)
  -- format 12 (R212)
  | polyf (f : FSize) (src dst : Gen) | dotf (f : FSize) (src dst : Gen)
  | scalbf (f : FSize) (src dst : Gen) | logbf (f : FSize) (src dst : Gen)
deriving DecidableEq, Repr

/-- The number of a general register. -/
def Reg.num : Reg → Nat
  | .r0 => 0 | .r1 => 1 | .r2 => 2 | .r3 => 3 | .r4 => 4 | .r5 => 5 | .r6 => 6 | .r7 => 7

/-- size(i), in bytes (R184). -/
def Size.bytes : Size → Nat
  | .b => 1 | .w => 2 | .d => 4

/-- The length of a floating operand, in bytes (R185). -/
def FSize.bytes : FSize → Nat
  | .std => 4 | .long => 8

/-- The multiplier of a scale factor (R265). -/
def Scale.factor : Scale → Nat
  | .x1 => 1 | .x2 => 2 | .x4 => 4 | .x8 => 8

/-- The value of a displacement, sign-extended to 32 bits (R186). -/
def Disp.value : Disp → Word
  | .d7 v => v.signExtend 32
  | .d14 v => v.signExtend 32
  | .d30 v => v.signExtend 32

/-- The length of an immediate, in bytes (R187). -/
def Imm.bytes : Imm → Nat
  | .b _ => 1 | .w _ => 2 | .d _ => 4 | .q _ => 8

/-- The bits of an immediate as a number. -/
def Imm.nat : Imm → Nat
  | .b v => v.toNat | .w v => v.toNat | .d v => v.toNat | .q v => v.toNat

end Sys2Proof
end

