-- ==== Sys2Proof/Decode.lean ====
section
/-! DEFINITION. Decoding instruction bytes (spec/30_encoding.md R180-R235), total on any bytes, and the encoder written
from the same tables. -/

namespace Sys2Proof

/-- Why bytes are no instruction. `undefined` is Trap (UND) (R230, R231); `reserved` is a malformed encoding, for
which no behaviour exists (R232-R234); `truncated` says the bytes ended first. -/
inductive BadCode where
  | undefined | sizeField | constantBits | options | reservedGen | indexBase | fpuOpcode | truncated
deriving DecidableEq, Repr

/-- The result of decoding: the instruction and the bytes after it, or why there is none. -/
inductive Decoded where
  | ok (i : Instr) (rest : List Byte)
  | bad (why : BadCode)
deriving DecidableEq, Repr

/-- A parser over instruction bytes. -/
abbrev Parse (α : Type) := StateT (List Byte) (Except BadCode) α

/-- Bits lo .. lo+n-1 of the basic instruction read as a little-endian number (R181). -/
def bits (w lo n : Nat) : Nat := w / 2 ^ lo % 2 ^ n

/-- The next byte. -/
def nextByte : Parse Byte := fun bs =>
  match bs with
  | [] => .error .truncated
  | b :: rest => .ok (b, rest)

/-- Refuse the bytes. -/
def reject {α : Type} (why : BadCode) : Parse α := fun _ => .error why

/-- n bytes, the first the most significant (R186, R187). -/
def parseBig : Nat → Nat → Parse Nat
  | 0, acc => pure acc
  | n + 1, acc => do
    let b ← nextByte
    parseBig n (acc * 256 + b.toNat)

/-- A displacement (R186). -/
def parseDisp : Parse Disp := do
  let b ← nextByte
  if b.toNat < 128 then
    pure (.d7 (BitVec.ofNat 7 b.toNat))
  else if b.toNat < 192 then do
    let v ← parseBig 1 (b.toNat - 128)
    pure (.d14 (BitVec.ofNat 14 v))
  else do
    let v ← parseBig 3 (b.toNat - 192)
    pure (.d30 (BitVec.ofNat 30 v))

/-- An immediate of n bytes (R187). -/
def parseImm (n : Nat) : Parse Imm := do
  let v ← parseBig n 0
  match n with
  | 1 => pure (.b (BitVec.ofNat 8 v))
  | 2 => pure (.w (BitVec.ofNat 16 v))
  | 4 => pure (.d (BitVec.ofNat 32 v))
  | _ => pure (.q (BitVec.ofNat 64 v))

/-- A register number. -/
def regOf (n : Nat) : Reg :=
  match n with
  | 0 => .r0 | 1 => .r1 | 2 => .r2 | 3 => .r3 | 4 => .r4 | 5 => .r5 | 6 => .r6 | _ => .r7

/-- The scale of gen codes 11100-11111 (R195). -/
def scaleOf (g : Nat) : Scale :=
  match g with
  | 28 => .x1 | 29 => .x2 | 30 => .x4 | _ => .x8

/-- An addressing mode that is neither Immediate nor Scaled Index, with its displacements (R195, R196). -/
def parseMode (g : Nat) : Parse Mode :=
  if g < 8 then pure (.reg (regOf g))
  else if g < 16 then do
    let d ← parseDisp
    pure (.regRel (regOf (g - 8)) d)
  else match g with
  | 16 => do let d1 ← parseDisp; let d2 ← parseDisp; pure (.memRel .fp d1 d2)
  | 17 => do let d1 ← parseDisp; let d2 ← parseDisp; pure (.memRel .sp d1 d2)
  | 18 => do let d1 ← parseDisp; let d2 ← parseDisp; pure (.memRel .sb d1 d2)
  | 21 => do let d ← parseDisp; pure (.abs d)
  | 22 => do let d1 ← parseDisp; let d2 ← parseDisp; pure (.ext d1 d2)
  | 23 => pure .tos
  | 24 => do let d ← parseDisp; pure (.space .fp d)
  | 25 => do let d ← parseDisp; pure (.space .sp d)
  | 26 => do let d ← parseDisp; pure (.space .sb d)
  | 27 => do let d ← parseDisp; pure (.prog d)
  | _ => reject .reservedGen

/-- The index byte of a scaled-index operand (R188): base mode code and index register; none for other modes. -/
def parseIndex (g : Nat) : Parse (Option (Nat × Reg)) :=
  if 28 ≤ g then do
    let b ← nextByte
    let base := b.toNat / 8
    if base = 20 ∨ 28 ≤ base then reject .indexBase
    else pure (some (base, regOf (b.toNat % 8)))
  else pure none

/-- A general operand whose immediate would have n bytes (R183, R195, R196). -/
def parseGen (g n : Nat) : Option (Nat × Reg) → Parse Gen
  | some (base, x) => do
    let m ← parseMode base
    pure (.scaled (scaleOf g) m x)
  | none =>
    if g = 20 then do
      let v ← parseImm n
      pure (.imm v)
    else do
      let m ← parseMode g
      pure (.mode m)

/-- What follows the basic instruction: gen fields with their immediate lengths, implied operands, and the
constructor they complete (R183). -/
inductive Shape where
  | none (i : Instr)
  | disp (k : Disp → Instr)
  | byte (k : Byte → Instr)
  | byteDisp (k : Byte → Disp → Instr)
  | g (g1 n1 : Nat) (k : Gen → Instr)
  | gDisp (g1 n1 : Nat) (k : Gen → Disp → Instr)
  | gg (g1 n1 g2 n2 : Nat) (k : Gen → Gen → Instr)
  | ggDisp (g1 n1 g2 n2 : Nat) (k : Gen → Gen → Disp → Instr)
  | ggByte (g1 n1 g2 n2 : Nat) (k : Gen → Gen → Byte → Instr)

/-- The extensions in the order of R183: index bytes, the fields of gen1, those of gen2, implied operands. -/
def Shape.parse : Shape → Parse Instr
  | .none i => pure i
  | .disp k => do let d ← parseDisp; pure (k d)
  | .byte k => do let b ← nextByte; pure (k b)
  | .byteDisp k => do let b ← nextByte; let d ← parseDisp; pure (k b d)
  | .g g1 n1 k => do
    let x1 ← parseIndex g1
    let a ← parseGen g1 n1 x1
    pure (k a)
  | .gDisp g1 n1 k => do
    let x1 ← parseIndex g1
    let a ← parseGen g1 n1 x1
    let d ← parseDisp
    pure (k a d)
  | .gg g1 n1 g2 n2 k => do
    let x1 ← parseIndex g1
    let x2 ← parseIndex g2
    let a ← parseGen g1 n1 x1
    let b ← parseGen g2 n2 x2
    pure (k a b)
  | .ggDisp g1 n1 g2 n2 k => do
    let x1 ← parseIndex g1
    let x2 ← parseIndex g2
    let a ← parseGen g1 n1 x1
    let b ← parseGen g2 n2 x2
    let d ← parseDisp
    pure (k a b d)
  | .ggByte g1 n1 g2 n2 k => do
    let x1 ← parseIndex g1
    let x2 ← parseIndex g2
    let a ← parseGen g1 n1 x1
    let b ← parseGen g2 n2 x2
    let v ← nextByte
    pure (k a b v)

/-- The integer length of a two-bit field; 10 is no length (R184, R232). -/
def sizeOf? (n : Nat) : Except BadCode Size :=
  match n with
  | 0 => .ok .b | 1 => .ok .w | 3 => .ok .d | _ => .error .sizeField

/-- The floating length of a one-bit field (R185). -/
def fsizeOf (n : Nat) : FSize :=
  match n with
  | 0 => .long | _ => .std

/-- A condition code (R215). -/
def condOf (n : Nat) : Cond :=
  match n with
  | 0 => .eq | 1 => .ne | 2 => .cs | 3 => .cc | 4 => .hi | 5 => .ls | 6 => .gt | 7 => .le
  | 8 => .fs | 9 => .fc | 10 => .lo | 11 => .hs | 12 => .lt | 13 => .ge | 14 => .always | _ => .never

/-- A processor register code (R217); the others are undefined (R230 b). -/
def aregOf? (n : Nat) : Except BadCode AReg :=
  match n with
  | 0 => .ok .us | 8 => .ok .fp | 9 => .ok .sp | 10 => .ok .sb | 13 => .ok .psr | 14 => .ok .intbase
  | 15 => .ok .mod | _ => .error .undefined

/-- Check a condition on constant fields. -/
def need (why : BadCode) (p : Bool) : Except BadCode Unit := if p then .ok () else .error why

/-- Format 0 (R201). -/
def format0 (b : Nat) : Shape :=
  match b / 16 with
  | 0 => .disp .beq | 1 => .disp .bne | 2 => .disp .bcs | 3 => .disp .bcc
  | 4 => .disp .bhi | 5 => .disp .bls | 6 => .disp .bgt | 7 => .disp .ble
  | 8 => .disp .bfs | 9 => .disp .bfc | 10 => .disp .blo | 11 => .disp .bhs
  | 12 => .disp .blt | 13 => .disp .bge | 14 => .disp .br | _ => .disp .bnever

/-- Format 1 (R202). -/
def format1 (b : Nat) : Shape :=
  match b / 16 with
  | 0 => .disp .bsr | 1 => .disp .ret | 2 => .disp .cxp | 3 => .disp .rxp
  | 4 => .disp .rett | 5 => .none .reti | 6 => .byte .save | 7 => .byte .restore
  | 8 => .byteDisp .enter | 9 => .byte .exit | 10 => .none .nop | 11 => .none .wait
  | 12 => .none .dia | 13 => .none .flag | 14 => .none .svc | _ => .none .bpt

/-- Format 2 (R203). -/
def format2 (w : Nat) : Except BadCode Shape := do
  let i ← sizeOf? (bits w 0 2)
  let g := bits w 11 5
  let q := bits w 7 4
  match bits w 4 3 with
  | 0 => pure (.g g i.bytes (.addqi i (BitVec.ofNat 4 q)))
  | 1 => pure (.g g i.bytes (.cmpqi i (BitVec.ofNat 4 q)))
  | 2 => do
    let a ← aregOf? q
    pure (.g g i.bytes (.spri i a))
  | 3 => pure (.g g i.bytes (.scondi i (condOf q)))
  | 4 => pure (.gDisp g i.bytes (.acbi i (BitVec.ofNat 4 q)))
  | 5 => pure (.g g i.bytes (.movqi i (BitVec.ofNat 4 q)))
  | _ => do
    let a ← aregOf? q
    pure (.g g i.bytes (.lpri i a))

/-- Format 3 (R204). The size field is checked after the operation is known to be defined (R230, R232). -/
def format3 (w : Nat) : Except BadCode Shape := do
  let g := bits w 11 5
  let i ← sizeOf? (bits w 0 2)
  match bits w 7 4 with
  | 0 => do need .sizeField (i == .d); pure (.g g 4 .cxpd)
  | 2 => do need .sizeField (i != .d); pure (.g g i.bytes (.bicpsri i))
  | 4 => do need .sizeField (i == .d); pure (.g g 4 .jump)
  | 6 => do need .sizeField (i != .d); pure (.g g i.bytes (.bispsri i))
  | 10 => pure (.g g i.bytes (.adjspi i))
  | 12 => do need .sizeField (i == .d); pure (.g g 4 .jsr)
  | 14 => pure (.g g i.bytes (.casei i))
  | _ => .error .undefined

/-- Format 4 (R205). -/
def format4 (w : Nat) : Except BadCode Shape := do
  let g1 := bits w 11 5
  let g2 := bits w 6 5
  let i ← sizeOf? (bits w 0 2)
  let n := i.bytes
  match bits w 2 4 with
  | 0 => pure (.gg g1 n g2 n (.addi i))
  | 1 => pure (.gg g1 n g2 n (.cmpi i))
  | 2 => pure (.gg g1 n g2 n (.bici i))
  | 4 => pure (.gg g1 n g2 n (.addci i))
  | 5 => pure (.gg g1 n g2 n (.movi i))
  | 6 => pure (.gg g1 n g2 n (.ori i))
  | 8 => pure (.gg g1 n g2 n (.subi i))
  | 9 => do need .sizeField (i == .d); pure (.gg g1 4 g2 4 .addr)
  | 10 => pure (.gg g1 n g2 n (.andi i))
  | 12 => pure (.gg g1 n g2 n (.subci i))
  | 13 => pure (.gg g1 n g2 n (.tbiti i))
  | 14 => pure (.gg g1 n g2 n (.xori i))
  | _ => .error .undefined

/-- The option bits of a string instruction (R219); the U/W code 10 is undefined (R232). -/
def strOptsOf? (short : Nat) : Except BadCode StrOpts :=
  match short / 4 with
  | 0 => .ok ⟨short / 2 % 2 == 1, .none⟩
  | 1 => .ok ⟨short / 2 % 2 == 1, .whileMatch⟩
  | 3 => .ok ⟨short / 2 % 2 == 1, .untilMatch⟩
  | _ => .error .options

/-- A string instruction: translated when short bit 0 (T) is set, which needs i = 00 (R206, R219, R232). -/
def strShape (i : Size) (short : Nat) (plain : Size → StrOpts → Instr) (trans : StrOpts → Instr) :
    Except BadCode Shape := do
  let o ← strOptsOf? short
  if short % 2 = 1 then do
    need .options (i == .b)
    pure (.none (trans o))
  else pure (.none (plain i o))

/-- The options of a BB instruction, short = 0 D X S (R206): X must be as the instruction's row says. -/
def bbOptsOf? (short x : Nat) : Except BadCode BBOpts := do
  need .options (short < 8 && short / 2 % 2 == x)
  pure ⟨short / 4 % 2 == 1, short % 2 == 1⟩

/-- The graphics instructions of format 5 (R206), by GRAPHICS_OPCODES. -/
def graphicsShape (c : Codes) (op short : Nat) (i : Size) : Except BadCode Shape :=
  if op = c.bbstod then do
    need .sizeField (i == .w)
    let o ← bbOptsOf? short 0
    pure (.none (.bbstod o))
  else if op = c.bbor then do
    need .sizeField (i == .w)
    let o ← bbOptsOf? short 0
    pure (.none (.bbor o))
  else if op = c.bbxor then do
    need .sizeField (i == .w)
    let o ← bbOptsOf? short 0
    pure (.none (.bbxor o))
  else if op = c.bband then do
    need .sizeField (i == .d)
    let o ← bbOptsOf? short 1
    pure (.none (.bband o))
  else if op = c.bbfor then do
    need .sizeField (i == .w)
    need .options (short == 0)
    pure (.none .bbfor)
  else if op = c.bitwt then do
    need .sizeField (i == .w)
    need .options (short == 0)
    pure (.none .bitwt)
  else if op = c.extblt then do
    need .sizeField (i == .d)
    need .options (short == 0)
    pure (.none .extblt)
  else if op = c.movmp then do
    need .options (short == 0)
    pure (.none (.movmpi i))
  else if op = c.tbits then do
    need .sizeField (i == .d)
    need .options (short < 2)
    pure (.none (.tbits (short == 1)))
  else if op = c.sbits then do
    need .sizeField (i == .d)
    need .options (short == 0)
    pure (.none .sbits)
  else if op = c.sbitps then do
    need .sizeField (i == .d)
    need .options (short == 0)
    pure (.none .sbitps)
  else .error .undefined

/-- Format 5 (R206). -/
def format5 (c : Codes) (w : Nat) : Except BadCode Shape := do
  let op := bits w 10 4
  let short := bits w 15 4
  if op = 15 then .error .undefined
  else do
    let i ← sizeOf? (bits w 8 2)
    need .constantBits (bits w 14 1 == 0)
    if op = 2 then do
      need .sizeField (i == .d)
      need .constantBits (bits w 19 5 == bits w c.deBit 1 * 2 ^ (c.deBit - 19))
      pure (.none (.setcfg ⟨short % 2 == 1, short / 2 % 2 == 1, short / 4 % 2 == 1, short / 8 == 1,
        bits w c.deBit 1 == 1⟩))
    else do
      need .constantBits (bits w 19 5 == 0)
      match op with
      | 0 => strShape i short .movsi .movst
      | 1 => strShape i short .cmpsi .cmpst
      | 3 => strShape i short .skpsi .skpst
      | _ => graphicsShape c op short i

/-- Format 6 (R207). -/
def format6 (w : Nat) : Except BadCode Shape := do
  let g1 := bits w 19 5
  let g2 := bits w 14 5
  let op := bits w 10 4
  if op = 4 ∨ op = 10 then .error .undefined
  else do
    let i ← sizeOf? (bits w 8 2)
    let n := i.bytes
    match op with
    | 0 => pure (.gg g1 1 g2 n (.roti i))
    | 1 => pure (.gg g1 1 g2 n (.ashi i))
    | 2 => pure (.gg g1 n g2 n (.cbiti i))
    | 3 => pure (.gg g1 n g2 n (.cbitii i))
    | 5 => pure (.gg g1 1 g2 n (.lshi i))
    | 6 => pure (.gg g1 n g2 n (.sbiti i))
    | 7 => pure (.gg g1 n g2 n (.sbitii i))
    | 8 => pure (.gg g1 n g2 n (.negi i))
    | 9 => pure (.gg g1 n g2 n (.noti i))
    | 11 => pure (.gg g1 n g2 n (.subpi i))
    | 12 => pure (.gg g1 n g2 n (.absi i))
    | 13 => pure (.gg g1 n g2 n (.comi i))
    | 14 => pure (.gg g1 n g2 n (.ibiti i))
    | _ => pure (.gg g1 n g2 n (.addpi i))

/-- Format 7 (R208). -/
def format7 (w : Nat) : Except BadCode Shape := do
  let g1 := bits w 19 5
  let g2 := bits w 14 5
  let op := bits w 10 4
  if op = 10 then .error .undefined
  else do
    let i ← sizeOf? (bits w 8 2)
    let n := i.bytes
    match op with
    | 0 => pure (.ggDisp g1 4 g2 4 (.movmi i))
    | 1 => pure (.ggDisp g1 4 g2 4 (.cmpmi i))
    | 2 => pure (.ggByte g1 n g2 n (.inssi i))
    | 3 => pure (.ggByte g1 n g2 n (.extsi i))
    | 4 => do need .sizeField (i == .b); pure (.gg g1 1 g2 2 .movxbw)
    | 5 => do need .sizeField (i == .b); pure (.gg g1 1 g2 2 .movzbw)
    | 6 => do need .sizeField (i != .d); pure (.gg g1 n g2 4 (.movzid i))
    | 7 => do need .sizeField (i != .d); pure (.gg g1 n g2 4 (.movxid i))
    | 8 => pure (.gg g1 n g2 n (.muli i))
    | 9 => pure (.gg g1 n g2 n (.meii i))
    | 11 => pure (.gg g1 n g2 n (.deii i))
    | 12 => pure (.gg g1 n g2 n (.quoi i))
    | 13 => pure (.gg g1 n g2 n (.remi i))
    | 14 => pure (.gg g1 n g2 n (.modi i))
    | _ => pure (.gg g1 n g2 n (.divi i))

/-- Format 8 (R209): the operation is bits 10, 7, 6. -/
def format8 (w : Nat) : Except BadCode Shape := do
  let g1 := bits w 19 5
  let g2 := bits w 14 5
  let r := bits w 11 3
  let op := bits w 10 1 * 4 + bits w 6 2
  if op = 6 ∨ op = 7 then .error .undefined
  else do
    let i ← sizeOf? (bits w 8 2)
    let n := i.bytes
    match op with
    | 0 => pure (.ggDisp g1 n g2 n (.exti i (regOf r)))
    | 1 => do need .sizeField (i == .d); pure (.gg g1 4 g2 4 (.cvtp (regOf r)))
    | 2 => pure (.ggDisp g1 n g2 n (.insi i (regOf r)))
    | 3 => pure (.gg g1 4 g2 n (.checki i (regOf r)))
    | 4 => pure (.gg g1 n g2 n (.indexi i (regOf r)))
    | _ => do need .constantBits (r == 0); pure (.gg g1 n g2 1 (.ffsi i))

/-- Format 9 (R210). MOVLF, MOVFL, LFSR and SFSR keep their f and i bits for the operation word. -/
def format9 (w : Nat) : Except BadCode Shape := do
  let g1 := bits w 19 5
  let g2 := bits w 14 5
  let f := fsizeOf (bits w 10 1)
  let x : FBits := ⟨BitVec.ofNat 1 (bits w 10 1), BitVec.ofNat 2 (bits w 8 2)⟩
  match bits w 11 3 with
  | 0 => do
    let i ← sizeOf? (bits w 8 2)
    pure (.gg g1 i.bytes g2 f.bytes (.movif f i))
  | 1 => do need .constantBits (g2 == 0); pure (.g g1 4 (.lfsr x))
  | 2 => pure (.gg g1 8 g2 4 (.movlf x))
  | 3 => pure (.gg g1 4 g2 8 (.movfl x))
  | 4 => do
    let i ← sizeOf? (bits w 8 2)
    pure (.gg g1 f.bytes g2 i.bytes (.roundfi f i))
  | 5 => do
    let i ← sizeOf? (bits w 8 2)
    pure (.gg g1 f.bytes g2 i.bytes (.truncfi f i))
  | 6 => do need .constantBits (g1 == 0); pure (.g g2 4 (.sfsr x))
  | _ => do
    let i ← sizeOf? (bits w 8 2)
    pure (.gg g1 f.bytes g2 i.bytes (.floorfi f i))

/-- Format 11 (R211). -/
def format11 (w : Nat) : Except BadCode Shape := do
  let g1 := bits w 19 5
  let g2 := bits w 14 5
  let f := fsizeOf (bits w 8 1)
  let n := f.bytes
  need .constantBits (bits w 9 1 == 0)
  match bits w 10 4 with
  | 0 => pure (.gg g1 n g2 n (.addf f))
  | 1 => pure (.gg g1 n g2 n (.movf f))
  | 2 => pure (.gg g1 n g2 n (.cmpf f))
  | 4 => pure (.gg g1 n g2 n (.subf f))
  | 5 => pure (.gg g1 n g2 n (.negf f))
  | 8 => pure (.gg g1 n g2 n (.divf f))
  | 12 => pure (.gg g1 n g2 n (.mulf f))
  | 13 => pure (.gg g1 n g2 n (.absf f))
  | _ => .error .fpuOpcode

/-- Format 12 (R212). -/
def format12 (w : Nat) : Except BadCode Shape := do
  let g1 := bits w 19 5
  let g2 := bits w 14 5
  let f := fsizeOf (bits w 8 1)
  let n := f.bytes
  need .constantBits (bits w 9 1 == 0)
  match bits w 10 4 with
  | 2 => pure (.gg g1 n g2 n (.polyf f))
  | 3 => pure (.gg g1 n g2 n (.dotf f))
  | 4 => pure (.gg g1 n g2 n (.scalbf f))
  | 5 => pure (.gg g1 n g2 n (.logbf f))
  | _ => .error .fpuOpcode

/-- Use the answer of a format, or its reason. -/
def fromFormat (r : Except BadCode Shape) : Parse Instr :=
  match r with
  | .ok sh => sh.parse
  | .error why => reject why

/-- The second byte, then a two-byte format. -/
def parse2 (b0 : Nat) (fmt : Nat → Except BadCode Shape) : Parse Instr := do
  let b1 ← nextByte
  fromFormat (fmt (b0 + 256 * b1.toNat))

/-- The second and third byte, then a three-byte format. -/
def parse3 (b0 : Nat) (fmt : Nat → Except BadCode Shape) : Parse Instr := do
  let b1 ← nextByte
  let b2 ← nextByte
  fromFormat (fmt (b0 + 256 * b1.toNat + 65536 * b2.toNat))

/-- Format selection by byte 0 (R200, R231). -/
def parseInstr (c : Codes) : Parse Instr := do
  let b ← nextByte
  let b0 := b.toNat
  match b0 % 16 with
  | 10 => (format0 b0).parse
  | 2 => (format1 b0).parse
  | 6 => reject .undefined
  | 14 =>
    match b0 / 16 with
    | 0 => parse3 b0 (format5 c)
    | 4 => parse3 b0 format6
    | 12 => parse3 b0 format7
    | 2 => parse3 b0 format8
    | 6 => parse3 b0 format8
    | 10 => parse3 b0 format8
    | 14 => parse3 b0 format8
    | 3 => parse3 b0 format9
    | 11 => parse3 b0 format11
    | 15 => parse3 b0 format12
    | _ => reject .undefined
  | _ =>
    if b0 / 4 % 32 = 31 then parse2 b0 format3
    else if b0 / 4 % 4 = 3 then parse2 b0 format2
    else parse2 b0 format4

/-- Decode the instruction at the head of a list of bytes, under the open codes of format 5. -/
def decodeWith (c : Codes) (bs : List Byte) : Decoded :=
  match parseInstr c bs with
  | .ok (i, rest) => .ok i rest
  | .error why => .bad why

/-- Decode under the default codes. -/
def decode (bs : List Byte) : Decoded := decodeWith Codes.standard bs

/-- n bytes of a number, the least significant first (R181). -/
def littleBytes : Nat → Nat → List Byte
  | 0, _ => []
  | n + 1, v => BitVec.ofNat 8 v :: littleBytes n (v / 256)

/-- n bytes of a number, the most significant first (R186, R187). -/
def bigBytes (n v : Nat) : List Byte := (littleBytes n v).reverse

/-- The bytes of a displacement (R186). -/
def Disp.encode : Disp → List Byte
  | .d7 v => bigBytes 1 v.toNat
  | .d14 v => bigBytes 2 (0x8000 + v.toNat)
  | .d30 v => bigBytes 4 (0xC0000000 + v.toNat)

/-- The bytes of an immediate (R187). -/
def Imm.encode (v : Imm) : List Byte := bigBytes v.bytes v.nat

/-- The code of an area in modes 10000-10010 and 11000-11010 (R195). -/
def Area.code : Area → Nat
  | .fp => 0 | .sp => 1 | .sb => 2

/-- The gen code of a mode (R195). -/
def Mode.code : Mode → Nat
  | .reg r => r.num
  | .regRel r _ => 8 + r.num
  | .memRel a _ _ => 16 + a.code
  | .abs _ => 21
  | .ext _ _ => 22
  | .tos => 23
  | .space a _ => 24 + a.code
  | .prog _ => 27

/-- The displacements of a mode (R196). -/
def Mode.encode : Mode → List Byte
  | .reg _ => []
  | .regRel _ d => d.encode
  | .memRel _ d1 d2 => d1.encode ++ d2.encode
  | .abs d => d.encode
  | .ext d1 d2 => d1.encode ++ d2.encode
  | .tos => []
  | .space _ d => d.encode
  | .prog d => d.encode

/-- The code of a scale (R195). -/
def Scale.code : Scale → Nat
  | .x1 => 28 | .x2 => 29 | .x4 => 30 | .x8 => 31

/-- The gen code of an operand. -/
def Gen.code : Gen → Nat
  | .mode m => m.code
  | .imm _ => 20
  | .scaled k _ _ => k.code

/-- The index byte of an operand (R188). -/
def Gen.index : Gen → List Byte
  | .mode _ => []
  | .imm _ => []
  | .scaled _ m x => [BitVec.ofNat 8 (m.code * 8 + x.num)]

/-- The displacements or the immediate of an operand (R196). -/
def Gen.ext : Gen → List Byte
  | .mode m => m.encode
  | .imm v => v.encode
  | .scaled _ m _ => m.encode

/-- The code of an integer length (R184). -/
def Size.code : Size → Nat
  | .b => 0 | .w => 1 | .d => 3

/-- The code of a floating length (R185). -/
def FSize.code : FSize → Nat
  | .long => 0 | .std => 1

/-- The code of a condition (R215). -/
def Cond.code : Cond → Nat
  | .eq => 0 | .ne => 1 | .cs => 2 | .cc => 3 | .hi => 4 | .ls => 5 | .gt => 6 | .le => 7
  | .fs => 8 | .fc => 9 | .lo => 10 | .hs => 11 | .lt => 12 | .ge => 13 | .always => 14 | .never => 15

/-- The code of a processor register (R217). -/
def AReg.code : AReg → Nat
  | .us => 0 | .fp => 8 | .sp => 9 | .sb => 10 | .psr => 13 | .intbase => 14 | .mod => 15

/-- A Bool as a bit. -/
def bitOf (b : Bool) : Nat := if b then 1 else 0

/-- Bits 3-1 of the short field of a string instruction (R219). -/
def StrOpts.code (o : StrOpts) : Nat :=
  bitOf o.back * 2 + (match o.uw with | .none => 0 | .whileMatch => 4 | .untilMatch => 12)

/-- The extensions of one operand. -/
def ext1 (a : Gen) : List Byte := a.index ++ a.ext

/-- The extensions of two operands, in the order of R183. -/
def ext2 (a b : Gen) : List Byte := a.index ++ b.index ++ a.ext ++ b.ext

/-- Format 0 or 1: op in the high nibble (R201, R202). -/
def enc1 (op low : Nat) : List Byte := littleBytes 1 (op * 16 + low)

/-- Format 2 (R203). -/
def enc2 (op : Nat) (i : Size) (short : Nat) (g : Gen) : List Byte :=
  littleBytes 2 (g.code * 2048 + short * 128 + op * 16 + 12 + i.code) ++ ext1 g

/-- Format 3 (R204). -/
def enc3 (op : Nat) (i : Size) (g : Gen) : List Byte :=
  littleBytes 2 (g.code * 2048 + op * 128 + 124 + i.code) ++ ext1 g

/-- Format 4 (R205). -/
def enc4 (op : Nat) (i : Size) (a b : Gen) : List Byte :=
  littleBytes 2 (a.code * 2048 + b.code * 64 + op * 4 + i.code) ++ ext2 a b

/-- Format 5 (R206): the short field and, above it, bits 23-19. -/
def enc5 (op : Nat) (i : Size) (short : Nat) : List Byte :=
  littleBytes 3 (short * 32768 + op * 1024 + i.code * 256 + 0x0E)

/-- Formats 6 and 7 (R207, R208). -/
def enc67 (id op : Nat) (i : Size) (a b : Gen) : List Byte :=
  littleBytes 3 (a.code * 524288 + b.code * 16384 + op * 1024 + i.code * 256 + id) ++ ext2 a b

/-- Format 8 (R209): op is bits 10, 7, 6. -/
def enc8 (op : Nat) (i : Size) (r : Nat) (a b : Gen) : List Byte :=
  littleBytes 3 (a.code * 524288 + b.code * 16384 + r * 2048 + op / 4 * 1024 + i.code * 256 + op % 4 * 64 + 0x2E)
    ++ ext2 a b

/-- The bits of a BB instruction's short field (R206). -/
def BBOpts.code (o : BBOpts) (x : Nat) : Nat := bitOf o.da * 4 + x * 2 + bitOf o.negS

/-- The operation word of formats 9, 11 and 12 (R210-R212), the two gen codes first. -/
def opWord9 (op f i g1 g2 : Nat) : Nat := g1 * 2048 + g2 * 64 + op * 8 + f * 4 + i
def opWord11 (op f g1 g2 : Nat) : Nat := g1 * 2048 + g2 * 64 + op * 4 + f

/-- A slave instruction: the ID byte and the operation word (R210). -/
def encSlave (id w : Nat) : List Byte := littleBytes 3 (w * 256 + id)

/-- Format 9 with two operands. -/
def enc9 (op f i : Nat) (a b : Gen) : List Byte := encSlave 0x3E (opWord9 op f i a.code b.code) ++ ext2 a b

/-- Format 11 with two operands. -/
def enc11 (op : Nat) (f : FSize) (a b : Gen) : List Byte :=
  encSlave 0xBE (opWord11 op f.code a.code b.code) ++ ext2 a b

/-- Format 12 with two operands. -/
def enc12 (op : Nat) (f : FSize) (a b : Gen) : List Byte :=
  encSlave 0xFE (opWord11 op f.code a.code b.code) ++ ext2 a b

/-- The short field of SETCFG with the DE bit above it (R218, D3). -/
def CfgOpts.code (o : CfgOpts) (deBit : Nat) : Nat :=
  bitOf o.i + bitOf o.f * 2 + bitOf o.m * 4 + bitOf o.c * 8 + bitOf o.de * 2 ^ (deBit - 15)

/-- The bytes of an instruction (R201-R212), under the open codes of format 5. -/
def encodeWith (c : Codes) : Instr → List Byte
  | .beq d => enc1 0 10 ++ d.encode
  | .bne d => enc1 1 10 ++ d.encode
  | .bcs d => enc1 2 10 ++ d.encode
  | .bcc d => enc1 3 10 ++ d.encode
  | .bhi d => enc1 4 10 ++ d.encode
  | .bls d => enc1 5 10 ++ d.encode
  | .bgt d => enc1 6 10 ++ d.encode
  | .ble d => enc1 7 10 ++ d.encode
  | .bfs d => enc1 8 10 ++ d.encode
  | .bfc d => enc1 9 10 ++ d.encode
  | .blo d => enc1 10 10 ++ d.encode
  | .bhs d => enc1 11 10 ++ d.encode
  | .blt d => enc1 12 10 ++ d.encode
  | .bge d => enc1 13 10 ++ d.encode
  | .br d => enc1 14 10 ++ d.encode
  | .bnever d => enc1 15 10 ++ d.encode
  | .bsr d => enc1 0 2 ++ d.encode
  | .ret d => enc1 1 2 ++ d.encode
  | .cxp d => enc1 2 2 ++ d.encode
  | .rxp d => enc1 3 2 ++ d.encode
  | .rett d => enc1 4 2 ++ d.encode
  | .reti => enc1 5 2
  | .save l => enc1 6 2 ++ [l]
  | .restore l => enc1 7 2 ++ [l]
  | .enter l d => enc1 8 2 ++ [l] ++ d.encode
  | .exit l => enc1 9 2 ++ [l]
  | .nop => enc1 10 2
  | .wait => enc1 11 2
  | .dia => enc1 12 2
  | .flag => enc1 13 2
  | .svc => enc1 14 2
  | .bpt => enc1 15 2
  | .addqi i q g => enc2 0 i q.toNat g
  | .cmpqi i q g => enc2 1 i q.toNat g
  | .spri i a g => enc2 2 i a.code g
  | .scondi i k g => enc2 3 i k.code g
  | .acbi i q g d => enc2 4 i q.toNat g ++ d.encode
  | .movqi i q g => enc2 5 i q.toNat g
  | .lpri i a g => enc2 6 i a.code g
  | .cxpd g => enc3 0 .d g
  | .bicpsri i g => enc3 2 i g
  | .jump g => enc3 4 .d g
  | .bispsri i g => enc3 6 i g
  | .adjspi i g => enc3 10 i g
  | .jsr g => enc3 12 .d g
  | .casei i g => enc3 14 i g
  | .addi i a b => enc4 0 i a b
  | .cmpi i a b => enc4 1 i a b
  | .bici i a b => enc4 2 i a b
  | .addci i a b => enc4 4 i a b
  | .movi i a b => enc4 5 i a b
  | .ori i a b => enc4 6 i a b
  | .subi i a b => enc4 8 i a b
  | .addr a b => enc4 9 .d a b
  | .andi i a b => enc4 10 i a b
  | .subci i a b => enc4 12 i a b
  | .tbiti i a b => enc4 13 i a b
  | .xori i a b => enc4 14 i a b
  | .movsi i o => enc5 0 i o.code
  | .movst o => enc5 0 .b (o.code + 1)
  | .cmpsi i o => enc5 1 i o.code
  | .cmpst o => enc5 1 .b (o.code + 1)
  | .skpsi i o => enc5 3 i o.code
  | .skpst o => enc5 3 .b (o.code + 1)
  | .setcfg o => enc5 2 .d (o.code c.deBit)
  | .bband o => enc5 c.bband .d (o.code 1)
  | .bbor o => enc5 c.bbor .w (o.code 0)
  | .bbxor o => enc5 c.bbxor .w (o.code 0)
  | .bbstod o => enc5 c.bbstod .w (o.code 0)
  | .bbfor => enc5 c.bbfor .w 0
  | .bitwt => enc5 c.bitwt .w 0
  | .extblt => enc5 c.extblt .d 0
  | .sbits => enc5 c.sbits .d 0
  | .sbitps => enc5 c.sbitps .d 0
  | .movmpi i => enc5 c.movmp i 0
  | .tbits o => enc5 c.tbits .d (bitOf o)
  | .roti i a b => enc67 0x4E 0 i a b
  | .ashi i a b => enc67 0x4E 1 i a b
  | .cbiti i a b => enc67 0x4E 2 i a b
  | .cbitii i a b => enc67 0x4E 3 i a b
  | .lshi i a b => enc67 0x4E 5 i a b
  | .sbiti i a b => enc67 0x4E 6 i a b
  | .sbitii i a b => enc67 0x4E 7 i a b
  | .negi i a b => enc67 0x4E 8 i a b
  | .noti i a b => enc67 0x4E 9 i a b
  | .subpi i a b => enc67 0x4E 11 i a b
  | .absi i a b => enc67 0x4E 12 i a b
  | .comi i a b => enc67 0x4E 13 i a b
  | .ibiti i a b => enc67 0x4E 14 i a b
  | .addpi i a b => enc67 0x4E 15 i a b
  | .movmi i a b d => enc67 0xCE 0 i a b ++ d.encode
  | .cmpmi i a b d => enc67 0xCE 1 i a b ++ d.encode
  | .inssi i a b v => enc67 0xCE 2 i a b ++ [v]
  | .extsi i a b v => enc67 0xCE 3 i a b ++ [v]
  | .movxbw a b => enc67 0xCE 4 .b a b
  | .movzbw a b => enc67 0xCE 5 .b a b
  | .movzid i a b => enc67 0xCE 6 i a b
  | .movxid i a b => enc67 0xCE 7 i a b
  | .muli i a b => enc67 0xCE 8 i a b
  | .meii i a b => enc67 0xCE 9 i a b
  | .deii i a b => enc67 0xCE 11 i a b
  | .quoi i a b => enc67 0xCE 12 i a b
  | .remi i a b => enc67 0xCE 13 i a b
  | .modi i a b => enc67 0xCE 14 i a b
  | .divi i a b => enc67 0xCE 15 i a b
  | .exti i r a b d => enc8 0 i r.num a b ++ d.encode
  | .cvtp r a b => enc8 1 .d r.num a b
  | .insi i r a b d => enc8 2 i r.num a b ++ d.encode
  | .checki i r a b => enc8 3 i r.num a b
  | .indexi i r a b => enc8 4 i r.num a b
  | .ffsi i a b => enc8 5 i 0 a b
  | .movif f i a b => enc9 0 f.code i.code a b
  | .lfsr x a => encSlave 0x3E (opWord9 1 x.f.toNat x.i.toNat a.code 0) ++ ext1 a
  | .movlf x a b => enc9 2 x.f.toNat x.i.toNat a b
  | .movfl x a b => enc9 3 x.f.toNat x.i.toNat a b
  | .roundfi f i a b => enc9 4 f.code i.code a b
  | .truncfi f i a b => enc9 5 f.code i.code a b
  | .sfsr x b => encSlave 0x3E (opWord9 6 x.f.toNat x.i.toNat 0 b.code) ++ ext1 b
  | .floorfi f i a b => enc9 7 f.code i.code a b
  | .addf f a b => enc11 0 f a b
  | .movf f a b => enc11 1 f a b
  | .cmpf f a b => enc11 2 f a b
  | .subf f a b => enc11 4 f a b
  | .negf f a b => enc11 5 f a b
  | .divf f a b => enc11 8 f a b
  | .mulf f a b => enc11 12 f a b
  | .absf f a b => enc11 13 f a b
  | .polyf f a b => enc12 2 f a b
  | .dotf f a b => enc12 3 f a b
  | .scalbf f a b => enc12 4 f a b
  | .logbf f a b => enc12 5 f a b

/-- The bytes of an instruction under the default codes. -/
def encode (i : Instr) : List Byte := encodeWith Codes.standard i

/-- The total length of an instruction in bytes (R182); the open codes do not change it. -/
def instrLength (i : Instr) : Nat := (encode i).length

/-- The longest instruction (R182). -/
def maxLength : Nat := 25

/-- The bytes of an instruction whose table bits are w, zeros above them up to the longest instruction. -/
def tableBytes (nbits w : Nat) : List Byte :=
  littleBytes (nbits / 8) w ++ List.replicate (maxLength - nbits / 8) 0

/-- The instruction the decoder reads from an instruction whose bits are w, numbered as spec/opcode_table.json
numbers them. -/
def decodeTableWord (nbits w : Nat) : Option Instr :=
  match decode (tableBytes nbits w) with
  | .ok i _ => some i
  | .bad _ => none

end Sys2Proof
end

