-- ==== Sys2Proof/Machine/State.lean ====
section
/-! DEFINITION. The machine's state as plain data, its reasons to stop, and the state after reset. Every piece of
state that spec/10_state.md names has its field; INVENTORY.md lists them with their rules. -/

namespace Sys2Proof.Machine

open Sys2Proof

/-- The general registers R0-R7 (R31). -/
structure Regs where
  r0 : Word
  r1 : Word
  r2 : Word
  r3 : Word
  r4 : Word
  r5 : Word
  r6 : Word
  r7 : Word
deriving DecidableEq, Repr, Inhabited

/-- The thirteen named bits of the PSR (R45-R57). -/
structure Psr where
  c : Bool
  t : Bool
  l : Bool
  k : Bool
  j : Bool
  f : Bool
  z : Bool
  n : Bool
  u : Bool
  s : Bool
  p : Bool
  i : Bool
  b : Bool
deriving DecidableEq, Repr, Inhabited

/-- The five implemented bits of CFG (R62-R67). -/
structure Cfg where
  i  : Bool
  f  : Bool
  m  : Bool
  c  : Bool
  de : Bool
deriving DecidableEq, Repr, Inhabited

/-- The operating states between two steps (R600): Reset, Executing-Instructions, Waiting-For-An-Interrupt. An
exception is processed within one step. `waitingForSlave` is the CPU polling a slave that is absent, the
bus status 0011 of R144 (log 13). -/
inductive OpState where
  | reset | executing | waiting | waitingForSlave
deriving DecidableEq, Repr, Inhabited

/-- External memory: (address, byte) pairs, addresses strictly rising, no byte equal to `Config.blankByte`. -/
structure Memory where
  cells : List Host.Cell
deriving DecidableEq, Repr, Inhabited

/-- The BPU registers' named fields (R69-R75) and its three latches with whether each was ever loaded (R682). -/
structure Bpu where
  bis  : Bool
  sn   : BitVec 4
  rm   : BitVec 4
  lm   : BitVec 4
  fs   : BitVec 4
  brme : Bool
  blme : Bool
  erme : Bool
  elme : Bool
  ebpu : Bool
  sprd : Bool
  wcnt : Byte
  sdil : Option Half
  bil  : Option Half
  ddil : Option Half
deriving DecidableEq, Repr, Inhabited

/-- The two DMA channels. -/
inductive Chan where
  | ch0 | ch1
deriving DecidableEq, Repr, Inhabited

/-- One DMA channel: its six registers' named fields (R83-R88), its sticky bits of STAT (R79), and its mask bits and
its DIP bit of IMSK (R81, D10). `bwWord` is MODE.BW = 01; `adrSet`, the model's own, is whether ADR has been written since
reset, which gives it no value (R77, log 55). -/
structure DmaChan where
  adc     : Word
  adr     : Word
  adrSet  : Bool
  bltc    : Word
  bltr    : Word
  blt     : BitVec 5
  ad      : Bool
  bwWord  : Bool
  dir     : Bool
  ot      : Bool
  vld     : Bool
  chen    : Bool
  tc      : Bool
  eot     : Bool
  ovr     : Bool
  mTc     : Bool
  mEot    : Bool
  mOvr    : Bool
  dip     : Bool
deriving DecidableEq, Repr, Inhabited

/-- The DMA controller. -/
structure Dma where
  ch0 : DmaChan
  ch1 : DmaChan
deriving DecidableEq, Repr, Inhabited

/-- The legal values of TCNTL.TMC (R730). -/
inductive TimerMode where
  | idle | mode1 | mode2 | mode3
deriving DecidableEq, Repr, Inhabited

/-- The three timers. -/
inductive TimerId where
  | t0 | t1 | t2
deriving DecidableEq, Repr, Inhabited

/-- One timer: TC, TRCA, TRCB, the stored fields of TCNTL (R93-R95), the alternation bit (`nextB`: the next
underflow reloads from TRCB) and the level of the TXA pin (R732). -/
structure Timer where
  tc    : Half
  trca  : Half
  trcb  : Half
  prc   : Bool
  tmc   : TimerMode
  tcs   : Bool
  ipfa  : Bool
  iena  : Bool
  ipfb  : Bool
  ienb  : Bool
  nextB : Bool
  txa   : Bool
deriving DecidableEq, Repr, Inhabited

/-- Whether a range of external addresses may be written (D4). -/
inductive RegionKind where
  | ram | rom
deriving DecidableEq, Repr, Inhabited

/-- A range of external memory (EXTERNAL_MEMORY, D4). -/
structure Region where
  base : Nat
  size : Nat
  kind : RegionKind
deriving DecidableEq, Repr, Inhabited

/-- The addresses of one channel's six registers (DMA_REG_ADDR, R78, D5). -/
structure ChanAddrs where
  adc  : Word
  adr  : Word
  bltc : Word
  bltr : Word
  mode : Word
  cntl : Word
deriving DecidableEq, Repr, Inhabited

/-- The addresses of one timer's four registers (TIMER_REG_ADDR, R92, D5). -/
structure TimerAddrs where
  tc    : Word
  trca  : Word
  trcb  : Word
  tcntl : Word
deriving DecidableEq, Repr, Inhabited

/-- The bit positions of one channel's four items in STAT and DSTAT (`last` is CHAC) or in IMSK (`last` is DIP). -/
structure ChanBits where
  tc   : Nat
  eot  : Nat
  ovr  : Nat
  last : Nat
deriving DecidableEq, Repr, Inhabited

/-- DMA_STAT_LAYOUT or DMA_IMSK_LAYOUT (R80, R81, D10). -/
structure DmaLayout where
  ch0 : ChanBits
  ch1 : ChanBits
deriving DecidableEq, Repr, Inhabited

/-- MOVMP_FINAL_R0 (D17). -/
inductive MovmpFinal where
  | next | last
deriving DecidableEq, Repr, Inhabited

/-- SBITS_TABLE_INDEX (D29): which entry of the SBITS table belongs to a start bit and a run length. -/
inductive SbitsIndex where
  | offsetMajor | lengthMajor
deriving DecidableEq, Repr, Inhabited

/-- The open parameters of R8 that the spec leaves to the platform or to the implementer (D1, D3, D4, D5, D10, D17,
D29). They are held as data of the state, which no step changes, so that a claim holds for every platform (log 8). -/
structure Platform where
  regions    : List Region
  hasFpu     : Bool
  imsk       : Word
  dstat      : Word
  dma0       : ChanAddrs
  dma1       : ChanAddrs
  timer0     : TimerAddrs
  timer1     : TimerAddrs
  timer2     : TimerAddrs
  statBits   : DmaLayout
  imskBits   : DmaLayout
  movmpFinal : MovmpFinal
  sbitsIndex : SbitsIndex
  codes      : Codes
deriving DecidableEq, Repr, Inhabited

/-- The events of the environment (R14, R680, R716, D11, D27). `drq` is one DMA request with the value the
implied device would supply and whether EOT is asserted in the cycle; `busWrite` is an external bus master's
write of one byte; `together` is bus requests asserted at once: HOLD's writes and at most one request of each channel;
`tick` is one Tclk. `passPoint` changes nothing: it says that the interruptible point it arrives at accepts no
interrupt (INTERRUPT_POINTS, D16). -/
inductive Event where
  | nmiEdge
  | irPins (v : BitVec 4)
  | tick (t : TimerId)
  | txaRise (t : TimerId)
  | txbRise (t : TimerId)
  | drq (ch : Chan) (supply : Half) (eot : Bool)
  | busWrite (a : BitVec 24) (v : Byte)
  | together (hold : List (BitVec 24 × Byte)) (drq0 drq1 : Option (Half × Bool))
  | passPoint
  | rstiLow
  | rstiHigh
deriving DecidableEq, Repr, Inhabited

/-- What the environment does during one step: the events that arrive before the step's checks, and those that
arrive inside it, one list for each data bus cycle of the CPU, before the cycle, and for each interruptible point, in
the order the instruction or the exception sequence comes to them (R150, R710, D9, D11, D16). -/
structure StepInput where
  before : List Event
  within : List (List Event)
deriving DecidableEq, Repr, Inhabited

/-- One item a DMA channel delivered to its implied device (`accept`, R702, R716). -/
structure DmaItem where
  ch   : Chan
  word : Bool
  v    : Half
deriving DecidableEq, Repr, Inhabited

/-- The slave processor as the CPU knows it: the FPU's state, the replies an environment has laid down for the
next protocols (each used once; when none is left `Config.fpuExec` answers), and the last request sent. -/
structure Fpu where
  st      : FpuState
  replies : List FpuReply
  last    : Option FpuRequest
deriving DecidableEq, Repr, Inhabited

/-- The whole machine. The last eight fields are the model's own: `dirty` is the instruction queue's memory of
stores (R162, log 6), `written` the bytes the present instruction or exception entry has stored (U26, log 35; empty
between two of them), `plat` the open parameters, `inputs` and `within` the environment's events to come, `dmaOut`
what the implied devices received, `psrTouched` whether anything but reset has written the PSR (R59, log 14), and
`freeCount` the place in the stream of free values (log 5). -/
structure State where
  regs       : Regs
  pc         : Word
  sp0        : Word
  sp1        : Word
  fp         : Word
  sb         : Word
  intbase    : Word
  mod        : Half
  psr        : Psr
  cfg        : Cfg
  op         : OpState
  mem        : Memory
  bpu        : Bpu
  dma        : Dma
  isrv       : Half
  irPins     : BitVec 4
  timer0     : Timer
  timer1     : Timer
  timer2     : Timer
  nmiLatch   : Bool
  fpu        : Fpu
  dirty      : List Nat
  written    : List Nat
  plat       : Platform
  inputs     : List StepInput
  within     : List (List Event)
  dmaOut     : List DmaItem
  psrTouched : Bool
  freeCount  : Nat
deriving DecidableEq, Repr, Inhabited

/-- The traps an instruction raises (R611-R618); Trap (TRC) is taken between instructions (R651). -/
inductive Trap where
  | slave | ill | svc | dvz | flg | bpt | und
deriving DecidableEq, Repr

/-- Why the machine stops at an address. All are stops the spec itself asks for (D4, D8): safe. -/
inductive Fault where
  /-- Raised by the fetch: the byte was written after the last purge of the instruction queue, so it "has no defined
  result" (R162, D8). Safe. -/
  | staleFetch
  /-- Raised by any access, fetch included, to 0x01000000-0xFF7FFFFF, which "should not be used" (R131, D4). Safe. -/
  | unavailableAddress
  /-- Raised by any access to the top 8 Mbytes that is no register of R132 (R131, R779, D4). Safe. -/
  | reservedAddress
  /-- Raised by any access to an external address where the platform has no memory (R131, D4). Safe. -/
  | noExternalMemory
  /-- Raised by a write to a platform region that is ROM (D4). Safe. -/
  | romWrite
deriving DecidableEq, Repr

/-- What is wrong with a malformed encoding of a defined instruction (R232-R234). -/
inductive Flaw where
  | sizeField | constantBits | options | reservedGen | indexBase | fpuOpcode
deriving DecidableEq, Repr

/-- Why an instruction has no meaning. All but the first are behaviours the spec calls undefined, unpredictable or
not described, and for which it asks the model to refuse: safe. -/
inductive Refusal where
  /-- Raised by an arm of `exec` whose instruction has no meaning yet. No arm uses it. Safe. -/
  | notModelled (mnemonic : String)
  /-- Raised by the decoder's caller: an encoding that names a defined operation with an impossible field (R232,
  R233, R234, D7). Safe. -/
  | encoding (why : Flaw)
  /-- Raised by the operand operations: Immediate for an operand that is written or addressed, Register for an
  operand of class addr (R233, R251, D20). Safe. -/
  | illegalOperand
  /-- Raised by a register pair that starts at an odd register (R256, "unpredictable"). Safe. -/
  | oddPair
  /-- Raised by an access to an on-chip register with another width, or to a part of it (R69, R77, R89, R92, R773,
  D15). Safe. -/
  | registerAccess
  /-- Raised by a write to IVCT, which is read-only and whose write is "not described" (R90). Safe. -/
  | ivctWrite
  /-- Raised by a DMA programming error of R774 (a)-(d). Safe. -/
  | dmaProgramming
  /-- Raised by a write of another value than 000, 001, 010, 100 to TCNTL.TMC (R730, U5). Safe. -/
  | timerMode
  /-- Raised by MOVMi and CMPMi with a block length outside R303, R342 (D20). Safe. -/
  | blockLength
  /-- Raised by the bit-field instructions with a length or an offset outside R390-R394 (D31). Safe. -/
  | fieldRange
  /-- Raised by the BB instructions and BITWT with R2 outside 0..15 (R554, R559). Safe. -/
  | shiftRange
  /-- Raised by EXTBLT with registers that do not match the BPU's setting (R564, R778). Safe. -/
  | extbltSetup
deriving DecidableEq, Repr

/-- The general registers after reset: zero (log 1, DESIGN CHOICE; R33 gives none). -/
def Regs.zero : Regs := ⟨0, 0, 0, 0, 0, 0, 0, 0⟩

/-- "The PSR is reset to 0" (R61). -/
def Psr.zero : Psr :=
  ⟨false, false, false, false, false, false, false, false, false, false, false, false, false⟩

/-- The BPU after reset: BCNTL 0 (R74), the other registers zero (log 1), the latches never loaded (R682). -/
def Bpu.reset : Bpu :=
  { bis := false, sn := 0, rm := 0, lm := 0, fs := 0, brme := false, blme := false, erme := false, elme := false,
    ebpu := false, sprd := false, wcnt := 0, sdil := none, bil := none, ddil := none }

/-- A DMA channel after reset: BLTC, BLTR, MODE, CNTL, its STAT and IMSK bits 0 (R77), ADC and ADR zero (log 1). -/
def DmaChan.reset : DmaChan :=
  { adc := 0, adr := 0, adrSet := false, bltc := 0, bltr := 0, blt := 0, ad := false, bwWord := false, dir := false, ot := false,
    vld := false, chen := false, tc := false, eot := false, ovr := false, mTc := false, mEot := false,
    mOvr := false, dip := false }

/-- The DMA controller after reset (R77). -/
def Dma.reset : Dma := { ch0 := DmaChan.reset, ch1 := DmaChan.reset }

/-- A timer after reset: idle (R737, D6), its other fields zero (log 1). -/
def Timer.reset : Timer :=
  { tc := 0, trca := 0, trcb := 0, prc := false, tmc := .idle, tcs := false, ipfa := false, iena := false,
    ipfb := false, ienb := false, nextB := false, txa := false }

/-- The registers F0-F7 and FSR of the external FPU: zero (log 12, DESIGN CHOICE). -/
def Fpu.reset : Fpu :=
  { st := { regs := ⟨0, 0, 0, 0, 0, 0, 0, 0⟩, fsr := 0 }, replies := [], last := none }

/-- The platform the model starts from: RAM everywhere, no FPU, the default parameters of the table in
spec/92_eei_decisions.md, and register addresses the model chose where D5 gives only constraints (log 8, log 9). -/
def Platform.standard : Platform :=
  { regions := [{ base := 0, size := Config.externalEnd, kind := .ram }],
    hasFpu := false,
    imsk := 0xFFFFF014, dstat := 0xFFFFF018,
    dma0 := ⟨0xFFFFF020, 0xFFFFF024, 0xFFFFF028, 0xFFFFF02C, 0xFFFFF030, 0xFFFFF034⟩,
    dma1 := ⟨0xFFFFF040, 0xFFFFF044, 0xFFFFF048, 0xFFFFF04C, 0xFFFFF050, 0xFFFFF054⟩,
    timer0 := ⟨0xFFFFF100, 0xFFFFF104, 0xFFFFF108, 0xFFFFF10C⟩,
    timer1 := ⟨0xFFFFF110, 0xFFFFF114, 0xFFFFF118, 0xFFFFF11C⟩,
    timer2 := ⟨0xFFFFF120, 0xFFFFF124, 0xFFFFF128, 0xFFFFF12C⟩,
    statBits := ⟨⟨0, 1, 2, 3⟩, ⟨4, 5, 6, 7⟩⟩, imskBits := ⟨⟨0, 1, 2, 3⟩, ⟨4, 5, 6, 7⟩⟩,
    movmpFinal := .next, sbitsIndex := .offsetMajor, codes := Codes.standard }

/-- The machine right after reset, RSTI high again (R99, R760, R762): the values the spec states, and for the
registers R99 lists as unspecified the values of log 1 and log 2. -/
def State.reset : State :=
  { regs := Regs.zero, pc := 0, sp0 := 0x8000, sp1 := 0x7000, fp := 0, sb := 0, intbase := 0, mod := 0,
    psr := Psr.zero,
    cfg := { i := false, f := false, m := false, c := false, de := false },
    op := .executing,
    mem := { cells := [] },
    bpu := Bpu.reset, dma := Dma.reset, isrv := 0, irPins := 0b1111,
    timer0 := Timer.reset, timer1 := Timer.reset, timer2 := Timer.reset,
    nmiLatch := false, fpu := Fpu.reset, dirty := [], written := [],
    plat := Platform.standard, inputs := [], within := [], dmaOut := [],
    psrTouched := false, freeCount := 0 }

end Sys2Proof.Machine
end

