-- ==== Sys2Proof/Machine/Memory.lean ====
section
/-! DEFINITION. External memory as a sorted list of cells, bytes and little-endian numbers, and the addresses written
since the last purge of the instruction queue (spec/20_memory.md R135-R137, R162). -/

namespace Sys2Proof.Machine

open Sys2Proof

/-- The byte at an address of a list of cells; `Config.blankByte` where nothing is listed (log 3). -/
def cellRead : List Host.Cell → Nat → Byte
  | [], _ => Config.blankByte
  | (b, v) :: t, a => if a = b then v else cellRead t a

/-- Put a byte at an address, keeping the canonical form. -/
def cellWrite : List Host.Cell → Nat → Byte → List Host.Cell
  | [], a, v => if v = Config.blankByte then [] else [(a, v)]
  | (b, w) :: t, a, v =>
    if a < b then
      if v = Config.blankByte then (b, w) :: t else (a, v) :: (b, w) :: t
    else if a = b then
      if v = Config.blankByte then t else (a, v) :: t
    else (b, w) :: cellWrite t a v

/-- Read one byte of memory. -/
def Memory.read (m : Memory) (a : Nat) : Byte := cellRead m.cells a

/-- Write one byte of memory. -/
def Memory.write (m : Memory) (a : Nat) (v : Byte) : Memory := { cells := cellWrite m.cells a v }

/-- The canonical form: addresses strictly rising, no entry equal to what an unlisted address reads as. -/
abbrev Memory.wf (m : Memory) : Prop :=
  m.cells.Pairwise (fun x y => x.1 < y.1) ∧ ∀ c ∈ m.cells, c.2 ≠ Config.blankByte

/-- Write a byte at each of a list of addresses. -/
def Memory.writeAll (m : Memory) : List (Nat × Byte) → Memory
  | [] => m
  | (a, v) :: t => (m.write a v).writeAll t

/-- Insert an address into a strictly rising list. -/
def insertAddr : List Nat → Nat → List Nat
  | [], a => [a]
  | b :: t, a => if a < b then a :: b :: t else if a = b then b :: t else b :: insertAddr t a

/-- Record the addresses of a store in the instruction queue's list (R162). -/
def insertAll (d : List Nat) : List Nat → List Nat
  | [] => d
  | a :: t => insertAll (insertAddr d a) t

/-- The n byte addresses from `a`, modulo 2^32 (R137). -/
def byteAddrs (a : Word) : Nat → List Word
  | 0 => []
  | n + 1 => a :: byteAddrs (a + 1) n

/-- A little-endian number from its bytes (R135). -/
def leNat : List Byte → Nat
  | [] => 0
  | b :: t => b.toNat + 256 * leNat t

/-- The n bytes of a number, least significant first (R135). -/
def leBytes : Nat → Nat → List Byte
  | 0, _ => []
  | n + 1, v => BitVec.ofNat 8 v :: leBytes n (v / 256)

end Sys2Proof.Machine
end

