-- ==== Sys2Proof/Machine/Monad.lean ====
section
/-! DEFINITION. The shape of a meaning: a computation over the state that may stop with a trap, a fault or a refusal. -/

namespace Sys2Proof.Machine

open Sys2Proof

/-- What RSTI low cuts short: an instruction, or an exception sequence, which has no result operands (R602, R760). -/
inductive Activity where
  | instruction | entry
deriving DecidableEq, Repr

/-- Why a computation stops: a trap with the state it leaves (R620 undoes what it must), RSTI low between two bus cycles
with the events that follow it there, what it cuts and the state it finds (R760), a fault or a refusal. -/
inductive Stop where
  | trap (t : Trap) (s : State)
  | cut (post : List Event) (during : Activity) (s : State)
  | fault (f : Fault)
  | refuse (r : Refusal)
deriving DecidableEq, Repr

/-- A computation over the machine. -/
abbrev M (α : Type) := StateT State (Except Stop) α

/-- Read a part of the state. -/
def peek {α : Type} (f : State → α) : M α := fun s => .ok (f s, s)

/-- Change the state. -/
def upd (f : State → State) : M Unit := fun s => .ok ((), f s)

/-- Raise a trap (R620). -/
def raise {α : Type} (t : Trap) : M α := fun s => .error (.trap t s)

/-- RSTI goes low between two bus cycles, with these events after it (R760). -/
def cutShort {α : Type} (post : List Event) : M α := fun s => .error (.cut post .instruction s)

/-- An exception sequence: what it stores is no result operand of an instruction, so it leaves `written` as it was, and
RSTI low inside it finds nothing due (R602, R760, log 35). -/
def asEntry {α : Type} (m : M α) : M α := fun s =>
  match m s with
  | .ok (a, t) => .ok (a, { t with written := s.written })
  | .error (.cut post _ t) => .error (.cut post .entry t)
  | .error e => .error e

/-- Stop with a fault. -/
def stopFault {α : Type} (f : Fault) : M α := fun _ => .error (.fault f)

/-- Stop with a refusal. -/
def refuse {α : Type} (r : Refusal) : M α := fun _ => .error (.refuse r)

/-- Refuse unless a condition holds. -/
def require (r : Refusal) (p : Bool) : M Unit := if p then pure () else refuse r

/-- Do `m` only if a condition holds. -/
def onlyIf (p : Bool) (m : M Unit) : M Unit := if p then m else pure ()

/-- A free value of up to 32 bits: the next one of the stream no rule fixes (log 5). -/
def fresh (n : Nat) : M (BitVec n) := fun s =>
  .ok ((Config.freeWord s.freeCount).setWidth n, { s with freeCount := s.freeCount + 1 })

/-- A value whose bits in `mask` are free and whose other bits are those of `v` (D14). -/
def withFree {n : Nat} (mask v : BitVec n) : M (BitVec n) := do
  let x ← fresh n
  pure ((x &&& mask) ||| (v &&& ~~~mask))

end Sys2Proof.Machine
end

