-- ==== Sys2Proof/Machine/Peripherals.lean ====
section
/-! DEFINITION. The on-chip registers as software reads and writes them (spec/10_state.md R69-R95), the interrupt
control unit's level and request (spec/60_exceptions.md R661-R663), and the settling of the DMA enables (R88). -/

namespace Sys2Proof.Machine

open Sys2Proof

/-- The six registers of a DMA channel (R77). -/
inductive ChanReg where
  | adc | adr | bltc | bltr | mode | cntl
deriving DecidableEq, Repr

/-- The four registers of a timer (R92). -/
inductive TimerReg where
  | tc | trca | trcb | tcntl
deriving DecidableEq, Repr

/-- The 35 on-chip peripheral registers (R30). -/
inductive PReg where
  | bbsc | brm | blm | bfs | bcntl | bc
  | stat | imsk | dstat
  | chan (ch : Chan) (r : ChanReg)
  | ivct | isrv
  | timer (t : TimerId) (r : TimerReg)
deriving DecidableEq, Repr

/-- The width of a register in bytes (R132). -/
def PReg.width : PReg → Nat
  | .bbsc | .brm | .blm | .bfs | .bcntl | .bc | .ivct => 1
  | .isrv | .timer _ _ => 2
  | .stat | .imsk | .dstat | .chan _ _ => 4

/-- The registers of one channel with their addresses. -/
def ChanAddrs.table (a : ChanAddrs) (ch : Chan) : List (Word × PReg) :=
  [(a.adc, .chan ch .adc), (a.adr, .chan ch .adr), (a.bltc, .chan ch .bltc), (a.bltr, .chan ch .bltr),
   (a.mode, .chan ch .mode), (a.cntl, .chan ch .cntl)]

/-- The registers of one timer with their addresses. -/
def TimerAddrs.table (a : TimerAddrs) (t : TimerId) : List (Word × PReg) :=
  [(a.tc, .timer t .tc), (a.trca, .timer t .trca), (a.trcb, .timer t .trcb), (a.tcntl, .timer t .tcntl)]

/-- The registers whose addresses the spec fixes (R132). -/
def fixedTable : List (Word × PReg) :=
  [(Config.bbscAddr, .bbsc), (Config.brmAddr, .brm), (Config.blmAddr, .blm), (Config.bfsAddr, .bfs),
   (Config.bcntlAddr, .bcntl), (Config.bcAddr, .bc), (Config.statAddr, .stat), (Config.ivctAddr, .ivct),
   (Config.isrvAddr, .isrv)]

/-- Every on-chip register with its address (R132, D5). -/
def Platform.table (p : Platform) : List (Word × PReg) :=
  fixedTable ++ [(p.imsk, .imsk), (p.dstat, .dstat)]
    ++ p.dma0.table .ch0 ++ p.dma1.table .ch1
    ++ p.timer0.table .t0 ++ p.timer1.table .t1 ++ p.timer2.table .t2

/-- The sticky positions of a channel (R80). -/
def ChanBits.sticky (l : ChanBits) : List Nat := [l.tc, l.eot, l.ovr]

/-- A layout of STAT: eight positions of a double-word, all different (R79, R80). -/
def DmaLayout.statWf (l : DmaLayout) : Bool :=
  let ps := l.ch0.sticky ++ l.ch1.sticky ++ [l.ch0.last, l.ch1.last]
  decide (ps.Pairwise (· ≠ ·)) && ps.all (· < 32)

/-- A layout of IMSK: the six mask bits are bits 0-2 and 4-6, DIP is none of them; both channels may share one DIP bit
(R81, D10). -/
def DmaLayout.imskWf (l : DmaLayout) : Bool :=
  let ps := l.ch0.sticky ++ l.ch1.sticky
  let masks := [0, 1, 2, 4, 5, 6]
  decide (ps.Pairwise (· ≠ ·)) && ps.all masks.contains
    && [l.ch0.last, l.ch1.last].all (fun k => decide (k < 32) && !masks.contains k)

/-- The constraints of D4, D5, R81 and R206 on the parameters: register addresses distinct, in the top 8 Mbytes, each
aligned to its width, every memory region inside the external addresses, the layouts and the codes usable. -/
def Platform.wf (p : Platform) : Bool :=
  decide ((p.table.map (·.1)).Pairwise (· ≠ ·))
    && p.table.all (fun e => decide (Config.topBlock ≤ e.1.toNat) && e.1.toNat % e.2.width == 0)
    && p.regions.all (fun r => decide (r.base + r.size ≤ Config.externalEnd))
    && p.statBits.statWf && p.imskBits.imskWf && p.codes.wf

/-- The register at exactly an address of the top block (R131). -/
def Platform.regAt (p : Platform) (a : Word) : Option PReg :=
  if a.toNat < Config.topBlock then none else (p.table.find? (fun e => e.1 == a)).map (·.2)

/-- Whether a byte address lies in an on-chip register. -/
def Platform.ownsByte (p : Platform) (a : Word) : Bool :=
  p.table.any (fun e => decide ((a - e.1).toNat < e.2.width))

/-- The kind of memory at an external address, if any (D4). -/
def Platform.memAt (p : Platform) (a : Nat) : Option RegionKind :=
  (p.regions.find? (fun r => decide (r.base ≤ a) && decide (a < r.base + r.size))).map (·.kind)

/-- A channel. -/
def Dma.chan (d : Dma) : Chan → DmaChan
  | .ch0 => d.ch0 | .ch1 => d.ch1

/-- Replace a channel. -/
def Dma.setChan (d : Dma) : Chan → DmaChan → Dma
  | .ch0, c => { d with ch0 := c }
  | .ch1, c => { d with ch1 := c }

/-- Change a channel of the machine. -/
def State.modChan (s : State) (ch : Chan) (f : DmaChan → DmaChan) : State :=
  { s with dma := s.dma.setChan ch (f (s.dma.chan ch)) }

/-- A timer. -/
def State.timer (s : State) : TimerId → Timer
  | .t0 => s.timer0 | .t1 => s.timer1 | .t2 => s.timer2

/-- Replace a timer. -/
def State.setTimer (s : State) : TimerId → Timer → State
  | .t0, t => { s with timer0 := t }
  | .t1, t => { s with timer1 := t }
  | .t2, t => { s with timer2 := t }

/-- A channel is active while CHEN = 1 and BLTC > 0 (R701). -/
def DmaChan.active (c : DmaChan) : Bool := c.chen && c.bltc != 0

/-- The conditions that force CHEN to 0 (R88): EOT, or an unmasked OVR. -/
def DmaChan.blocked (c : DmaChan) : Bool := c.eot || (c.ovr && c.mOvr)

/-- Force CHEN to 0 while a blocking condition holds (R88, R704, R714). -/
def DmaChan.settle (c : DmaChan) : DmaChan := { c with chen := c.chen && !c.blocked }

/-- A double-word with one bit, if it is 1. -/
def bitAt (k : Nat) (v : Bool) : Word := if v then BitVec.twoPow 32 k else 0

/-- Four items at the positions of a channel. -/
def ChanBits.word (l : ChanBits) (tc eot ovr last : Bool) : Word :=
  bitAt l.tc tc ||| bitAt l.eot eot ||| bitAt l.ovr ovr ||| bitAt l.last last

/-- The positions a layout uses. -/
def DmaLayout.mask (l : DmaLayout) : Word := l.ch0.word true true true true ||| l.ch1.word true true true true

/-- The bits of one channel in STAT: TC, EOT, OVR, CHAC (R79). -/
def DmaChan.stat (c : DmaChan) (l : ChanBits) : Word := l.word c.tc c.eot c.ovr c.active

/-- STAT's implemented bits (R79, R80). -/
def Dma.stat (d : Dma) (l : DmaLayout) : Word := d.ch0.stat l.ch0 ||| d.ch1.stat l.ch1

/-- Clear the sticky bits whose positions are 1 in the value written to STAT (R79). -/
def DmaChan.clearStat (c : DmaChan) (l : ChanBits) (v : Word) : DmaChan :=
  { c with tc := c.tc && !v.getLsbD l.tc, eot := c.eot && !v.getLsbD l.eot, ovr := c.ovr && !v.getLsbD l.ovr }

/-- Store the sticky bits written to DSTAT (R82, R714). -/
def DmaChan.storeStat (c : DmaChan) (l : ChanBits) (v : Word) : DmaChan :=
  { c with tc := v.getLsbD l.tc, eot := v.getLsbD l.eot, ovr := v.getLsbD l.ovr }.settle

/-- Store the mask bits and the DIP bit written to IMSK (R81). -/
def DmaChan.storeMask (c : DmaChan) (l : ChanBits) (v : Word) : DmaChan :=
  { c with mTc := v.getLsbD l.tc, mEot := v.getLsbD l.eot, mOvr := v.getLsbD l.ovr, dip := v.getLsbD l.last }.settle

/-- The bits of one channel in IMSK. -/
def DmaChan.imsk (c : DmaChan) (l : ChanBits) : Word := l.word c.mTc c.mEot c.mOvr c.dip

/-- IMSK's implemented bits (R81). -/
def Dma.imsk (d : Dma) (l : DmaLayout) : Word := d.ch0.imsk l.ch0 ||| d.ch1.imsk l.ch1

/-- MODE as read (R87). -/
def DmaChan.modeBits (c : DmaChan) : Word :=
  (BitVec.ofBoolListLE [c.ot, false, false, c.dir, false, false, false, c.bwWord, false, c.ad]).setWidth 32
    ||| (c.blt.setWidth 32 <<< 10)

/-- The legal values of MODE.BLT (R711). -/
def bltLegal (v : BitVec 5) : Bool :=
  v == 0 || v == 1 || v == 2 || v == 4 || v == 8 || v == 16

/-- Whether a value may be written to MODE: reserved bits 0, BW 00 or 01, BLT of Table 3-4 (R774 d). -/
def modeLegal (v : Word) : Bool :=
  v &&& 0xFFFF8176 == 0 && bltLegal (v.extractLsb' 10 5)

/-- The fields of a written MODE (R87). -/
def DmaChan.storeMode (c : DmaChan) (v : Word) : DmaChan :=
  { c with ot := v.getLsbD 0, dir := v.getLsbD 3, bwWord := v.getLsbD 7, ad := v.getLsbD 9,
           blt := v.extractLsb' 10 5 }

/-- Whether an address or a count is a multiple of the bus width (R774 c). -/
def DmaChan.aligned (c : DmaChan) (v : Word) : Bool := !c.bwWord || !v.getLsbD 0

/-- Whether the values programmed into ADC, ADR, BLTC and BLTR are multiples of the bus width (R86 Note 2, R702, R774 c). An
ADR not written since reset counts once the channel is to use it (log 55). -/
def DmaChan.paramsOk (c : DmaChan) : Bool :=
  c.aligned c.adc && c.aligned c.bltc && c.aligned c.bltr && (c.aligned c.adr || !(c.adrSet || c.ot || c.vld))

/-- The value of TCNTL.TMC (R730). -/
def TimerMode.code : TimerMode → BitVec 3
  | .idle => 0b000 | .mode1 => 0b001 | .mode2 => 0b010 | .mode3 => 0b100

/-- The mode of a TMC value; other values are refused (R730). -/
def timerModeOf? (v : BitVec 3) : Option TimerMode :=
  if v = 0b000 then some .idle
  else if v = 0b001 then some .mode1
  else if v = 0b010 then some .mode2
  else if v = 0b100 then some .mode3
  else none

/-- TCNTL's stored bits as read (R95). -/
def Timer.tcntl (t : Timer) : Half :=
  (BitVec.ofBoolListLE [t.ienb, t.ipfb, t.iena, t.ipfa, t.tcs]).setWidth 16
    ||| (t.tmc.code.setWidth 16 <<< 5)
    ||| ((BitVec.ofBool t.prc).setWidth 16 <<< 8)

/-- A write of TCNTL: the write-inhibit bits 11, 10, 9 act on the same write (R95, R736). A 0-to-1 change of TCS in
mode 1 or 2 starts the timer: the alternation at TRCA, TXA at a level that is not fixed (R732, U1, log 19). -/
def Timer.storeTcntl (t : Timer) (m : TimerMode) (v : Half) (level : Bool) : Timer :=
  let tcs := if v.getLsbD 11 then t.tcs else v.getLsbD 4
  let started := tcs && !t.tcs && (m == .mode1 || m == .mode2)
  { t with
    prc := v.getLsbD 8, tmc := m, tcs := tcs,
    ipfa := if v.getLsbD 10 then t.ipfa else v.getLsbD 3,
    iena := v.getLsbD 2,
    ipfb := if v.getLsbD 9 then t.ipfb else v.getLsbD 1,
    ienb := v.getLsbD 0,
    nextB := if started then false else t.nextB,
    txa := if started then level else t.txa }

/-- Request A of a timer (R735). -/
def Timer.reqA (t : Timer) : Bool := (t.ipfa || (t.tmc == .mode3 && t.tcs)) && t.iena

/-- Request B of a timer (R735). -/
def Timer.reqB (t : Timer) : Bool := t.ipfb && t.ienb

/-- A channel's part of the DMA interrupt condition (R712). -/
def DmaChan.irq (c : DmaChan) : Bool := (c.tc && c.mTc) || (c.eot && c.mEot) || (c.ovr && c.mOvr)

/-- The DMA controller's request at level 14 (`dip` true) or 6 (false): that of the channels with this DIP (R712, D10). -/
def Dma.irq (d : Dma) (dip : Bool) : Bool := (d.ch0.irq && d.ch0.dip == dip) || (d.ch1.irq && d.ch1.dip == dip)

/-- The internal requests with their levels (R661, Table 3-5). -/
def State.internalRequests (s : State) : List (Bool × Nat) :=
  [(s.dma.irq true, 14), (s.timer0.reqA, 13), (s.timer0.reqB, 12), (s.timer1.reqA, 10),
   (s.timer1.reqB, 9), (s.dma.irq false, 6), (s.timer2.reqA, 5), (s.timer2.reqB, 3)]

/-- The highest level of a list of requests, 0 if none is pending. -/
def highestRequest : List (Bool × Nat) → Nat
  | [] => 0
  | (p, l) :: t => if p then max l (highestRequest t) else highestRequest t

/-- The external level: the complement of the pins IR3-IR0, which are active low (R661). -/
def State.externalLevel (s : State) : Nat := (~~~s.irPins).toNat

/-- The highest pending level, 0 if none (R662). -/
def State.irqLevel (s : State) : Nat := max s.externalLevel (highestRequest s.internalRequests)

/-- IVCT as read: 0x10 + level (R90, R662). -/
def State.ivct (s : State) : Byte := BitVec.ofNat 8 (0x10 + s.irqLevel)

/-- The highest bit of ISRV that is 1 among bits n .. 1, else 0. -/
def highestBit (v : Half) : Nat → Nat
  | 0 => 0
  | n + 1 => if v.getLsbD (n + 1) then n + 1 else highestBit v n

/-- The highest level in service, 0 if none (R663). -/
def State.inService (s : State) : Nat := highestBit s.isrv 15

/-- The ICU's request to the CPU (R663). -/
def State.irqRequest (s : State) : Bool := decide (s.inService < s.irqLevel)

/-- Set the bit of the acknowledged level in ISRV; bit 0 stays 0 (R664). -/
def State.acknowledge (s : State) : State :=
  { s with isrv := (s.isrv ||| BitVec.twoPow 16 s.irqLevel) &&& 0xFFFE }

/-- End of interrupt: clear the highest bit in service (R665). -/
def State.endOfInterrupt (s : State) : State :=
  { s with isrv := if s.inService = 0 then s.isrv else s.isrv &&& ~~~BitVec.twoPow 16 s.inService }

/-- Read an on-chip register. Reserved and write-only bits are free values (R59, R76, R95, D14, log 15). -/
def regRead : PReg → M Word
  | .bbsc => do
    let b ← peek (·.bpu)
    let v ← withFree (0xE0 : Byte) (((BitVec.ofBool b.bis).setWidth 8 <<< 4) ||| b.sn.setWidth 8)
    pure (v.setWidth 32)
  | .brm => do
    let b ← peek (·.bpu)
    let v ← withFree (0xF0 : Byte) (b.rm.setWidth 8)
    pure (v.setWidth 32)
  | .blm => do
    let b ← peek (·.bpu)
    let v ← withFree (0xF0 : Byte) (b.lm.setWidth 8)
    pure (v.setWidth 32)
  | .bfs => do
    let b ← peek (·.bpu)
    let v ← withFree (0xF0 : Byte) (b.fs.setWidth 8)
    pure (v.setWidth 32)
  | .bcntl => do
    let b ← peek (·.bpu)
    let v ← withFree (0x09 : Byte)
      (BitVec.ofBoolListLE [false, b.sprd, b.ebpu, false, b.elme, b.erme, b.blme, b.brme])
    pure (v.setWidth 32)
  | .bc => do
    let b ← peek (·.bpu)
    pure (b.wcnt.setWidth 32)
  | .stat => do
    let d ← peek (·.dma)
    let l ← peek (·.plat.statBits)
    withFree (~~~l.mask) (d.stat l)
  | .dstat => do
    let d ← peek (·.dma)
    let l ← peek (·.plat.statBits)
    withFree (~~~l.mask) (d.stat l)
  | .imsk => do
    let d ← peek (·.dma)
    let l ← peek (·.plat.imskBits)
    withFree (~~~l.mask) (d.imsk l)
  | .chan ch r => do
    let c ← peek (fun s => s.dma.chan ch)
    match r with
    | .adc => pure c.adc
    | .adr => pure c.adr
    | .bltc => pure c.bltc
    | .bltr => pure c.bltr
    | .mode => withFree 0xFFFF8076 c.modeBits
    | .cntl => withFree 0xFFFFFFFC ((BitVec.ofBoolListLE [c.chen, c.vld]).setWidth 32)
  | .ivct => do
    let v ← peek State.ivct
    pure (v.setWidth 32)
  | .isrv => do
    let v ← peek (·.isrv)
    pure (v.setWidth 32)
  | .timer t r => do
    let x ← peek (fun s => s.timer t)
    match r with
    | .tc => pure (x.tc.setWidth 32)
    | .trca => pure (x.trca.setWidth 32)
    | .trcb => pure (x.trcb.setWidth 32)
    | .tcntl => do
      let v ← withFree (0xFE00 : Half) x.tcntl
      pure (v.setWidth 32)

/-- Change the BPU's registers. -/
def updBpu (f : Bpu → Bpu) : M Unit := upd (fun s => { s with bpu := f s.bpu })

/-- Change a channel by a write of the program; an enabled channel whose parameters are then no multiples of its bus width
is refused (R702, R774 c, U17; when that is checked is log 55, DESIGN CHOICE). -/
def chanStore (ch : Chan) (f : DmaChan → DmaChan) : M Unit := do
  let c ← peek (fun s => f (s.dma.chan ch))
  require .dmaProgramming (!c.chen || c.paramsOk)
  upd (fun s => s.modChan ch f)

/-- Write a register of a DMA channel (R77, R83-R88, R704, R774). -/
def chanWrite (ch : Chan) (r : ChanReg) (v : Word) : M Unit := do
  let c ← peek (fun s => s.dma.chan ch)
  match r with
  | .adc => do
    require .dmaProgramming (!c.chen)
    chanStore ch (fun c => { c with adc := v })
  | .adr => chanStore ch (fun c => { c with adr := v, adrSet := true })
  | .bltc => do
    require .dmaProgramming (!c.chen)
    chanStore ch (fun c => { c with bltc := v })
  | .bltr => do
    require .dmaProgramming (!(v == 0 && c.vld && c.chen))
    chanStore ch (fun c => { c with bltr := v })
  | .mode => do
    require .dmaProgramming (!c.chen)
    require .dmaProgramming (modeLegal v)
    chanStore ch (fun c => c.storeMode v)
  | .cntl => chanStore ch (fun c => { c with chen := v.getLsbD 0, vld := v.getLsbD 1 }.settle)

/-- Write an on-chip register of the value's low bits. Writes to reserved bits are ignored (R76, D14), but for MODE,
whose reserved bits must be 0 (R774 d). -/
def regWrite (r : PReg) (v : Word) : M Unit :=
  match r with
  | .bbsc => updBpu (fun b => { b with bis := v.getLsbD 4, sn := v.setWidth 4 })
  | .brm => updBpu (fun b => { b with rm := v.setWidth 4 })
  | .blm => updBpu (fun b => { b with lm := v.setWidth 4 })
  | .bfs => updBpu (fun b => { b with fs := v.setWidth 4 })
  | .bcntl => updBpu (fun b =>
      { b with brme := v.getLsbD 7, blme := v.getLsbD 6, erme := v.getLsbD 5, elme := v.getLsbD 4,
               ebpu := v.getLsbD 2, sprd := v.getLsbD 1 })
  | .bc => updBpu (fun b => { b with wcnt := v.setWidth 8 })
  | .stat => do
    let l ← peek (·.plat.statBits)
    upd (fun s => (s.modChan .ch0 (·.clearStat l.ch0 v)).modChan .ch1 (·.clearStat l.ch1 v))
  | .imsk => do
    let l ← peek (·.plat.imskBits)
    upd (fun s => (s.modChan .ch0 (·.storeMask l.ch0 v)).modChan .ch1 (·.storeMask l.ch1 v))
  | .dstat => do
    let d ← peek (·.dma)
    require .dmaProgramming (!d.ch0.chen && !d.ch1.chen)
    let l ← peek (·.plat.statBits)
    upd (fun s => (s.modChan .ch0 (·.storeStat l.ch0 v)).modChan .ch1 (·.storeStat l.ch1 v))
  | .chan ch cr => chanWrite ch cr v
  | .ivct => refuse .ivctWrite
  | .isrv => upd (fun s => { s with isrv := v.setWidth 16 &&& 0xFFFE })
  | .timer t tr =>
    match tr with
    | .tc => upd (fun s => s.setTimer t { s.timer t with tc := v.setWidth 16 })
    | .trca => upd (fun s => s.setTimer t { s.timer t with trca := v.setWidth 16 })
    | .trcb => upd (fun s => s.setTimer t { s.timer t with trcb := v.setWidth 16 })
    | .tcntl =>
      match timerModeOf? (v.extractLsb' 5 3) with
      | none => refuse .timerMode
      | some m => do
        let x ← fresh 1
        upd (fun s => s.setTimer t ((s.timer t).storeTcntl m (v.setWidth 16) (x == 1)))

end Sys2Proof.Machine
end

