-- ==== Sys2Proof/Machine/Bus.lean ====
section
/-! DEFINITION. The bus and the agents that share it (spec/20_memory.md R131, R137, R140, R150-R153): one access of an
agent, DMA transfer cycles (spec/61_peripherals.md R701-R710), timers (R732-R734), pins, other bus masters and reset
(spec/70_reset_and_hazards.md R760); and the CPU's accesses, each a sequence of bus cycles between which any of these
may act. -/

namespace Sys2Proof.Machine

open Sys2Proof

/-! ### One access -/

/-- Why the CPU may not access a byte, if so (R131, R132, R137, D4, D15). -/
def Platform.byteStop (p : Platform) (write : Bool) (a : Word) : Option Stop :=
  if a.toNat < Config.externalEnd then
    match p.memAt a.toNat with
    | none => some (.fault .noExternalMemory)
    | some .rom => if write then some (.fault .romWrite) else none
    | some .ram => none
  else if a.toNat < Config.topBlock then some (.fault .unavailableAddress)
  else if p.ownsByte a then some (.refuse .registerAccess)
  else some (.fault .reservedAddress)

/-- Check every byte of an external access. -/
def allow (write : Bool) (as : List Word) : M Unit := fun s =>
  match as.findSome? (s.plat.byteStop write) with
  | some e => .error e
  | none => .ok ((), s)

/-- The bytes of memory at a list of addresses. -/
def State.bytesAt (s : State) (as : List Word) : List Byte := as.map (fun a => s.mem.read a.toNat)

/-- The state with bytes put at a list of addresses by any agent; the queue's list records them (R162). -/
def State.deposit (s : State) (as : List Word) (bs : List Byte) : State :=
  { s with mem := s.mem.writeAll ((as.map (·.toNat)).zip bs), dirty := insertAll s.dirty (as.map (·.toNat)) }

/-- The state with bytes stored by the CPU: `written` records them too (U26). -/
def State.store (s : State) (as : List Word) (bs : List Byte) : State :=
  { s.deposit as bs with written := s.written ++ as.map (·.toNat) }

/-- An access of n bytes by an agent in one bus cycle: an on-chip register answers only its own address and width;
other bytes come from external memory (R137). -/
def busRead (a : Word) (n : Nat) : M (BitVec (8 * n)) := do
  let p ← peek (·.plat)
  match p.regAt a with
  | some r =>
    require .registerAccess (r.width == n)
    let v ← regRead r
    pure (v.setWidth (8 * n))
  | none =>
    allow false (byteAddrs a n)
    let bs ← peek (fun s => s.bytesAt (byteAddrs a n))
    pure (BitVec.ofNat (8 * n) (leNat bs))

/-- As `busRead`, writing. -/
def busWrite (a : Word) (n : Nat) (v : BitVec (8 * n)) : M Unit := do
  let p ← peek (·.plat)
  match p.regAt a with
  | some r =>
    require .registerAccess (r.width == n)
    regWrite r (v.setWidth 32)
  | none =>
    allow true (byteAddrs a n)
    upd (fun s => s.deposit (byteAddrs a n) (leBytes n v.toNat))

/-! ### DMA -/

/-- Terminal count (R705): auto-initialize, the next block of double buffering, or the end with OVR. -/
def DmaChan.terminalCount (c : DmaChan) : DmaChan :=
  let c := { c with tc := true }
  if c.ot then { c with adc := c.adr, bltc := c.bltr }
  else if c.vld then { c with adc := c.adr, bltc := c.bltr, vld := false }
  else { c with ovr := true }.settle

/-- The end of a transfer cycle (R702, R709): counters, then EOT or terminal count. -/
def DmaChan.endCycle (c : DmaChan) (eot : Bool) : DmaChan :=
  let w : Word := if c.bwWord then 2 else 1
  let c := { c with bltc := c.bltc - w, adc := if c.ad then c.adc + w else c.adc }
  if eot then { c with eot := true }.settle
  else if c.bltc = 0 then c.terminalCount
  else c

/-- The data of one transfer cycle (R702): memory to the implied device, or the device's value to memory. -/
def dmaTransfer (ch : Chan) (c : DmaChan) (supply : Half) : M Unit :=
  match c.dir, c.bwWord with
  | false, false => do
    let v ← busRead c.adc 1
    upd (fun s => { s with dmaOut := s.dmaOut ++ [⟨ch, false, v.setWidth 16⟩] })
  | false, true => do
    let v ← busRead c.adc 2
    upd (fun s => { s with dmaOut := s.dmaOut ++ [⟨ch, true, v.setWidth 16⟩] })
  | true, false => busWrite c.adc 1 (supply.setWidth 8)
  | true, true => busWrite c.adc 2 supply

/-- One transfer cycle (R702, R703). A channel that is not active ignores its request (R701). -/
def dmaCycle (ch : Chan) (supply : Half) (eot : Bool) : M Unit := do
  let c ← peek (fun s => s.dma.chan ch)
  if c.active then do
    require .dmaProgramming c.paramsOk
    dmaTransfer ch c supply
    upd (fun s => s.modChan ch (·.endCycle eot))
  else pure ()

/-! ### Timers -/

/-- One count in mode 1 or 2 (R733). -/
def Timer.countDown (t : Timer) : Timer :=
  if t.tcs then
    let c := t.tc - 1
    if c = 0 then
      if t.nextB then { t with tc := t.trcb, ipfb := true, nextB := false, txa := !t.txa }
      else { t with tc := t.trca, ipfa := true, nextB := true, txa := !t.txa }
    else { t with tc := c }
  else t

/-- One Tclk (R733, R734). -/
def Timer.tick (t : Timer) : Timer :=
  match t.tmc with
  | .mode1 => t.countDown
  | .mode3 => { t with tc := t.tc - 1, tcs := t.tcs || t.tc == 0 }
  | .idle | .mode2 => t

/-- A rising edge on TXA (R734). -/
def Timer.txaRise (t : Timer) : Timer :=
  match t.tmc with
  | .mode3 => { t with trca := t.tc, ipfa := true }
  | .idle | .mode1 | .mode2 => t

/-- A rising edge on TXB: a count in mode 2, a capture in mode 3 (R730, R733, R734). -/
def Timer.txbRise (t : Timer) : Timer :=
  match t.tmc with
  | .mode2 => t.countDown
  | .mode3 => { t with trcb := t.tc, ipfb := true }
  | .idle | .mode1 => t

/-! ### Reset -/

/-- RSTI low (R760): the values of R99; memory, the platform, the pins and the other agents stay. -/
def State.resetLow (s : State) : State :=
  { State.reset with
    op := .reset, mem := s.mem, irPins := s.irPins, fpu := s.fpu, plat := s.plat, inputs := s.inputs,
    within := s.within, dmaOut := s.dmaOut, freeCount := s.freeCount }

/-! ### Events -/

/-- A byte written by another bus master (R150). An address without RAM ignores it (log 51, DESIGN CHOICE: no rule says what
such a write does). -/
def State.busWrite (s : State) (a : Nat) (v : Byte) : State :=
  match s.plat.memAt a with
  | some .ram => { s with mem := s.mem.write a v, dirty := insertAddr s.dirty a }
  | _ => s

/-- The writes of an external bus master that holds the bus. -/
def State.holdWrites (s : State) : List (BitVec 24 × Byte) → State
  | [] => s
  | (a, v) :: t => (s.busWrite a.toNat v).holdWrites t

/-- A channel's request, if there is one. -/
def dmaRequest (ch : Chan) : Option (Half × Bool) → M Unit
  | none => pure ()
  | some (v, eot) => dmaCycle ch v eot

/-- One event of the environment. Bus requests asserted together are granted in the order of R710: HOLD, channel 0,
channel 1; the CPU's own cycle comes after them. A falling NMI edge in the Reset state is ignored (log 47, DESIGN
CHOICE: R98 and R635 say only that reset clears the latch). -/
def event : Event → M Unit
  | .nmiEdge => upd (fun s => if s.op = .reset then s else { s with nmiLatch := true })
  | .irPins v => upd (fun s => { s with irPins := v })
  | .tick t => upd (fun s => s.setTimer t (s.timer t).tick)
  | .txaRise t => upd (fun s => s.setTimer t (s.timer t).txaRise)
  | .txbRise t => upd (fun s => s.setTimer t (s.timer t).txbRise)
  | .drq ch v eot => dmaCycle ch v eot
  | .busWrite a v => upd (fun s => s.busWrite a.toNat v)
  | .together hold d0 d1 => do
    upd (fun s => s.holdWrites hold)
    dmaRequest .ch0 d0
    dmaRequest .ch1 d1
  | .passPoint => pure ()
  | .rstiLow => upd State.resetLow
  | .rstiHigh => upd (fun s => if s.op = .reset then { s with op := .executing } else s)

/-- A list of events in order. -/
def events : List Event → M Unit
  | [] => pure ()
  | e :: t => do
    event e
    events t

/-! ### The CPU's accesses -/

/-- Events inside an instruction or an exception sequence: RSTI low cuts it short (R760). -/
def outside : List Event → M Unit
  | [] => pure ()
  | e :: t => if e = .rstiLow then cutShort t else do
    event e
    outside t

/-- The place before a data bus cycle of the CPU: the events laid down for it happen (R14, R150, R680, R710). -/
def gap : M Unit := do
  let w ← peek (·.within)
  upd (fun s => { s with within := w.tail })
  outside (w.headD [])

/-- The widths of the bus cycles of an access of n bytes, by whether the address is odd (R140): words at even addresses,
single bytes at an odd first or a left-over last one. -/
def cyclesFrom (odd : Bool) : Nat → List Nat
  | 0 => []
  | 1 => [1]
  | n + 2 => if odd then 1 :: cyclesFrom false (n + 1) else 2 :: cyclesFrom false n

/-- The bus cycles of an access of n bytes (R140): a quad-word is two double-words. -/
def busCycles (a : Word) (n : Nat) : List Nat :=
  let odd := a.getLsbD 0
  if n = 8 then cyclesFrom odd 4 ++ cyclesFrom odd 4 else cyclesFrom odd n

/-- Read bytes of external memory cycle by cycle, as a little-endian number. -/
def readCycles : List Nat → Word → M Nat
  | [], _ => pure 0
  | k :: t, a => do
    gap
    let low ← peek (fun s => leNat (s.bytesAt (byteAddrs a k)))
    let high ← readCycles t (a + BitVec.ofNat 32 k)
    pure (low + 2 ^ (8 * k) * high)

/-- Store a little-endian number in external memory cycle by cycle. -/
def writeCycles : List Nat → Word → Nat → M Unit
  | [], _, _ => pure ()
  | k :: t, a, v => do
    gap
    upd (fun s => s.store (byteAddrs a k) (leBytes k v))
    writeCycles t (a + BitVec.ofNat 32 k) (v / 2 ^ (8 * k))

/-- Read an on-chip register cycle by cycle, from bit o on: each cycle takes its part of what the register then answers
(R140, log 49). -/
def readRegCycles (r : PReg) : List Nat → Nat → M Nat
  | [], _ => pure 0
  | k :: t, o => do
    gap
    let v ← regRead r
    let high ← readRegCycles r t (o + 8 * k)
    pure (v.toNat / 2 ^ o % 2 ^ (8 * k) + 2 ^ (8 * k) * high)

/-- Write an on-chip register cycle by cycle: it takes the value in the last cycle (R140, log 49). -/
def writeRegCycles (r : PReg) (v : Word) : List Nat → M Unit
  | [] => regWrite r v
  | _ :: t => do
    gap
    writeRegCycles r v t

/-- MemRead (R137, R140): the operand is checked, then read in its bus cycles; an on-chip register answers only its own
address and width. -/
def memRead (a : Word) (n : Nat) : M (BitVec (8 * n)) := do
  let p ← peek (·.plat)
  match p.regAt a with
  | some r =>
    require .registerAccess (r.width == n)
    let v ← readRegCycles r (busCycles a n) 0
    pure (BitVec.ofNat (8 * n) v)
  | none =>
    allow false (byteAddrs a n)
    let v ← readCycles (busCycles a n) a
    pure (BitVec.ofNat (8 * n) v)

/-- MemWrite (R137, R140), as `memRead`. -/
def memWrite (a : Word) (n : Nat) (v : BitVec (8 * n)) : M Unit := do
  let p ← peek (·.plat)
  match p.regAt a with
  | some r =>
    require .registerAccess (r.width == n)
    writeRegCycles r (v.setWidth 32) (busCycles a n)
  | none =>
    allow true (byteAddrs a n)
    writeCycles (busCycles a n) a v.toNat

end Sys2Proof.Machine
end

