-- ==== Sys2Proof/Machine/Ops.lean ====
section
/-! DEFINITION. The named operations over registers and the stacks, taking an exception and returning from one, and how a
meaning ends (spec/10_state.md R32, R38, R39, spec/60_exceptions.md R602, R620-R631, R651, spec/46_control.md R460,
spec/70_reset_and_hazards.md R760). -/

namespace Sys2Proof.Machine

open Sys2Proof

/-! ### General registers -/

/-- A general register. -/
def Regs.get (x : Regs) : Reg → Word
  | .r0 => x.r0 | .r1 => x.r1 | .r2 => x.r2 | .r3 => x.r3 | .r4 => x.r4 | .r5 => x.r5 | .r6 => x.r6 | .r7 => x.r7

/-- Replace a general register. -/
def Regs.set (x : Regs) (r : Reg) (v : Word) : Regs :=
  match r with
  | .r0 => { x with r0 := v } | .r1 => { x with r1 := v } | .r2 => { x with r2 := v } | .r3 => { x with r3 := v }
  | .r4 => { x with r4 := v } | .r5 => { x with r5 := v } | .r6 => { x with r6 := v } | .r7 => { x with r7 := v }

/-- Replace the low n bits of a double-word (R32). -/
def mergeLow {n : Nat} (old : Word) (v : BitVec n) : Word :=
  (old &&& ~~~(BitVec.allOnes n).setWidth 32) ||| v.setWidth 32

/-- The general register after register r. -/
def nextReg : Reg → Reg
  | .r0 => .r1 | .r1 => .r2 | .r2 => .r3 | .r3 => .r4 | .r4 => .r5 | .r5 => .r6 | .r6 => .r7 | .r7 => .r0

/-- The state with a general register replaced. -/
def State.setReg (s : State) (r : Reg) (v : Word) : State := { s with regs := s.regs.set r v }

/-- Read a general register. -/
def getReg (r : Reg) : M Word := peek (fun s => s.regs.get r)

/-- Write a general register. -/
def setReg (r : Reg) (v : Word) : M Unit := upd (fun s => s.setReg r v)

/-- Write the low n bits of a general register (R32, R255). -/
def setRegLow {n : Nat} (r : Reg) (v : BitVec n) : M Unit :=
  upd (fun s => s.setReg r (mergeLow (s.regs.get r) v))

/-! ### The program counter, the stack pointers, the other address registers -/

/-- The stack pointer selected by PSR.S (R38). -/
def State.sp (s : State) : Word := if s.psr.s then s.sp1 else s.sp0

/-- Replace the selected stack pointer. -/
def State.setSp (s : State) (v : Word) : State := if s.psr.s then { s with sp1 := v } else { s with sp0 := v }

/-- Read the selected stack pointer. -/
def getSp : M Word := peek State.sp

/-- Write the selected stack pointer. -/
def setSp (v : Word) : M Unit := upd (fun s => s.setSp v)

/-- MOD as an address (R43). -/
def State.modAddr (s : State) : Word := s.mod.setWidth 32

/-! ### The PSR -/

/-- The PSR's named bits at their positions, bits 15-13 zero (R45). -/
def Psr.toBits (p : Psr) : Half :=
  (BitVec.ofBoolListLE [p.c, p.t, p.l, p.k, p.j, p.f, p.z, p.n, p.u, p.s, p.p, p.i, p.b]).setWidth 16

/-- The named bits of a 16-bit image (R45). -/
def Psr.ofBits (v : Half) : Psr :=
  { c := v.getLsbD 0, t := v.getLsbD 1, l := v.getLsbD 2, k := v.getLsbD 3, j := v.getLsbD 4, f := v.getLsbD 5,
    z := v.getLsbD 6, n := v.getLsbD 7, u := v.getLsbD 8, s := v.getLsbD 9, p := v.getLsbD 10, i := v.getLsbD 11,
    b := v.getLsbD 12 }

/-- The PSR as read: bits 15-13 are free once anything but reset has written the PSR (R59, D14, log 14). -/
def readPsr : M Half := do
  let s ← get
  if s.psrTouched then withFree 0xE000 s.psr.toBits else pure s.psr.toBits

/-- Load all 16 bits of the PSR. -/
def loadPsr (v : Half) : M Unit := upd (fun s => { s with psr := Psr.ofBits v, psrTouched := true })

/-- Change named bits of the PSR, a write of it (R60). -/
def updPsr (f : Psr → Psr) : M Unit := upd (fun s => { s with psr := f s.psr, psrTouched := true })

/-- Clear P before an exception's copy of the PSR is taken (R620 step 3, R631 step 1, R651 step 1). -/
def clearPending : M Unit := updPsr (fun p => { p with p := false })

/-- Raise Trap (ILL) in User mode (R480, R613, R670). -/
def privileged : M Unit := do
  let u ← peek (·.psr.u)
  if u then raise .ill else pure ()

/-! ### The stacks -/

/-- Push n bytes on the selected stack: pre-decrement (R39). -/
def push (n : Nat) (v : BitVec (8 * n)) : M Unit := do
  let sp ← getSp
  let a := sp - BitVec.ofNat 32 n
  memWrite a n v
  setSp a

/-- Pop n bytes from the selected stack: post-increment (R39). -/
def pop (n : Nat) : M (BitVec (8 * n)) := do
  let sp ← getSp
  let v ← memRead sp n
  setSp (sp + BitVec.ofNat 32 n)
  pure v

/-- Purge the instruction queue (R161). -/
def purge : M Unit := upd (fun s => { s with dirty := [] })

/-! ### Exceptions -/

/-- The vector of a trap (R610). -/
def Trap.vector : Trap → Nat
  | .slave => 3 | .ill => 4 | .svc => 5 | .dvz => 6 | .flg => 7 | .bpt => 8 | .und => 10

/-- The vector of Trap (TRC) (R610). -/
def traceVector : Nat := 9

/-- The vector of the non-maskable interrupt (R610). -/
def nmiVector : Nat := 1

/-- Push n bytes on the interrupt stack (R621). -/
def pushInterrupt (n : Nat) (v : BitVec (8 * n)) : M Unit := do
  let sp ← peek (·.sp0)
  let a := sp - BitVec.ofNat 32 n
  memWrite a n v
  upd (fun s => { s with sp0 := a })

/-- Service (R622 with CFG.DE = 0, R623 with CFG.DE = 1): save the PSR copy and the return address on the interrupt
stack, take the new PC, and without Direct-Exception mode the new MOD and SB, from the dispatch table; purge the
queue. -/
def service (vector : Nat) (copy : Half) (ret : Word) : M Unit := do
  pushInterrupt 2 copy
  let base ← peek (·.intbase)
  let entry ← memRead (base + BitVec.ofNat 32 (4 * vector)) 4
  let de ← peek (·.cfg.de)
  if de then
    upd (fun s => { s with pc := entry, sp0 := s.sp0 - 2 })
    pushInterrupt 4 ret
  else do
    let m : Half := entry.setWidth 16
    let offset : Half := entry.extractLsb' 16 16
    let program ← memRead (m.setWidth 32 + 8) 4
    let static ← memRead (m.setWidth 32) 4
    upd (fun s => { s with pc := program + offset.setWidth 32, sb := static })
    let old ← peek (·.mod)
    pushInterrupt 2 old
    upd (fun s => { s with mod := m })
    pushInterrupt 4 ret
  purge

/-- The PSR a trap enters its service procedure with: T, U, S and P cleared (R620 step 4). -/
def Psr.afterTrap (p : Psr) : Psr := { p with t := false, u := false, s := false, p := false }

/-- The PSR an interrupt enters its service procedure with: T, U, S, P, I and B cleared (R630). -/
def Psr.afterInterrupt (p : Psr) : Psr :=
  { p with t := false, u := false, s := false, p := false, i := false, b := false }

/-- TrapSequence (R620) for the instruction that started in state `s`: the selected stack pointer and the PSR as at its
start (R254), P cleared first for UND, then the copy, the cleared bits and Service with the instruction's address. -/
def trapSequence (x : Trap) (s : State) : M Unit := asEntry do
  upd (fun t => { t with sp0 := s.sp0, sp1 := s.sp1, psr := s.psr, psrTouched := true })
  onlyIf (x == .und) clearPending
  let copy ← readPsr
  updPsr Psr.afterTrap
  service x.vector copy s.pc

/-- TraceTrapSequence (R651). -/
def traceSequence : M Unit := asEntry do
  clearPending
  let copy ← readPsr
  updPsr Psr.afterTrap
  let ret ← peek (·.pc)
  service traceVector copy ret

/-- InterruptSequence for the non-maskable interrupt (R631 step 3, R635). The acknowledge cycle's data is discarded; the
other agents may act before the cycle (D11). -/
def nmiSequence (ret : Word) : M Unit := asEntry do
  let copy ← readPsr
  updPsr Psr.afterInterrupt
  gap
  upd (fun s => { s with nmiLatch := false, op := .executing })
  service nmiVector copy ret

/-- InterruptSequence for a maskable interrupt (R631 steps 4 and 5, R664): vector 0 without vectoring, else IVCT; the
ICU sees the acknowledge in both modes (D28). The other agents may act before the acknowledge cycle (D11): level and
vector are what the ICU shows at the acknowledge, not at the sampling (R631, R664, U32). -/
def maskableSequence (ret : Word) : M Unit := asEntry do
  let copy ← readPsr
  updPsr Psr.afterInterrupt
  gap
  let vectored ← peek (·.cfg.i)
  let ivct ← peek State.ivct
  upd (fun s => { s.acknowledge with op := .executing })
  service (if vectored then ivct.toNat else 0) copy ret

/-- Whether an interrupt is taken at this point (R601, R663). -/
def State.interruptPending (s : State) : Bool := s.nmiLatch || (s.psr.i && s.irqRequest)

/-- Take the pending interrupt, the non-maskable one first (R601). -/
def interruptSequence (ret : Word) : M Unit := do
  let nmi ← peek (·.nmiLatch)
  if nmi then nmiSequence ret else maskableSequence ret

/-- Take MOD from the double-word slot of the interrupt stack at `sp` (R460). -/
def restoreMod (sp : Word) : M Unit := do
  let m ← memRead (sp + 4) 2
  upd (fun s => { s with mod := m })

/-- Load SB from the module table entry of MOD (R460). -/
def reloadSb : M Unit := do
  let m ← peek State.modAddr
  let sb ← memRead m 4
  upd (fun s => { s with sb := sb })

/-- Return from an exception (R460, R461): PC, PSR and, without Direct-Exception mode, MOD and SB from the interrupt
stack; then `disp` bytes are discarded from the stack the restored PSR selects. The new PC is the result. -/
def returnFromException (disp : Word) : M Word := do
  let sp ← peek (·.sp0)
  let pc ← memRead sp 4
  let de ← peek (·.cfg.de)
  onlyIf (!de) (restoreMod sp)
  let psr ← memRead (sp + 6) 2
  upd (fun s => { s with sp0 := sp + 8 })
  loadPsr psr
  onlyIf (!de) reloadSb
  upd (fun s => s.setSp (s.sp + disp))
  pure pc

/-! ### How a meaning ends -/

/-- Where the machine goes after an instruction: on in sequence, to an address (which purges the queue, R161, R440),
or nowhere new, because the meaning has already entered an exception or the reset state. -/
inductive Next where
  | seq
  | jump (a : Word)
  | stay
deriving DecidableEq, Repr

/-- What an instruction does from its start to its end (R35, R182, R601, R620): it completes, and counts as a write of the
PSR (log 14), or traps with TrapSequence. -/
def complete (i : Instr) (m : M Next) : M Unit := fun s =>
  match m s with
  | .ok (.seq, t) => .ok ((), { t with pc := s.pc + BitVec.ofNat 32 (instrLength i), psrTouched := true })
  | .ok (.jump a, t) => .ok ((), { t with pc := a, dirty := [], psrTouched := true })
  | .ok (.stay, t) => .ok ((), t)
  | .error (.trap x t) => trapSequence x s t
  | .error e => .error e

/-- A list of lists of events up to the first RSTI low. -/
def beforeReset : List (List Event) → List (List Event)
  | [] => []
  | w :: t => if .rstiLow ∈ w then [w.takeWhile (· ≠ .rstiLow)] else w :: beforeReset t

/-- The bytes an instruction stores if RSTI does not go low inside it: the result operands "due to be affected" by what
RSTI cut short in state `c` (R602, U26). Where it then stops without an end, those it had stored. What an exception
sequence stores is not among them (`asEntry`). -/
def dueBytes {α : Type} (m : M α) (s c : State) : List Nat :=
  match m { s with within := beforeReset s.within } with
  | .ok (_, t) => t.written
  | .error (.trap _ t) => t.written
  | .error (.cut _ _ _) => c.written
  | .error (.fault _) => c.written
  | .error (.refuse _) => c.written

/-- Bytes of memory that hold any value (U26). -/
def freeBytes : List Nat → M Unit
  | [] => pure ()
  | a :: t => do
    let v ← fresh 8
    upd (fun s => { s with mem := s.mem.write a v })
    freeBytes t

/-- The general registers hold any value. -/
def freeRegs : List Reg → M Unit
  | [] => pure ()
  | r :: t => do
    let v ← fresh 32
    setReg r v
    freeRegs t

/-- The address registers hold any value. -/
def freeAddressRegs : M Unit := do
  let sp0 ← fresh 32
  let sp1 ← fresh 32
  let fp ← fresh 32
  let sb ← fresh 32
  let intbase ← fresh 32
  let m ← fresh 16
  upd (fun s => { s with sp0 := sp0, sp1 := sp1, fp := fp, sb := sb, intbase := intbase, mod := m })

/-- The BPU registers R99 gives no value hold any value. -/
def freeBpu : M Unit := do
  let bbsc ← fresh 5
  let rm ← fresh 4
  let lm ← fresh 4
  let fs ← fresh 4
  let bc ← fresh 8
  updBpu (fun b =>
    { b with bis := bbsc.getLsbD 4, sn := bbsc.setWidth 4, rm := rm, lm := lm, fs := fs, wcnt := bc })

/-- The DMA registers R99 gives no value hold any value. -/
def freeChan (ch : Chan) : M Unit := do
  let adc ← fresh 32
  let adr ← fresh 32
  upd (fun s => s.modChan ch (fun c => { c with adc := adc, adr := adr }))

/-- The counting registers of a timer hold any value; an idle timer's TCNTL stays so (D6). -/
def freeTimer (k : TimerId) : M Unit := do
  let tc ← fresh 16
  let trca ← fresh 16
  let trcb ← fresh 16
  upd (fun s => s.setTimer k { s.timer k with tc := tc, trca := trca, trcb := trcb })

/-- RSTI low inside an instruction or an exception sequence (R602 Terminated, R760, U26): the reset values of R99; the
memory bytes due to be affected by an instruction, and every register R99 gives no value, hold any value; the rest of
memory stays, what an exception sequence has pushed too; then what the environment does before the next step (log 35). -/
def cutByReset (due : List Nat) (post : List Event) : M Unit := do
  upd State.resetLow
  freeRegs [.r0, .r1, .r2, .r3, .r4, .r5, .r6, .r7]
  freeAddressRegs
  freeBpu
  freeChan .ch0
  freeChan .ch1
  freeTimer .t0
  freeTimer .t1
  freeTimer .t2
  freeBytes due
  events post

/-- The state between two instructions: nothing written by the next one yet. -/
def State.ended (s : State) : State := { s with written := [] }

/-- The outcome of a computation that has itself no end left to make. -/
def outcomeOf {α : Type} (r : Except Stop (α × State)) : Host.Outcome State Fault Refusal :=
  match r with
  | .ok (_, t) => .next t.ended
  | .error (.trap _ t) => .next t.ended
  | .error (.cut _ _ t) => .next t.ended
  | .error (.fault f) => .fault f
  | .error (.refuse x) => .refused x

/-- The outcome of a whole computation, an instruction or an exception sequence: its end, or reset's if RSTI cuts it
short. -/
def settled {α : Type} (m : M α) (s : State) : Host.Outcome State Fault Refusal :=
  match m s with
  | .error (.cut post .instruction c) => outcomeOf (cutByReset (dueBytes m s c) post c)
  | .error (.cut post .entry c) => outcomeOf (cutByReset [] post c)
  | r => outcomeOf r

/-- End an instruction. -/
def finish (i : Instr) (m : M Next) (s : State) : Host.Outcome State Fault Refusal := settled (complete i m) s

end Sys2Proof.Machine
end

