-- ==== Sys2Proof/Machine/Operands.lean ====
section
/-! DEFINITION. General operands: effective addresses and the access classes (spec/40_operands.md R250-R265), and the
shapes shared by the instructions that read, combine and write operands in the order of R252. -/

namespace Sys2Proof.Machine

open Sys2Proof

/-- The dedicated register of an area; SP is the selected one (R259, R262). -/
def State.area (s : State) : Area → Word
  | .fp => s.fp | .sp => s.sp | .sb => s.sb

/-- The address of a mode as the base of a scaled index, and of every memory mode (R258-R263, R265). -/
def modeAddr : Mode → M Word
  | .reg r => getReg r
  | .regRel r d => do
    let v ← getReg r
    pure (v + d.value)
  | .memRel a d1 d2 => do
    let base ← peek (fun s => s.area a)
    let p ← memRead (base + d1.value) 4
    pure (p + d2.value)
  | .abs d => pure d.value
  | .ext d1 d2 => do
    let m ← peek State.modAddr
    let link ← memRead (m + 4) 4
    let p ← memRead (link + 4 * d1.value) 4
    pure (p + d2.value)
  | .tos => getSp
  | .space a d => do
    let base ← peek (fun s => s.area a)
    pure (base + d.value)
  | .prog d => do
    let pc ← peek (·.pc)
    pure (pc + d.value)

/-- base_ea + scale * Rx (R265). -/
def scaledAddr (k : Scale) (base : Mode) (x : Reg) : M Word := do
  let b ← modeAddr base
  let v ← getReg x
  pure (b + BitVec.ofNat 32 k.factor * v)

/-- ea(g), class addr (R251): illegal for Register and Immediate. -/
def ea : Gen → M Word
  | .imm _ => refuse .illegalOperand
  | .mode (.reg _) => refuse .illegalOperand
  | .mode m => modeAddr m
  | .scaled k base x => scaledAddr k base x

/-- rd(g, n), class read (R251). -/
def rd (g : Gen) (n : Nat) : M (BitVec (8 * n)) :=
  match g with
  | .imm v => pure (BitVec.ofNat (8 * n) v.nat)
  | .mode (.reg r) => do
    let v ← getReg r
    pure (v.setWidth (8 * n))
  | .mode .tos => pop n
  | g => do
    let a ← ea g
    memRead a n

/-- Where a result goes: a general register, a register pair (R256), memory, or a push (R251). -/
inductive Dest where
  | reg (r : Reg)
  | pair (r : Reg)
  | mem (a : Word)
  | push
deriving DecidableEq, Repr

/-- The place of an operand of class write: Top of Stack pushes (R251). -/
def dstWrite : Gen → M Dest
  | .imm _ => refuse .illegalOperand
  | .mode (.reg r) => pure (.reg r)
  | .mode .tos => pure .push
  | g => do
    let a ← ea g
    pure (.mem a)

/-- The place of an operand of class rmw or regaddr: Top of Stack is the memory at SP (R250, R251). -/
def dstModify : Gen → M Dest
  | .imm _ => refuse .illegalOperand
  | .mode (.reg r) => pure (.reg r)
  | g => do
    let a ← ea g
    pure (.mem a)

/-- The place of an operand of class rmw.2i: an 8-byte register operand is the pair of an even register (R256). -/
def dstDouble (g : Gen) (i : Size) : M Dest := do
  let d ← dstModify g
  match d, i with
  | .reg r, .d => if r.num % 2 = 0 then pure (.pair r) else refuse .oddPair
  | d, _ => pure d

/-- The value at a place. -/
def getDest (d : Dest) (n : Nat) : M (BitVec (8 * n)) :=
  match d with
  | .reg r => do
    let v ← getReg r
    pure (v.setWidth (8 * n))
  | .pair r => do
    let lo ← getReg r
    let hi ← getReg (nextReg r)
    pure ((hi ++ lo).setWidth (8 * n))
  | .mem a => memRead a n
  | .push => do
    let a ← getSp
    memRead a n

/-- Write a value to a place: registers keep their other bits (R255). -/
def putDest (d : Dest) (n : Nat) (v : BitVec (8 * n)) : M Unit :=
  match d with
  | .reg r => setRegLow r v
  | .pair r => do
    setReg r (v.setWidth 32)
    setReg (nextReg r) (v.extractLsb' 32 32)
  | .mem a => memWrite a n v
  | .push => push n v

/-- A result and what it does to the flags. -/
structure Result (w : Nat) where
  val   : BitVec w
  flags : Psr → Psr

/-- A result that writes no flag. -/
def plain {w : Nat} (v : BitVec w) : Result w := { val := v, flags := id }

/-- Read the source, read and replace the destination (classes read and rmw), then the flags (R252). -/
def modifyOp (src dst : Gen) (m n : Nat) (f : BitVec (8 * m) → BitVec (8 * n) → M (Result (8 * n))) : M Next := do
  let a ← rd src m
  let d ← dstModify dst
  let b ← getDest d n
  let r ← f a b
  putDest d n r.val
  updPsr r.flags
  pure .seq

/-- Read the source, write the destination (classes read and write), then the flags (R252). -/
def moveOp (src dst : Gen) (m n : Nat) (f : BitVec (8 * m) → M (Result (8 * n))) : M Next := do
  let a ← rd src m
  let d ← dstWrite dst
  let r ← f a
  putDest d n r.val
  updPsr r.flags
  pure .seq

/-- Write a value known without a source operand (class write). -/
def storeOp (dst : Gen) (n : Nat) (v : BitVec (8 * n)) : M Next := do
  let d ← dstWrite dst
  putDest d n v
  pure .seq

end Sys2Proof.Machine
end

