-- ==== Sys2Proof/Machine/Flags.lean ====
section
/-! DEFINITION. Results and flags of the arithmetic, logical and comparing instructions on bit vectors of any width
(spec/42_integer_arithmetic.md, spec/43_logical_shift.md), and the condition codes (spec/30_encoding.md R215). -/

namespace Sys2Proof.Machine

open Sys2Proof

/-- A carry as a number. -/
def carryNat (c : Bool) : Nat := if c then 1 else 0

/-- U(a) + U(b) + c: sum, carry out and signed overflow (R321, R323). -/
def addResult {w : Nat} (a b : BitVec w) (c : Bool) : Result w :=
  let sum := a.toNat + b.toNat + carryNat c
  let r := BitVec.ofNat w sum
  { val := r,
    flags := fun p => { p with c := decide (2 ^ w ≤ sum), f := a.msb == b.msb && r.msb != a.msb } }

/-- U(b) - U(a) - c: difference, borrow and signed overflow (R324, R325). -/
def subResult {w : Nat} (a b : BitVec w) (c : Bool) : Result w :=
  let r := b - a - BitVec.ofNat w (carryNat c)
  { val := r,
    flags := fun p => { p with c := decide (b.toNat < a.toNat + carryNat c), f := a.msb != b.msb && r.msb != b.msb } }

/-- 0 - U(a) (R326). -/
def negResult {w : Nat} (a : BitVec w) : Result w :=
  { val := 0 - a, flags := fun p => { p with c := a != 0, f := a == BitVec.twoPow w (w - 1) } }

/-- |S(a)| (R327): F alone is written. -/
def absResult {w : Nat} (a : BitVec w) : Result w :=
  { val := if a.msb then 0 - a else a, flags := fun p => { p with f := a == BitVec.twoPow w (w - 1) } }

/-- The flags of a comparison of a, the first operand, with b, the second (R340). -/
def cmpFlags {w : Nat} (a b : BitVec w) (p : Psr) : Psr :=
  { p with z := a == b, n := decide (b.toInt < a.toInt), l := decide (b.toNat < a.toNat) }

/-- The quotient rounded toward zero (R331, D19). -/
def quoResult {w : Nat} (a b : BitVec w) : BitVec w := BitVec.ofInt w (b.toInt.tdiv a.toInt)

/-- The remainder of QUO (R332, D19). -/
def remResult {w : Nat} (a b : BitVec w) : BitVec w := BitVec.ofInt w (b.toInt.tmod a.toInt)

/-- The quotient rounded down (R333, D19). -/
def divResult {w : Nat} (a b : BitVec w) : BitVec w := BitVec.ofInt w (b.toInt.fdiv a.toInt)

/-- The remainder of DIV (R334, D19). -/
def modResult {w : Nat} (a b : BitVec w) : BitVec w := BitVec.ofInt w (b.toInt.fmod a.toInt)

/-- The decimal value of d packed digits (R336). -/
def bcdValue : Nat → Nat → Nat
  | 0, _ => 0
  | d + 1, v => v % 16 + 10 * bcdValue d (v / 16)

/-- The d packed digits of a number (R336). -/
def bcdDigits : Nat → Nat → Nat
  | 0, _ => 0
  | d + 1, v => v % 10 + 16 * bcdDigits d (v / 10)

/-- Whether each of d digits is at most 9 (R336, U6). -/
def bcdValid : Nat → Nat → Bool
  | 0, _ => true
  | d + 1, v => decide (v % 16 ≤ 9) && bcdValid d (v / 16)

/-- BCD(a) + BCD(b) + c (R336). -/
def addpResult {w : Nat} (a b : BitVec w) (c : Bool) : Result w :=
  let d := w / 4
  let s := bcdValue d a.toNat + bcdValue d b.toNat + carryNat c
  { val := BitVec.ofNat w (bcdDigits d (s % 10 ^ d)),
    flags := fun p => { p with c := decide (10 ^ d ≤ s), f := false } }

/-- BCD(b) - BCD(a) - c (R337). -/
def subpResult {w : Nat} (a b : BitVec w) (c : Bool) : Result w :=
  let d := w / 4
  let x := bcdValue d b.toNat
  let y := bcdValue d a.toNat + carryNat c
  { val := BitVec.ofNat w (bcdDigits d ((x + 10 ^ d - y) % 10 ^ d)),
    flags := fun p => { p with c := decide (x < y), f := false } }

/-- A packed result: with a digit above 9 in an operand the result and C are free, F is cleared (U6, log 20). -/
def packed {w : Nat} (a b : BitVec w) (r : Result w) : M (Result w) :=
  if bcdValid (w / 4) a.toNat && bcdValid (w / 4) b.toNat then pure r
  else do
    let v ← fresh w
    let c ← fresh 1
    pure { val := v, flags := fun p => { p with c := c == 1, f := false } }

/-- A logical shift by a signed count, left if positive (R371, D18). -/
def lshResult {w : Nat} (c : Byte) (b : BitVec w) : BitVec w :=
  if c.msb then b >>> (-c).toNat else b <<< c.toNat

/-- An arithmetic shift by a signed count (R372, D18). -/
def ashResult {w : Nat} (c : Byte) (b : BitVec w) : BitVec w :=
  if c.msb then b.sshiftRight (-c).toNat else b <<< c.toNat

/-- A rotate by a signed count modulo the width (R373, D18). -/
def rotResult {w : Nat} (c : Byte) (b : BitVec w) : BitVec w :=
  let k := (c.toInt % w).toNat
  if k = 0 then b else (b <<< k) ||| (b >>> (w - k))

/-- The condition table (R215). -/
def condHolds (p : Psr) : Cond → Bool
  | .eq => p.z
  | .ne => !p.z
  | .cs => p.c
  | .cc => !p.c
  | .hi => p.l
  | .ls => !p.l
  | .gt => p.n
  | .le => !p.n
  | .fs => p.f
  | .fc => !p.f
  | .lo => !p.l && !p.z
  | .hs => p.l || p.z
  | .lt => !p.n && !p.z
  | .ge => p.n || p.z
  | .always => true
  | .never => false

/-- A signed 4-bit constant at the operand's length (R214). -/
def quick (q : BitVec 4) (n : Nat) : BitVec (8 * n) := q.signExtend (8 * n)

end Sys2Proof.Machine
end

