-- ==== Sys2Proof/Machine/Moves.lean ====
section
/-! DEFINITION. The move instructions (spec/41_moves.md). -/

namespace Sys2Proof.Machine

open Sys2Proof

/-- The number of elements of a block: disp / size(i) + 1; a displacement that is negative, no multiple of the size, or
gives more than 16 bytes is refused (R303, D20). -/
def blockCount (i : Size) (d : Disp) : M Nat :=
  let v := d.value
  if v.msb || v.toNat % i.bytes != 0 || decide (16 < v.toNat + i.bytes) then refuse .blockLength
  else pure (v.toNat / i.bytes + 1)

/-- Copy n elements, one at a time, at ascending addresses (R303). -/
def copyBlock (size : Nat) : Nat → Word → Word → M Unit
  | 0, _, _ => pure ()
  | n + 1, a1, a2 => do
    let v ← memRead a1 size
    memWrite a2 size v
    copyBlock size n (a1 + BitVec.ofNat 32 size) (a2 + BitVec.ofNat 32 size)

/-- MOVi (R301). -/
def execMovi (i : Size) (src dst : Gen) (s : State) : Host.Outcome State Fault Refusal :=
  finish (.movi i src dst) (moveOp src dst i.bytes i.bytes (fun a => pure (plain a))) s

/-- MOVQi (R302). -/
def execMovqi (i : Size) (q : BitVec 4) (dst : Gen) (s : State) : Host.Outcome State Fault Refusal :=
  finish (.movqi i q dst) (storeOp dst i.bytes (quick q i.bytes)) s

/-- MOVMi (R303). -/
def execMovmi (i : Size) (blk1 blk2 : Gen) (d : Disp) (s : State) : Host.Outcome State Fault Refusal :=
  finish (.movmi i blk1 blk2 d) (do
    let a1 ← ea blk1
    let a2 ← ea blk2
    let n ← blockCount i d
    copyBlock i.bytes n a1 a2
    pure .seq) s

/-- MOVZBW (R304). -/
def execMovzbw (src dst : Gen) (s : State) : Host.Outcome State Fault Refusal :=
  finish (.movzbw src dst) (moveOp src dst 1 2 (fun a => pure (plain (a.setWidth 16)))) s

/-- MOVZiD (R305). -/
def execMovzid (i : Size) (src dst : Gen) (s : State) : Host.Outcome State Fault Refusal :=
  finish (.movzid i src dst) (moveOp src dst i.bytes 4 (fun a => pure (plain (a.setWidth 32)))) s

/-- MOVXBW (R306). -/
def execMovxbw (src dst : Gen) (s : State) : Host.Outcome State Fault Refusal :=
  finish (.movxbw src dst) (moveOp src dst 1 2 (fun a => pure (plain (a.signExtend 16)))) s

/-- MOVXiD (R307). -/
def execMovxid (i : Size) (src dst : Gen) (s : State) : Host.Outcome State Fault Refusal :=
  finish (.movxid i src dst) (moveOp src dst i.bytes 4 (fun a => pure (plain (a.signExtend 32)))) s

/-- ADDR (R308). -/
def execAddr (src dst : Gen) (s : State) : Host.Outcome State Fault Refusal :=
  finish (.addr src dst) (do
    let a ← ea src
    storeOp dst 4 a) s

end Sys2Proof.Machine
end

