-- ==== Sys2Proof/Machine/Arith.lean ====
section
/-! DEFINITION. Integer arithmetic, packed decimal and comparison (spec/42_integer_arithmetic.md). -/

namespace Sys2Proof.Machine

open Sys2Proof

/-- The carry flag. -/
def carry : M Bool := peek (·.psr.c)

/-- ADDi (R321). -/
def execAddi (i : Size) (src dst : Gen) (s : State) : Host.Outcome State Fault Refusal :=
  finish (.addi i src dst) (modifyOp src dst i.bytes i.bytes (fun a b => pure (addResult a b false))) s

/-- ADDQi (R322): ADDi with the sign-extended constant. -/
def execAddqi (i : Size) (q : BitVec 4) (dst : Gen) (s : State) : Host.Outcome State Fault Refusal :=
  finish (.addqi i q dst) (do
    let d ← dstModify dst
    let b ← getDest d i.bytes
    let r := addResult (quick q i.bytes) b false
    putDest d i.bytes r.val
    updPsr r.flags
    pure .seq) s

/-- ADDCi (R323). -/
def execAddci (i : Size) (src dst : Gen) (s : State) : Host.Outcome State Fault Refusal :=
  finish (.addci i src dst) (modifyOp src dst i.bytes i.bytes (fun a b => do
    let c ← carry
    pure (addResult a b c))) s

/-- SUBi (R324). -/
def execSubi (i : Size) (src dst : Gen) (s : State) : Host.Outcome State Fault Refusal :=
  finish (.subi i src dst) (modifyOp src dst i.bytes i.bytes (fun a b => pure (subResult a b false))) s

/-- SUBCi (R325). -/
def execSubci (i : Size) (src dst : Gen) (s : State) : Host.Outcome State Fault Refusal :=
  finish (.subci i src dst) (modifyOp src dst i.bytes i.bytes (fun a b => do
    let c ← carry
    pure (subResult a b c))) s

/-- NEGi (R326). -/
def execNegi (i : Size) (src dst : Gen) (s : State) : Host.Outcome State Fault Refusal :=
  finish (.negi i src dst) (moveOp src dst i.bytes i.bytes (fun a => pure (negResult a))) s

/-- ABSi (R327). -/
def execAbsi (i : Size) (src dst : Gen) (s : State) : Host.Outcome State Fault Refusal :=
  finish (.absi i src dst) (moveOp src dst i.bytes i.bytes (fun a => pure (absResult a))) s

/-- MULi (R328). -/
def execMuli (i : Size) (src dst : Gen) (s : State) : Host.Outcome State Fault Refusal :=
  finish (.muli i src dst) (modifyOp src dst i.bytes i.bytes (fun a b => pure (plain (a * b)))) s

/-- The low half of a place of twice an operand's length (R329). -/
def Dest.low : Dest → Dest
  | .pair r => .reg r
  | d => d

/-- MEIi (R329): the low half of the destination is read, the whole 2i-wide destination is written. -/
def execMeii (i : Size) (src dst : Gen) (s : State) : Host.Outcome State Fault Refusal :=
  finish (.meii i src dst) (do
    let a ← rd src i.bytes
    let d ← dstDouble dst i
    let b ← getDest d.low i.bytes
    putDest d (2 * i.bytes) (BitVec.ofNat (8 * (2 * i.bytes)) (a.toNat * b.toNat))
    pure .seq) s

/-- Raise Trap (DVZ) when the divisor is zero (R330). -/
def divisor {w : Nat} (a : BitVec w) : M Unit := if a = 0 then raise .dvz else pure ()

/-- QUOi (R331). -/
def execQuoi (i : Size) (src dst : Gen) (s : State) : Host.Outcome State Fault Refusal :=
  finish (.quoi i src dst) (modifyOp src dst i.bytes i.bytes (fun a b => do
    divisor a
    pure (plain (quoResult a b)))) s

/-- REMi (R332). -/
def execRemi (i : Size) (src dst : Gen) (s : State) : Host.Outcome State Fault Refusal :=
  finish (.remi i src dst) (modifyOp src dst i.bytes i.bytes (fun a b => do
    divisor a
    pure (plain (remResult a b)))) s

/-- DIVi (R333). -/
def execDivi (i : Size) (src dst : Gen) (s : State) : Host.Outcome State Fault Refusal :=
  finish (.divi i src dst) (modifyOp src dst i.bytes i.bytes (fun a b => do
    divisor a
    pure (plain (divResult a b)))) s

/-- MODi (R334). -/
def execModi (i : Size) (src dst : Gen) (s : State) : Host.Outcome State Fault Refusal :=
  finish (.modi i src dst) (modifyOp src dst i.bytes i.bytes (fun a b => do
    divisor a
    pure (plain (modResult a b)))) s

/-- DEIi (R335): remainder in the low half, the low n bits of the quotient in the high half (D19). Both operands are read
before the divisor is tested (R614), so an odd register pair is refused (R256) even when the divisor is zero: R335 tests
before it names the destination (log 53, DESIGN CHOICE). -/
def execDeii (i : Size) (src dst : Gen) (s : State) : Host.Outcome State Fault Refusal :=
  finish (.deii i src dst) (do
    let a ← rd src i.bytes
    let d ← dstDouble dst i
    let b ← getDest d (2 * i.bytes)
    divisor a
    let q := b.toNat / a.toNat % 2 ^ (8 * i.bytes)
    putDest d (2 * i.bytes) (BitVec.ofNat (8 * (2 * i.bytes)) (b.toNat % a.toNat + q * 2 ^ (8 * i.bytes)))
    pure .seq) s

/-- ADDPi (R336). -/
def execAddpi (i : Size) (src dst : Gen) (s : State) : Host.Outcome State Fault Refusal :=
  finish (.addpi i src dst) (modifyOp src dst i.bytes i.bytes (fun a b => do
    let c ← carry
    packed a b (addpResult a b c))) s

/-- SUBPi (R337). -/
def execSubpi (i : Size) (src dst : Gen) (s : State) : Host.Outcome State Fault Refusal :=
  finish (.subpi i src dst) (modifyOp src dst i.bytes i.bytes (fun a b => do
    let c ← carry
    packed a b (subpResult a b c))) s

/-- CMPi (R340). -/
def execCmpi (i : Size) (src dst : Gen) (s : State) : Host.Outcome State Fault Refusal :=
  finish (.cmpi i src dst) (do
    let a ← rd src i.bytes
    let b ← rd dst i.bytes
    updPsr (cmpFlags a b)
    pure .seq) s

/-- CMPQi (R341). -/
def execCmpqi (i : Size) (q : BitVec 4) (src : Gen) (s : State) : Host.Outcome State Fault Refusal :=
  finish (.cmpqi i q src) (do
    let b ← rd src i.bytes
    updPsr (cmpFlags (quick q i.bytes) b)
    pure .seq) s

/-- Compare n elements until a pair differs (R342). -/
def compareBlock (size : Nat) : Nat → Word → Word → M Unit
  | 0, _, _ => updPsr (fun p => { p with z := true, n := false, l := false })
  | n + 1, a1, a2 => do
    let x ← memRead a1 size
    let y ← memRead a2 size
    if x = y then compareBlock size n (a1 + BitVec.ofNat 32 size) (a2 + BitVec.ofNat 32 size)
    else updPsr (cmpFlags x y)

/-- CMPMi (R342). -/
def execCmpmi (i : Size) (blk1 blk2 : Gen) (d : Disp) (s : State) : Host.Outcome State Fault Refusal :=
  finish (.cmpmi i blk1 blk2 d) (do
    let a1 ← ea blk1
    let a2 ← ea blk2
    let n ← blockCount i d
    compareBlock i.bytes n a1 a2
    pure .seq) s

end Sys2Proof.Machine
end

