-- ==== Sys2Proof/Machine/BitField.lean ====
section
/-! DEFINITION. Bit, bit-field and array instructions (spec/44_bits_fields_arrays.md). -/

namespace Sys2Proof.Machine

open Sys2Proof

/-! ### Single bits -/

/-- The byte that holds bit offset o from address a: a + (o div 8), the division rounding down (R381). -/
def bitCell (a o : Word) : Word := a + o.sshiftRight 3

/-- A single bit of a place: o mod 32 of a register, o mod 8 of a byte (R381). -/
def bitIndex (d : Dest) (o : Word) : Nat :=
  match d with
  | .mem _ => o.toNat % 8
  | _ => o.toNat % 32

/-- The cell of a single-bit instruction: the whole register, or one byte of memory (R381). -/
def bitPlace (d : Dest) (o : Word) : Dest :=
  match d with
  | .mem a => .mem (bitCell a o)
  | d => d

/-- Write a cell back with bit k as given; nothing is written for TBITi (R382-R387). -/
def putBit (cell : Dest) (n : Nat) (x : BitVec (8 * n)) (k : Nat) : Option Bool → M Unit
  | none => pure ()
  | some b => putDest cell n (if b then x ||| BitVec.twoPow (8 * n) k else x &&& ~~~BitVec.twoPow (8 * n) k)

/-- The bytes of a single-bit instruction's cell: one of memory, the whole of a register (R381). -/
def cellBytes : Dest → Nat
  | .mem _ => 1
  | _ => 4

/-- A single-bit instruction (R381-R387): F gets the bit; the cell is written back with the bit changed by `f`, for
TBITi not at all. -/
def bitOp (i : Size) (off base : Gen) (f : Option (Bool → Bool)) : M Next := do
  let v ← rd off i.bytes
  let o : Word := v.signExtend 32
  let d ← dstModify base
  let cell := bitPlace d o
  let k := bitIndex d o
  let n := cellBytes cell
  let x ← getDest cell n
  let old := x.getLsbD k
  putBit cell n x k (f.map (fun g => g old))
  updPsr (fun p => { p with f := old })
  pure .seq

/-- TBITi (R382). -/
def execTbiti (i : Size) (off base : Gen) (s : State) : Host.Outcome State Fault Refusal :=
  finish (.tbiti i off base) (bitOp i off base none) s

/-- SBITi (R383). -/
def execSbiti (i : Size) (off base : Gen) (s : State) : Host.Outcome State Fault Refusal :=
  finish (.sbiti i off base) (bitOp i off base (some (fun _ => true))) s

/-- SBITIi (R384): no interrupt falls inside it; DMA and HOLD cycles may fall between its read and its write, which are
bus cycles of their own (R153, R710). -/
def execSbitii (i : Size) (off base : Gen) (s : State) : Host.Outcome State Fault Refusal :=
  finish (.sbitii i off base) (bitOp i off base (some (fun _ => true))) s

/-- CBITi (R385). -/
def execCbiti (i : Size) (off base : Gen) (s : State) : Host.Outcome State Fault Refusal :=
  finish (.cbiti i off base) (bitOp i off base (some (fun _ => false))) s

/-- CBITIi (R386): interlocked as SBITIi. -/
def execCbitii (i : Size) (off base : Gen) (s : State) : Host.Outcome State Fault Refusal :=
  finish (.cbitii i off base) (bitOp i off base (some (fun _ => false))) s

/-- IBITi (R387). -/
def execIbiti (i : Size) (off base : Gen) (s : State) : Host.Outcome State Fault Refusal :=
  finish (.ibiti i off base) (bitOp i off base (some (fun b => !b))) s

/-- The first bit k, from `o` on, of `fuel` bits that is 1 (R388). -/
def firstSet {w : Nat} (b : BitVec w) : Nat → Nat → Option Nat
  | 0, _ => none
  | fuel + 1, k => if b.getLsbD k then some k else firstSet b fuel (k + 1)

/-- FFSi (R388, D31). -/
def execFfsi (i : Size) (base off : Gen) (s : State) : Host.Outcome State Fault Refusal :=
  finish (.ffsi i base off) (modifyOp base off i.bytes 1 (fun b o =>
    match firstSet b (8 * i.bytes - o.toNat) o.toNat with
    | some k => pure { val := BitVec.ofNat 8 k, flags := fun p => { p with f := false } }
    | none => pure { val := 0, flags := fun p => { p with f := true } })) s

/-! ### Bit fields -/

/-- The double-word of a field and the field's position in it (R390). -/
structure Field where
  place : Dest
  pos   : Nat
deriving DecidableEq, Repr

/-- The double-word that holds a field's first bit, and the bit's position in it (R390). -/
def fieldPlace (d : Dest) (o : Word) : M Field :=
  match d with
  | .mem a => pure { place := .mem (bitCell a o), pos := o.toNat % 8 }
  | d => do
    require .fieldRange (decide (o.toNat ≤ 31))
    pure { place := d, pos := o.toNat }

/-- Locate a field of `len` bits at bit offset `o` from a base (R390): a length outside 1..32, a register offset outside
0..31 and a field that leaves the double-word are refused (D31). -/
def locate (d : Dest) (o : Word) (len : Word) : M Field := do
  require .fieldRange (decide (1 ≤ len.toNat) && decide (len.toNat ≤ 32))
  let x ← fieldPlace d o
  require .fieldRange (decide (x.pos + len.toNat ≤ 32))
  pure x

/-- len ones. -/
def onesMask (len : Nat) : Word := BitVec.ofNat 32 (2 ^ len - 1)

/-- word[p + len - 1 : p] (R390). -/
def fieldOf (word : Word) (p len : Nat) : Word := (word >>> p) &&& onesMask len

/-- The double-word with a field replaced (R392). -/
def withField (word v : Word) (p len : Nat) : Word :=
  (word &&& ~~~(onesMask len <<< p)) ||| ((v &&& onesMask len) <<< p)

/-- Extract (R391, R393): the base and the destination are located, the field is read, zero-extended to i. -/
def extractOp (i : Size) (o len : Word) (base dst : Gen) : M Next := do
  let b ← dstModify base
  let x ← locate b o len
  let word ← getDest x.place 4
  let d ← dstWrite dst
  putDest d i.bytes ((fieldOf word x.pos len.toNat).setWidth (8 * i.bytes))
  pure .seq

/-- Insert (R392, R394): the source is read, then the double-word is read and written back. -/
def insertOp (i : Size) (o len : Word) (src base : Gen) : M Next := do
  let v ← rd src i.bytes
  let b ← dstModify base
  let x ← locate b o len
  let word ← getDest x.place 4
  putDest x.place 4 (withField word (v.setWidth 32) x.pos len.toNat)
  pure .seq

/-- EXTi (R391). -/
def execExti (i : Size) (off : Reg) (base dst : Gen) (len : Disp) (s : State) : Host.Outcome State Fault Refusal :=
  finish (.exti i off base dst len) (do
    let o ← getReg off
    extractOp i o len.value base dst) s

/-- INSi (R392). -/
def execInsi (i : Size) (off : Reg) (src base : Gen) (len : Disp) (s : State) : Host.Outcome State Fault Refusal :=
  finish (.insi i off src base len) (do
    let o ← getReg off
    insertOp i o len.value src base) s

/-- The offset packed in bits 7-5 of the immediate byte (R220, R393). -/
def shortOffset (imm : Byte) : Word := (imm >>> 5).setWidth 32

/-- The length packed in bits 4-0 of the immediate byte (R220, R393). -/
def shortLength (imm : Byte) : Word := (imm &&& 0x1F).setWidth 32 + 1

/-- EXTSi (R393). -/
def execExtsi (i : Size) (base dst : Gen) (imm : Byte) (s : State) : Host.Outcome State Fault Refusal :=
  finish (.extsi i base dst imm) (extractOp i (shortOffset imm) (shortLength imm) base dst) s

/-- INSSi (R394). -/
def execInssi (i : Size) (src base : Gen) (imm : Byte) (s : State) : Host.Outcome State Fault Refusal :=
  finish (.inssi i src base imm) (insertOp i (shortOffset imm) (shortLength imm) src base) s

/-- CVTP (R395). -/
def execCvtp (off : Reg) (base dst : Gen) (s : State) : Host.Outcome State Fault Refusal :=
  finish (.cvtp off base dst) (do
    let o ← getReg off
    let a ← ea base
    storeOp dst 4 (8 * a + o)) s

/-! ### Arrays -/

/-- The register of a failed CHECKi holds any value (U7, log 21). -/
def checkFailed (dst : Reg) : M Unit := do
  let v ← fresh 32
  setReg dst v

/-- CHECKi (R396). -/
def execChecki (i : Size) (dst : Reg) (bounds src : Gen) (s : State) : Host.Outcome State Fault Refusal :=
  finish (.checki i dst bounds src) (do
    let a ← ea bounds
    let upper ← memRead a i.bytes
    let lower ← memRead (a + BitVec.ofNat 32 i.bytes) i.bytes
    let v ← rd src i.bytes
    let ok : Bool := decide (lower.toInt ≤ v.toInt) && decide (v.toInt ≤ upper.toInt)
    if ok then setReg dst (v.signExtend 32 - lower.signExtend 32) else checkFailed dst
    updPsr (fun p => { p with f := !ok })
    pure .seq) s

/-- INDEXi (R397). -/
def execIndexi (i : Size) (acc : Reg) (len idx : Gen) (s : State) : Host.Outcome State Fault Refusal :=
  finish (.indexi i acc len idx) (do
    let l ← rd len i.bytes
    let x ← rd idx i.bytes
    let r ← getReg acc
    setReg acc (BitVec.ofNat 32 (r.toNat * (l.toNat + 1) + x.toNat))
    pure .seq) s

end Sys2Proof.Machine
end

