-- ==== Sys2Proof/Machine/Control.lean ====
section
/-! DEFINITION. Branches, calls, returns, traps by instruction and procedure linkage (spec/46_control.md). -/

namespace Sys2Proof.Machine

open Sys2Proof

/-- The address after an instruction (R35). -/
def afterInstr (i : Instr) : M Word := do
  let pc ← peek (·.pc)
  pure (pc + BitVec.ofNat 32 (instrLength i))

/-! ### Branches and jumps -/

/-- A conditional branch (R441). -/
def branch (c : Cond) (d : Disp) : M Next := do
  let p ← peek (·.psr)
  let pc ← peek (·.pc)
  if condHolds p c then pure (.jump (pc + d.value)) else pure .seq

/-- BEQ (R441). -/
def execBeq (d : Disp) (s : State) : Host.Outcome State Fault Refusal :=
  finish (.beq d) (branch .eq d) s

/-- BNE (R441). -/
def execBne (d : Disp) (s : State) : Host.Outcome State Fault Refusal :=
  finish (.bne d) (branch .ne d) s

/-- BCS (R441). -/
def execBcs (d : Disp) (s : State) : Host.Outcome State Fault Refusal :=
  finish (.bcs d) (branch .cs d) s

/-- BCC (R441). -/
def execBcc (d : Disp) (s : State) : Host.Outcome State Fault Refusal :=
  finish (.bcc d) (branch .cc d) s

/-- BHI (R441). -/
def execBhi (d : Disp) (s : State) : Host.Outcome State Fault Refusal :=
  finish (.bhi d) (branch .hi d) s

/-- BLS (R441). -/
def execBls (d : Disp) (s : State) : Host.Outcome State Fault Refusal :=
  finish (.bls d) (branch .ls d) s

/-- BGT (R441). -/
def execBgt (d : Disp) (s : State) : Host.Outcome State Fault Refusal :=
  finish (.bgt d) (branch .gt d) s

/-- BLE (R441). -/
def execBle (d : Disp) (s : State) : Host.Outcome State Fault Refusal :=
  finish (.ble d) (branch .le d) s

/-- BFS (R441). -/
def execBfs (d : Disp) (s : State) : Host.Outcome State Fault Refusal :=
  finish (.bfs d) (branch .fs d) s

/-- BFC (R441). -/
def execBfc (d : Disp) (s : State) : Host.Outcome State Fault Refusal :=
  finish (.bfc d) (branch .fc d) s

/-- BLO (R441). -/
def execBlo (d : Disp) (s : State) : Host.Outcome State Fault Refusal :=
  finish (.blo d) (branch .lo d) s

/-- BHS (R441). -/
def execBhs (d : Disp) (s : State) : Host.Outcome State Fault Refusal :=
  finish (.bhs d) (branch .hs d) s

/-- BLT (R441). -/
def execBlt (d : Disp) (s : State) : Host.Outcome State Fault Refusal :=
  finish (.blt d) (branch .lt d) s

/-- BGE (R441). -/
def execBge (d : Disp) (s : State) : Host.Outcome State Fault Refusal :=
  finish (.bge d) (branch .ge d) s

/-- BR (R441). -/
def execBr (d : Disp) (s : State) : Host.Outcome State Fault Refusal :=
  finish (.br d) (branch .always d) s

/-- Bcond(1111) (R441). -/
def execBnever (d : Disp) (s : State) : Host.Outcome State Fault Refusal :=
  finish (.bnever d) (branch .never d) s

/-- JUMP (R442). -/
def execJump (dst : Gen) (s : State) : Host.Outcome State Fault Refusal :=
  finish (.jump dst) (do
    let a ← ea dst
    pure (.jump a)) s

/-- CASEi (R443). -/
def execCasei (i : Size) (idx : Gen) (s : State) : Host.Outcome State Fault Refusal :=
  finish (.casei i idx) (do
    let v ← rd idx i.bytes
    let pc ← peek (·.pc)
    pure (.jump (pc + v.signExtend 32))) s

/-- ACBi (R444). -/
def execAcbi (i : Size) (q : BitVec 4) (idx : Gen) (d : Disp) (s : State) : Host.Outcome State Fault Refusal :=
  finish (.acbi i q idx d) (do
    let x ← dstModify idx
    let v ← getDest x i.bytes
    let r := v + quick q i.bytes
    putDest x i.bytes r
    let pc ← peek (·.pc)
    if r = 0 then pure .seq else pure (.jump (pc + d.value))) s

/-! ### Subroutines -/

/-- JSR (R445). -/
def execJsr (dst : Gen) (s : State) : Host.Outcome State Fault Refusal :=
  finish (.jsr dst) (do
    let a ← ea dst
    let ret ← afterInstr (.jsr dst)
    push 4 ret
    pure (.jump a)) s

/-- BSR (R446). -/
def execBsr (d : Disp) (s : State) : Host.Outcome State Fault Refusal :=
  finish (.bsr d) (do
    let ret ← afterInstr (.bsr d)
    push 4 ret
    let pc ← peek (·.pc)
    pure (.jump (pc + d.value))) s

/-- Move the selected stack pointer up (R447, R452, R460). -/
def discard (n : Word) : M Unit := do
  let sp ← getSp
  setSp (sp + n)

/-- RET (R447). -/
def execRet (d : Disp) (s : State) : Host.Outcome State Fault Refusal :=
  finish (.ret d) (do
    let a ← pop 4
    discard d.value
    pure (.jump a)) s

/-! ### Calls between modules -/

/-- Enter the procedure of a descriptor: save MOD in a double-word slot and the return address, load MOD, SB and PC
(R450). -/
def callDescriptor (desc ret : Word) : M Next := do
  let m : Half := desc.setWidth 16
  let offset : Half := desc.extractLsb' 16 16
  let sp ← getSp
  let old ← peek (·.mod)
  memWrite (sp - 4) 2 old
  setSp (sp - 4)
  push 4 ret
  upd (fun s => { s with mod := m })
  let static ← memRead (m.setWidth 32) 4
  upd (fun s => { s with sb := static })
  let program ← memRead (m.setWidth 32 + 8) 4
  pure (.jump (program + offset.setWidth 32))

/-- A procedure descriptor, read as two words (R450). -/
def readDescriptor (a : Word) : M Word := do
  let m ← memRead a 2
  let offset ← memRead (a + 2) 2
  pure (offset ++ m)

/-- CXP (R450). R450 calls the displacement an unsigned number, R186 extends the sign of every displacement; the model
follows R186 (log 52, DESIGN CHOICE). -/
def execCxp (d : Disp) (s : State) : Host.Outcome State Fault Refusal :=
  finish (.cxp d) (do
    let m ← peek State.modAddr
    let link ← memRead (m + 4) 4
    let desc ← readDescriptor (link + 4 * d.value)
    let ret ← afterInstr (.cxp d)
    callDescriptor desc ret) s

/-- CXPD (R451). -/
def execCxpd (desc : Gen) (s : State) : Host.Outcome State Fault Refusal :=
  finish (.cxpd desc) (do
    let a ← ea desc
    let v ← readDescriptor a
    let ret ← afterInstr (.cxpd desc)
    callDescriptor v ret) s

/-- RXP (R452). -/
def execRxp (d : Disp) (s : State) : Host.Outcome State Fault Refusal :=
  finish (.rxp d) (do
    let a ← pop 4
    let sp ← getSp
    let m ← memRead sp 2
    upd (fun s => { s with mod := m })
    setSp (sp + 4)
    let static ← memRead (m.setWidth 32) 4
    upd (fun s => { s with sb := static })
    discard d.value
    pure (.jump a)) s

/-! ### Stack frames -/

/-- Push the listed registers, the lowest first (R216, R455, R487). -/
def pushRegs : List Reg → M Unit
  | [] => pure ()
  | r :: t => do
    let v ← getReg r
    push 4 v
    pushRegs t

/-- Pop the listed registers in list order (R216, R456, R488). -/
def popRegs : List Reg → M Unit
  | [] => pure ()
  | r :: t => do
    let v ← pop 4
    setReg r v
    popRegs t

/-- The registers R0 .. R7. -/
def allRegs : List Reg := [.r0, .r1, .r2, .r3, .r4, .r5, .r6, .r7]

/-- The registers of a SAVE or ENTER list byte, in the order they are pushed: bit n is Rn (R216). -/
def saveList (l : Byte) : List Reg := allRegs.filter (fun r => l.getLsbD r.num)

/-- The registers of a RESTORE or EXIT list byte, in the order they are popped: bit 7 - n is Rn (R216). -/
def restoreList (l : Byte) : List Reg := allRegs.reverse.filter (fun r => l.getLsbD (7 - r.num))

/-- ENTER (R455). -/
def execEnter (l : Byte) (d : Disp) (s : State) : Host.Outcome State Fault Refusal :=
  finish (.enter l d) (do
    let fp ← peek (·.fp)
    push 4 fp
    let sp ← getSp
    upd (fun s => { s with fp := sp })
    setSp (sp - d.value)
    pushRegs (saveList l)
    pure .seq) s

/-- EXIT (R456). -/
def execExit (l : Byte) (s : State) : Host.Outcome State Fault Refusal :=
  finish (.exit l) (do
    popRegs (restoreList l)
    let fp ← peek (·.fp)
    setSp fp
    let v ← pop 4
    upd (fun s => { s with fp := v })
    pure .seq) s

/-- SAVE (R487). -/
def execSave (l : Byte) (s : State) : Host.Outcome State Fault Refusal :=
  finish (.save l) (do
    pushRegs (saveList l)
    pure .seq) s

/-- RESTORE (R488). -/
def execRestore (l : Byte) (s : State) : Host.Outcome State Fault Refusal :=
  finish (.restore l) (do
    popRegs (restoreList l)
    pure .seq) s

/-! ### Instructions that trap -/

/-- SVC (R457). -/
def execSvc (s : State) : Host.Outcome State Fault Refusal :=
  finish .svc (raise .svc) s

/-- FLAG (R458). -/
def execFlag (s : State) : Host.Outcome State Fault Refusal :=
  finish .flag (do
    let f ← peek (·.psr.f)
    if f then raise .flg else pure .seq) s

/-- BPT (R459). -/
def execBpt (s : State) : Host.Outcome State Fault Refusal :=
  finish .bpt (raise .bpt) s

/-! ### Returning from exceptions -/

/-- RETT (R460, R462). -/
def execRett (d : Disp) (s : State) : Host.Outcome State Fault Refusal :=
  finish (.rett d) (do
    privileged
    let a ← returnFromException d.value
    pure (.jump a)) s

/-- RETI (R461, R462): the End-of-Interrupt cycle, then as RETT 0. -/
def execReti (s : State) : Host.Outcome State Fault Refusal :=
  finish .reti (do
    privileged
    gap
    upd State.endOfInterrupt
    let a ← returnFromException 0
    pure (.jump a)) s

end Sys2Proof.Machine
end

