-- ==== Sys2Proof/Machine/CpuRegs.lean ====
section
/-! DEFINITION. Dedicated registers, the PSR, CFG and the miscellaneous instructions (spec/47_cpu_register_misc.md). -/

namespace Sys2Proof.Machine

open Sys2Proof

/-- Trap (ILL) in User mode when the register is PSR or INTBASE (R480, R670). -/
def aregPrivilege (a : AReg) : M Unit :=
  match a with
  | .psr | .intbase => privileged
  | .us | .fp | .sp | .sb | .mod => pure ()

/-- The low n bits of a 16-bit value replaced, n capped at 16 (R481). -/
def mergeHalf {w : Nat} (old : Half) (v : BitVec w) : Half :=
  (mergeLow (old.setWidth 32) v).setWidth 16

/-- PSR[w-1:0] replaced, w capped at 16; after any write bits 15-13 read as anything (R59, R481). -/
def setPsrLow {w : Nat} (v : BitVec w) : M Unit :=
  upd (fun s => { s with
    psr := Psr.ofBits (mergeHalf s.psr.toBits v),
    psrTouched := true })

/-- Replace the low bits of a dedicated register (R481). -/
def writeAreg {w : Nat} (a : AReg) (v : BitVec w) : M Unit :=
  match a with
  | .us => setPsrLow (v.setWidth 8)
  | .psr => setPsrLow v
  | .mod => upd (fun s => { s with mod := mergeHalf s.mod v })
  | .fp => upd (fun s => { s with fp := mergeLow s.fp v })
  | .sb => upd (fun s => { s with sb := mergeLow s.sb v })
  | .intbase => upd (fun s => { s with intbase := mergeLow s.intbase v })
  | .sp => upd (fun s => s.setSp (mergeLow s.sp v))

/-- LPRi (R481). -/
def execLpri (i : Size) (a : AReg) (src : Gen) (s : State) : Host.Outcome State Fault Refusal :=
  finish (.lpri i a src) (do
    aregPrivilege a
    let v ← rd src i.bytes
    writeAreg a v
    pure .seq) s

/-- The value of a dedicated register, zero-extended (R482). -/
def readAreg (a : AReg) : M Word :=
  match a with
  | .us => peek (fun s => (s.psr.toBits.setWidth 8).setWidth 32)
  | .psr => do
    let v ← readPsr
    pure (v.setWidth 32)
  | .mod => peek State.modAddr
  | .fp => peek (·.fp)
  | .sb => peek (·.sb)
  | .intbase => peek (·.intbase)
  | .sp => getSp

/-- SPRi (R482): the value is read before a push moves SP. -/
def execSpri (i : Size) (a : AReg) (dst : Gen) (s : State) : Host.Outcome State Fault Refusal :=
  finish (.spri i a dst) (do
    aregPrivilege a
    let v ← readAreg a
    storeOp dst i.bytes (v.setWidth (8 * i.bytes))) s

/-- ADJSPi (R483). -/
def execAdjspi (i : Size) (src : Gen) (s : State) : Host.Outcome State Fault Refusal :=
  finish (.adjspi i src) (do
    let v ← rd src i.bytes
    let sp ← getSp
    setSp (sp - v.signExtend 32)
    pure .seq) s

/-- Trap (ILL) in User mode when the length is not Byte (R484, R485, R670). -/
def psrLengthPrivilege (i : Size) : M Unit :=
  match i with
  | .b => pure ()
  | .w | .d => privileged

/-- BISPSRi (R484); i = D is no encoding (R204, R232). -/
def execBispsri (i : Size) (src : Gen) (s : State) : Host.Outcome State Fault Refusal :=
  finish (.bispsri i src) (do
    require (.encoding .sizeField) (i != .d)
    psrLengthPrivilege i
    let v ← rd src i.bytes
    let old ← peek (fun s => s.psr.toBits)
    setPsrLow (old.setWidth (8 * i.bytes) ||| v)
    purge
    pure .seq) s

/-- BICPSRi (R485); i = D is no encoding (R204, R232). -/
def execBicpsri (i : Size) (src : Gen) (s : State) : Host.Outcome State Fault Refusal :=
  finish (.bicpsri i src) (do
    require (.encoding .sizeField) (i != .d)
    psrLengthPrivilege i
    let v ← rd src i.bytes
    let old ← peek (fun s => s.psr.toBits)
    setPsrLow (old.setWidth (8 * i.bytes) &&& ~~~v)
    purge
    pure .seq) s

/-- SETCFG (R486): the whole register is loaded. -/
def execSetcfg (o : CfgOpts) (s : State) : Host.Outcome State Fault Refusal :=
  finish (.setcfg o) (do
    privileged
    upd (fun s => { s with cfg := { i := o.i, f := o.f, m := o.m, c := o.c, de := o.de } })
    pure .seq) s

/-- NOP (R489). -/
def execNop (s : State) : Host.Outcome State Fault Refusal :=
  finish .nop (pure .seq) s

/-- WAIT (R490): complete, then the Waiting-For-An-Interrupt state. -/
def execWait (s : State) : Host.Outcome State Fault Refusal :=
  finish .wait (do
    upd (fun s => { s with op := .waiting })
    pure .seq) s

/-- DIA (R491): a branch to itself. -/
def execDia (s : State) : Host.Outcome State Fault Refusal :=
  finish .dia (do
    let pc ← peek (·.pc)
    pure (.jump pc)) s

end Sys2Proof.Machine
end

