-- ==== Sys2Proof/Machine/Float.lean ====
section
/-! DEFINITION. The floating-point instructions: the CPU's side of the slave protocol (spec/48_floating_point.md). -/

namespace Sys2Proof.Machine

open Sys2Proof

/-- Trap (UND) when CFG.F = 0, before any operand is read (R510). -/
def needFpu : M Unit := do
  let f ← peek (·.cfg.f)
  if f then pure () else raise .und

/-- A floating operand of n bytes that is read: nothing for an FPU register, else the value issued (R257, R514). -/
def fread (g : Gen) (n : Nat) : M (Option (BitVec 64)) :=
  match g with
  | .mode (.reg _) => pure none
  | g => do
    let v ← rd g n
    pure (some (v.setWidth 64))

/-- Where the CPU writes a floating result of class write: nowhere for an FPU register (R514). -/
def fwrite (g : Gen) : M (Option Dest) :=
  match g with
  | .mode (.reg _) => pure none
  | g => do
    let d ← dstWrite g
    pure (some d)

/-- A floating operand of class rmw: its place and the value issued (R514). -/
def fmodify (g : Gen) (n : Nat) : M (Option Dest × Option (BitVec 64)) :=
  match g with
  | .mode (.reg _) => pure (none, none)
  | g => do
    let d ← dstModify g
    let v ← getDest d n
    pure (some d, some (v.setWidth 64))

/-- The operation word: instruction bytes 1 and 2 (R512 step 2). -/
def operationWord (i : Instr) : Half :=
  ((encode i).getD 2 0) ++ ((encode i).getD 1 0)

/-- What the CPU sends in steps 1 to 3 (R512). -/
def requestOf (i : Instr) (op1 op2 : Option (BitVec 64)) : FpuRequest :=
  { idByte := (encode i).getD 0 0, opWord := operationWord i, op1 := op1, op2 := op2 }

/-- The slave's answer: the next reply laid down, or FPU_EXEC (R513, log 12). -/
def Fpu.reply (f : Fpu) (q : FpuRequest) : FpuReply :=
  match f.replies with
  | r :: _ => r
  | [] => Config.fpuExec f.st q

/-- The protocol (R512): send, wait, read the Status Word, trap on its Q bit, else go on with the reply. Without an FPU
the CPU waits for ever (R511, log 13). -/
def protocol (i : Instr) (op1 op2 : Option (BitVec 64)) (k : FpuReply → M Unit) : M Next := do
  let q := requestOf i op1 op2
  let has ← peek (·.plat.hasFpu)
  let f ← peek (·.fpu)
  if has then do
    let r := f.reply q
    upd (fun s => { s with fpu := { st := r.state, replies := f.replies.tail, last := some q } })
    onlyIf (r.status.getLsbD 0) (raise .slave)
    k r
    pure .seq
  else do
    upd (fun s => { s with fpu := { f with last := some q }, op := .waitingForSlave })
    pure .stay

/-- Write a result of n bytes to a CPU-side place (R512 step 7). -/
def fresult (d : Option Dest) (n : Nat) (r : FpuReply) : M Unit :=
  match d with
  | none => pure ()
  | some d => putDest d n (r.result.setWidth (8 * n))

/-- read.f, rmw.f: both issued, the result to operand 2. -/
def floatModify (i : Instr) (f : FSize) (src dst : Gen) : M Next := do
  needFpu
  let a ← fread src f.bytes
  let b ← fmodify dst f.bytes
  protocol i a b.2 (fresult b.1 f.bytes)

/-- A floating operand read and issued, a floating result of n bytes written. -/
def floatMove (i : Instr) (m n : Nat) (src dst : Gen) : M Next := do
  needFpu
  let a ← fread src m
  let d ← fwrite dst
  protocol i a none (fresult d n)

/-- Two floating operands read and issued, nothing returned. -/
def floatRead (i : Instr) (f : FSize) (a b : Gen) (k : FpuReply → M Unit) : M Next := do
  needFpu
  let x ← fread a f.bytes
  let y ← fread b f.bytes
  protocol i x y k

/-- A floating operand converted to an integer in a CPU register or in memory (R514). -/
def floatToInt (i : Instr) (f : FSize) (z : Size) (src dst : Gen) : M Next := do
  needFpu
  let a ← fread src f.bytes
  let d ← dstWrite dst
  protocol i a none (fresult (some d) z.bytes)

/-- ADDf (R520). -/
def execAddf (f : FSize) (src dst : Gen) (s : State) : Host.Outcome State Fault Refusal :=
  finish (.addf f src dst) (floatModify (.addf f src dst) f src dst) s

/-- SUBf (R521). -/
def execSubf (f : FSize) (src dst : Gen) (s : State) : Host.Outcome State Fault Refusal :=
  finish (.subf f src dst) (floatModify (.subf f src dst) f src dst) s

/-- MULf (R522). -/
def execMulf (f : FSize) (src dst : Gen) (s : State) : Host.Outcome State Fault Refusal :=
  finish (.mulf f src dst) (floatModify (.mulf f src dst) f src dst) s

/-- DIVf (R523). -/
def execDivf (f : FSize) (src dst : Gen) (s : State) : Host.Outcome State Fault Refusal :=
  finish (.divf f src dst) (floatModify (.divf f src dst) f src dst) s

/-- MOVf (R524). -/
def execMovf (f : FSize) (src dst : Gen) (s : State) : Host.Outcome State Fault Refusal :=
  finish (.movf f src dst) (floatMove (.movf f src dst) f.bytes f.bytes src dst) s

/-- ABSf (R525). -/
def execAbsf (f : FSize) (src dst : Gen) (s : State) : Host.Outcome State Fault Refusal :=
  finish (.absf f src dst) (floatMove (.absf f src dst) f.bytes f.bytes src dst) s

/-- NEGf (R526). -/
def execNegf (f : FSize) (src dst : Gen) (s : State) : Host.Outcome State Fault Refusal :=
  finish (.negf f src dst) (floatMove (.negf f src dst) f.bytes f.bytes src dst) s

/-- CMPf (R527): N and Z from the Status Word, at the places of R515; L is always cleared (R48, R515). -/
def execCmpf (f : FSize) (src dst : Gen) (s : State) : Host.Outcome State Fault Refusal :=
  finish (.cmpf f src dst) (floatRead (.cmpf f src dst) f src dst (fun r =>
    updPsr (fun p => { p with n := r.status.getLsbD 7, z := r.status.getLsbD 6, l := false }))) s

/-- FLOORfi (R528). -/
def execFloorfi (f : FSize) (i : Size) (src dst : Gen) (s : State) : Host.Outcome State Fault Refusal :=
  finish (.floorfi f i src dst) (floatToInt (.floorfi f i src dst) f i src dst) s

/-- TRUNCfi (R529). -/
def execTruncfi (f : FSize) (i : Size) (src dst : Gen) (s : State) : Host.Outcome State Fault Refusal :=
  finish (.truncfi f i src dst) (floatToInt (.truncfi f i src dst) f i src dst) s

/-- ROUNDfi (R530). -/
def execRoundfi (f : FSize) (i : Size) (src dst : Gen) (s : State) : Host.Outcome State Fault Refusal :=
  finish (.roundfi f i src dst) (floatToInt (.roundfi f i src dst) f i src dst) s

/-- MOVFL (R531). -/
def execMovfl (x : FBits) (src dst : Gen) (s : State) : Host.Outcome State Fault Refusal :=
  finish (.movfl x src dst) (floatMove (.movfl x src dst) 4 8 src dst) s

/-- MOVLF (R532). -/
def execMovlf (x : FBits) (src dst : Gen) (s : State) : Host.Outcome State Fault Refusal :=
  finish (.movlf x src dst) (floatMove (.movlf x src dst) 8 4 src dst) s

/-- MOVif (R533): the integer operand is a CPU operand in every mode. -/
def execMovif (f : FSize) (i : Size) (src dst : Gen) (s : State) : Host.Outcome State Fault Refusal :=
  finish (.movif f i src dst) (do
    needFpu
    let a ← rd src i.bytes
    let d ← fwrite dst
    protocol (.movif f i src dst) (some (a.setWidth 64)) none (fresult d f.bytes)) s

/-- LFSR (R534): the value issued becomes the FPU's FSR. -/
def execLfsr (x : FBits) (src : Gen) (s : State) : Host.Outcome State Fault Refusal :=
  finish (.lfsr x src) (do
    needFpu
    let a ← rd src 4
    protocol (.lfsr x src) (some (a.setWidth 64)) none (fun _ =>
      upd (fun s => { s with fpu := { s.fpu with st := { s.fpu.st with fsr := a } } }))) s

/-- SFSR (R535): the FSR the unit held is stored, the double-word it returns. -/
def execSfsr (x : FBits) (dst : Gen) (s : State) : Host.Outcome State Fault Refusal :=
  finish (.sfsr x dst) (do
    needFpu
    let d ← dstWrite dst
    let fsr ← peek (·.fpu.st.fsr)
    protocol (.sfsr x dst) none none (fun _ => putDest d 4 fsr)) s

/-- POLYf (R536): the result goes to F0, inside the FPU. -/
def execPolyf (f : FSize) (src dst : Gen) (s : State) : Host.Outcome State Fault Refusal :=
  finish (.polyf f src dst) (floatRead (.polyf f src dst) f src dst (fun _ => pure ())) s

/-- DOTf (R537): the result goes to F0, inside the FPU. -/
def execDotf (f : FSize) (src dst : Gen) (s : State) : Host.Outcome State Fault Refusal :=
  finish (.dotf f src dst) (floatRead (.dotf f src dst) f src dst (fun _ => pure ())) s

/-- SCALBf (R538). -/
def execScalbf (f : FSize) (src dst : Gen) (s : State) : Host.Outcome State Fault Refusal :=
  finish (.scalbf f src dst) (floatModify (.scalbf f src dst) f src dst) s

/-- LOGBf (R539). -/
def execLogbf (f : FSize) (src dst : Gen) (s : State) : Host.Outcome State Fault Refusal :=
  finish (.logbf f src dst) (floatMove (.logbf f src dst) f.bytes f.bytes src dst) s

end Sys2Proof.Machine
end

