-- ==== Sys2Proof/Machine/Bpu.lean ====
section
/-! DEFINITION. The BITBLT Processing Unit's data path (spec/61_peripherals.md R682-R685). -/

namespace Sys2Proof.Machine

open Sys2Proof

/-- The right mask: bit b is 1 when b ≤ RM (R71). -/
def rightMask (rm : BitVec 4) : Half := BitVec.ofNat 16 (2 ^ (rm.toNat + 1) - 1)

/-- The left mask: bit b is 1 when b ≥ LM (R72). -/
def leftMask (lm : BitVec 4) : Half := BitVec.ofNat 16 (2 ^ 16 - 2 ^ lm.toNat)

/-- The barrel shifter: trunc_16((B:A) >> SN) (R683). -/
def barrel (a b : Half) (sn : BitVec 4) : Half := ((b ++ a) >>> sn.toNat).setWidth 16

/-- The bitwise function of Table 2-3: each bit is FS[3 - 2 s - d] (R73). -/
def bltFunction (fs : BitVec 4) (s d : Half) : Half :=
  (if fs.getLsbD 0 then s &&& d else 0) ||| (if fs.getLsbD 1 then s &&& ~~~d else 0)
    ||| (if fs.getLsbD 2 then ~~~s &&& d else 0) ||| (if fs.getLsbD 3 then ~~~s &&& ~~~d else 0)

/-- The words of a scan line: N = 256 - WCNT (R75). -/
def Bpu.lineWords (b : Bpu) : Nat := 256 - b.wcnt.toNat

/-- The mask of word `w` of a scan line (R685, D30). -/
def Bpu.mask (b : Bpu) (w : Nat) : Half :=
  let m0 : Half := if w = 0 ∧ b.brme then rightMask b.rm else 0xFFFF
  let m1 : Half := if w = 0 ∧ b.blme then leftMask b.lm else 0xFFFF
  let m2 : Half := if w + 1 = b.lineWords ∧ b.erme then rightMask b.rm else 0xFFFF
  let m3 : Half := if w + 1 = b.lineWords ∧ b.elme then leftMask b.lm else 0xFFFF
  m0 &&& m1 &&& m2 &&& m3

/-- The word driven on the bus for word `w` of a line, from the latches' values (R684, R685). -/
def Bpu.result (b : Bpu) (w : Nat) (sdil bil ddil : Half) : Half :=
  let c := if b.bis then barrel bil sdil b.sn else barrel sdil bil b.sn
  let f := bltFunction b.fs c ddil
  (f &&& b.mask w) ||| (ddil &&& ~~~b.mask w)

/-- A source-read cycle: BIL takes SDIL, SDIL the data (R682). -/
def bpuSource (v : Half) : M Unit := updBpu (fun b => { b with bil := b.sdil, sdil := some v })

/-- A destination-read cycle: DDIL takes the data (R682). -/
def bpuDest (v : Half) : M Unit := updBpu (fun b => { b with ddil := some v })

/-- A latch's value; free if it was never loaded (R682, U4, log 18). -/
def latch (v : Option Half) : M Half :=
  match v with
  | some x => pure x
  | none => fresh 16

/-- The destination-write cycle's data for word `w` of a line. -/
def bpuResult (w : Nat) : M Half := do
  let b ← peek (·.bpu)
  let sdil ← latch b.sdil
  let bil ← latch b.bil
  let ddil ← latch b.ddil
  pure (b.result w sdil bil ddil)

end Sys2Proof.Machine
end

