-- ==== Sys2Proof/Machine/Env.lean ====
section
/-! DEFINITION. The events before a step's checks, and the interruptible points inside an instruction
(spec/60_exceptions.md R640). -/

namespace Sys2Proof.Machine

open Sys2Proof

/-- The events that arrive before a step's checks, and those laid down for the points inside its instruction. -/
def arrive : M Unit := do
  let q ← peek (·.inputs)
  match q with
  | [] => upd (fun s => { s with within := [] })
  | x :: rest => do
    upd (fun s => { s with inputs := rest, within := x.within })
    events x.before

/-! ### Interruptible points -/

/-- What an interruptible point finds: nothing to do, or an interrupt to take. -/
inductive Point where
  | goOn | interrupt
deriving DecidableEq, Repr

/-- One interruptible point (R640, D16): the events laid down for it happen, then requests are sampled, unless the
environment lets the point pass (INTERRUPT_POINTS, log 33). -/
def point : M Point := do
  let w ← peek (·.within)
  gap
  let s ← get
  if s.interruptPending && !(w.headD []).contains .passPoint then pure .interrupt else pure .goOn

/-- How a loop of an interruptible instruction ended. -/
inductive Ended where
  | done | interrupted
deriving DecidableEq, Repr

/-- A loop with an interruptible point between two iterations. `body` does one iteration and says whether another
follows; `fuel` bounds the iterations and is the count the instruction's registers give. -/
def loop (body : M Bool) : Nat → M Ended
  | 0 => pure .done
  | n + 1 => do
    let again ← body
    if again then do
      let p ← point
      match p with
      | .goOn => loop body n
      | .interrupt => pure .interrupted
    else pure .done

/-- The end of an interruptible instruction (R631, R640): in sequence, or the interrupt with the address of this
instruction; `clearP` is the string instructions' clearing of PSR.P before the copy is saved. -/
def endLoop (clearP : Bool) (e : Ended) : M Next :=
  match e with
  | .done => pure .seq
  | .interrupted => do
    onlyIf clearP clearPending
    let ret ← peek (·.pc)
    interruptSequence ret
    pure .stay

end Sys2Proof.Machine
end

