-- ==== Sys2Proof/Machine/Graphics.lean ====
section
/-! DEFINITION. The graphics instructions (spec/49_graphics.md). -/

namespace Sys2Proof.Machine

open Sys2Proof

/-! ### BB instructions and BITWT -/

/-- The combining functions of the BB instructions (R554). -/
inductive BBFn where
  | land | lor | lxor | stod
deriving DecidableEq, Repr

/-- The new destination double-word (R554), from the masked and shifted source and the shifted mask. -/
def bbCombine (fn : BBFn) (d s m : Word) : Word :=
  match fn with
  | .lor => d ||| s
  | .lxor => d ^^^ s
  | .land => d &&& (s ||| ~~~m)
  | .stod => (d &&& ~~~m) ||| s

/-- The mask of word `w` of a line of `width` words: R4 for the first, R5 for the last (R554). -/
def bbMask (first last : Word) (w width : Nat) : Half :=
  (if w = 0 then first.setWidth 16 else 0xFFFF) &&& (if w + 1 = width then last.setWidth 16 else 0xFFFF)

/-- One word of a line (R554). -/
def bbWord (fn : BBFn) (o : BBOpts) (w width : Nat) : M Unit := do
  let r0 ← getReg .r0
  let r1 ← getReg .r1
  let r2 ← getReg .r2
  let r4 ← getReg .r4
  let r5 ← getReg .r5
  let v ← memRead r0 2
  let s : Half := if o.negS then ~~~v else v
  let m := bbMask r4 r5 w width
  let d ← memRead r1 4
  let s32 : Word := (s &&& m).setWidth 32 <<< r2.toNat
  let m32 : Word := m.setWidth 32 <<< r2.toNat
  memWrite r1 4 (bbCombine fn d s32 m32)
  let step : Word := if o.da then -2 else 2
  setReg .r0 (r0 + step)
  setReg .r1 (r1 + step)

/-- The words of a line from word `width - n` on. -/
def bbWords (fn : BBFn) (o : BBOpts) (width : Nat) : Nat → M Unit
  | 0 => pure ()
  | n + 1 => do
    bbWord fn o (width - (n + 1)) width
    bbWords fn o width n

/-- One scan line (R554): whether another follows. -/
def bbLine (fn : BBFn) (o : BBOpts) (width : Nat) : M Bool := do
  bbWords fn o width width
  let r0 ← getReg .r0
  let r1 ← getReg .r1
  let r3 ← getReg .r3
  let r6 ← getReg .r6
  let r7 ← getReg .r7
  setReg .r0 (r0 + r6)
  setReg .r1 (r1 + r7)
  setReg .r3 (r3 - 1)
  pure (r3 - 1 != 0)

/-- A shift value outside 0 .. 15 is refused (R554, R562). -/
def bbShift : M Unit := do
  let r2 ← getReg .r2
  require .shiftRange (decide (r2.toNat ≤ 15))

/-- A BB instruction (R554), interruptible between two scan lines (R595). -/
def bbOp (fn : BBFn) (o : BBOpts) : M Next := do
  bbShift
  let sp ← getSp
  let width ← memRead sp 4
  let r3 ← getReg .r3
  let e ← loop (bbLine fn o width.toNat) r3.toNat
  endLoop false e

/-- BBAND (R555). -/
def execBband (o : BBOpts) (s : State) : Host.Outcome State Fault Refusal :=
  finish (.bband o) (bbOp .land o) s

/-- BBOR (R556). -/
def execBbor (o : BBOpts) (s : State) : Host.Outcome State Fault Refusal :=
  finish (.bbor o) (bbOp .lor o) s

/-- BBXOR (R557). -/
def execBbxor (o : BBOpts) (s : State) : Host.Outcome State Fault Refusal :=
  finish (.bbxor o) (bbOp .lxor o) s

/-- BBFOR (R558): BBOR with the options IA and S. -/
def execBbfor (s : State) : Host.Outcome State Fault Refusal :=
  finish .bbfor (bbOp .lor { da := false, negS := false }) s

/-- BBSTOD (R559). -/
def execBbstod (o : BBOpts) (s : State) : Host.Outcome State Fault Refusal :=
  finish (.bbstod o) (bbOp .stod o) s

/-- BITWT (R562). -/
def execBitwt (s : State) : Host.Outcome State Fault Refusal :=
  finish .bitwt (do
    bbShift
    let r0 ← getReg .r0
    let r1 ← getReg .r1
    let r2 ← getReg .r2
    let v ← memRead r0 2
    let d ← memRead r1 4
    memWrite r1 4 (d ||| (v.setWidth 32 <<< r2.toNat))
    setReg .r0 (r0 + 2)
    setReg .r1 (r1 + 2)
    pure .seq) s

/-! ### EXTBLT -/

/-- Whether the registers and the BPU's setting agree (R564, R778). That R0 and R1 are even is asked at entry alone, as
R564 states it: an odd warp R6 or R7 leaves them odd from the second line on; the lines then run on odd addresses, while
a resumption after an interrupt there is refused (log 48, DESIGN CHOICE). BC.WCNT = 0 (N = 256, which R75 does not admit)
is refused, though R564 does not name it (log 54, DESIGN CHOICE). -/
def extbltReady (s : State) : Bool :=
  let w := (s.regs.get .r2).toNat
  s.bpu.ebpu && s.bpu.sprd == !s.psr.l
    && (s.regs.get .r4 == 2 || s.regs.get .r4 == -2)
    && w % 2 == 0 && w != 0 && decide (s.bpu.wcnt ≠ 0) && w / 2 == s.bpu.lineWords
    && (s.regs.get .r0).toNat % 2 == 0 && (s.regs.get .r1).toNat % 2 == 0

/-- A source read and the step of the source pointer (R564). -/
def extbltSource : M Unit := do
  let r0 ← getReg .r0
  let r4 ← getReg .r4
  let v ← memRead r0 2
  bpuSource v
  setReg .r0 (r0 + r4)

/-- The words of a line from word `total - n` on (R564). -/
def extbltWords (total : Nat) : Nat → M Unit
  | 0 => pure ()
  | n + 1 => do
    extbltSource
    let r1 ← getReg .r1
    let r4 ← getReg .r4
    let d ← memRead r1 2
    bpuDest d
    let v ← bpuResult (total - (n + 1))
    memWrite r1 2 v
    setReg .r1 (r1 + r4)
    let r5 ← getReg .r5
    setReg .r5 (r5 - 2)
    extbltWords total n

/-- One scan line (R564): whether another follows. -/
def extbltLine : M Bool := do
  let r2 ← getReg .r2
  setReg .r5 r2
  let l ← peek (·.psr.l)
  onlyIf (!l) extbltSource
  extbltWords (r2.toNat / 2) (r2.toNat / 2)
  let r0 ← getReg .r0
  let r1 ← getReg .r1
  let r3 ← getReg .r3
  let r6 ← getReg .r6
  let r7 ← getReg .r7
  setReg .r0 (r0 + r6)
  setReg .r1 (r1 + r7)
  setReg .r3 (r3 - 1)
  pure (r3 - 1 != 0)

/-- The end of a completed EXTBLT: PSR.B clear, R2 free (U3, log 18). -/
def extbltEnd : M Unit := do
  updPsr (fun p => { p with b := false })
  let v ← fresh 32
  setReg .r2 v

/-- EXTBLT (R564, R566), interruptible between two scan lines (R595). R2 is free when it completes (U3, log 18). -/
def execExtblt (s : State) : Host.Outcome State Fault Refusal :=
  finish .extblt (do
    let ready ← peek extbltReady
    require .extbltSetup ready
    updPsr (fun p => { p with b := true })
    let r3 ← getReg .r3
    let e ← loop extbltLine r3.toNat
    onlyIf (e == .done) extbltEnd
    endLoop false e) s

/-! ### Pattern fill and bit strings -/

/-- One store of MOVMPi (R570): whether another follows. -/
def movmpIteration (n : Nat) : M Bool := do
  let r0 ← getReg .r0
  let r1 ← getReg .r1
  let r2 ← getReg .r2
  let r3 ← getReg .r3
  memWrite r0 n (r3.setWidth (8 * n))
  setReg .r0 (r0 + r1)
  setReg .r2 (r2 - 1)
  pure (r2 - 1 != 0)

/-- MOVMP_FINAL_R0 (D17): with `last`, a completed run of at least one iteration steps `r` back by `step`. -/
def finalStep (e : Ended) (ran : Bool) (r step : Reg) : M Unit := do
  let k ← peek (·.plat.movmpFinal)
  onlyIf (e == .done && ran && k == .last) (do
    let v ← getReg r
    let d ← getReg step
    setReg r (v - d))

/-- MOVMPi (R570), interruptible between two iterations (R595). -/
def execMovmpi (i : Size) (s : State) : Host.Outcome State Fault Refusal :=
  finish (.movmpi i) (do
    let r2 ← getReg .r2
    let e ← loop (movmpIteration i.bytes) r2.toNat
    finalStep e (r2 != 0) .r0 .r1
    endLoop false e) s

/-- The bit at a bit address: base byte address and bit offset, signed division by 8 rounding down (R571). -/
def bitAddr (base off : Word) : Word := base + off.sshiftRight 3

/-- The bit string of TBITS (R572): `n` more bits may be counted before the limit R3, `m` more before the limit R4.
The result is the count, the last bit tested and L. -/
def tbitsLoop (opt : Bool) : Nat → Nat → Nat → M (Nat × Bool × Bool)
  | 0, _, count => pure (count, opt, true)
  | _ + 1, 0, count => pure (count, opt, false)
  | n + 1, m + 1, count => do
    let r0 ← getReg .r0
    let r1 ← getReg .r1
    let v ← memRead (r0 + (r1 >>> 3)) 1
    let bit := v.getLsbD (r1.toNat % 8)
    setReg .r1 (r1 + 1)
    if bit = opt then tbitsLoop opt n m (count + 1)
    else pure (count, bit, true)

/-- TBITS (R572); never interrupted (R595). The offsets are unsigned (log 22). -/
def execTbits (opt : Bool) (s : State) : Host.Outcome State Fault Refusal :=
  finish (.tbits opt) (do
    let r1 ← getReg .r1
    let r3 ← getReg .r3
    let r4 ← getReg .r4
    let x ← tbitsLoop opt r3.toNat (r4.toNat - r1.toNat) 0
    setReg .r2 (BitVec.ofNat 32 x.1)
    updPsr (fun p => { p with f := x.2.1, l := x.2.2 })
    pure .seq) s

/-- SBITS_TABLE_INDEX (R581, D29). -/
def sbitsIndex (k : SbitsIndex) (off len : Nat) : Nat :=
  match k with
  | .offsetMajor => off * 32 + len
  | .lengthMajor => len * 8 + off

/-- Set the bits of a table entry in the destination double-word (R580). -/
def sbitsStore (a entry : Word) : M Unit := do
  let t ← memRead entry 4
  let d ← memRead a 4
  memWrite a 4 (d ||| t)

/-- SBITS (R580). -/
def execSbits (s : State) : Host.Outcome State Fault Refusal :=
  finish .sbits (do
    let r0 ← getReg .r0
    let r1 ← getReg .r1
    let r2 ← getReg .r2
    let r3 ← getReg .r3
    let k ← peek (·.plat.sbitsIndex)
    updPsr (fun p => { p with f := decide (25 < r2.toNat) })
    onlyIf (decide (r2.toNat ≤ 25))
      (sbitsStore (bitAddr r0 r1) (r3 + BitVec.ofNat 32 (4 * sbitsIndex k (r1.toNat % 8) r2.toNat)))
    pure .seq) s

/-- One bit of SBITPS (R585): whether another follows. -/
def sbitpsIteration : M Bool := do
  let r0 ← getReg .r0
  let r1 ← getReg .r1
  let r2 ← getReg .r2
  let r3 ← getReg .r3
  let a := bitAddr r0 r1
  let v ← memRead a 1
  memWrite a 1 (v ||| BitVec.twoPow 8 (r1.toNat % 8))
  setReg .r1 (r1 + r3)
  setReg .r2 (r2 - 1)
  pure (r2 - 1 != 0)

/-- SBITPS (R585), interruptible between two iterations (R595). -/
def execSbitps (s : State) : Host.Outcome State Fault Refusal :=
  finish .sbitps (do
    let r2 ← getReg .r2
    let e ← loop sbitpsIteration r2.toNat
    finalStep e (r2 != 0) .r1 .r3
    endLoop false e) s

end Sys2Proof.Machine
end

