-- ==== Sys2Proof/Machine/Logic.lean ====
section
/-! DEFINITION. Logical, boolean and shift instructions (spec/43_logical_shift.md). -/

namespace Sys2Proof.Machine

open Sys2Proof

/-- ANDi (R361). -/
def execAndi (i : Size) (src dst : Gen) (s : State) : Host.Outcome State Fault Refusal :=
  finish (.andi i src dst) (modifyOp src dst i.bytes i.bytes (fun a b => pure (plain (b &&& a)))) s

/-- ORi (R362). -/
def execOri (i : Size) (src dst : Gen) (s : State) : Host.Outcome State Fault Refusal :=
  finish (.ori i src dst) (modifyOp src dst i.bytes i.bytes (fun a b => pure (plain (b ||| a)))) s

/-- BICi (R363). -/
def execBici (i : Size) (src dst : Gen) (s : State) : Host.Outcome State Fault Refusal :=
  finish (.bici i src dst) (modifyOp src dst i.bytes i.bytes (fun a b => pure (plain (b &&& ~~~a)))) s

/-- XORi (R364). -/
def execXori (i : Size) (src dst : Gen) (s : State) : Host.Outcome State Fault Refusal :=
  finish (.xori i src dst) (modifyOp src dst i.bytes i.bytes (fun a b => pure (plain (b ^^^ a)))) s

/-- COMi (R365). -/
def execComi (i : Size) (src dst : Gen) (s : State) : Host.Outcome State Fault Refusal :=
  finish (.comi i src dst) (moveOp src dst i.bytes i.bytes (fun a => pure (plain (~~~a)))) s

/-- NOTi (R366): only bit 0 is inverted. -/
def execNoti (i : Size) (src dst : Gen) (s : State) : Host.Outcome State Fault Refusal :=
  finish (.noti i src dst) (moveOp src dst i.bytes i.bytes (fun a => pure (plain (a ^^^ 1)))) s

/-- Scondi (R367). -/
def execScondi (i : Size) (c : Cond) (dst : Gen) (s : State) : Host.Outcome State Fault Refusal :=
  finish (.scondi i c dst) (do
    let p ← peek (·.psr)
    storeOp dst i.bytes (if condHolds p c then 1 else 0)) s

/-- LSHi (R371). -/
def execLshi (i : Size) (count dst : Gen) (s : State) : Host.Outcome State Fault Refusal :=
  finish (.lshi i count dst) (modifyOp count dst 1 i.bytes (fun c b => pure (plain (lshResult c b)))) s

/-- ASHi (R372). -/
def execAshi (i : Size) (count dst : Gen) (s : State) : Host.Outcome State Fault Refusal :=
  finish (.ashi i count dst) (modifyOp count dst 1 i.bytes (fun c b => pure (plain (ashResult c b)))) s

/-- ROTi (R373). -/
def execRoti (i : Size) (count dst : Gen) (s : State) : Host.Outcome State Fault Refusal :=
  finish (.roti i count dst) (modifyOp count dst 1 i.bytes (fun c b => pure (plain (rotResult c b)))) s

end Sys2Proof.Machine
end

