-- ==== Sys2Proof/Machine/Strings.lean ====
section
/-! DEFINITION. String instructions (spec/45_strings.md). -/

namespace Sys2Proof.Machine

open Sys2Proof

/-- The three string operations. -/
inductive StrKind where
  | move | compare | skip
deriving DecidableEq, Repr

/-- The pointer step: size(i), negative with the Backward option (R421). -/
def strStep (o : StrOpts) (n : Nat) : Word := if o.back then -(BitVec.ofNat 32 n) else BitVec.ofNat 32 n

/-- Whether the Until or While option ends the instruction at element x (R421, R423). -/
def strStops {w : Nat} (o : StrOpts) (x r4 : BitVec w) : Bool :=
  match o.uw with
  | .none => false
  | .untilMatch => x == r4
  | .whileMatch => x != r4

/-- The String 1 element, translated by the table at R3 for the T forms (R422, R423). -/
def strElement (n : Nat) (trans : Bool) : M (BitVec (8 * n)) := do
  let r1 ← getReg .r1
  let x ← memRead r1 n
  if trans then do
    let r3 ← getReg .r3
    let y ← memRead (r3 + x.setWidth 32) 1
    pure (y.setWidth (8 * n))
  else pure x

/-- The body of one iteration (R424-R426): whether the iteration goes on to advance. -/
def strBody (k : StrKind) (n : Nat) (x : BitVec (8 * n)) : M Bool :=
  match k with
  | .move => do
    let r2 ← getReg .r2
    memWrite r2 n x
    pure true
  | .compare => do
    let r2 ← getReg .r2
    let y ← memRead r2 n
    if x = y then pure true
    else do
      updPsr (cmpFlags x y)
      pure false
  | .skip => pure true

/-- The register updates after an element (R423, R426): whether another element follows. -/
def strAdvance (k : StrKind) (o : StrOpts) (n : Nat) : M Bool := do
  let r1 ← getReg .r1
  setReg .r1 (r1 + strStep o n)
  onlyIf (k != .skip) (do
    let r2 ← getReg .r2
    setReg .r2 (r2 + strStep o n))
  let r0 ← getReg .r0
  setReg .r0 (r0 - 1)
  pure (r0 - 1 != 0)

/-- One iteration of R423: whether another follows. -/
def strIteration (k : StrKind) (o : StrOpts) (n : Nat) (trans : Bool) : M Bool := do
  let x ← strElement n trans
  let r4 ← getReg .r4
  if strStops o x (r4.setWidth (8 * n)) then do
    updPsr (fun p => { p with f := true })
    pure false
  else do
    let on ← strBody k n x
    if on then strAdvance k o n else pure false

/-- The flags a string instruction starts with (R423). -/
def strFlags (k : StrKind) (p : Psr) : Psr :=
  match k with
  | .compare => { p with f := false, z := true, n := false, l := false }
  | .move | .skip => { p with f := false }

/-- A string instruction (R423), interruptible between two iterations (R428). -/
def stringOp (k : StrKind) (o : StrOpts) (n : Nat) (trans : Bool) : M Next := do
  updPsr (strFlags k)
  let r0 ← getReg .r0
  let e ← loop (strIteration k o n trans) r0.toNat
  endLoop true e

/-- MOVSi (R424). -/
def execMovsi (i : Size) (o : StrOpts) (s : State) : Host.Outcome State Fault Refusal :=
  finish (.movsi i o) (stringOp .move o i.bytes false) s

/-- MOVST (R424). -/
def execMovst (o : StrOpts) (s : State) : Host.Outcome State Fault Refusal :=
  finish (.movst o) (stringOp .move o 1 true) s

/-- CMPSi (R425). -/
def execCmpsi (i : Size) (o : StrOpts) (s : State) : Host.Outcome State Fault Refusal :=
  finish (.cmpsi i o) (stringOp .compare o i.bytes false) s

/-- CMPST (R425). -/
def execCmpst (o : StrOpts) (s : State) : Host.Outcome State Fault Refusal :=
  finish (.cmpst o) (stringOp .compare o 1 true) s

/-- SKPSi (R426). -/
def execSkpsi (i : Size) (o : StrOpts) (s : State) : Host.Outcome State Fault Refusal :=
  finish (.skpsi i o) (stringOp .skip o i.bytes false) s

/-- SKPST (R426). -/
def execSkpst (o : StrOpts) (s : State) : Host.Outcome State Fault Refusal :=
  finish (.skpst o) (stringOp .skip o 1 true) s

end Sys2Proof.Machine
end

