-- ==== Sys2Proof/Machine/Dispatch.lean ====
section
/-! DEFINITION. One arm per instruction, each one call of its meaning. -/

namespace Sys2Proof.Machine

open Sys2Proof

def exec (i : Instr) (s : State) : Host.Outcome State Fault Refusal :=
  match i with
  | .beq d => Sys2Proof.Machine.execBeq d s
  | .bne d => Sys2Proof.Machine.execBne d s
  | .bcs d => Sys2Proof.Machine.execBcs d s
  | .bcc d => Sys2Proof.Machine.execBcc d s
  | .bhi d => Sys2Proof.Machine.execBhi d s
  | .bls d => Sys2Proof.Machine.execBls d s
  | .bgt d => Sys2Proof.Machine.execBgt d s
  | .ble d => Sys2Proof.Machine.execBle d s
  | .bfs d => Sys2Proof.Machine.execBfs d s
  | .bfc d => Sys2Proof.Machine.execBfc d s
  | .blo d => Sys2Proof.Machine.execBlo d s
  | .bhs d => Sys2Proof.Machine.execBhs d s
  | .blt d => Sys2Proof.Machine.execBlt d s
  | .bge d => Sys2Proof.Machine.execBge d s
  | .br d => Sys2Proof.Machine.execBr d s
  | .bnever d => Sys2Proof.Machine.execBnever d s
  | .bsr d => Sys2Proof.Machine.execBsr d s
  | .ret d => Sys2Proof.Machine.execRet d s
  | .cxp d => Sys2Proof.Machine.execCxp d s
  | .rxp d => Sys2Proof.Machine.execRxp d s
  | .rett d => Sys2Proof.Machine.execRett d s
  | .reti => Sys2Proof.Machine.execReti s
  | .save list => Sys2Proof.Machine.execSave list s
  | .restore list => Sys2Proof.Machine.execRestore list s
  | .enter list d => Sys2Proof.Machine.execEnter list d s
  | .exit list => Sys2Proof.Machine.execExit list s
  | .nop => Sys2Proof.Machine.execNop s
  | .wait => Sys2Proof.Machine.execWait s
  | .dia => Sys2Proof.Machine.execDia s
  | .flag => Sys2Proof.Machine.execFlag s
  | .svc => Sys2Proof.Machine.execSvc s
  | .bpt => Sys2Proof.Machine.execBpt s
  | .addqi z q dst => Sys2Proof.Machine.execAddqi z q dst s
  | .cmpqi z q src => Sys2Proof.Machine.execCmpqi z q src s
  | .spri z a dst => Sys2Proof.Machine.execSpri z a dst s
  | .scondi z c dst => Sys2Proof.Machine.execScondi z c dst s
  | .acbi z q idx d => Sys2Proof.Machine.execAcbi z q idx d s
  | .movqi z q dst => Sys2Proof.Machine.execMovqi z q dst s
  | .lpri z a src => Sys2Proof.Machine.execLpri z a src s
  | .cxpd desc => Sys2Proof.Machine.execCxpd desc s
  | .bicpsri z src => Sys2Proof.Machine.execBicpsri z src s
  | .jump dst => Sys2Proof.Machine.execJump dst s
  | .bispsri z src => Sys2Proof.Machine.execBispsri z src s
  | .adjspi z src => Sys2Proof.Machine.execAdjspi z src s
  | .jsr dst => Sys2Proof.Machine.execJsr dst s
  | .casei z idx => Sys2Proof.Machine.execCasei z idx s
  | .addi z src dst => Sys2Proof.Machine.execAddi z src dst s
  | .cmpi z src dst => Sys2Proof.Machine.execCmpi z src dst s
  | .bici z src dst => Sys2Proof.Machine.execBici z src dst s
  | .addci z src dst => Sys2Proof.Machine.execAddci z src dst s
  | .movi z src dst => Sys2Proof.Machine.execMovi z src dst s
  | .ori z src dst => Sys2Proof.Machine.execOri z src dst s
  | .subi z src dst => Sys2Proof.Machine.execSubi z src dst s
  | .addr src dst => Sys2Proof.Machine.execAddr src dst s
  | .andi z src dst => Sys2Proof.Machine.execAndi z src dst s
  | .subci z src dst => Sys2Proof.Machine.execSubci z src dst s
  | .tbiti z off base => Sys2Proof.Machine.execTbiti z off base s
  | .xori z src dst => Sys2Proof.Machine.execXori z src dst s
  | .movsi z o => Sys2Proof.Machine.execMovsi z o s
  | .movst o => Sys2Proof.Machine.execMovst o s
  | .cmpsi z o => Sys2Proof.Machine.execCmpsi z o s
  | .cmpst o => Sys2Proof.Machine.execCmpst o s
  | .skpsi z o => Sys2Proof.Machine.execSkpsi z o s
  | .skpst o => Sys2Proof.Machine.execSkpst o s
  | .setcfg o => Sys2Proof.Machine.execSetcfg o s
  | .bband o => Sys2Proof.Machine.execBband o s
  | .bbor o => Sys2Proof.Machine.execBbor o s
  | .bbxor o => Sys2Proof.Machine.execBbxor o s
  | .bbstod o => Sys2Proof.Machine.execBbstod o s
  | .bbfor => Sys2Proof.Machine.execBbfor s
  | .bitwt => Sys2Proof.Machine.execBitwt s
  | .extblt => Sys2Proof.Machine.execExtblt s
  | .sbits => Sys2Proof.Machine.execSbits s
  | .sbitps => Sys2Proof.Machine.execSbitps s
  | .movmpi z => Sys2Proof.Machine.execMovmpi z s
  | .tbits opt => Sys2Proof.Machine.execTbits opt s
  | .roti z count dst => Sys2Proof.Machine.execRoti z count dst s
  | .ashi z count dst => Sys2Proof.Machine.execAshi z count dst s
  | .cbiti z off base => Sys2Proof.Machine.execCbiti z off base s
  | .cbitii z off base => Sys2Proof.Machine.execCbitii z off base s
  | .lshi z count dst => Sys2Proof.Machine.execLshi z count dst s
  | .sbiti z off base => Sys2Proof.Machine.execSbiti z off base s
  | .sbitii z off base => Sys2Proof.Machine.execSbitii z off base s
  | .negi z src dst => Sys2Proof.Machine.execNegi z src dst s
  | .noti z src dst => Sys2Proof.Machine.execNoti z src dst s
  | .subpi z src dst => Sys2Proof.Machine.execSubpi z src dst s
  | .absi z src dst => Sys2Proof.Machine.execAbsi z src dst s
  | .comi z src dst => Sys2Proof.Machine.execComi z src dst s
  | .ibiti z off base => Sys2Proof.Machine.execIbiti z off base s
  | .addpi z src dst => Sys2Proof.Machine.execAddpi z src dst s
  | .movmi z blk1 blk2 d => Sys2Proof.Machine.execMovmi z blk1 blk2 d s
  | .cmpmi z blk1 blk2 d => Sys2Proof.Machine.execCmpmi z blk1 blk2 d s
  | .inssi z src base imm => Sys2Proof.Machine.execInssi z src base imm s
  | .extsi z base dst imm => Sys2Proof.Machine.execExtsi z base dst imm s
  | .movxbw src dst => Sys2Proof.Machine.execMovxbw src dst s
  | .movzbw src dst => Sys2Proof.Machine.execMovzbw src dst s
  | .movzid z src dst => Sys2Proof.Machine.execMovzid z src dst s
  | .movxid z src dst => Sys2Proof.Machine.execMovxid z src dst s
  | .muli z src dst => Sys2Proof.Machine.execMuli z src dst s
  | .meii z src dst => Sys2Proof.Machine.execMeii z src dst s
  | .deii z src dst => Sys2Proof.Machine.execDeii z src dst s
  | .quoi z src dst => Sys2Proof.Machine.execQuoi z src dst s
  | .remi z src dst => Sys2Proof.Machine.execRemi z src dst s
  | .modi z src dst => Sys2Proof.Machine.execModi z src dst s
  | .divi z src dst => Sys2Proof.Machine.execDivi z src dst s
  | .exti z off base dst len => Sys2Proof.Machine.execExti z off base dst len s
  | .cvtp off base dst => Sys2Proof.Machine.execCvtp off base dst s
  | .insi z off src base len => Sys2Proof.Machine.execInsi z off src base len s
  | .checki z dst bounds src => Sys2Proof.Machine.execChecki z dst bounds src s
  | .indexi z acc len idx => Sys2Proof.Machine.execIndexi z acc len idx s
  | .ffsi z base off => Sys2Proof.Machine.execFfsi z base off s
  | .movif f z src dst => Sys2Proof.Machine.execMovif f z src dst s
  | .lfsr x src => Sys2Proof.Machine.execLfsr x src s
  | .movlf x src dst => Sys2Proof.Machine.execMovlf x src dst s
  | .movfl x src dst => Sys2Proof.Machine.execMovfl x src dst s
  | .roundfi f z src dst => Sys2Proof.Machine.execRoundfi f z src dst s
  | .truncfi f z src dst => Sys2Proof.Machine.execTruncfi f z src dst s
  | .sfsr x dst => Sys2Proof.Machine.execSfsr x dst s
  | .floorfi f z src dst => Sys2Proof.Machine.execFloorfi f z src dst s
  | .addf f src dst => Sys2Proof.Machine.execAddf f src dst s
  | .movf f src dst => Sys2Proof.Machine.execMovf f src dst s
  | .cmpf f src dst => Sys2Proof.Machine.execCmpf f src dst s
  | .subf f src dst => Sys2Proof.Machine.execSubf f src dst s
  | .negf f src dst => Sys2Proof.Machine.execNegf f src dst s
  | .divf f src dst => Sys2Proof.Machine.execDivf f src dst s
  | .mulf f src dst => Sys2Proof.Machine.execMulf f src dst s
  | .absf f src dst => Sys2Proof.Machine.execAbsf f src dst s
  | .polyf f src dst => Sys2Proof.Machine.execPolyf f src dst s
  | .dotf f src dst => Sys2Proof.Machine.execDotf f src dst s
  | .scalbf f src dst => Sys2Proof.Machine.execScalbf f src dst s
  | .logbf f src dst => Sys2Proof.Machine.execLogbf f src dst s

end Sys2Proof.Machine
end

