-- ==== Sys2Proof/Machine/Fetch.lean ====
section
/-! DEFINITION. Fetching the bytes of an instruction (spec/20_memory.md R160-R162, spec/10_state.md R36) and running what they
decode to (spec/60_exceptions.md R601, R650). -/

namespace Sys2Proof.Machine

open Sys2Proof

/-- Whether the byte at an address can be executed: external memory, not written since the last purge (R162, D4, D8). -/
def State.fetchable (s : State) (a : Word) : Bool :=
  decide (a.toNat < Config.externalEnd) && (s.plat.memAt a.toNat).isSome && !s.dirty.contains a.toNat

/-- Up to n bytes from an address, ending before the first that cannot be executed. -/
def State.fetchFrom (s : State) (a : Word) : Nat → List Byte
  | 0 => []
  | n + 1 => if s.fetchable a then s.mem.read a.toNat :: s.fetchFrom (a + 1) n else []

/-- The bytes the decoder sees: at most the longest instruction's. -/
def State.codeBytes (s : State) : List Byte := s.fetchFrom s.pc maxLength

/-- Why the byte after the fetched ones cannot be executed. -/
def State.fetchFault (s : State) : Fault :=
  let a := s.pc + BitVec.ofNat 32 s.codeBytes.length
  if Config.topBlock ≤ a.toNat then .reservedAddress
  else if Config.externalEnd ≤ a.toNat then .unavailableAddress
  else if (s.plat.memAt a.toNat).isNone then .noExternalMemory
  else .staleFetch

/-- Whether the bytes start with the ID byte of a floating-point instruction (R510). -/
def fpuFirst (bs : List Byte) : Bool :=
  match bs with
  | [] => false
  | b :: _ => b == 0x3E || b == 0xBE || b == 0xFE

/-- Trap (UND) at decode time: T is not copied to P (R601, R650). -/
def undefinedTrap (s : State) : Host.Outcome State Fault Refusal := settled (trapSequence .und s) s

/-- The outcome of bytes that are no instruction (R230-R234, R510). -/
def badCode (s : State) : BadCode → Host.Outcome State Fault Refusal
  | .undefined => undefinedTrap s
  | .truncated => .fault s.fetchFault
  | .sizeField => .refused (.encoding .sizeField)
  | .constantBits => .refused (.encoding .constantBits)
  | .options => .refused (.encoding .options)
  | .reservedGen => .refused (.encoding .reservedGen)
  | .indexBase => .refused (.encoding .indexBase)
  | .fpuOpcode => .refused (.encoding .fpuOpcode)

/-- The state an instruction starts in: T copied to P (R650), a write of the PSR (R59, log 14). -/
def State.traced (s : State) : State := { s with psr := { s.psr with p := s.psr.t }, psrTouched := true }

/-- Fetch, decode, and run `run` on the instruction. A floating-point instruction with CFG.F = 0 is Trap (UND) whatever
follows its first byte (R510, R615). The platform's codes of format 5 count (R8). -/
def runInstruction (run : Instr → State → Host.Outcome State Fault Refusal) (s : State) :
    Host.Outcome State Fault Refusal :=
  match decodeWith s.plat.codes s.codeBytes with
  | .ok i _ => run i s.traced
  | .bad why => if fpuFirst s.codeBytes && !s.cfg.f then undefinedTrap s else badCode s why

/-- Bytes stored at the PC, as memory that was there before the last purge. -/
def State.placeCode (s : State) (bs : List Byte) : State :=
  let as := (byteAddrs s.pc bs.length).map (·.toNat)
  { s with mem := s.mem.writeAll (as.zip bs), dirty := s.dirty.filter (fun a => !as.contains a) }

end Sys2Proof.Machine
end

