-- ==== Sys2Proof/Machine/Step.lean ====
section
/-! DEFINITION. One step of the machine: the environment's events, the checks of spec/60_exceptions.md R601 in their
order, fetch, decode, execute. -/

namespace Sys2Proof.Machine

open Sys2Proof

/-- What follows the events of a step, in the order of R601; the Waiting state leaves on an interrupt alone (R490,
R600), Reset and the wait for an absent slave on nothing but RSTI (R600, R511). -/
def stepChecks (s : State) : Host.Outcome State Fault Refusal :=
  match s.op with
  | .reset => .next s
  | .waitingForSlave => .next s
  | .waiting =>
    if s.interruptPending then settled (interruptSequence s.pc) s else .next s
  | .executing =>
    if s.interruptPending then settled (interruptSequence s.pc) s
    else if s.psr.p then settled traceSequence s
    else runInstruction exec s

/-- One step. -/
def step (s : State) : Host.Outcome State Fault Refusal :=
  match arrive s with
  | .ok (_, t) => stepChecks t
  | .error e => outcomeOf (α := Unit) (.error e)

/-- `s` with an instruction's bytes where `step` fetches next: at the PC, none of them written since the last purge. -/
def State.withFetchWord (s : State) (nbits w : Nat) : State := s.placeCode (tableBytes nbits w)

end Sys2Proof.Machine
end

