-- ==== Sys2Proof/Safety.lean ====
section
/-! DEFINITION. What a safe run is, the invariant every step keeps, and the terms the statements use: readable and
writable memory, what an operand's place occupies, frames, and exception entry. -/

namespace Sys2Proof

open Sys2Proof.Machine

/-- A run of k steps that meets no fault and no refusal. -/
def RunsSafely (k : Nat) (s : State) : Prop := ∃ t, core.run k s = .next t

/-- The states reached from `s` by steps that go on. -/
inductive Reaches (s : State) : State → Prop where
  | refl : Reaches s s
  | step {t u : State} : Reaches s t → Machine.step t = .next u → Reaches s u

/-- CHEN is 0 while EOT, or an unmasked OVR, is set (spec/10_state.md R88). -/
def Machine.DmaChan.ok (c : DmaChan) : Prop := c.blocked = true → c.chen = false

/-- Every listed byte of memory is an external address (spec/20_memory.md R130). -/
def Machine.Memory.external (m : Memory) : Prop := ∀ c ∈ m.cells, c.1 < Config.externalEnd

/-- The invariant: memory in canonical form and external, ISRV bit 0 clear (R91), no channel enabled against R88; what
an instruction has stored is external memory. -/
def Machine.State.Inv (s : State) : Prop :=
  s.mem.wf ∧ s.mem.external ∧ s.isrv.getLsbD 0 = false ∧ s.dma.ch0.ok ∧ s.dma.ch1.ok ∧
    ∀ a ∈ s.written, a < Config.externalEnd

end Sys2Proof

namespace Sys2Proof.Machine

open Sys2Proof

/-! ### Memory as statements name it -/

/-- The little-endian number in the n bytes of external memory from `a` (R135). -/
def State.valueAt (s : State) (a : Word) (n : Nat) : BitVec (8 * n) :=
  BitVec.ofNat (8 * n) (leNat (s.bytesAt (byteAddrs a n)))

/-- The byte addresses of n bytes from `a`, as numbers. -/
def bytesOf (a : Word) (n : Nat) : List Nat := (byteAddrs a n).map (·.toNat)

/-- The n bytes from `a` are external memory (R131, D4). -/
abbrev State.readable (s : State) (a : Word) (n : Nat) : Prop :=
  ∀ x ∈ bytesOf a n, x < Config.externalEnd ∧ (s.plat.memAt x).isSome = true

/-- The n bytes from `a` are external memory that can be written (R131, D4). -/
abbrev State.writable (s : State) (a : Word) (n : Nat) : Prop :=
  ∀ x ∈ bytesOf a n, x < Config.externalEnd ∧ s.plat.memAt x = some .ram

/-- The n bytes from `a` and the m bytes from `b` share none. -/
abbrev Apart (a : Word) (n : Nat) (b : Word) (m : Nat) : Prop := ∀ x ∈ bytesOf a n, x ∉ bytesOf b m

/-- The state with n bytes of external memory replaced by a number's, stored by the CPU (R135, R162). -/
def State.poke (s : State) (a : Word) (n : Nat) (v : BitVec (8 * n)) : State :=
  s.store (byteAddrs a n) (leBytes n v.toNat)

/-- As `poke`, by another agent. -/
def State.pokeBus (s : State) (a : Word) (n : Nat) (v : BitVec (8 * n)) : State :=
  s.deposit (byteAddrs a n) (leBytes n v.toNat)

/-- The bus cycles of R140's table: their widths in order, by whether the address is odd. -/
def tableCycles (odd : Bool) (n : Nat) : List Nat :=
  match n, odd with
  | 1, _ => [1]
  | 2, false => [2]
  | 2, true => [1, 1]
  | 4, false => [2, 2]
  | 4, true => [1, 2, 1]
  | 8, false => [2, 2, 2, 2]
  | 8, true => [1, 2, 1, 1, 2, 1]
  | _, _ => []

/-- Reading in bus cycles of the given widths from `a` on gives the number `v` and the state `t`: before each cycle what the
other agents do in the gap happens, the cycle reads what memory then holds (R140, R150). -/
def ReadsBy : List Nat → Word → State → Nat → State → Prop
  | [], _, s, v, t => v = 0 ∧ t = s
  | k :: ks, a, s, v, t => ∃ u w, gap s = .ok ((), u) ∧ ReadsBy ks (a + BitVec.ofNat 32 k) u w t ∧
      v = (u.valueAt a k).toNat + 2 ^ (8 * k) * w

/-- As `ReadsBy`, storing the number `v`. -/
def WritesBy : List Nat → Word → Nat → State → State → Prop
  | [], _, _, s, t => t = s
  | k :: ks, a, v, s, t => ∃ u, gap s = .ok ((), u) ∧
      WritesBy ks (a + BitVec.ofNat 32 k) (v / 2 ^ (8 * k)) (u.poke a k (BitVec.ofNat _ v)) t

/-- Nothing from outside happens inside the next instruction (D11). -/
abbrev State.calm (s : State) : Prop := s.within = []

/-- Nothing from outside happens inside the next instruction and no interrupt is pending (D11, R601). -/
abbrev State.quiet (s : State) : Prop := s.calm ∧ s.interruptPending = false

/-- The values R99 states for a machine held in reset. -/
structure InReset (t : State) : Prop where
  cpu : t.pc = 0 ∧ t.psr.toBits = 0 ∧ t.cfg.c = false ∧ t.cfg.m = false ∧ t.nmiLatch = false ∧ t.op = .reset ∧ t.dirty = []
  bpu : t.bpu.brme = false ∧ t.bpu.blme = false ∧ t.bpu.erme = false ∧ t.bpu.elme = false ∧ t.bpu.ebpu = false ∧
    t.bpu.sprd = false
  dma : ∀ l, t.dma.stat l = 0 ∧ t.dma.imsk l = 0
  chan : ∀ ch, (t.dma.chan ch).bltc = 0 ∧ (t.dma.chan ch).bltr = 0 ∧ (t.dma.chan ch).modeBits = 0 ∧
    (t.dma.chan ch).chen = false ∧ (t.dma.chan ch).vld = false
  icu : t.isrv = 0

/-! ### On-chip registers as statements name them -/

/-- The bits of a register that read back as they were written: for IMSK and DSTAT those the layouts place (R81, R82). Of
STAT, IVCT, ISRV, CNTL and TCNTL none: their writes do something else. -/
def PReg.plainBits (p : Platform) : PReg → Word
  | .bbsc => 0x1F
  | .brm | .blm | .bfs => 0x0F
  | .bcntl => 0xF6
  | .bc => 0xFF
  | .imsk => p.imskBits.mask
  | .dstat => (p.statBits.ch0.sticky ++ p.statBits.ch1.sticky).foldr (fun k x => bitAt k true ||| x) 0
  | .chan _ .mode => 0x7F89
  | .chan _ .adc | .chan _ .adr | .chan _ .bltc | .chan _ .bltr => 0xFFFFFFFF
  | .timer _ .tc | .timer _ .trca | .timer _ .trcb => 0xFFFF
  | .stat | .ivct | .isrv | .chan _ .cntl | .timer _ .tcntl => 0

/-- The values programmed into a channel of 16-bit transfers are even (R86 Note 2, R702, R774 c); an ADR not written since
reset counts where the channel is to use it (log 55). -/
abbrev DmaEven (c : DmaChan) : Prop :=
  c.bwWord = true → c.adc.getLsbD 0 = false ∧ c.bltc.getLsbD 0 = false ∧ c.bltr.getLsbD 0 = false ∧
    (c.adrSet = true ∨ c.ot = true ∨ c.vld = true → c.adr.getLsbD 0 = false)

/-- When software may write a register so that its plain bits read back (R702, R704, R774): ADC, BLTC, MODE and DSTAT with
the channel disabled, a legal MODE, multiples of the bus width in an enabled channel, a next block length that is not 0
while it is valid and in use. -/
def PReg.takes (s : State) (v : Word) : PReg → Prop
  | .stat | .ivct | .isrv | .chan _ .cntl | .timer _ .tcntl => False
  | .dstat => s.dma.ch0.chen = false ∧ s.dma.ch1.chen = false
  | .chan ch .adc | .chan ch .bltc => (s.dma.chan ch).chen = false
  | .chan ch .mode => (s.dma.chan ch).chen = false ∧ (∀ k, k < 32 → k ∉ [0, 3, 7, 9, 10, 11, 12, 13, 14] → v.getLsbD k = false) ∧
      (v.extractLsb' 10 5).toNat ∈ [0, 1, 2, 4, 8, 16]
  | .chan ch .adr => (s.dma.chan ch).chen = true → DmaEven { s.dma.chan ch with adr := v, adrSet := true }
  | .chan ch .bltr => ((s.dma.chan ch).chen = true → DmaEven { s.dma.chan ch with bltr := v }) ∧
      (v = 0 → (s.dma.chan ch).vld = true → (s.dma.chan ch).chen = false)
  | .bbsc | .brm | .blm | .bfs | .bcntl | .bc | .imsk | .timer _ .tc | .timer _ .trca | .timer _ .trcb => True

/-! ### Operand places as statements name them -/

/-- The general registers of a place. -/
def Dest.regs : Dest → List Reg
  | .reg r => [r]
  | .pair r => [r, nextReg r]
  | .mem _ => []
  | .push => []

/-- The bytes of memory that n bytes stored to a place occupy: computed from the address the operand operation gave, or
from the selected stack pointer for a push (R39). -/
def Dest.bytes (d : Dest) (n : Nat) (s : State) : List Nat :=
  match d with
  | .reg _ => []
  | .pair _ => []
  | .mem a => bytesOf a n
  | .push => bytesOf (s.sp - BitVec.ofNat 32 n) n

/-- Whether a place is an on-chip register (R132). -/
def Dest.onChip (d : Dest) (n : Nat) (s : State) : Bool :=
  match d with
  | .reg _ => false
  | .pair _ => false
  | .mem a => (s.plat.regAt a).isSome
  | .push => (s.plat.regAt (s.sp - BitVec.ofNat 32 n)).isSome

/-- The state after the selected stack pointer has moved up for an operand Top of Stack that is read (R39, R251). -/
def State.popped (s : State) (g : Gen) (n : Nat) : State :=
  if g = .mode .tos then s.setSp (s.sp + BitVec.ofNat 32 n) else s

/-- The state after the selected stack pointer has moved down for an operand Top of Stack that is written (R39, R251). -/
def State.pushed (s : State) (g : Gen) (n : Nat) : State :=
  if g = .mode .tos then s.setSp (s.sp - BitVec.ofNat 32 n) else s

/-! ### Frames -/

/-- What stays: the general registers outside `regs`, the bytes of memory outside `bytes`, the address registers but SP0
and SP1, CFG, the operating state, and everything of the environment and the slave processor but `fpu`. -/
structure Frame (s t : State) (regs : List Reg) (bytes : List Nat) : Prop where
  regs : ∀ r, r ∉ regs → t.regs.get r = s.regs.get r
  mem : ∀ a, a ∉ bytes → t.mem.read a = s.mem.read a
  address : t.fp = s.fp ∧ t.sb = s.sb ∧ t.intbase = s.intbase ∧ t.mod = s.mod
  control : t.cfg = s.cfg ∧ t.op = s.op
  outside : t.irPins = s.irPins ∧ t.nmiLatch = s.nmiLatch ∧ t.plat = s.plat ∧ t.inputs = s.inputs ∧
    t.within = s.within ∧ t.dmaOut = s.dmaOut

/-- The peripherals' registers stay. -/
structure ChipSame (s t : State) : Prop where
  bpu : t.bpu = s.bpu
  dma : t.dma = s.dma
  isrv : t.isrv = s.isrv
  timers : t.timer0 = s.timer0 ∧ t.timer1 = s.timer1 ∧ t.timer2 = s.timer2

/-- Both stack pointers stay. -/
def StacksSame (s t : State) : Prop := t.sp0 = s.sp0 ∧ t.sp1 = s.sp1

/-- Everything but memory's `bytes`, the registers `regs`, the PSR, the stack pointers and PC stays. -/
structure Quiet (s t : State) (regs : List Reg) (bytes : List Nat) : Prop where
  frame : Frame s t regs bytes
  chip : ChipSame s t
  fpu : t.fpu = s.fpu

/-! ### How an instruction goes on -/

/-- The state after an instruction that completes in sequence (R35, R601). `written` and `psrTouched` are the model's own fields
(logs 35 and 14). -/
def State.after (s : State) (i : Instr) (u : State) : State :=
  { u with pc := s.pc + BitVec.ofNat 32 (instrLength i), written := [], psrTouched := true }

/-- Whether an exact integer result fits a signed number of w bits. -/
def fitsSigned (w : Nat) (x : Int) : Bool := decide (-(2 : Int) ^ (w - 1) ≤ x) && decide (x < (2 : Int) ^ (w - 1))

/-- An instruction of classes read and rmw completes with `res` in its destination and the PSR `flags` gives, for every
operand form that can be read and written (R251, R252). -/
def ModifyCompletes (i : Instr) (src dst : Gen) (m n : Nat) (res : BitVec (8 * m) → BitVec (8 * n) → Psr → BitVec (8 * n))
    (flags : BitVec (8 * m) → BitVec (8 * n) → Psr → Psr) : Prop :=
  ∀ s a s1 d s2 b s3 s4, rd src m s = .ok (a, s1) → dstModify dst s1 = .ok (d, s2) → getDest d n s2 = .ok (b, s3) →
    putDest d n (res a b s.psr) s3 = .ok ((), s4) →
    exec i s = .next (s.after i { s4 with psr := flags a b s.psr })

/-- An instruction of classes read and write completes with `res` in its destination and the PSR `flags` gives, for every
operand form that can be read and written (R251, R252). -/
def MoveCompletes (i : Instr) (src dst : Gen) (m n : Nat) (res : BitVec (8 * m) → BitVec (8 * n))
    (flags : BitVec (8 * m) → Psr → Psr) : Prop :=
  ∀ s a s1 d s2 s3, rd src m s = .ok (a, s1) → dstWrite dst s1 = .ok (d, s2) →
    putDest d n (res a) s2 = .ok ((), s3) →
    exec i s = .next (s.after i { s3 with psr := flags a s.psr })

/-- An instruction of classes read and rmw that divides: as `ModifyCompletes`, for a divisor that is not zero (R330). -/
def DivideCompletes (i : Instr) (src dst : Gen) (n : Nat) (res : BitVec (8 * n) → BitVec (8 * n) → BitVec (8 * n)) : Prop :=
  ∀ s a s1 d s2 b s3 s4, rd src n s = .ok (a, s1) → a ≠ 0 → dstModify dst s1 = .ok (d, s2) →
    getDest d n s2 = .ok (b, s3) → putDest d n (res a b) s3 = .ok ((), s4) → exec i s = .next (s.after i s4)

/-- An instruction that writes a value known without a source operand completes, for every operand form that can be
written (R251). -/
def StoreCompletes (i : Instr) (dst : Gen) (n : Nat) (v : State → BitVec (8 * n)) : Prop :=
  ∀ s d s1 s2, dstWrite dst s = .ok (d, s1) → putDest d n (v s) s1 = .ok ((), s2) → exec i s = .next (s.after i s2)

/-- An instruction that raises a trap is suspended: the outcome is TrapSequence for the state it started in, performed in
the state `t` its operand reads left (R602, R620). -/
def Traps (i : Instr) (x : Trap) (s t : State) : Prop := exec i s = settled (trapSequence x s) t

/-- Control goes to an address: PC is loaded and the instruction queue purged (R161, R440); the model's own fields as in
`State.after`. -/
def State.goto (s : State) (a : Word) : State := { s with pc := a, dirty := [], written := [], psrTouched := true }

/-- A conditional branch: taken when `taken` holds of the PSR, else on in sequence (R441). -/
def Branches (i : Disp → Instr) (taken : Psr → Bool) : Prop :=
  ∀ d s, exec (i d) s = .next (if taken s.psr then s.goto (s.pc + d.value) else s.after (i d) s)

/-! ### Bits -/

/-- The low m bits of `new` are those of `v`, its other bits those of `old` (R32, R255, R481). -/
def LowReplaced {m w : Nat} (old : BitVec w) (v : BitVec m) (new : BitVec w) : Prop :=
  ∀ k, k < w → new.getLsbD k = if k < m then v.getLsbD k else old.getLsbD k

/-- The `len` bits from bit p of `new` are the low bits of `v`, its other bits those of `old` (R392). -/
def FieldReplaced {m : Nat} (old : BitVec 32) (v : BitVec m) (p len : Nat) (new : BitVec 32) : Prop :=
  ∀ k, k < 32 → new.getLsbD k = if p ≤ k ∧ k < p + len then v.getLsbD (k - p) else old.getLsbD k

/-- Bit k of x as given. -/
def putBitAt {w : Nat} (x : BitVec w) (k : Nat) (b : Bool) : BitVec w :=
  if b then x ||| BitVec.twoPow w k else x &&& ~~~BitVec.twoPow w k

/-- The byte address of the bit at a signed bit offset from `a`: the division rounds down (R381, R390, R571). -/
def bitByte {n : Nat} (a : Word) (o : BitVec n) : Word := a + BitVec.ofInt 32 (o.toInt / 8)

/-- A single-bit instruction completes: F gets the bit's old value, and `g` of it, if any, is the bit's new value; the bit is
o mod 32 of a register or o mod 8 of a byte of memory (R381). -/
def BitCompletes (i : Instr) (n : Nat) (off base : Gen) (g : Bool → Option Bool) : Prop :=
  ∀ s v s1, rd off n s = .ok (v, s1) →
    (∀ r, base = .mode (.reg r) →
      let k := (v.toInt % 32).toNat
      let old := (s.regs.get r).getLsbD k
      exec i s = .next (s.after i { (match g old with
        | none => s1
        | some b => s1.setReg r (putBitAt (s.regs.get r) k b)) with psr := { s.psr with f := old } })) ∧
    (∀ a s2 x s3 s4, dstModify base s1 = .ok (.mem a, s2) → memRead (bitByte a v) 1 s2 = .ok (x, s3) →
      let k := (v.toInt % 8).toNat
      let old := x.getLsbD k
      (match g old with
        | none => s4 = s3
        | some b => memWrite (bitByte a v) 1 (putBitAt x k b) s3 = .ok ((), s4)) →
      exec i s = .next (s.after i { s4 with psr := { s.psr with f := old } }))

/-- The double-word of a bit field: a register, or the four bytes at the byte of the field's first bit (R390). -/
def fieldCell (d : Dest) (o : Word) : Dest :=
  match d with
  | .mem a => .mem (bitByte a o)
  | .reg r => .reg r
  | .pair r => .pair r
  | .push => .push

/-- The position of a field's first bit in its double-word (R390). -/
def fieldBit (d : Dest) (o : Word) : Nat :=
  match d with
  | .mem _ => (o.toInt % 8).toNat
  | .reg _ => o.toNat
  | .pair _ => o.toNat
  | .push => o.toNat

/-- An extract instruction completes for a field of 1 to 32 bits inside its double-word (R390, R391). -/
def ExtractCompletes (i : Instr) (n : Nat) (o len : State → Word) (base dst : Gen) : Prop :=
  ∀ s b s1 word s2 d s3 s4, dstModify base s = .ok (b, s1) → 1 ≤ (len s).toNat →
    fieldBit b (o s) + (len s).toNat ≤ 32 → getDest (fieldCell b (o s)) 4 s1 = .ok (word, s2) →
    dstWrite dst s2 = .ok (d, s3) →
    putDest d n ((word.extractLsb' (fieldBit b (o s)) (len s).toNat).setWidth (8 * n)) s3 = .ok ((), s4) →
    exec i s = .next (s.after i s4)

/-- An insert instruction completes for a field of 1 to 32 bits inside its double-word (R390, R392). -/
def InsertCompletes (i : Instr) (n : Nat) (o len : State → Word) (src base : Gen) : Prop :=
  ∀ s v s1 b s2 word s3 new s4, rd src n s = .ok (v, s1) → dstModify base s1 = .ok (b, s2) → 1 ≤ (len s).toNat →
    fieldBit b (o s) + (len s).toNat ≤ 32 → getDest (fieldCell b (o s)) 4 s2 = .ok (word, s3) →
    FieldReplaced word v (fieldBit b (o s)) (len s).toNat new →
    putDest (fieldCell b (o s)) 4 new s3 = .ok ((), s4) → exec i s = .next (s.after i s4)

/-! ### Sequences of stores, pushes and pops -/

/-- `j` stores of n bytes one after another: store l goes to `addr l` and stores what `val l` gives of the state before it. -/
def pokes (addr : Nat → Word) (n : Nat) (val : Nat → State → BitVec (8 * n)) : Nat → State → State
  | 0, s => s
  | j + 1, s => (pokes addr n val j s).poke (addr j) n (val j (pokes addr n val j s))

/-- Double-words pushed one after another on the selected stack (R39). -/
def State.pushes (s : State) : List Word → State
  | [] => s
  | v :: t => ((s.poke (s.sp - 4) 4 v).setSp (s.sp - 4)).pushes t

/-- Registers popped one after another from the selected stack (R39). -/
def State.pops (s : State) : List Reg → State
  | [] => s
  | r :: t => ((s.setReg r (s.valueAt s.sp 4)).setSp (s.sp + 4)).pops t

/-- The registers, R0 first. -/
def regsUp : List Reg := [.r0, .r1, .r2, .r3, .r4, .r5, .r6, .r7]

/-- The registers a SAVE or ENTER list byte names, R0 first: bit k is Rk (R216). -/
def saved (l : Byte) : List Reg := regsUp.filter (fun r => l.getLsbD r.num)

/-- The registers a RESTORE or EXIT list byte names, R7 first: bit 7 - k is Rk (R216). -/
def restored (l : Byte) : List Reg := regsUp.reverse.filter (fun r => l.getLsbD (7 - r.num))

/-! ### Procedure calls between modules -/

/-- The module of a dispatch entry or procedure descriptor (R622, R450). -/
def moduleOf (v : BitVec (8 * 4)) : Half := v.extractLsb' 0 16

/-- The unsigned offset of a dispatch entry or procedure descriptor (R622, R450). -/
def offsetOf (v : BitVec (8 * 4)) : Word := (v.extractLsb' 16 16).setWidth 32

/-- The memory a call through a descriptor uses, with nothing from outside happening inside it: 8 bytes of stack, of which two are not written, and the descriptor's
module table entry (R450). -/
structure CallReady (s : State) (desc : Word) : Prop where
  calm : s.calm
  slot : s.writable (s.sp - 4) 2
  stack : s.writable (s.sp - 8) 4
  static : s.readable ((moduleOf desc).setWidth 32) 4
  program : s.readable ((moduleOf desc).setWidth 32 + 8) 4

/-- The state after a call through a descriptor (R450): MOD and the return address pushed, MOD, SB and PC from the
descriptor and its module's table entry. -/
def State.called (s : State) (desc ret : Word) : State :=
  let u := (s.poke (s.sp - 4) 2 s.mod).poke (s.sp - 8) 4 ret
  let m := moduleOf desc
  ({ u.setSp (s.sp - 8) with mod := m, sb := u.valueAt (m.setWidth 32) 4 }).goto
    (u.valueAt (m.setWidth 32 + 8) 4 + offsetOf desc)

/-! ### Exception entry -/

/-- What entry through a dispatch-table entry in Direct-Exception mode leaves (R621, R623): the saved PSR copy and the return
address on the interrupt stack, PC from the table, the new PSR; the queue purged. -/
structure EnteredDirect (vector : Nat) (saved new : Psr) (ret : Word) (s t : State) : Prop where
  pc : t.pc = s.valueAt (s.intbase + BitVec.ofNat 32 (4 * vector)) 4
  psr : t.psr = new
  sp0 : t.sp0 = s.sp0 - 8
  sp1 : t.sp1 = s.sp1
  savedPsr : Psr.ofBits (t.valueAt (s.sp0 - 2) 2) = saved
  savedPc : t.valueAt (s.sp0 - 8) 4 = ret
  purged : t.dirty = []
  address : t.fp = s.fp ∧ t.sb = s.sb ∧ t.intbase = s.intbase ∧ t.mod = s.mod ∧ t.cfg = s.cfg
  regs : t.regs = s.regs
  mem : ∀ a, a ∉ bytesOf (s.sp0 - 2) 2 → a ∉ bytesOf (s.sp0 - 8) 4 → t.mem.read a = s.mem.read a

/-- The conditions of an entry in Direct-Exception mode: nothing from outside happens inside it, the interrupt stack's 8 bytes can be written, the dispatch entry
can be read and the copy of the PSR does not fall on it. -/
structure DirectReady (vector : Nat) (s : State) : Prop where
  calm : s.calm
  mode : s.cfg.de = true
  wf : s.mem.wf
  stack : s.writable (s.sp0 - 8) 8
  entry : s.readable (s.intbase + BitVec.ofNat 32 (4 * vector)) 4
  apart : Apart (s.intbase + BitVec.ofNat 32 (4 * vector)) 4 (s.sp0 - 2) 2

/-- What entry without Direct-Exception mode leaves (R621, R622): PSR copy, old MOD and return address on the interrupt
stack; MOD, SB and PC from the dispatch entry's module. -/
structure EnteredModular (vector : Nat) (saved new : Psr) (ret : Word) (s t : State) : Prop where
  mod : t.mod = moduleOf (s.valueAt (s.intbase + BitVec.ofNat 32 (4 * vector)) 4)
  sb : t.sb = s.valueAt (t.mod.setWidth 32) 4
  pc : t.pc = s.valueAt (t.mod.setWidth 32 + 8) 4 + offsetOf (s.valueAt (s.intbase + BitVec.ofNat 32 (4 * vector)) 4)
  psr : t.psr = new
  sp0 : t.sp0 = s.sp0 - 8
  sp1 : t.sp1 = s.sp1
  savedPsr : Psr.ofBits (t.valueAt (s.sp0 - 2) 2) = saved
  savedMod : t.valueAt (s.sp0 - 4) 2 = s.mod
  savedPc : t.valueAt (s.sp0 - 8) 4 = ret
  purged : t.dirty = []
  address : t.fp = s.fp ∧ t.intbase = s.intbase ∧ t.cfg = s.cfg
  regs : t.regs = s.regs
  mem : ∀ a, a ∉ bytesOf (s.sp0 - 8) 8 → t.mem.read a = s.mem.read a

/-- The conditions of an entry without Direct-Exception mode: nothing from outside happens inside it, the interrupt stack can be written, the dispatch entry and
the module's static base and program base can be read, and the copy of the PSR does not fall on them. -/
structure ModularReady (vector : Nat) (s : State) : Prop where
  calm : s.calm
  mode : s.cfg.de = false
  wf : s.mem.wf
  stack : s.writable (s.sp0 - 8) 8
  entry : s.readable (s.intbase + BitVec.ofNat 32 (4 * vector)) 4
  table : s.readable ((moduleOf (s.valueAt (s.intbase + BitVec.ofNat 32 (4 * vector)) 4)).setWidth 32) 4 ∧
    s.readable ((moduleOf (s.valueAt (s.intbase + BitVec.ofNat 32 (4 * vector)) 4)).setWidth 32 + 8) 4
  apart : Apart (s.intbase + BitVec.ofNat 32 (4 * vector)) 4 (s.sp0 - 2) 2
  tableApart : Apart ((moduleOf (s.valueAt (s.intbase + BitVec.ofNat 32 (4 * vector)) 4)).setWidth 32) 4 (s.sp0 - 2) 2 ∧
    Apart ((moduleOf (s.valueAt (s.intbase + BitVec.ofNat 32 (4 * vector)) 4)).setWidth 32 + 8) 4 (s.sp0 - 2) 2

/-- What an exception entry leaves of the peripherals and the environment, but for ISRV and the NMI latch (R620, R622). -/
structure EntrySame (s t : State) : Prop where
  chip : t.bpu = s.bpu ∧ t.dma = s.dma ∧ t.timer0 = s.timer0 ∧ t.timer1 = s.timer1 ∧ t.timer2 = s.timer2
  outside : t.irPins = s.irPins ∧ t.plat = s.plat ∧ t.inputs = s.inputs ∧ t.within = s.within ∧ t.dmaOut = s.dmaOut ∧
    t.fpu = s.fpu

/-- The memory a return from an exception reads, with nothing from outside happening inside it (R460). -/
structure ReturnReady (s : State) : Prop where
  calm : s.calm
  pc : s.readable s.sp0 4
  psr : s.readable (s.sp0 + 6) 2
  mod : s.cfg.de = false → s.readable (s.sp0 + 4) 2 ∧
    s.readable ((s.valueAt (s.sp0 + 4) 2).setWidth 32) 4

/-- The state after a return from an exception (R460): the frame of SP0 popped, the PSR and, without Direct-Exception mode,
MOD and SB restored, `disp` bytes discarded from the stack the restored PSR selects. -/
def State.returned (s : State) (disp : Word) : State :=
  let u := { s with sp0 := s.sp0 + 8, psr := Psr.ofBits (s.valueAt (s.sp0 + 6) 2), psrTouched := true }
  let v := if s.cfg.de then u else
    { u with mod := s.valueAt (s.sp0 + 4) 2, sb := s.valueAt ((s.valueAt (s.sp0 + 4) 2).setWidth 32) 4 }
  (v.setSp (v.sp + disp)).goto (s.valueAt s.sp0 4)

/-! ### String instructions -/

/-- The address of element j of a string: the pointers go down with the Backward option (R421). -/
def strAddr (o : StrOpts) (n : Nat) (base : Word) (j : Nat) : Word :=
  if o.back then base - BitVec.ofNat 32 (j * n) else base + BitVec.ofNat 32 (j * n)

/-- The String 1 element at an address, translated by the table at R3 in the T forms (R422). -/
def State.strElem (s : State) (n : Nat) (trans : Bool) (a : Word) : BitVec (8 * n) :=
  if trans then (s.valueAt (s.regs.r3 + (s.valueAt a n).setWidth 32) 1).setWidth (8 * n) else s.valueAt a n

/-- The state after j elements of a string instruction were stored one after another; only a move stores (R424-R426). -/
def State.strRun (s : State) (k : StrKind) (o : StrOpts) (n : Nat) (trans : Bool) (j : Nat) : State :=
  if k = .move then
    pokes (strAddr o n s.regs.r2) n (fun l t => t.strElem n trans (strAddr o n s.regs.r1 l)) j s
  else s

/-- The String 1 element an iteration j reads. -/
def State.strX (s : State) (k : StrKind) (o : StrOpts) (n : Nat) (trans : Bool) (j : Nat) : BitVec (8 * n) :=
  (s.strRun k o n trans j).strElem n trans (strAddr o n s.regs.r1 j)

/-- The String 2 element an iteration j of a comparison reads. -/
def State.strY (s : State) (o : StrOpts) (n : Nat) (j : Nat) : BitVec (8 * n) := s.valueAt (strAddr o n s.regs.r2 j) n

/-- R4[n-1:0] (R420). -/
def State.strR4 (s : State) (n : Nat) : BitVec (8 * n) := s.regs.r4.setWidth (8 * n)

/-- The memory a string instruction may use: every element R0 counts, and for the T forms the translation table. -/
structure StringReady (k : StrKind) (o : StrOpts) (n : Nat) (trans : Bool) (s : State) : Prop where
  first : ∀ j, j < s.regs.r0.toNat → s.readable (strAddr o n s.regs.r1 j) n
  second : k ≠ .skip → ∀ j, j < s.regs.r0.toNat → s.readable (strAddr o n s.regs.r2 j) n
  stored : k = .move → ∀ j, j < s.regs.r0.toNat → s.writable (strAddr o n s.regs.r2 j) n
  table : trans = true → ∀ b : Byte, s.readable (s.regs.r3 + b.setWidth 32) 1

/-- Iteration l of a string instruction goes on to the next element (R423-R426). -/
def StringGoesOn (k : StrKind) (o : StrOpts) (n : Nat) (trans : Bool) (s : State) (l : Nat) : Prop :=
  strStops o (s.strX k o n trans l) (s.strR4 n) = false ∧ (k = .compare → s.strX k o n trans l = s.strY o n l)

/-- The registers after j elements (R423, R426). -/
def State.strRegs (s : State) (k : StrKind) (o : StrOpts) (n j : Nat) : Regs :=
  { s.regs with
    r0 := s.regs.r0 - BitVec.ofNat 32 j
    r1 := strAddr o n s.regs.r1 j
    r2 := if k = .skip then s.regs.r2 else strAddr o n s.regs.r2 j }

/-- The PSR a string instruction starts with (R423). -/
def Psr.strStart (p : Psr) (k : StrKind) : Psr :=
  if k = .compare then { p with f := false, z := true, n := false, l := false } else { p with f := false }

/-- A string instruction completes: after all the elements R0 counts, at the first element on which the Until or While option
ends it, or at the first unequal pair of a comparison (R423-R426). -/
def StringCompletes (i : Instr) (k : StrKind) (o : StrOpts) (n : Nat) (trans : Bool) : Prop :=
  ∀ s j, s.quiet → StringReady k o n trans s → j ≤ s.regs.r0.toNat → (∀ l, l < j → StringGoesOn k o n trans s l) →
    let u := { s.strRun k o n trans j with regs := s.strRegs k o n j }
    let x := s.strX k o n trans j
    (j = s.regs.r0.toNat → exec i s = .next (s.after i { u with psr := s.psr.strStart k })) ∧
    (j < s.regs.r0.toNat → strStops o x (s.strR4 n) = true →
      exec i s = .next (s.after i { u with psr := { s.psr.strStart k with f := true } })) ∧
    (j < s.regs.r0.toNat → strStops o x (s.strR4 n) = false → k = .compare → x ≠ s.strY o n j →
      exec i s = .next (s.after i { u with
        psr := { s.psr with
          f := false
          z := false
          n := decide ((s.strY o n j).toInt < x.toInt)
          l := decide ((s.strY o n j).toNat < x.toNat) } }))

/-- A string instruction with an interrupt pending ends partially after an element that is not its last: the registers hold
the progress, PSR.P is cleared, and the interrupt saves the instruction's own address (R428, R631). -/
def StringInterrupted (i : Instr) (k : StrKind) (o : StrOpts) (n : Nat) (trans : Bool) : Prop :=
  ∀ s t, s.calm → s.interruptPending = true → StringReady k o n trans s →
    2 ≤ s.regs.r0.toNat → StringGoesOn k o n trans s 0 →
    interruptSequence s.pc
      { s.strRun k o n trans 1 with regs := s.strRegs k o n 1, psr := { s.psr.strStart k with p := false }, psrTouched := true }
        = .ok ((), t) →
    exec i s = .next t.ended

/-- The state a string instruction is resumed in after j elements, its registers, its PC and the copy of the PSR restored
(R428). -/
def State.strResumed (s : State) (k : StrKind) (o : StrOpts) (n : Nat) (trans : Bool) (j : Nat) : State :=
  { s.strRun k o n trans j with regs := s.strRegs k o n j, psr := { s.psr.strStart k with p := false }, written := [] }

/-- Resumed after j elements, a string instruction ends as the uninterrupted one does: the same registers, memory, PC and,
but for P, the same PSR (R428). -/
def StringResumes (i : Instr) (k : StrKind) (o : StrOpts) (n : Nat) (trans : Bool) : Prop :=
  ∀ s j, s.quiet → StringReady k o n trans s → j < s.regs.r0.toNat → (∀ l, l < j → StringGoesOn k o n trans s l) →
    ∃ t u, exec i s = .next t ∧ exec i (s.strResumed k o n trans j) = .next u ∧ u.regs = t.regs ∧ u.mem = t.mem ∧
      u.pc = t.pc ∧ u.psr = { t.psr with p := false }

/-! ### Floating-point instructions -/

/-- The instructions of formats 9, 11 and 12 (R510). -/
def isFloat : Instr → Bool
  | .movif .. | .lfsr .. | .movlf .. | .movfl .. | .roundfi .. | .truncfi .. | .sfsr .. | .floorfi ..
  | .addf .. | .movf .. | .cmpf .. | .subf .. | .negf .. | .divf .. | .mulf .. | .absf ..
  | .polyf .. | .dotf .. | .scalbf .. | .logbf .. => true
  | _ => false

/-- The state once a request has been sent and its reply taken (R512 steps 1 to 6). -/
def State.sent (s : State) (q : FpuRequest) : State :=
  { s with fpu := { st := (s.fpu.reply q).state, replies := s.fpu.replies.tail, last := some q } }

/-- The CPU's part before the slave answers (R512 steps 1 to 3, R514, R520-R539): from `s` the operands are evaluated, giving
the state `t`, the request `q`, and the place of n bytes the result goes to, if the CPU writes one. -/
def FloatIssues (i : Instr) (s t : State) (q : FpuRequest) (d : Option Dest) (n : Nat) : Prop :=
  match i with
  | .addf f x y | .subf f x y | .mulf f x y | .divf f x y | .scalbf f x y =>
    n = f.bytes ∧ ∃ a s1 b, fread x n s = .ok (a, s1) ∧ fmodify y n s1 = .ok ((d, b), t) ∧ q = requestOf i a b
  | .movf f x y | .absf f x y | .negf f x y | .logbf f x y =>
    n = f.bytes ∧ ∃ a s1, fread x n s = .ok (a, s1) ∧ fwrite y s1 = .ok (d, t) ∧ q = requestOf i a none
  | .movfl _ x y => n = 8 ∧ ∃ a s1, fread x 4 s = .ok (a, s1) ∧ fwrite y s1 = .ok (d, t) ∧ q = requestOf i a none
  | .movlf _ x y => n = 4 ∧ ∃ a s1, fread x 8 s = .ok (a, s1) ∧ fwrite y s1 = .ok (d, t) ∧ q = requestOf i a none
  | .floorfi f z x y | .truncfi f z x y | .roundfi f z x y =>
    n = z.bytes ∧ ∃ a s1 e, fread x f.bytes s = .ok (a, s1) ∧ dstWrite y s1 = .ok (e, t) ∧ d = some e ∧
      q = requestOf i a none
  | .cmpf f x y | .polyf f x y | .dotf f x y =>
    d = none ∧ ∃ a s1 b, fread x f.bytes s = .ok (a, s1) ∧ fread y f.bytes s1 = .ok (b, t) ∧ q = requestOf i a b
  | .movif f z x y =>
    n = f.bytes ∧ ∃ a s1, rd x z.bytes s = .ok (a, s1) ∧ fwrite y s1 = .ok (d, t) ∧
      q = requestOf i (some (a.setWidth 64)) none
  | .lfsr _ x => d = none ∧ ∃ a, rd x 4 s = .ok (a, t) ∧ q = requestOf i (some (a.setWidth 64)) none
  | .sfsr _ y => n = 4 ∧ ∃ e, dstWrite y s = .ok (e, t) ∧ d = some e ∧ q = requestOf i none none
  | _ => False

/-- The value the CPU writes to the place of a result: the reply's result, for SFSR the FSR the unit held (R512 step 7,
R535). -/
def floatResult (i : Instr) (t : State) (r : FpuReply) : BitVec 64 :=
  match i with
  | .sfsr .. => t.fpu.st.fsr.setWidth 64
  | _ => r.result

/-- What an instruction does with the reply beside writing the result: CMPf loads N and Z from the Status Word and clears L
(R48, R512 step 6, R515, R527); LFSR's operand becomes the FSR (R534). -/
def State.replied (s : State) (i : Instr) (q : FpuRequest) (r : FpuReply) : State :=
  match i with
  | .cmpf .. =>
    { s with psr := { s.psr with n := r.status.getLsbD 7, z := r.status.getLsbD 6, l := false } }
  | .lfsr .. => { s with fpu := { s.fpu with st := { s.fpu.st with fsr := (q.op1.getD 0).setWidth 32 } } }
  | _ => s

/-! ### Graphics instructions -/

/-- The address of word w of line l of a block: the pointer steps by `step` at each word and by `warp` at each line's end
(R554, R564). -/
def blockAddr (base step warp : Word) (words l w : Nat) : Word :=
  base + BitVec.ofNat 32 l * (BitVec.ofNat 32 words * step + warp) + BitVec.ofNat 32 w * step

/-- The horizontal step of a BB instruction (R554). -/
def bbStep (o : BBOpts) : Word := if o.da then -2 else 2

/-- The source address of word j of a BB block of `words` words a line (R554). -/
def State.bbSource (s : State) (o : BBOpts) (words j : Nat) : Word :=
  blockAddr s.regs.r0 (bbStep o) s.regs.r6 words (j / words) (j % words)

/-- The destination address of word j of a BB block (R554). -/
def State.bbTarget (s : State) (o : BBOpts) (words j : Nat) : Word :=
  blockAddr s.regs.r1 (bbStep o) s.regs.r7 words (j / words) (j % words)

/-- The double-word a BB instruction stores for word j (R554). -/
def State.bbValue (s : State) (fn : BBFn) (o : BBOpts) (words j : Nat) (t : State) : Word :=
  let m : Half := (if j % words = 0 then s.regs.r4.setWidth 16 else 0xFFFF) &&&
    (if j % words + 1 = words then s.regs.r5.setWidth 16 else 0xFFFF)
  let v : Half := t.valueAt (s.bbSource o words j) 2
  let v : Half := if o.negS then v ^^^ 0xFFFF else v
  let d : Word := t.valueAt (s.bbTarget o words j) 4
  let s32 : Word := (v &&& m).setWidth 32 <<< s.regs.r2.toNat
  let m32 : Word := m.setWidth 32 <<< s.regs.r2.toNat
  match fn with
  | .lor => d ||| s32
  | .lxor => d ^^^ s32
  | .land => d &&& (s32 ||| ~~~m32)
  | .stod => (d &&& ~~~m32) ||| s32

/-- The width of a BB block in words: the double-word at 0(SP) (R554). -/
def State.bbWords (s : State) : Nat := (s.valueAt s.sp 4).toNat

/-- The conditions of a BB instruction that is not interrupted (R554). -/
structure BBReady (o : BBOpts) (s : State) : Prop where
  quiet : s.quiet
  shift : s.regs.r2.toNat ≤ 15
  width : s.readable s.sp 4
  source : ∀ j, j < s.regs.r3.toNat * s.bbWords → s.readable (s.bbSource o s.bbWords j) 2
  target : ∀ j, j < s.regs.r3.toNat * s.bbWords → s.writable (s.bbTarget o s.bbWords j) 4

/-- A BB instruction completes (R554): every word of every line is combined, in order, and the registers stand behind the
block. -/
def BBCompletes (i : Instr) (fn : BBFn) (o : BBOpts) : Prop :=
  ∀ s, BBReady o s →
    exec i s = .next (s.after i
      { pokes (s.bbTarget o s.bbWords) 4 (s.bbValue fn o s.bbWords) (s.regs.r3.toNat * s.bbWords) s with
        regs := { s.regs with
          r0 := blockAddr s.regs.r0 (bbStep o) s.regs.r6 s.bbWords s.regs.r3.toNat 0
          r1 := blockAddr s.regs.r1 (bbStep o) s.regs.r7 s.bbWords s.regs.r3.toNat 0
          r3 := 0 } })

/-- The source words EXTBLT reads in a line: one more with the pre-read (R564, R565). -/
def State.extReads (s : State) : Nat := s.regs.r2.toNat / 2 + (if s.psr.l then 0 else 1)

/-- The conditions of an EXTBLT that is not interrupted (R564). -/
structure ExtReady (s : State) : Prop where
  quiet : s.quiet
  setup : extbltReady s = true
  source : ∀ l w, l < s.regs.r3.toNat → w < s.extReads →
    s.readable (blockAddr s.regs.r0 s.regs.r4 s.regs.r6 s.extReads l w) 2
  target : ∀ l w, l < s.regs.r3.toNat → w < s.regs.r2.toNat / 2 →
    s.writable (blockAddr s.regs.r1 s.regs.r4 s.regs.r7 (s.regs.r2.toNat / 2) l w) 2

/-- A source read of EXTBLT: the source latches move up and take the word at an address (R682). -/
def State.extRead (t : State) (a : Word) : State :=
  { t with bpu := { t.bpu with bil := t.bpu.sdil, sdil := some (t.valueAt a 2) } }

/-- Word w of line l of an EXTBLT that started in state `s`, performed in state `t` (R564, R682-R685): the source word is
read, the destination word is read, and the word the BPU makes of them is stored. `free` stands for a source latch that was
never loaded (U4). -/
def State.extWord (s : State) (free : Half) (l w : Nat) (t : State) : State :=
  let pre := if s.psr.l then 0 else 1
  let u := t.extRead (blockAddr s.regs.r0 s.regs.r4 s.regs.r6 s.extReads l (w + pre))
  let a := blockAddr s.regs.r1 s.regs.r4 s.regs.r7 (s.regs.r2.toNat / 2) l w
  let d : Half := u.valueAt a 2
  let v := u.bpu.result w (u.bpu.sdil.getD free) (u.bpu.bil.getD free) d
  { u with bpu := { u.bpu with ddil := some d } }.poke a 2 v

/-- The first n words of line l. -/
def State.extWords (s : State) (free : Half) (l : Nat) : Nat → State → State
  | 0, t => t
  | n + 1, t => s.extWord free l n (s.extWords free l n t)

/-- The first n lines of an EXTBLT that started in state `s`, each with the extra source read if PSR.L is 0 (R564, R565). -/
def State.extLines (s : State) (free : Half) : Nat → State
  | 0 => s
  | n + 1 =>
    let t := s.extLines free n
    let u := if s.psr.l then t else t.extRead (blockAddr s.regs.r0 s.regs.r4 s.regs.r6 s.extReads n 0)
    s.extWords free n (s.regs.r2.toNat / 2) u

end Sys2Proof.Machine
end

