-- ==== Sys2Proof/WellFormed.lean ====
section
/-! DEFINITION. Which instructions are well formed: the access class of every general operand (spec/30_encoding.md
R203-R212, spec/40_operands.md R250) and the fixed field values of R232, R233, R256. -/

namespace Sys2Proof

/-- The access classes of R250. `read n` carries the operand's length in bytes, which is the length of
an immediate (R187). -/
inductive Access where
  | read (n : Nat) | write | rmw | addr | regaddr
deriving DecidableEq, Repr

/-- Whether an operand form is legal for an access class (R233, R264). -/
def Gen.okFor (g : Gen) : Access → Bool
  | .read n => match g with
    | .imm v => v.bytes == n
    | _ => true
  | .addr => match g with
    | .imm _ => false
    | .mode (.reg _) => false
    | _ => true
  | .write | .rmw | .regaddr => match g with
    | .imm _ => false
    | _ => true

/-- The general operands of an instruction with their access classes, gen1 first (R203-R212). -/
def Instr.operands : Instr → List (Access × Gen)
  | .beq _ | .bne _ | .bcs _ | .bcc _ | .bhi _ | .bls _ | .bgt _ | .ble _
  | .bfs _ | .bfc _ | .blo _ | .bhs _ | .blt _ | .bge _ | .br _ | .bnever _ => []
  | .bsr _ | .ret _ | .cxp _ | .rxp _ | .rett _ | .reti | .save _ | .restore _ | .enter _ _ | .exit _
  | .nop | .wait | .dia | .flag | .svc | .bpt => []
  | .addqi _ _ g => [(.rmw, g)]
  | .cmpqi i _ g => [(.read i.bytes, g)]
  | .spri _ _ g => [(.write, g)]
  | .scondi _ _ g => [(.write, g)]
  | .acbi _ _ g _ => [(.rmw, g)]
  | .movqi _ _ g => [(.write, g)]
  | .lpri i _ g => [(.read i.bytes, g)]
  | .cxpd g | .jump g | .jsr g => [(.addr, g)]
  | .bicpsri i g | .bispsri i g | .adjspi i g | .casei i g => [(.read i.bytes, g)]
  | .addi i a b | .bici i a b | .addci i a b | .ori i a b | .subi i a b | .andi i a b | .subci i a b
  | .xori i a b => [(.read i.bytes, a), (.rmw, b)]
  | .cmpi i a b => [(.read i.bytes, a), (.read i.bytes, b)]
  | .movi i a b => [(.read i.bytes, a), (.write, b)]
  | .addr a b => [(.addr, a), (.write, b)]
  | .tbiti i a b => [(.read i.bytes, a), (.regaddr, b)]
  | .movsi _ _ | .movst _ | .cmpsi _ _ | .cmpst _ | .skpsi _ _ | .skpst _ | .setcfg _
  | .bband _ | .bbor _ | .bbxor _ | .bbstod _ | .bbfor | .bitwt | .extblt | .sbits | .sbitps | .movmpi _
  | .tbits _ => []
  | .roti _ a b | .ashi _ a b | .lshi _ a b => [(.read 1, a), (.rmw, b)]
  | .cbiti i a b | .cbitii i a b | .sbiti i a b | .sbitii i a b | .ibiti i a b =>
    [(.read i.bytes, a), (.regaddr, b)]
  | .negi i a b | .noti i a b | .absi i a b | .comi i a b => [(.read i.bytes, a), (.write, b)]
  | .subpi i a b | .addpi i a b => [(.read i.bytes, a), (.rmw, b)]
  | .movmi _ a b _ | .cmpmi _ a b _ => [(.addr, a), (.addr, b)]
  | .inssi i a b _ => [(.read i.bytes, a), (.regaddr, b)]
  | .extsi _ a b _ => [(.regaddr, a), (.write, b)]
  | .movxbw a b | .movzbw a b => [(.read 1, a), (.write, b)]
  | .movzid i a b | .movxid i a b => [(.read i.bytes, a), (.write, b)]
  | .muli i a b | .meii i a b | .deii i a b | .quoi i a b | .remi i a b | .modi i a b | .divi i a b =>
    [(.read i.bytes, a), (.rmw, b)]
  | .exti _ _ a b _ => [(.regaddr, a), (.write, b)]
  | .cvtp _ a b => [(.addr, a), (.write, b)]
  | .insi i _ a b _ => [(.read i.bytes, a), (.regaddr, b)]
  | .checki i _ a b => [(.addr, a), (.read i.bytes, b)]
  | .indexi i _ a b => [(.read i.bytes, a), (.read i.bytes, b)]
  | .ffsi i a b => [(.read i.bytes, a), (.rmw, b)]
  | .movif _ i a b => [(.read i.bytes, a), (.write, b)]
  | .lfsr _ a => [(.read 4, a)]
  | .movlf _ a b => [(.read 8, a), (.write, b)]
  | .movfl _ a b => [(.read 4, a), (.write, b)]
  | .roundfi f _ a b | .truncfi f _ a b | .floorfi f _ a b => [(.read f.bytes, a), (.write, b)]
  | .sfsr _ b => [(.write, b)]
  | .addf f a b | .subf f a b | .divf f a b | .mulf f a b | .scalbf f a b => [(.read f.bytes, a), (.rmw, b)]
  | .movf f a b | .negf f a b | .absf f a b | .logbf f a b => [(.read f.bytes, a), (.write, b)]
  | .cmpf f a b | .polyf f a b | .dotf f a b => [(.read f.bytes, a), (.read f.bytes, b)]

/-- The low bit of a register number, for the pairs of R256. -/
def Reg.odd : Reg → Bool
  | .r1 | .r3 | .r5 | .r7 => true
  | .r0 | .r2 | .r4 | .r6 => false

/-- The conditions beyond the access classes: fixed size fields (R204, R208, R232) and even register pairs (R256). -/
def Instr.fieldsOk : Instr → Bool
  | .bicpsri i _ | .bispsri i _ | .movzid i _ _ | .movxid i _ _ => i != .d
  | .meii i _ (.mode (.reg r)) | .deii i _ (.mode (.reg r)) => i != .d || !r.odd
  | _ => true

/-- A well-formed instruction: every operand form is legal for its access class, every immediate has its operand's
length, and the fixed fields hold their values. -/
def Instr.wellFormed (i : Instr) : Bool :=
  i.operands.all (fun o => o.2.okFor o.1) && i.fieldsOk

end Sys2Proof
end

