-- ==== Sys2Proof/Certificates/Slice0/Obligations.lean ====
section
/-! DEFINITION. The statements for the provers, one `def Obligations.<Name> : Prop` each. OBLIGATIONS.json says in words what
each states. "Model's choice" in a docstring names what rests on a log entry and not on a rule of the spec. -/

open Sys2Proof Sys2Proof.Machine

/-! ## Encoding -/

/-- Decoding an encoded well-formed instruction gives it back and leaves the bytes after it (R180-R183, R200-R212), for every
choice of the codes R8 leaves open (GRAPHICS_OPCODES, SETCFG_DE_ENC). -/
def Obligations.DecodeInvertsEncode : Prop :=
  ∀ (c : Codes) (i : Instr) (rest : List Byte), c.wf = true → i.wellFormed = true →
    decodeWith c (encodeWith c i ++ rest) = .ok i rest

/-- Words written out in the spec's own examples decode to the instructions they stand for. -/
def Obligations.SpecWordsDecode : Prop :=
  decode [0xEA, 0x0A] = .ok (.br (.d7 10)) [] ∧
  decode [0x54, 0x00] = .ok (.movi .b (.mode (.reg .r0)) (.mode (.reg .r1))) [] ∧
  decode [0x7F, 0x42, 0x00] = .ok (.jump (.mode (.regRel .r0 (.d7 0)))) [] ∧
  decode [0xEF, 0xA4, 0x00, 0x00, 0x80, 0x00] = .ok (.lpri .d .sp (.imm (.d 0x8000))) [] ∧
  decode [0x7C, 0xA3, 0x01] = .ok (.bispsri .b (.imm (.b 0x01))) [] ∧
  decode [0x7D, 0xA1, 0x08, 0x00] = .ok (.bicpsri .w (.imm (.w 0x0800))) [] ∧
  decode [0x82, 0x08, 0x08] = .ok (.enter 0x08 (.d7 8)) [] ∧
  decode [0x0E, 0x0C, 0x06] = .ok (.skpsi .b { back := false, uw := .untilMatch }) [] ∧
  decode [0x0E, 0x21, 0x00] = .ok .bitwt []

/-- An undefined opcode is Trap (UND) (R230, R231, R615; that these encodings trap, where the datasheet says only "an undefined
opcode", is decision D7): the first bytes that name no format of this CPU, the undefined operations inside formats 3, 5, 6, 7 and 8
(R204, R206-R209) and the undefined register codes of LPR and SPR (R217) have no decoding, whatever the codes R8 leaves open; the
machine then performs the trap sequence of vector 10 for the instruction's address; so it does, with CFG.F = 0, on whatever follows
the ID byte of a floating-point instruction (R510). -/
def Obligations.UndefinedOpcodesTrap : Prop :=
  (∀ (c : Codes) (b : Byte) (rest : List Byte), b ∈ [(0x7E : Byte), 0x9E, 0x1E, 0x5E, 0xDE, 0x8E] ∨ b &&& 0x0F = 0x06 →
    decodeWith c (b :: rest) = .bad .undefined) ∧
  (∀ (c : Codes) (b0 b1 : Byte) (rest : List Byte),
    (b0 ∈ [(0x2C : Byte), 0x2D, 0x2F, 0xAC, 0xAD, 0xAF, 0x6C, 0x6D, 0x6F, 0xEC, 0xED, 0xEF] ∧
      b0.toNat / 128 + 2 * (b1.toNat % 8) ∉ [0, 8, 9, 10, 13, 14, 15]) ∨
    (b0 ∈ [(0x7C : Byte), 0x7D, 0x7F] ∧ b1.toNat % 8 = 4) ∨ b0 ∈ [(0xFC : Byte), 0xFD, 0xFF] →
    decodeWith c (b0 :: b1 :: rest) = .bad .undefined) ∧
  (∀ (c : Codes) (b0 b1 b2 : Byte) (rest : List Byte),
    let op := b1.toNat / 4 % 16
    (b0 = 0x0E ∧ op = 15) ∨ (b0 = 0x4E ∧ (op = 4 ∨ op = 10)) ∨ (b0 = 0xCE ∧ op = 10) ∨
      ((b0 = 0xAE ∨ b0 = 0xEE) ∧ op % 2 = 1) →
    decodeWith c (b0 :: b1 :: b2 :: rest) = .bad .undefined) ∧
  (∀ s : State, decodeWith s.plat.codes s.codeBytes = .bad .undefined →
    runInstruction exec s = settled (trapSequence .und s) s) ∧
  (∀ s : State, fpuFirst s.codeBytes = true → s.cfg.f = false →
    runInstruction exec s = settled (trapSequence .und s) s)

/-! ## The machine's cycle -/

/-- When no event, interrupt or trace trap comes first, the bytes at PC decide the step: it is the decoded instruction's
meaning, in the state with T copied to P (R601, R650), a write of the PSR (R59, log 14). -/
def Obligations.StepRunsDecodedInstruction : Prop :=
  ∀ (s u : State) (i : Instr) (rest : List Byte), arrive s = .ok ((), u) → u.op = .executing →
    u.interruptPending = false → u.psr.p = false → decodeWith u.plat.codes u.codeBytes = .ok i rest →
    step s = exec i { u with psr := { u.psr with p := u.psr.t }, psrTouched := true }

/-- The order of a step's checks (R600, R601): in the Reset state nothing happens; the non-maskable interrupt comes first, then
a maskable one if PSR.I is 1, then the trace trap; waiting ends on an interrupt alone. -/
def Obligations.StepTakesExceptionsInOrder : Prop :=
  ∀ s u : State, arrive s = .ok ((), u) →
    (u.op = .reset → step s = .next u) ∧
    (u.op = .waiting → u.nmiLatch = false → (u.psr.i && u.irqRequest) = false → step s = .next u) ∧
    (u.op = .waiting ∨ u.op = .executing → u.nmiLatch = true → step s = settled (nmiSequence u.pc) u) ∧
    (u.op = .waiting ∨ u.op = .executing → u.nmiLatch = false → u.psr.i = true → u.irqRequest = true →
      step s = settled (maskableSequence u.pc) u) ∧
    (u.op = .executing → u.nmiLatch = false → (u.psr.i && u.irqRequest) = false → u.psr.p = true →
      step s = settled traceSequence u)

/-- An instruction whose first byte was written after the last purge of the queue "has no defined result" (R162): the model
stops. A store makes its bytes such bytes; a change of control flow purges the queue (R161). -/
def Obligations.StoredCodeNeedsPurge : Prop :=
  (∀ s u : State, arrive s = .ok ((), u) → u.op = .executing → u.interruptPending = false → u.psr.p = false →
    u.readable u.pc 1 → u.pc.toNat ∈ u.dirty → step s = .fault .staleFetch) ∧
  (∀ (s : State) (a : Word) (n : Nat) (v : BitVec (8 * n)) (x : Nat),
    x ∈ (s.poke a n v).dirty ↔ x ∈ s.dirty ∨ x ∈ bytesOf a n) ∧
  (∀ (d : Disp) (s : State), ∃ t, exec (.br d) s = .next t ∧ t.dirty = [])

/-- What RSTI low leaves, from every state (R99, R760): the values the spec states; execution begins at 0 when it rises
(R37). -/
def Obligations.ResetValues : Prop :=
  ∀ s : State, ∃ t, event .rstiLow s = .ok ((), t) ∧ InReset t ∧
    ∃ u, event .rstiHigh t = .ok ((), u) ∧ u = { t with op := .executing }

/-- The state after reset satisfies the invariant. -/
def Obligations.ResetSatisfiesInvariant : Prop := State.reset.Inv

/-- Every step, whatever the environment does in it, keeps the invariant: memory stays in its canonical form and inside the
external addresses (R130), ISRV bit 0 stays 0 (R91), and no DMA channel is enabled while EOT, or an unmasked OVR, is set
(R88). -/
def Obligations.StepKeepsInvariant : Prop := ∀ s t : State, s.Inv → step s = .next t → t.Inv

/-- In User mode no instruction changes CFG or INTBASE, and an instruction that stays in User mode changes neither the stack
select nor the interrupt enable (R53, R60, R670): nothing of the environment resets the machine inside it. -/
def Obligations.UserModeCannotChangeControl : Prop :=
  ∀ (i : Instr) (s t : State), s.psr.u = true → (∀ l ∈ s.within, Event.rstiLow ∉ l) → exec i s = .next t →
    t.cfg = s.cfg ∧ t.intbase = s.intbase ∧ (t.psr.u = true → t.psr.s = s.psr.s ∧ t.psr.i = s.psr.i)

/-! ## Memory -/

/-- With nothing from outside between its bus cycles, storing n bytes makes them read back, the least significant at the lowest
address (R135, R137); no other byte of memory changes, and the memory keeps its canonical form. -/
def Obligations.MemoryStoreThenLoad : Prop :=
  ∀ (s : State) (a : Word) (n : Nat) (v : BitVec (8 * n)), 0 < n → n ≤ 8 → s.calm → s.mem.wf → s.writable a n →
    memWrite a n v s = .ok ((), s.poke a n v) ∧
    memRead a n (s.poke a n v) = .ok (v, s.poke a n v) ∧
    (∀ k, k < n → (s.poke a n v).mem.read (a + BitVec.ofNat 32 k).toNat = v.extractLsb' (8 * k) 8) ∧
    (∀ x, x ∉ bytesOf a n → (s.poke a n v).mem.read x = s.mem.read x) ∧
    (s.poke a n v).mem.wf

/-- An operand of 1, 2, 4 or 8 bytes is read and stored in the bus cycles of R140's table, in order, and before each of them the
other agents may act (R150, R152, R710): a wide operand is not atomic (decision D9). RSTI low there cuts the instruction or the
exception sequence short (R602, R760): the values of R99, and no byte of memory changes but those an instruction was due to store,
which hold any value (U26; which bytes those are is log 35, DESIGN CHOICE). An exception sequence has no such bytes: what it has
pushed stays. -/
def Obligations.BetweenBusCycles : Prop :=
  (∀ (s t : State) (a : Word) (n : Nat) (v : Nat), n ∈ [1, 2, 4, 8] →
    (s.readable a n → ReadsBy (tableCycles (a.toNat % 2 == 1) n) a s v t → memRead a n s = .ok (BitVec.ofNat _ v, t)) ∧
    (s.writable a n → v < 2 ^ (8 * n) → WritesBy (tableCycles (a.toNat % 2 == 1) n) a v s t →
      memWrite a n (BitVec.ofNat _ v) s = .ok ((), t))) ∧
  (∀ s t : State, (∀ (w : List Event) (rest : List (List Event)), s.within = w :: rest → Event.rstiLow ∉ w →
    events w { s with within := rest } = .ok ((), t) → gap s = .ok ((), t)) ∧ (s.calm → gap s = .ok ((), s))) ∧
  (∀ (s : State) (w : List (List Event)), s.within = [.rstiLow] :: w → gap s = .error (.cut [] .instruction { s with within := w })) ∧
  (∀ (m : M Unit) (s c : State), m s = .error (.cut [] .instruction c) →
    ∃ t, settled m s = .next t ∧ InReset t ∧ ∀ a, a ∉ dueBytes m s c → t.mem.read a = c.mem.read a) ∧
  (∀ (m : M Unit) (s c : State), m s = .error (.cut [] .entry c) →
    ∃ t, settled m s = .next t ∧ InReset t ∧ t.mem = c.mem) ∧
  (∀ (x : Trap) (ret : Word) (m : M Unit) (s u c : State) (p : List Event) (d : Activity),
    m ∈ [trapSequence x s, traceSequence, nmiSequence ret, maskableSequence ret, interruptSequence ret] →
    m u = .error (.cut p d c) → d = .entry)

/-- Where an access is not admitted (R131, R132, R137): the unavailable range, the top block outside its registers, external
addresses without memory or without RAM, and a register of another width. -/
def Obligations.AccessesOutsideMemoryStop : Prop :=
  ∀ (s : State) (a : Word) (n : Nat) (v : BitVec (8 * n)), 0 < n →
    (Config.externalEnd ≤ a.toNat → a.toNat < Config.topBlock →
      memRead a n s = .error (.fault .unavailableAddress) ∧ memWrite a n v s = .error (.fault .unavailableAddress)) ∧
    (Config.topBlock ≤ a.toNat → s.plat.ownsByte a = false →
      memRead a n s = .error (.fault .reservedAddress) ∧ memWrite a n v s = .error (.fault .reservedAddress)) ∧
    (a.toNat < Config.externalEnd → s.plat.memAt a.toNat = none →
      memRead a n s = .error (.fault .noExternalMemory) ∧ memWrite a n v s = .error (.fault .noExternalMemory)) ∧
    (a.toNat < Config.externalEnd → s.plat.memAt a.toNat = some .rom →
      memWrite a n v s = .error (.fault .romWrite)) ∧
    (∀ r, s.plat.regAt a = some r → r.width ≠ n →
      memRead a n s = .error (.refuse .registerAccess) ∧ memWrite a n v s = .error (.refuse .registerAccess))

/-- On-chip registers (R69-R75, R79-R84, R87, R90, R91, R93-R95): in every register but STAT, IVCT, ISRV, CNTL and TCNTL what a
write stores reads back in the implemented bits (the others are free, D14); ISRV's bit 0 stays 0; IVCT reads 0x10 plus the highest
level, which ISRV does not reduce (decision D12), and is not written; a write of STAT clears the sticky bits where it has ones, and
STAT reads them and CHAC; a write of CNTL enables a channel unless EOT, or an unmasked OVR, is set (R88, R704), and one that leaves it
enabled with parameters that are no multiples of the bus width is refused, as is such a value written to ADR or BLTR of an enabled
channel (R702, R774, U17; when it is checked is log 55, DESIGN CHOICE); a write of TCNTL keeps TCS, IPFA and IPFB where the inhibit bits 11, 10, 9 are 1 (R95, R736). Bits of STAT,
DSTAT and IMSK stand where the layouts of D10 put them. -/
def Obligations.PeripheralRegisters : Prop :=
  ∀ (s : State) (a : Word) (r : PReg), s.calm → s.plat.regAt a = some r →
    (∀ v : BitVec (8 * r.width), r.takes s (v.setWidth 32) → ∃ t x u, memWrite a r.width v s = .ok ((), t) ∧
      memRead a r.width t = .ok (x, u) ∧ t.mem = s.mem ∧ t.regs = s.regs ∧
      ∀ k, (r.plainBits s.plat).getLsbD k = true → x.getLsbD k = v.getLsbD k) ∧
    (r = .isrv → ∀ v : BitVec (8 * 2), memWrite a 2 v s = .ok ((), { s with isrv := v &&& 0xFFFE }) ∧
      memRead a 2 s = .ok (s.isrv, s)) ∧
    (r = .ivct → ∀ v : BitVec (8 * 1), memWrite a 1 v s = .error (.refuse .ivctWrite) ∧
      memRead a 1 s = .ok (BitVec.ofNat 8 (0x10 + s.irqLevel), s)) ∧
    (r = .stat →
      let l := s.plat.statBits
      (∀ v : BitVec (8 * 4), ∃ t, memWrite a 4 v s = .ok ((), t) ∧
        (t.dma.ch0.tc = (s.dma.ch0.tc && !v.getLsbD l.ch0.tc) ∧ t.dma.ch0.eot = (s.dma.ch0.eot && !v.getLsbD l.ch0.eot) ∧
          t.dma.ch0.ovr = (s.dma.ch0.ovr && !v.getLsbD l.ch0.ovr)) ∧
        (t.dma.ch1.tc = (s.dma.ch1.tc && !v.getLsbD l.ch1.tc) ∧ t.dma.ch1.eot = (s.dma.ch1.eot && !v.getLsbD l.ch1.eot) ∧
          t.dma.ch1.ovr = (s.dma.ch1.ovr && !v.getLsbD l.ch1.ovr)) ∧
        t.dma.ch0.chen = s.dma.ch0.chen ∧ t.dma.ch1.chen = s.dma.ch1.chen) ∧
      (l.statWf = true → ∃ x u, memRead a 4 s = .ok (x, u) ∧
        (x.getLsbD l.ch0.tc = s.dma.ch0.tc ∧ x.getLsbD l.ch0.eot = s.dma.ch0.eot ∧ x.getLsbD l.ch0.ovr = s.dma.ch0.ovr ∧
          x.getLsbD l.ch0.last = (s.dma.ch0.chen && s.dma.ch0.bltc != 0)) ∧
        (x.getLsbD l.ch1.tc = s.dma.ch1.tc ∧ x.getLsbD l.ch1.eot = s.dma.ch1.eot ∧ x.getLsbD l.ch1.ovr = s.dma.ch1.ovr ∧
          x.getLsbD l.ch1.last = (s.dma.ch1.chen && s.dma.ch1.bltc != 0)))) ∧
    (∀ ch, r = .chan ch .cntl → ∀ v : BitVec (8 * 4),
      let c := s.dma.chan ch
      let c' := { c with vld := v.getLsbD 1, chen := v.getLsbD 0 && !c.eot && !(c.ovr && c.mOvr) }
      ((c'.chen = true → DmaEven c') → memWrite a 4 v s = .ok ((), { s with dma := s.dma.setChan ch c' })) ∧
      (c'.chen = true → ¬DmaEven c' → memWrite a 4 v s = .error (.refuse .dmaProgramming)) ∧
      ∃ x u, memRead a 4 s = .ok (x, u) ∧ x.getLsbD 0 = c.chen ∧ x.getLsbD 1 = c.vld) ∧
    (∀ ch, r = .chan ch .adr ∨ r = .chan ch .bltr → ∀ v : BitVec (8 * 4), v.getLsbD 0 = true →
      (s.dma.chan ch).chen = true → (s.dma.chan ch).bwWord = true →
      memWrite a 4 v s = .error (.refuse .dmaProgramming)) ∧
    (∀ k, r = .timer k .tcntl → ∀ v : BitVec (8 * 2), (v.extractLsb' 5 3).toNat ∈ [0, 1, 2, 4] →
      let c := s.timer k
      ∃ t x u, memWrite a 2 v s = .ok ((), t) ∧ memRead a 2 t = .ok (x, u) ∧
        (∀ j, j ∈ [0, 2, 5, 6, 7, 8] → x.getLsbD j = v.getLsbD j) ∧
        x.getLsbD 4 = (if v.getLsbD 11 then c.tcs else v.getLsbD 4) ∧
        x.getLsbD 3 = (if v.getLsbD 10 then c.ipfa else v.getLsbD 3) ∧
        x.getLsbD 1 = (if v.getLsbD 9 then c.ipfb else v.getLsbD 1) ∧
        (t.timer k).tc = c.tc ∧ (t.timer k).trca = c.trca ∧ (t.timer k).trcb = c.trcb)

/-! ## Operands -/

/-- The effective addresses of the memory modes (R258-R263, R265) and the two modes that have none (R251). -/
def Obligations.EffectiveAddresses : Prop :=
  ∀ (s : State), s.calm →
    (∀ r d, ea (.mode (.regRel r d)) s = .ok (s.regs.get r + d.value, s)) ∧
    (∀ d1 d2, s.readable (s.fp + d1.value) 4 →
      ea (.mode (.memRel .fp d1 d2)) s = .ok (s.valueAt (s.fp + d1.value) 4 + d2.value, s)) ∧
    (∀ d1 d2, s.readable (s.sp + d1.value) 4 →
      ea (.mode (.memRel .sp d1 d2)) s = .ok (s.valueAt (s.sp + d1.value) 4 + d2.value, s)) ∧
    (∀ d1 d2, s.readable (s.sb + d1.value) 4 →
      ea (.mode (.memRel .sb d1 d2)) s = .ok (s.valueAt (s.sb + d1.value) 4 + d2.value, s)) ∧
    (∀ d, ea (.mode (.abs d)) s = .ok (d.value, s)) ∧
    (∀ d1 d2, s.readable (s.mod.setWidth 32 + 4) 4 →
      s.readable (s.valueAt (s.mod.setWidth 32 + 4) 4 + 4 * d1.value) 4 →
      ea (.mode (.ext d1 d2)) s =
        .ok (s.valueAt (s.valueAt (s.mod.setWidth 32 + 4) 4 + 4 * d1.value) 4 + d2.value, s)) ∧
    ea (.mode .tos) s = .ok (if s.psr.s then s.sp1 else s.sp0, s) ∧
    (∀ d, ea (.mode (.space .fp d)) s = .ok (s.fp + d.value, s) ∧
      ea (.mode (.space .sp d)) s = .ok (s.sp + d.value, s) ∧ ea (.mode (.space .sb d)) s = .ok (s.sb + d.value, s)) ∧
    (∀ d, ea (.mode (.prog d)) s = .ok (s.pc + d.value, s)) ∧
    (∀ k b x y t, ea (.mode b) s = .ok (y, t) →
      ea (.scaled k b x) s = .ok (y + BitVec.ofNat 32 k.factor * s.regs.get x, t)) ∧
    (∀ k r x, ea (.scaled k (.reg r) x) s = .ok (s.regs.get r + BitVec.ofNat 32 k.factor * s.regs.get x, s)) ∧
    (∀ v, ea (.imm v) s = .error (.refuse .illegalOperand)) ∧
    (∀ r, ea (.mode (.reg r)) s = .error (.refuse .illegalOperand))

/-- Reading an operand of class read (R251, R255): the immediate's bits, the low bits of a register, a pop for Top of Stack, the
bytes at the effective address otherwise. -/
def Obligations.SourceOperandForms : Prop :=
  ∀ (s : State) (n : Nat), s.calm → 0 < n →
    (∀ v : Imm, rd (.imm v) n s = .ok (BitVec.ofNat (8 * n) v.nat, s)) ∧
    (∀ r, rd (.mode (.reg r)) n s = .ok ((s.regs.get r).setWidth (8 * n), s)) ∧
    (s.readable s.sp n → rd (.mode .tos) n s = .ok (s.valueAt s.sp n, s.setSp (s.sp + BitVec.ofNat 32 n))) ∧
    (∀ g a t, g ≠ .mode .tos → ea g s = .ok (a, t) → s.readable a n → rd g n s = .ok (t.valueAt a n, t))

/-- The place of a written operand and writing to it (R32, R39, R250, R251, R255, R256): a register keeps its other bits, a pair
takes 8 bytes, Top of Stack pushes when only written and is the memory at SP when read and written. -/
def Obligations.DestinationOperandForms : Prop :=
  ∀ (s : State), s.calm →
    (∀ r, dstWrite (.mode (.reg r)) s = .ok (.reg r, s) ∧ dstModify (.mode (.reg r)) s = .ok (.reg r, s)) ∧
    (dstWrite (.mode .tos) s = .ok (.push, s) ∧ dstModify (.mode .tos) s = .ok (.mem s.sp, s)) ∧
    (∀ g a t, g ≠ .mode .tos → ea g s = .ok (a, t) → dstWrite g s = .ok (.mem a, t) ∧ dstModify g s = .ok (.mem a, t)) ∧
    (∀ v, dstWrite (.imm v) s = .error (.refuse .illegalOperand) ∧
      dstModify (.imm v) s = .error (.refuse .illegalOperand)) ∧
    (∀ r, dstDouble (.mode (.reg r)) .d s = if r.odd then .error (.refuse .oddPair) else .ok (.pair r, s)) ∧
    (∀ (r : Reg) (n : Nat) (v : BitVec (8 * n)) (x : Word), LowReplaced (s.regs.get r) v x →
      putDest (.reg r) n v s = .ok ((), s.setReg r x)) ∧
    (∀ (r : Reg) (v : BitVec (8 * 8)), putDest (.pair r) 8 v s =
      .ok ((), (s.setReg r (v.extractLsb' 0 32)).setReg (nextReg r) (v.extractLsb' 32 32))) ∧
    (∀ (a : Word) (n : Nat) (v : BitVec (8 * n)), 0 < n → s.writable a n →
      putDest (.mem a) n v s = .ok ((), s.poke a n v)) ∧
    (∀ (n : Nat) (v : BitVec (8 * n)), 0 < n → s.writable (s.sp - BitVec.ofNat 32 n) n →
      putDest .push n v s =
        .ok ((), (s.poke (s.sp - BitVec.ofNat 32 n) n v).setSp (s.sp - BitVec.ofNat 32 n)))

/-! ## Moves and integer arithmetic -/

/-- ADD, ADDC, ADDQ, SUB, SUBC (R321-R325): the truncated sum or difference; C is the carry out or the borrow, F the signed
overflow of the exact result. -/
def Obligations.AddAndSubtract : Prop :=
  (∀ (i : Size) (src dst : Gen), ModifyCompletes (.addi i src dst) src dst i.bytes i.bytes
    (fun a b _ => BitVec.ofNat _ (a.toNat + b.toNat))
    (fun a b p => { p with
      c := decide (2 ^ (8 * i.bytes) ≤ a.toNat + b.toNat)
      f := !fitsSigned (8 * i.bytes) (a.toInt + b.toInt) })) ∧
  (∀ (i : Size) (src dst : Gen), ModifyCompletes (.addci i src dst) src dst i.bytes i.bytes
    (fun a b p => BitVec.ofNat _ (a.toNat + b.toNat + p.c.toNat))
    (fun a b p => { p with
      c := decide (2 ^ (8 * i.bytes) ≤ a.toNat + b.toNat + p.c.toNat)
      f := !fitsSigned (8 * i.bytes) (a.toInt + b.toInt + p.c.toNat) })) ∧
  (∀ (i : Size) (src dst : Gen), ModifyCompletes (.subi i src dst) src dst i.bytes i.bytes
    (fun a b _ => BitVec.ofInt _ ((b.toNat : Int) - a.toNat))
    (fun a b p => { p with
      c := decide (b.toNat < a.toNat)
      f := !fitsSigned (8 * i.bytes) (b.toInt - a.toInt) })) ∧
  (∀ (i : Size) (src dst : Gen), ModifyCompletes (.subci i src dst) src dst i.bytes i.bytes
    (fun a b p => BitVec.ofInt _ ((b.toNat : Int) - a.toNat - p.c.toNat))
    (fun a b p => { p with
      c := decide (b.toNat < a.toNat + p.c.toNat)
      f := !fitsSigned (8 * i.bytes) (b.toInt - a.toInt - p.c.toNat) })) ∧
  (∀ (i : Size) (q : BitVec 4) (dst : Gen) s d s1 b s2 s3, dstModify dst s = .ok (d, s1) →
    getDest d i.bytes s1 = .ok (b, s2) →
    let a : BitVec (8 * i.bytes) := BitVec.ofInt _ q.toInt
    putDest d i.bytes (BitVec.ofNat _ (a.toNat + b.toNat)) s2 = .ok ((), s3) →
    exec (.addqi i q dst) s = .next (s.after (.addqi i q dst) { s3 with
      psr := { s.psr with
        c := decide (2 ^ (8 * i.bytes) ≤ a.toNat + b.toNat)
        f := !fitsSigned (8 * i.bytes) (q.toInt + b.toInt) } }))

/-- MOV, MOVZ, MOVX, NEG, ABS, COM, NOT (R301, R304-R307, R326, R327, R365, R366): the value written and the flags. -/
def Obligations.MovesAndUnaryResults : Prop :=
  (∀ (i : Size) (src dst : Gen), MoveCompletes (.movi i src dst) src dst i.bytes i.bytes (fun a => a) (fun _ p => p)) ∧
  (∀ src dst : Gen, MoveCompletes (.movzbw src dst) src dst 1 2 (fun a => BitVec.ofNat _ a.toNat) (fun _ p => p)) ∧
  (∀ (i : Size) (src dst : Gen), MoveCompletes (.movzid i src dst) src dst i.bytes 4
    (fun a => BitVec.ofNat _ a.toNat) (fun _ p => p)) ∧
  (∀ src dst : Gen, MoveCompletes (.movxbw src dst) src dst 1 2 (fun a => BitVec.ofInt _ a.toInt) (fun _ p => p)) ∧
  (∀ (i : Size) (src dst : Gen), MoveCompletes (.movxid i src dst) src dst i.bytes 4
    (fun a => BitVec.ofInt _ a.toInt) (fun _ p => p)) ∧
  (∀ (i : Size) (src dst : Gen), MoveCompletes (.negi i src dst) src dst i.bytes i.bytes
    (fun a => BitVec.ofInt _ (-a.toInt))
    (fun a p => { p with c := a != 0, f := !fitsSigned (8 * i.bytes) (-a.toInt) })) ∧
  (∀ (i : Size) (src dst : Gen), MoveCompletes (.absi i src dst) src dst i.bytes i.bytes
    (fun a => BitVec.ofNat _ a.toInt.natAbs)
    (fun a p => { p with f := !fitsSigned (8 * i.bytes) a.toInt.natAbs })) ∧
  (∀ (i : Size) (src dst : Gen), MoveCompletes (.comi i src dst) src dst i.bytes i.bytes
    (fun a => BitVec.ofInt _ (-1 - a.toInt)) (fun _ p => p)) ∧
  (∀ (i : Size) (src dst : Gen), MoveCompletes (.noti i src dst) src dst i.bytes i.bytes
    (fun a => putBitAt a 0 (!a.getLsbD 0)) (fun _ p => p))

/-- MOVQ, Scond, ADDR, CVTP (R302, R308, R367, R395): the value written. -/
def Obligations.StoredValues : Prop :=
  (∀ (i : Size) (q : BitVec 4) (dst : Gen),
    StoreCompletes (.movqi i q dst) dst i.bytes (fun _ => BitVec.ofInt _ q.toInt)) ∧
  (∀ (i : Size) (c : Cond) (dst : Gen),
    StoreCompletes (.scondi i c dst) dst i.bytes (fun s => BitVec.ofNat _ (match c with
      | .eq => s.psr.z | .ne => !s.psr.z | .cs => s.psr.c | .cc => !s.psr.c
      | .hi => s.psr.l | .ls => !s.psr.l | .gt => s.psr.n | .le => !s.psr.n
      | .fs => s.psr.f | .fc => !s.psr.f | .lo => !s.psr.l && !s.psr.z | .hs => s.psr.l || s.psr.z
      | .lt => !s.psr.n && !s.psr.z | .ge => s.psr.n || s.psr.z | .always => true | .never => false).toNat)) ∧
  (∀ (src dst : Gen) s a s1 d s2 s3, ea src s = .ok (a, s1) → dstWrite dst s1 = .ok (d, s2) →
    putDest d 4 a s2 = .ok ((), s3) → exec (.addr src dst) s = .next (s.after (.addr src dst) s3)) ∧
  (∀ (off : Reg) (base dst : Gen) s a s1 d s2 s3, ea base s = .ok (a, s1) → dstWrite dst s1 = .ok (d, s2) →
    putDest d 4 (BitVec.ofNat 32 (8 * a.toNat + (s.regs.get off).toNat)) s2 = .ok ((), s3) →
    exec (.cvtp off base dst) s = .next (s.after (.cvtp off base dst) s3))

/-- MUL, QUO, REM, DIV, MOD (R328, R331-R334): the low bits of the exact result, quotients rounded toward zero and down; no flag
changes. What the most negative number divided by -1 leaves is D19's choice. -/
def Obligations.MultiplyAndDivide : Prop :=
  (∀ (i : Size) (src dst : Gen), ModifyCompletes (.muli i src dst) src dst i.bytes i.bytes
    (fun a b _ => BitVec.ofInt _ (a.toInt * b.toInt)) (fun _ _ p => p)) ∧
  (∀ (i : Size) (src dst : Gen), DivideCompletes (.quoi i src dst) src dst i.bytes
    (fun a b => BitVec.ofInt _ (b.toInt.tdiv a.toInt))) ∧
  (∀ (i : Size) (src dst : Gen), DivideCompletes (.remi i src dst) src dst i.bytes
    (fun a b => BitVec.ofInt _ (b.toInt - a.toInt * b.toInt.tdiv a.toInt))) ∧
  (∀ (i : Size) (src dst : Gen), DivideCompletes (.divi i src dst) src dst i.bytes
    (fun a b => BitVec.ofInt _ (b.toInt.fdiv a.toInt))) ∧
  (∀ (i : Size) (src dst : Gen), DivideCompletes (.modi i src dst) src dst i.bytes
    (fun a b => BitVec.ofInt _ (b.toInt - a.toInt * b.toInt.fdiv a.toInt)))

/-- MEI and DEI (R329, R335): the double-length product of the low half of the destination; remainder in the low half,
quotient (its low bits, D19) in the high half. -/
def Obligations.ExtendedMultiplyAndDivide : Prop :=
  (∀ (i : Size) (src dst : Gen) s a s1 d s2 b s3 s4, rd src i.bytes s = .ok (a, s1) →
    dstDouble dst i s1 = .ok (d, s2) → getDest d.low i.bytes s2 = .ok (b, s3) →
    putDest d (2 * i.bytes) (BitVec.ofNat _ (a.toNat * b.toNat)) s3 = .ok ((), s4) →
    exec (.meii i src dst) s = .next (s.after (.meii i src dst) s4)) ∧
  (∀ (i : Size) (src dst : Gen) s a s1 d s2 b s3 (v : BitVec (8 * (2 * i.bytes))) s4, rd src i.bytes s = .ok (a, s1) →
    a ≠ 0 → dstDouble dst i s1 = .ok (d, s2) → getDest d (2 * i.bytes) s2 = .ok (b, s3) →
    v.toNat % 2 ^ (8 * i.bytes) = b.toNat % a.toNat →
    v.toNat / 2 ^ (8 * i.bytes) = (b.toNat / a.toNat) % 2 ^ (8 * i.bytes) →
    putDest d (2 * i.bytes) v s3 = .ok ((), s4) →
    exec (.deii i src dst) s = .next (s.after (.deii i src dst) s4))

/-- A divisor of zero raises Trap (DVZ) before anything is written (R330, R614): the trap is performed in the state the operand
reads left (whatever happened between their bus cycles), nothing from outside happening inside it. DEID with an odd register pair
stops before the divisor is tested (log 53, DESIGN CHOICE). -/
def Obligations.ZeroDivisorTraps : Prop :=
  Trap.dvz.vector = 6 ∧
  (∀ (i : Size) (src dst : Gen) s s1 d s2 b s3, rd src i.bytes s = .ok (0, s1) → dstModify dst s1 = .ok (d, s2) →
    getDest d i.bytes s2 = .ok (b, s3) → s3.calm →
    Traps (.quoi i src dst) .dvz s s3 ∧ Traps (.remi i src dst) .dvz s s3 ∧ Traps (.divi i src dst) .dvz s s3 ∧
      Traps (.modi i src dst) .dvz s s3) ∧
  (∀ (i : Size) (src dst : Gen) s s1 d s2 b s3, rd src i.bytes s = .ok (0, s1) → dstDouble dst i s1 = .ok (d, s2) →
    getDest d (2 * i.bytes) s2 = .ok (b, s3) → s3.calm → Traps (.deii i src dst) .dvz s s3)

/-- ADDP and SUBP (R336, R337) on packed decimal numbers x (source) and y (destination): the decimal sum or difference
modulo ten to the number of digits; C is the decimal carry or borrow, F is cleared. With a digit above 9 in an operand the
instruction completes with some value and some C (U6, log 20). -/
def Obligations.PackedDecimal : Prop :=
  (∀ (i : Size) (src dst : Gen) (x y : Nat) s s1 d s2 s3 s4,
    let k := 2 * i.bytes
    x < 10 ^ k → y < 10 ^ k → rd src i.bytes s = .ok (BitVec.ofNat _ (bcdDigits k x), s1) →
    dstModify dst s1 = .ok (d, s2) → getDest d i.bytes s2 = .ok (BitVec.ofNat _ (bcdDigits k y), s3) →
    (putDest d i.bytes (BitVec.ofNat _ (bcdDigits k ((y + x + s.psr.c.toNat) % 10 ^ k))) s3 = .ok ((), s4) →
      exec (.addpi i src dst) s = .next (s.after (.addpi i src dst) { s4 with
        psr := { s.psr with c := decide (10 ^ k ≤ y + x + s.psr.c.toNat), f := false } })) ∧
    (putDest d i.bytes (BitVec.ofNat _ (bcdDigits k ((y + 10 ^ k - (x + s.psr.c.toNat)) % 10 ^ k))) s3 = .ok ((), s4) →
      exec (.subpi i src dst) s = .next (s.after (.subpi i src dst) { s4 with
        psr := { s.psr with c := decide (y < x + s.psr.c.toNat), f := false } }))) ∧
  (∀ (i : Size) (src dst : Gen) s a s1 d s2 b s3, rd src i.bytes s = .ok (a, s1) → dstModify dst s1 = .ok (d, s2) →
    getDest d i.bytes s2 = .ok (b, s3) →
    (bcdValid (2 * i.bytes) a.toNat && bcdValid (2 * i.bytes) b.toNat) = false →
    (∀ v k, ∃ s4, putDest d i.bytes v { s3 with freeCount := k } = .ok ((), s4)) →
    ∀ j, j = Instr.addpi i src dst ∨ j = Instr.subpi i src dst →
      ∃ v k c s4, putDest d i.bytes v { s3 with freeCount := k } = .ok ((), s4) ∧
        exec j s = .next (s.after j { s4 with psr := { s.psr with c := c, f := false } }))

/-- CMP and CMPQ (R340, R341): Z for equality, N and L for the second operand less than the first, signed and unsigned; nothing
else changes. -/
def Obligations.Comparisons : Prop :=
  (∀ (i : Size) (x y : Gen) s a s1 b s2, rd x i.bytes s = .ok (a, s1) → rd y i.bytes s1 = .ok (b, s2) →
    exec (.cmpi i x y) s = .next (s.after (.cmpi i x y) { s2 with
      psr := { s.psr with
        z := a == b
        n := decide (b.toInt < a.toInt)
        l := decide (b.toNat < a.toNat) } })) ∧
  (∀ (i : Size) (q : BitVec 4) (y : Gen) s b s1, rd y i.bytes s = .ok (b, s1) →
    let a : BitVec (8 * i.bytes) := BitVec.ofInt _ q.toInt
    exec (.cmpqi i q y) s = .next (s.after (.cmpqi i q y) { s1 with
      psr := { s.psr with
        z := a == b
        n := decide (b.toInt < q.toInt)
        l := decide (b.toNat < a.toNat) } }))

/-- MOVM and CMPM (R303, R342) on blocks of m elements, 1 to 16 bytes: the elements are copied one at a time at ascending
addresses; the first unequal pair decides the comparison. -/
def Obligations.BlockMoveAndCompare : Prop :=
  (∀ (i : Size) (x y : Gen) (d : Disp) (m : Nat) s a1 s1 a2 s2, ea x s = .ok (a1, s1) → ea y s1 = .ok (a2, s2) → s2.calm →
    1 ≤ m → m * i.bytes ≤ 16 → d.value = BitVec.ofNat 32 ((m - 1) * i.bytes) →
    (∀ l, l < m → s2.readable (a1 + BitVec.ofNat 32 (l * i.bytes)) i.bytes) →
    ((∀ l, l < m → s2.writable (a2 + BitVec.ofNat 32 (l * i.bytes)) i.bytes) →
      exec (.movmi i x y d) s = .next (s.after (.movmi i x y d)
        (pokes (fun l => a2 + BitVec.ofNat 32 (l * i.bytes)) i.bytes
          (fun l t => t.valueAt (a1 + BitVec.ofNat 32 (l * i.bytes)) i.bytes) m s2))) ∧
    ((∀ l, l < m → s2.readable (a2 + BitVec.ofNat 32 (l * i.bytes)) i.bytes) →
      let p := fun l => s2.valueAt (a1 + BitVec.ofNat 32 (l * i.bytes)) i.bytes
      let q := fun l => s2.valueAt (a2 + BitVec.ofNat 32 (l * i.bytes)) i.bytes
      ((∀ l, l < m → p l = q l) → exec (.cmpmi i x y d) s = .next (s.after (.cmpmi i x y d) { s2 with
        psr := { s.psr with z := true, n := false, l := false } })) ∧
      (∀ l, l < m → (∀ h, h < l → p h = q h) → p l ≠ q l →
        exec (.cmpmi i x y d) s = .next (s.after (.cmpmi i x y d) { s2 with
          psr := { s.psr with
            z := false
            n := decide ((q l).toInt < (p l).toInt)
            l := decide ((q l).toNat < (p l).toNat) } }))))

/-- The frame of the instructions of two general operands that read the first and replace the second: ADD, ADDC, SUB, SUBC,
MUL, AND, OR, BIC, XOR, LSH, ASH, ROT, FFS. Only the destination, the flags named, the stack pointer of a source Top of Stack and PC
change; memory outside the destination's bytes reads as before (nothing from outside happening inside the instruction). What a
destination that is an on-chip register takes is PeripheralRegisters. -/
def Obligations.ModifyFrame : Prop :=
  ∀ (i : Instr) (src dst : Gen) (m n : Nat) (cf ff : Bool) s a s1 d s2 t,
    (match i with
      | .addi z x y | .addci z x y | .subi z x y | .subci z x y =>
        x = src ∧ y = dst ∧ m = z.bytes ∧ n = z.bytes ∧ cf = true ∧ ff = true
      | .muli z x y | .andi z x y | .ori z x y | .bici z x y | .xori z x y =>
        x = src ∧ y = dst ∧ m = z.bytes ∧ n = z.bytes ∧ cf = false ∧ ff = false
      | .lshi z x y | .ashi z x y | .roti z x y => x = src ∧ y = dst ∧ m = 1 ∧ n = z.bytes ∧ cf = false ∧ ff = false
      | .ffsi z x y => x = src ∧ y = dst ∧ m = z.bytes ∧ n = 1 ∧ cf = false ∧ ff = true
      | _ => False) →
    rd src m s = .ok (a, s1) → dstModify dst s1 = .ok (d, s2) → d.onChip n s2 = false → s.calm → exec i s = .next t →
    Quiet s t d.regs (d.bytes n s2) ∧ StacksSame (s.popped src m) t ∧
      t.psr = { s.psr with c := if cf then t.psr.c else s.psr.c, f := if ff then t.psr.f else s.psr.f }

/-- The frame of the instructions of two general operands that read the first and write the second: MOV, MOVZ, MOVX, NEG, ABS,
COM, NOT, nothing from outside happening inside the instruction. A destination Top of Stack pushes. -/
def Obligations.MoveFrame : Prop :=
  ∀ (i : Instr) (src dst : Gen) (m n : Nat) (cf ff : Bool) s a s1 d s2 t,
    (match i with
      | .movi z x y | .comi z x y | .noti z x y =>
        x = src ∧ y = dst ∧ m = z.bytes ∧ n = z.bytes ∧ cf = false ∧ ff = false
      | .negi z x y => x = src ∧ y = dst ∧ m = z.bytes ∧ n = z.bytes ∧ cf = true ∧ ff = true
      | .absi z x y => x = src ∧ y = dst ∧ m = z.bytes ∧ n = z.bytes ∧ cf = false ∧ ff = true
      | .movzbw x y | .movxbw x y => x = src ∧ y = dst ∧ m = 1 ∧ n = 2 ∧ cf = false ∧ ff = false
      | .movzid z x y | .movxid z x y => x = src ∧ y = dst ∧ m = z.bytes ∧ n = 4 ∧ cf = false ∧ ff = false
      | _ => False) →
    rd src m s = .ok (a, s1) → dstWrite dst s1 = .ok (d, s2) → d.onChip n s2 = false → s.calm → exec i s = .next t →
    Quiet s t d.regs (d.bytes n s2) ∧ StacksSame ((s.popped src m).pushed dst n) t ∧
      t.psr = { s.psr with c := if cf then t.psr.c else s.psr.c, f := if ff then t.psr.f else s.psr.f }

/-! ## Logical instructions, shifts, bits and fields -/

/-- AND, OR, BIC, XOR bit by bit (R361-R364) and LSH, ASH, ROT (R370-R373): the count is a signed byte, to the left if positive; beyond
the operand's length as D18 extends the rules; no flag changes. -/
def Obligations.LogicalAndShiftResults : Prop :=
  (∀ (i : Size) (src dst : Gen) (r : BitVec (8 * i.bytes) → BitVec (8 * i.bytes) → BitVec (8 * i.bytes)),
    ((∀ a b k, k < 8 * i.bytes → (r a b).getLsbD k = (b.getLsbD k && a.getLsbD k)) →
      ModifyCompletes (.andi i src dst) src dst i.bytes i.bytes (fun a b _ => r a b) (fun _ _ p => p)) ∧
    ((∀ a b k, k < 8 * i.bytes → (r a b).getLsbD k = (b.getLsbD k || a.getLsbD k)) →
      ModifyCompletes (.ori i src dst) src dst i.bytes i.bytes (fun a b _ => r a b) (fun _ _ p => p)) ∧
    ((∀ a b k, k < 8 * i.bytes → (r a b).getLsbD k = (b.getLsbD k && !a.getLsbD k)) →
      ModifyCompletes (.bici i src dst) src dst i.bytes i.bytes (fun a b _ => r a b) (fun _ _ p => p)) ∧
    ((∀ a b k, k < 8 * i.bytes → (r a b).getLsbD k = (b.getLsbD k != a.getLsbD k)) →
      ModifyCompletes (.xori i src dst) src dst i.bytes i.bytes (fun a b _ => r a b) (fun _ _ p => p))) ∧
  (∀ (i : Size) (src dst : Gen),
    ModifyCompletes (.lshi i src dst) src dst 1 i.bytes
      (fun c b _ => if 0 ≤ c.toInt then BitVec.ofNat _ (b.toNat * 2 ^ c.toInt.toNat)
        else BitVec.ofNat _ (b.toNat / 2 ^ (-c.toInt).toNat)) (fun _ _ p => p) ∧
    ModifyCompletes (.ashi i src dst) src dst 1 i.bytes
      (fun c b _ => if 0 ≤ c.toInt then BitVec.ofNat _ (b.toNat * 2 ^ c.toInt.toNat)
        else BitVec.ofInt _ (b.toInt / 2 ^ (-c.toInt).toNat)) (fun _ _ p => p) ∧
    ModifyCompletes (.roti i src dst) src dst 1 i.bytes
      (fun c b _ => b.rotateLeft (c.toInt % ((8 * i.bytes : Nat) : Int)).toNat) (fun _ _ p => p))

/-- The six single-bit instructions (R381-R387): F gets the bit; it is kept, set, cleared or inverted; a memory bit lies in the
byte at the base plus the offset divided by 8, rounded down, and only that byte is accessed. The read and the write are accesses of
their own, between which DMA and HOLD cycles may fall, in the interlocked forms too (R153, R384, R386). -/
def Obligations.SingleBits : Prop :=
  ∀ (i : Size) (off base : Gen),
    BitCompletes (.tbiti i off base) i.bytes off base (fun _ => none) ∧
    BitCompletes (.sbiti i off base) i.bytes off base (fun _ => some true) ∧
    BitCompletes (.sbitii i off base) i.bytes off base (fun _ => some true) ∧
    BitCompletes (.cbiti i off base) i.bytes off base (fun _ => some false) ∧
    BitCompletes (.cbitii i off base) i.bytes off base (fun _ => some false) ∧
    BitCompletes (.ibiti i off base) i.bytes off base (fun b => some (!b))

/-- EXT, EXTS, INS, INSS (R390-R394): a field of 1 to 32 bits inside its double-word is read, zero-extended, or replaced. -/
def Obligations.BitFields : Prop :=
  (∀ (i : Size) (off : Reg) (base dst : Gen) (len : Disp),
    ExtractCompletes (.exti i off base dst len) i.bytes (fun s => s.regs.get off) (fun _ => len.value) base dst ∧
    InsertCompletes (.insi i off base dst len) i.bytes (fun s => s.regs.get off) (fun _ => len.value) base dst) ∧
  (∀ (i : Size) (base dst : Gen) (imm : Byte),
    ExtractCompletes (.extsi i base dst imm) i.bytes (fun _ => BitVec.ofNat 32 (imm.toNat / 32))
      (fun _ => BitVec.ofNat 32 (imm.toNat % 32 + 1)) base dst ∧
    InsertCompletes (.inssi i base dst imm) i.bytes (fun _ => BitVec.ofNat 32 (imm.toNat / 32))
      (fun _ => BitVec.ofNat 32 (imm.toNat % 32 + 1)) base dst)

/-- FFS, CHECK and INDEX (R388, R396, R397). FFS: the number of the first bit that is 1 from the offset on, F clear, or 0 with F set if
there is none, an offset at or beyond the operand's length included (decision D31, log 37). CHECK: the bounds lie upper first; in
bounds, the register gets the distance from the lower bound and F is clear; out of bounds F is set and the register holds some value
(U7, log 21). -/
def Obligations.FindCheckIndex : Prop :=
  (∀ (i : Size) (base off : Gen) s b s1 d s2 (o : BitVec (8 * 1)) s3 s4, rd base i.bytes s = .ok (b, s1) →
    dstModify off s1 = .ok (d, s2) → getDest d 1 s2 = .ok (o, s3) →
    (∀ k, o.toNat ≤ k → k < 8 * i.bytes → b.getLsbD k = true → (∀ j, o.toNat ≤ j → j < k → b.getLsbD j = false) →
      putDest d 1 (BitVec.ofNat _ k) s3 = .ok ((), s4) →
      exec (.ffsi i base off) s = .next (s.after (.ffsi i base off) { s4 with psr := { s.psr with f := false } })) ∧
    ((∀ k, o.toNat ≤ k → k < 8 * i.bytes → b.getLsbD k = false) → putDest d 1 0 s3 = .ok ((), s4) →
      exec (.ffsi i base off) s = .next (s.after (.ffsi i base off) { s4 with psr := { s.psr with f := true } }))) ∧
  (∀ (i : Size) (r : Reg) (bounds src : Gen) s a s1 upper s2 lower s3 v s4, ea bounds s = .ok (a, s1) →
    memRead a i.bytes s1 = .ok (upper, s2) → memRead (a + BitVec.ofNat 32 i.bytes) i.bytes s2 = .ok (lower, s3) →
    rd src i.bytes s3 = .ok (v, s4) →
    (lower.toInt ≤ v.toInt → v.toInt ≤ upper.toInt →
      exec (.checki i r bounds src) s = .next (s.after (.checki i r bounds src)
        { s4.setReg r (BitVec.ofInt 32 (v.toInt - lower.toInt)) with psr := { s.psr with f := false } })) ∧
    (v.toInt < lower.toInt ∨ upper.toInt < v.toInt →
      ∃ w k, exec (.checki i r bounds src) s = .next (s.after (.checki i r bounds src)
        { s4.setReg r w with psr := { s.psr with f := true }, freeCount := k }))) ∧
  (∀ (i : Size) (r : Reg) (len idx : Gen) s l s1 x s2, rd len i.bytes s = .ok (l, s1) →
    rd idx i.bytes s1 = .ok (x, s2) →
    exec (.indexi i r len idx) s = .next (s.after (.indexi i r len idx)
      (s2.setReg r (BitVec.ofNat 32 ((s.regs.get r).toNat * (l.toNat + 1) + x.toNat)))))

/-! ## Control flow -/

/-- The sixteen branches (R215, R441): taken on their condition, PC-relative; else on in sequence. JUMP, CASE, ACB
(R442-R444): to the address; by the index; by the displacement unless the sum is 0. -/
def Obligations.BranchesAndJumps : Prop :=
  (Branches .beq (fun p => p.z) ∧ Branches .bne (fun p => !p.z) ∧
  Branches .bcs (fun p => p.c) ∧ Branches .bcc (fun p => !p.c) ∧
  Branches .bhi (fun p => p.l) ∧ Branches .bls (fun p => !p.l) ∧
  Branches .bgt (fun p => p.n) ∧ Branches .ble (fun p => !p.n) ∧
  Branches .bfs (fun p => p.f) ∧ Branches .bfc (fun p => !p.f) ∧
  Branches .blo (fun p => !p.l && !p.z) ∧ Branches .bhs (fun p => p.l || p.z) ∧
  Branches .blt (fun p => !p.n && !p.z) ∧ Branches .bge (fun p => p.n || p.z) ∧
  Branches .br (fun _ => true) ∧ Branches .bnever (fun _ => false)) ∧
  (∀ (g : Gen) s a t, ea g s = .ok (a, t) → exec (.jump g) s = .next (t.goto a)) ∧
  (∀ (i : Size) (g : Gen) s v t, rd g i.bytes s = .ok (v, t) →
    exec (.casei i g) s = .next (t.goto (s.pc + BitVec.ofInt 32 v.toInt))) ∧
  (∀ (i : Size) (q : BitVec 4) (g : Gen) (d : Disp) s x s1 v s2 s3, dstModify g s = .ok (x, s1) →
    getDest x i.bytes s1 = .ok (v, s2) → putDest x i.bytes (BitVec.ofInt _ (v.toInt + q.toInt)) s2 = .ok ((), s3) →
    exec (.acbi i q g d) s = .next (if BitVec.ofInt (8 * i.bytes) (v.toInt + q.toInt) = 0
      then s.after (.acbi i q g d) s3 else s3.goto (s.pc + d.value)))

/-- BSR, JSR, RET (R445-R447): the address of the next instruction is pushed; the address is computed before the push; the return
address is popped, then `disp` bytes are released. -/
def Obligations.SubroutineCalls : Prop :=
  (∀ (d : Disp) s, s.calm → s.writable (s.sp - 4) 4 →
    exec (.bsr d) s = .next (((s.poke (s.sp - 4) 4 (s.pc + BitVec.ofNat 32 (instrLength (.bsr d)))).setSp
      (s.sp - 4)).goto (s.pc + d.value))) ∧
  (∀ (g : Gen) s a t, ea g s = .ok (a, t) → t.calm → s.writable (s.sp - 4) 4 →
    exec (.jsr g) s = .next (((t.poke (s.sp - 4) 4 (s.pc + BitVec.ofNat 32 (instrLength (.jsr g)))).setSp
      (s.sp - 4)).goto a)) ∧
  (∀ (d : Disp) s, s.calm → s.readable s.sp 4 →
    exec (.ret d) s = .next ((s.setSp (s.sp + 4 + d.value)).goto (s.valueAt s.sp 4)))

/-- A subroutine call and its return come back to the next instruction with the stack pointers, the registers and the PSR as
they were, whatever instruction of the subroutine returns (R446, R447). -/
def Obligations.SubroutineRoundTrip : Prop :=
  ∀ (d : Disp) (s : State), s.calm → s.mem.wf → s.writable (s.sp - 4) 4 →
    ∃ t, exec (.bsr d) s = .next t ∧ t.pc = s.pc + d.value ∧
      ∀ pc, ∃ u, exec (.ret (.d7 0)) { t with pc := pc } = .next u ∧
        u.pc = s.pc + BitVec.ofNat 32 (instrLength (.bsr d)) ∧ StacksSame s u ∧ u.regs = s.regs ∧ u.psr = s.psr

/-- CXP, CXPD, RXP (R450-R452): the descriptor comes from the link table or from the operand; MOD and the return address are
pushed; MOD, SB and PC come from the module; the return undoes it and releases `disp` bytes. The displacement of
CXP is sign-extended (R186; the model's choice against R450's "unsigned", log 52). -/
def Obligations.ModuleCalls : Prop :=
  (∀ (d : Disp) s, s.readable (s.mod.setWidth 32 + 4) 4 →
    s.readable (s.valueAt (s.mod.setWidth 32 + 4) 4 + 4 * d.value) 4 →
    let desc := s.valueAt (s.valueAt (s.mod.setWidth 32 + 4) 4 + 4 * d.value) 4
    CallReady s desc →
    exec (.cxp d) s = .next (s.called desc (s.pc + BitVec.ofNat 32 (instrLength (.cxp d))))) ∧
  (∀ (g : Gen) s a t, ea g s = .ok (a, t) → s.readable a 4 → CallReady t (t.valueAt a 4) →
    exec (.cxpd g) s = .next (t.called (t.valueAt a 4) (s.pc + BitVec.ofNat 32 (instrLength (.cxpd g))))) ∧
  (∀ (d : Disp) s, s.calm → s.readable s.sp 4 → s.readable (s.sp + 4) 2 →
    let m : Half := s.valueAt (s.sp + 4) 2
    s.readable (m.setWidth 32) 4 →
    exec (.rxp d) s = .next (({ s with mod := m, sb := s.valueAt (m.setWidth 32) 4 }.setSp
      (s.sp + 8 + d.value)).goto (s.valueAt s.sp 4)))

/-- SAVE, RESTORE, ENTER, EXIT (R455, R456, R487, R488) with the list bytes of R216: the registers are pushed from R0 up and popped
from R7 down; each saved register is found in its slot of the stack. -/
def Obligations.StackFrames : Prop :=
  (∀ (l : Byte) s, s.calm → s.writable (s.sp - BitVec.ofNat 32 (4 * (saved l).length)) (4 * (saved l).length) →
    exec (.save l) s = .next (s.after (.save l) (s.pushes ((saved l).map s.regs.get))) ∧
    (s.mem.wf → ∀ k r, (saved l)[k]? = some r →
      (s.pushes ((saved l).map s.regs.get)).valueAt (s.sp - BitVec.ofNat 32 (4 * (k + 1))) 4 = s.regs.get r) ∧
    (s.pushes ((saved l).map s.regs.get)).sp = s.sp - BitVec.ofNat 32 (4 * (saved l).length)) ∧
  (∀ (l : Byte) s, s.calm → s.readable s.sp (4 * (restored l).length) →
    exec (.restore l) s = .next (s.after (.restore l) (s.pops (restored l))) ∧
    (∀ k r, (restored l)[k]? = some r →
      (s.pops (restored l)).regs.get r = s.valueAt (s.sp + BitVec.ofNat 32 (4 * k)) 4) ∧
    (∀ r, r ∉ restored l → (s.pops (restored l)).regs.get r = s.regs.get r) ∧
    (s.pops (restored l)).sp = s.sp + BitVec.ofNat 32 (4 * (restored l).length)) ∧
  (∀ (l : Byte) (d : Disp) s, s.calm → s.writable (s.sp - 4) 4 →
    s.writable (s.sp - 4 - d.value - BitVec.ofNat 32 (4 * (saved l).length)) (4 * (saved l).length) →
    exec (.enter l d) s = .next (s.after (.enter l d)
      ({ (s.poke (s.sp - 4) 4 s.fp).setSp (s.sp - 4 - d.value) with fp := s.sp - 4 }.pushes
        ((saved l).map s.regs.get)))) ∧
  (∀ (l : Byte) s, s.calm → s.readable s.sp (4 * (restored l).length) → s.readable s.fp 4 →
    exec (.exit l) s = .next (s.after (.exit l)
      { (s.pops (restored l)).setSp (s.fp + 4) with fp := s.valueAt s.fp 4 }))

/-- NOP, DIA, WAIT, and FLAG with F = 0 (R458, R489-R491): nothing but PC; a branch to itself; the waiting state; nothing but PC.
That an instruction, whatever it does, makes PSR bits 13-15 free (R59) is the model's choice (log 14). -/
def Obligations.SimpleControl : Prop :=
  ∀ s : State,
    exec .nop s = .next { s with pc := s.pc + 1, written := [], psrTouched := true } ∧
    exec .dia s = .next (s.goto s.pc) ∧
    exec .wait s = .next { s with pc := s.pc + 1, op := .waiting, written := [], psrTouched := true } ∧
    (s.psr.f = false → exec .flag s = .next { s with pc := s.pc + 1, written := [], psrTouched := true })

/-! ## Exceptions -/

/-- SVC, BPT, and FLAG with F = 1 (R457-R459, R616-R618, R620-R623): the trap's entry in both exception modes, with the address of
the instruction itself saved and T, U, S, P clear. That the reserved word of the Direct-Exception frame keeps its two bytes is
decision D26 (log 27). -/
def Obligations.TrapInstructionsEnter : Prop :=
  ∀ s : State,
    let new : Psr := { s.psr with t := false, u := false, s := false, p := false }
    (∀ i x, (i, x) = (Instr.svc, Trap.svc) ∨ (i, x) = (Instr.bpt, Trap.bpt) ∨ (i, x) = (Instr.flag, Trap.flg) →
      (i = .flag → s.psr.f = true) →
      (DirectReady x.vector s →
        ∃ t, exec i s = .next t ∧ EnteredDirect x.vector s.psr new s.pc s t ∧ EntrySame s t) ∧
      (ModularReady x.vector s →
        ∃ t, exec i s = .next t ∧ EnteredModular x.vector s.psr new s.pc s t ∧ EntrySame s t)) ∧
    Trap.svc.vector = 5 ∧ Trap.flg.vector = 7 ∧ Trap.bpt.vector = 8 ∧ Trap.ill.vector = 4 ∧ Trap.dvz.vector = 6 ∧
      Trap.slave.vector = 3 ∧ Trap.und.vector = 10

/-- The trap sequence of ILL, DVZ and UND (R613-R615, R620): the entry in both exception modes, from any state `u` the suspended
instruction left that differs from its start in the stack pointers and the place in the free values alone; for UND the saved P is
clear. That the reserved word of the Direct-Exception frame keeps its two bytes is decision D26 (log 27). -/
def Obligations.TrapSequenceEnters : Prop :=
  ∀ (x : Trap) (s u : State), (∃ a b k, u = { s with sp0 := a, sp1 := b, freeCount := k }) →
    let saved : Psr := if x = .und then { s.psr with p := false } else s.psr
    let new : Psr := { s.psr with t := false, u := false, s := false, p := false }
    (DirectReady x.vector s →
      ∃ t, settled (trapSequence x s) u = .next t ∧ EnteredDirect x.vector saved new s.pc s t ∧ EntrySame s t) ∧
    (ModularReady x.vector s →
      ∃ t, settled (trapSequence x s) u = .next t ∧ EnteredModular x.vector saved new s.pc s t ∧ EntrySame s t)

/-- RETT and RETI in Supervisor mode (R460, R461, R665): the frame on SP0 is popped, PC and PSR and, without Direct-Exception mode,
MOD and SB are restored; RETT releases `disp` bytes; RETI first ends the highest interrupt in service. -/
def Obligations.ReturnFromExceptions : Prop :=
  ∀ s : State, s.psr.u = false → ReturnReady s →
    (∀ d, exec (.rett d) s = .next (s.returned d.value)) ∧
    exec .reti s = .next (s.endOfInterrupt.returned 0)

/-- A supervisor call and its return come back to the SVC instruction with the PSR, the stack pointers, the general registers,
MOD and SB as they were, in both exception modes (R457, R460, R622, R623). -/
def Obligations.SupervisorCallRoundTrip : Prop :=
  ∀ s : State, (DirectReady 5 s ∨ (ModularReady 5 s ∧ s.sb = s.valueAt (s.mod.setWidth 32) 4 ∧
      s.readable (s.mod.setWidth 32) 4 ∧ Apart (s.mod.setWidth 32) 4 (s.sp0 - 8) 8)) →
    ∃ t u, exec .svc s = .next t ∧ exec (.rett (.d7 0)) t = .next u ∧ u.pc = s.pc ∧ u.psr = s.psr ∧ StacksSame s u ∧
      u.regs = s.regs ∧ u.mod = s.mod ∧ u.sb = s.sb

/-- The privileged instructions raise Trap (ILL) in User mode, before anything else (R480, R613, R670). -/
def Obligations.PrivilegedInstructionsTrap : Prop :=
  Trap.ill.vector = 4 ∧ ∀ (i : Instr) (s : State), s.psr.u = true →
    (match i with
      | .rett _ | .reti | .setcfg _ => True
      | .lpri _ a _ | .spri _ a _ => a = .psr ∨ a = .intbase
      | .bispsri z _ | .bicpsri z _ => z = .w
      | _ => False) →
    exec i s = settled (trapSequence .ill s) s

/-- The entry of the interrupts and of the trace trap (R630, R631, R635, R651, R664): vector 1 for the non-maskable interrupt, vector 0
or 0x10 plus the level for a maskable one, vector 9 for the trace trap; interrupts clear T, U, S, P, I and B, the trace trap saves P
clear. That the ICU is acknowledged in the non-vectored mode too is D28 (log 34); that the reserved word of the Direct-Exception
frame keeps its two bytes is D26 (log 27). -/
def Obligations.InterruptAndTraceEntry : Prop :=
  ∀ s : State,
    let irqPsr : Psr := { s.psr with t := false, u := false, s := false, p := false, i := false, b := false }
    let trcPsr : Psr := { s.psr with t := false, u := false, s := false, p := false }
    (s.nmiLatch = true →
      (DirectReady 1 s → ∃ t, settled (nmiSequence s.pc) s = .next t ∧ EnteredDirect 1 s.psr irqPsr s.pc s t ∧
        EntrySame s t ∧ t.nmiLatch = false ∧ t.op = .executing ∧ t.isrv = s.isrv) ∧
      (ModularReady 1 s → ∃ t, settled (nmiSequence s.pc) s = .next t ∧ EnteredModular 1 s.psr irqPsr s.pc s t ∧
        EntrySame s t ∧ t.nmiLatch = false ∧ t.op = .executing ∧ t.isrv = s.isrv)) ∧
    (s.psr.i = true → s.irqRequest = true →
      let v := if s.cfg.i then 0x10 + s.irqLevel else 0
      (DirectReady v s → ∃ t, settled (maskableSequence s.pc) s = .next t ∧ EnteredDirect v s.psr irqPsr s.pc s t ∧
        EntrySame s t ∧ t.op = .executing ∧ t.isrv = (s.isrv ||| BitVec.twoPow 16 s.irqLevel) &&& 0xFFFE) ∧
      (ModularReady v s → ∃ t, settled (maskableSequence s.pc) s = .next t ∧ EnteredModular v s.psr irqPsr s.pc s t ∧
        EntrySame s t ∧ t.op = .executing ∧ t.isrv = (s.isrv ||| BitVec.twoPow 16 s.irqLevel) &&& 0xFFFE)) ∧
    (s.psr.p = true →
      (DirectReady 9 s → ∃ t, settled traceSequence s = .next t ∧
        EnteredDirect 9 { s.psr with p := false } trcPsr s.pc s t ∧ EntrySame s t) ∧
      (ModularReady 9 s → ∃ t, settled traceSequence s = .next t ∧
        EnteredModular 9 { s.psr with p := false } trcPsr s.pc s t ∧ EntrySame s t))

/-- The interrupt control unit (R661-R665): the level is the highest of the pins' complement and the pending internal requests; a
DMA request is a sticky STAT bit under its IMSK bit (R712), at level 14 or 6 by the channel's DIP (R81; one DIP for each channel is
D10's, log 9); a timer request is a pending flag under its enable, for A also TCS in mode 3 (R735); the CPU is asked when the level is
above every level in service; an acknowledge sets its bit, an end of interrupt clears the highest. -/
def Obligations.InterruptLevels : Prop :=
  ∀ s : State,
    let dma := fun (c : DmaChan) => c.tc && c.mTc || c.eot && c.mEot || c.ovr && c.mOvr
    let high := dma s.dma.ch0 && s.dma.ch0.dip || dma s.dma.ch1 && s.dma.ch1.dip
    let low := dma s.dma.ch0 && !s.dma.ch0.dip || dma s.dma.ch1 && !s.dma.ch1.dip
    let a := fun (t : Timer) => t.ipfa && t.iena || t.tmc == .mode3 && t.tcs && t.iena
    let b := fun (t : Timer) => t.ipfb && t.ienb
    let requests : List (Bool × Nat) :=
      [(high, 14), (a s.timer0, 13), (b s.timer0, 12), (a s.timer1, 10), (b s.timer1, 9), (low, 6), (a s.timer2, 5),
        (b s.timer2, 3)]
    15 - s.irPins.toNat ≤ s.irqLevel ∧ s.irqLevel ≤ 15 ∧
    (∀ x ∈ requests, x.1 = true → x.2 ≤ s.irqLevel) ∧
    (s.irqLevel = 15 - s.irPins.toNat ∨ ∃ x ∈ requests, x.1 = true ∧ x.2 = s.irqLevel) ∧
    (s.irqRequest = true ↔ 0 < s.irqLevel ∧ ∀ l, 1 ≤ l → l ≤ 15 → s.isrv.getLsbD l = true → l < s.irqLevel) ∧
    (∀ l, l < 16 → s.acknowledge.isrv.getLsbD l = (l != 0 && (s.isrv.getLsbD l || l == s.irqLevel))) ∧
    (∀ l, l < 16 → (s.endOfInterrupt.isrv.getLsbD l = true ↔
      s.isrv.getLsbD l = true ∧ (l = 0 ∨ ∃ h, h < 16 ∧ l < h ∧ s.isrv.getLsbD h = true)))

/-! ## Processor registers -/

/-- LPR (R481) in a mode that allows it: the low bits of the register are replaced, at most its own; LPR of a length other than the
register's is U8's reading. -/
def Obligations.LoadDedicatedRegister : Prop :=
  ∀ (i : Size) (g : Gen) s v t (x : Word) (y : Half), rd g i.bytes s = .ok (v, t) →
    (LowReplaced s.fp v x → exec (.lpri i .fp g) s = .next (s.after (.lpri i .fp g) { t with fp := x })) ∧
    (LowReplaced s.sb v x → exec (.lpri i .sb g) s = .next (s.after (.lpri i .sb g) { t with sb := x })) ∧
    (LowReplaced t.sp v x → exec (.lpri i .sp g) s = .next (s.after (.lpri i .sp g) (t.setSp x))) ∧
    (s.psr.u = false → LowReplaced s.intbase v x →
      exec (.lpri i .intbase g) s = .next (s.after (.lpri i .intbase g) { t with intbase := x })) ∧
    (LowReplaced s.mod v y → exec (.lpri i .mod g) s = .next (s.after (.lpri i .mod g) { t with mod := y })) ∧
    (LowReplaced s.psr.toBits (v.setWidth 8) y →
      exec (.lpri i .us g) s = .next (s.after (.lpri i .us g) { t with psr := Psr.ofBits y, psrTouched := true })) ∧
    (s.psr.u = false → LowReplaced s.psr.toBits v y →
      exec (.lpri i .psr g) s = .next (s.after (.lpri i .psr g)
        { t with psr := Psr.ofBits y, psrTouched := true }))

/-- SPR (R482) in a mode that allows it: the register's value, zero-extended, is stored; a length other than the register's is U8's
reading (log 40). PSR bits 13-15 are free values once anything but reset has written the PSR (R59, D14), so of the PSR the named bits
are stated, and all 16 only before that (0 there: the model's reading of R61, log 14). -/
def Obligations.StoreDedicatedRegister : Prop :=
  ∀ (i : Size) (dst : Gen),
    StoreCompletes (.spri i .us dst) dst i.bytes (fun s => BitVec.ofNat _ (s.psr.toBits.toNat % 256)) ∧
    StoreCompletes (.spri i .mod dst) dst i.bytes (fun s => BitVec.ofNat _ s.mod.toNat) ∧
    StoreCompletes (.spri i .fp dst) dst i.bytes (fun s => BitVec.ofNat _ s.fp.toNat) ∧
    StoreCompletes (.spri i .sb dst) dst i.bytes (fun s => BitVec.ofNat _ s.sb.toNat) ∧
    StoreCompletes (.spri i .sp dst) dst i.bytes (fun s => BitVec.ofNat _ s.sp.toNat) ∧
    (∀ s d s1 s2, s.psr.u = false → dstWrite dst s = .ok (d, s1) →
      putDest d i.bytes (BitVec.ofNat _ s.intbase.toNat) s1 = .ok ((), s2) →
      exec (.spri i .intbase dst) s = .next (s.after (.spri i .intbase dst) s2)) ∧
    (∀ s, s.psr.u = false → ∃ (w : Half) (k : Nat), Psr.ofBits w = s.psr ∧ (s.psrTouched = false → w = s.psr.toBits) ∧
      ∀ d s1 s2, dstWrite dst { s with freeCount := k } = .ok (d, s1) →
        putDest d i.bytes (BitVec.ofNat _ w.toNat) s1 = .ok ((), s2) →
        exec (.spri i .psr dst) s = .next (s.after (.spri i .psr dst) s2))

/-- BISPSR, BICPSR, ADJSP, SETCFG (R483-R486) in a mode that allows them: bits of the PSR set or cleared with the queue purged, the
selected stack pointer lowered by the operand, CFG loaded whole. -/
def Obligations.PsrStackAndConfig : Prop :=
  (∀ (i : Size) (g : Gen) s v t, i = .b ∨ (i = .w ∧ s.psr.u = false) → rd g i.bytes s = .ok (v, t) →
    exec (.bispsri i g) s = .next (s.after (.bispsri i g) { t with
      psr := Psr.ofBits (s.psr.toBits ||| v.setWidth 16)
      psrTouched := true
      dirty := [] }) ∧
    exec (.bicpsri i g) s = .next (s.after (.bicpsri i g) { t with
      psr := Psr.ofBits (s.psr.toBits &&& ~~~(v.setWidth 16))
      psrTouched := true
      dirty := [] })) ∧
  (∀ (i : Size) (g : Gen) s v t, rd g i.bytes s = .ok (v, t) →
    exec (.adjspi i g) s = .next (s.after (.adjspi i g) (t.setSp (t.sp - BitVec.ofInt 32 v.toInt)))) ∧
  (∀ (o : CfgOpts) s, s.psr.u = false →
    exec (.setcfg o) s = .next (s.after (.setcfg o)
      { s with cfg := { i := o.i, f := o.f, m := o.m, c := o.c, de := o.de } }))

/-! ## Strings -/

/-- The six string instructions complete (R420-R426): the elements are handled one at a time in pointer order, until R0 is used up,
until the option ends the instruction, or at the first unequal pair. -/
def Obligations.StringsComplete : Prop :=
  (∀ (i : Size) (o : StrOpts), StringCompletes (.movsi i o) .move o i.bytes false ∧
    StringCompletes (.cmpsi i o) .compare o i.bytes false ∧ StringCompletes (.skpsi i o) .skip o i.bytes false) ∧
  (∀ o : StrOpts, StringCompletes (.movst o) .move o 1 true ∧ StringCompletes (.cmpst o) .compare o 1 true ∧
    StringCompletes (.skpst o) .skip o 1 true)

/-- A string instruction with a request pending is interrupted after an element that is not its last (R428, R631 step 1), and
executed again in the state it left it ends as the uninterrupted instruction does (R428). Where between two elements an interrupt is
accepted is D16's open choice: that the model takes a pending request at every point the environment does not let pass is log 33
(DESIGN CHOICE). -/
def Obligations.StringsInterrupted : Prop :=
  (∀ (i : Size) (o : StrOpts), StringInterrupted (.movsi i o) .move o i.bytes false ∧
    StringInterrupted (.cmpsi i o) .compare o i.bytes false ∧ StringInterrupted (.skpsi i o) .skip o i.bytes false) ∧
  (∀ o : StrOpts, StringInterrupted (.movst o) .move o 1 true ∧ StringInterrupted (.cmpst o) .compare o 1 true ∧
    StringInterrupted (.skpst o) .skip o 1 true) ∧
  (∀ (i : Size) (o : StrOpts), StringResumes (.movsi i o) .move o i.bytes false ∧
    StringResumes (.cmpsi i o) .compare o i.bytes false ∧ StringResumes (.skpsi i o) .skip o i.bytes false) ∧
  (∀ o : StrOpts, StringResumes (.movst o) .move o 1 true ∧ StringResumes (.cmpst o) .compare o 1 true ∧
    StringResumes (.skpst o) .skip o 1 true)

/-! ## Floating point -/

/-- The twenty floating-point instructions complete when the unit is declared and attached and reports no error (R512-R515,
R520-R539): the request is sent, the reply taken, its result written to the destination; CMP loads N and Z and clears L (R527), LFSR
loads the FSR and SFSR stores it (R534, R535). -/
def Obligations.FloatsComplete : Prop :=
  ∀ (i : Instr) (s t : State) (q : FpuRequest) (d : Option Dest) (n : Nat) (u : State), FloatIssues i s t q d n →
    s.cfg.f = true → s.plat.hasFpu = true → (t.fpu.reply q).status.getLsbD 0 = false →
    (match d with
      | none => u = t.sent q
      | some x => putDest x n ((floatResult i t (t.fpu.reply q)).setWidth (8 * n)) (t.sent q) = .ok ((), u)) →
    exec i s = .next (s.after i (u.replied i q (t.fpu.reply q)))

/-- Where they do not complete: Trap (UND) with CFG.F = 0 before any operand is read (R510, R615); Trap (SLAVE) on the Q bit
with nothing written (R512 step 6, R516); no unit attached, the CPU waits for ever (R511). -/
def Obligations.FloatsTrap : Prop :=
  (∀ (i : Instr) (s : State), isFloat i = true → s.cfg.f = false → exec i s = settled (trapSequence .und s) s) ∧
  (∀ (i : Instr) (s t : State) (q : FpuRequest) (d : Option Dest) (n : Nat), FloatIssues i s t q d n →
    s.cfg.f = true → s.plat.hasFpu = true → (t.fpu.reply q).status.getLsbD 0 = true → t.calm →
    exec i s = settled (trapSequence .slave s) (t.sent q)) ∧
  (∀ (i : Instr) (s t : State) (q : FpuRequest) (d : Option Dest) (n : Nat), FloatIssues i s t q d n →
    s.cfg.f = true → s.plat.hasFpu = false → ∃ u, exec i s = .next u ∧ u.op = .waitingForSlave ∧ u.pc = s.pc ∧
      step { u with inputs := [], within := [] } = .next { u with inputs := [], within := [] })

/-- Which operands move (R514): an operand of floating type in Register mode names a register of the unit, and nothing is read,
sent or written by the CPU; in the other modes it is read, or located, as a CPU operand. -/
def Obligations.FloatOperandsIssued : Prop :=
  ∀ (s : State) (n : Nat),
    (∀ r, fread (.mode (.reg r)) n s = .ok (none, s) ∧ fwrite (.mode (.reg r)) s = .ok (none, s) ∧
      fmodify (.mode (.reg r)) n s = .ok ((none, none), s)) ∧
    (∀ g, (∀ r, g ≠ .mode (.reg r)) →
      (∀ v t, rd g n s = .ok (v, t) → fread g n s = .ok (some (v.setWidth 64), t)) ∧
      (∀ x t, dstWrite g s = .ok (x, t) → fwrite g s = .ok (some x, t)) ∧
      (∀ x t v u, dstModify g s = .ok (x, t) → getDest x n t = .ok (v, u) →
        fmodify g n s = .ok ((some x, some (v.setWidth 64)), u)))

/-! ## Graphics -/

/-- BBAND, BBOR, BBXOR, BBSTOD, BBFOR complete (R554-R559): every source word, masked and shifted, is combined with its destination
double-word, in order, and the registers stand behind the block. R554's algorithm is the spec's own choice (D29); that PSR.K and
PSR.J stay is D22's (log 17). -/
def Obligations.BitBltsComplete : Prop :=
  (∀ o : BBOpts, BBCompletes (.bband o) .land o ∧ BBCompletes (.bbor o) .lor o ∧ BBCompletes (.bbxor o) .lxor o ∧
    BBCompletes (.bbstod o) .stod o) ∧
  BBCompletes .bbfor .lor { da := false, negS := false }

/-- The word the BPU drives (R71-R73, R683-R685), bit by bit: the barrel-shifted source bit combined with the destination bit under
FS, where the masks of the first and the last word of a line let it. That begin and end are the first and last word in transfer
order, and that both masks fall on the word of a one-word line, is R685's own addition (D30, log 38). -/
def Obligations.BpuResultBits : Prop :=
  ∀ (b : Bpu) (w : Nat) (sdil bil ddil : Half) (k : Nat), k < 16 →
    let low : Half := if b.bis then bil else sdil
    let high : Half := if b.bis then sdil else bil
    let c := if k + b.sn.toNat < 16 then low.getLsbD (k + b.sn.toNat) else high.getLsbD (k + b.sn.toNat - 16)
    let d := ddil.getLsbD k
    let enabled := (w ≠ 0 ∨ ((b.brme = true → k ≤ b.rm.toNat) ∧ (b.blme = true → b.lm.toNat ≤ k))) ∧
      (w + 1 ≠ 256 - b.wcnt.toNat ∨ ((b.erme = true → k ≤ b.rm.toNat) ∧ (b.elme = true → b.lm.toNat ≤ k)))
    (enabled → (b.result w sdil bil ddil).getLsbD k = b.fs.getLsbD (3 - 2 * c.toNat - d.toNat)) ∧
    (¬enabled → (b.result w sdil bil ddil).getLsbD k = d)

/-- EXTBLT completes (R564-R566): word by word, the source latches move up, the destination word is read and the word the BPU makes of
them is stored (R682-R685); the pointers stand behind the block, R3 and PSR.B are 0, R5 is 0 if a line was done, R2 holds some value
(U3), and no byte of memory outside the destination words changes. R564's loop is the spec's own choice (D29); a source latch never
loaded holds some value (U4, log 18); that PSR.K and PSR.J stay is D22's (log 17). -/
def Obligations.ExtbltCompletes : Prop :=
  ∀ s : State, ExtReady s →
    let words := s.regs.r2.toNat / 2
    let lines := s.regs.r3.toNat
    ∃ (free : Half) (v : Word) (k : Nat),
      exec .extblt s = .next (s.after .extblt { s.extLines free lines with
        regs := { s.regs with
          r0 := blockAddr s.regs.r0 s.regs.r4 s.regs.r6 s.extReads lines 0
          r1 := blockAddr s.regs.r1 s.regs.r4 s.regs.r7 words lines 0
          r2 := v
          r3 := 0
          r5 := if lines = 0 then s.regs.r5 else 0 }
        psr := { s.psr with b := false }
        freeCount := k }) ∧
      (∀ a, (∀ l w, l < lines → w < words → a ∉ bytesOf (blockAddr s.regs.r1 s.regs.r4 s.regs.r7 words l w) 2) →
        (s.extLines free lines).mem.read a = s.mem.read a)

/-- BITWT, SBITS, MOVMP, SBITPS complete (R562, R570, R580, R585): one shifted word is or-ed into a double-word; the bits of a table
entry are set, or F alone when R2 is above 25; a pattern is stored at equal distances; bits are set at equal distances. Which table
entry is used and where R0 or R1 ends are the parameters of D29 and D17. -/
def Obligations.PatternAndBitStrings : Prop :=
  (∀ s : State, s.calm → s.regs.r2.toNat ≤ 15 → s.readable s.regs.r0 2 → s.writable s.regs.r1 4 →
    exec .bitwt s = .next (s.after .bitwt
      { s.poke s.regs.r1 4 (s.valueAt s.regs.r1 4 ||| ((s.valueAt s.regs.r0 2).setWidth 32 <<< s.regs.r2.toNat)) with
        regs := { s.regs with r0 := s.regs.r0 + 2, r1 := s.regs.r1 + 2 } })) ∧
  (∀ s : State, 25 < s.regs.r2.toNat → exec .sbits s = .next (s.after .sbits { s with psr := { s.psr with f := true } })) ∧
  (∀ s : State, s.calm → s.regs.r2.toNat ≤ 25 →
    let off := (s.regs.r1.toInt % 8).toNat
    let entry := s.regs.r3 + BitVec.ofNat 32 (4 * (match s.plat.sbitsIndex with
      | .offsetMajor => off * 32 + s.regs.r2.toNat
      | .lengthMajor => s.regs.r2.toNat * 8 + off))
    let a := bitByte s.regs.r0 s.regs.r1
    s.readable entry 4 → s.writable a 4 →
    exec .sbits s = .next (s.after .sbits
      { s.poke a 4 (s.valueAt a 4 ||| s.valueAt entry 4) with psr := { s.psr with f := false } })) ∧
  (∀ (i : Size) (s : State), s.quiet →
    (∀ j, j < s.regs.r2.toNat → s.writable (s.regs.r0 + BitVec.ofNat 32 j * s.regs.r1) i.bytes) →
    let stop := s.regs.r0 + s.regs.r2 * s.regs.r1
    exec (.movmpi i) s = .next (s.after (.movmpi i)
      { pokes (fun j => s.regs.r0 + BitVec.ofNat 32 j * s.regs.r1) i.bytes (fun _ _ => s.regs.r3.setWidth _)
          s.regs.r2.toNat s with
        regs := { s.regs with
          r0 := if s.plat.movmpFinal = .last ∧ s.regs.r2 ≠ 0 then stop - s.regs.r1 else stop
          r2 := 0 } })) ∧
  (∀ s : State, s.quiet →
    let at' := fun j : Nat => s.regs.r1 + BitVec.ofNat 32 j * s.regs.r3
    (∀ j, j < s.regs.r2.toNat → s.writable (bitByte s.regs.r0 (at' j)) 1) →
    let stop := s.regs.r1 + s.regs.r2 * s.regs.r3
    exec .sbitps s = .next (s.after .sbitps
      { pokes (fun j => bitByte s.regs.r0 (at' j)) 1
          (fun j t => putBitAt (t.valueAt (bitByte s.regs.r0 (at' j)) 1) ((at' j).toInt % 8).toNat true)
          s.regs.r2.toNat s with
        regs := { s.regs with
          r1 := if s.plat.movmpFinal = .last ∧ s.regs.r2 ≠ 0 then stop - s.regs.r3 else stop
          r2 := 0 } }))

/-- TBITS (R572): j bits equal to the option were counted before the run limit, the offset limit, or the first bit that differs; the
order of the tests is D29's, the offsets are unsigned (log 22). -/
def Obligations.BitStringCount : Prop :=
  ∀ (opt : Bool) (s : State) (j : Nat),
    let n := s.regs.r3.toNat
    let m := s.regs.r4.toNat - s.regs.r1.toNat
    let cell := fun l : Nat => s.regs.r0 + BitVec.ofNat 32 ((s.regs.r1.toNat + l) / 8)
    let bit := fun l : Nat => (s.valueAt (cell l) 1).getLsbD ((s.regs.r1.toNat + l) % 8)
    let done := fun (r1 : Word) (f l : Bool) => s.after (.tbits opt) { s with
      regs := { s.regs with r1 := r1, r2 := BitVec.ofNat 32 j }
      psr := { s.psr with f := f, l := l } }
    s.calm → (∀ l, l < n → l < m → s.readable (cell l) 1) → j ≤ n → j ≤ m → (∀ l, l < j → bit l = opt) →
    (j = n → exec (.tbits opt) s = .next (done (s.regs.r1 + BitVec.ofNat 32 j) opt true)) ∧
    (j < n → j = m → exec (.tbits opt) s = .next (done (s.regs.r1 + BitVec.ofNat 32 j) opt false)) ∧
    (j < n → j < m → bit j = !opt →
      exec (.tbits opt) s = .next (done (s.regs.r1 + BitVec.ofNat 32 (j + 1)) (!opt) true))

/-! ## Peripherals -/

/-- DMA cycles (R701, R702, R705-R709): an idle channel ignores its request; a cycle moves one item between memory and the implied
device and steps the counters, unless its parameters are no multiples of the bus width, which is refused (R702, log 55); EOT disables the channel; terminal count reloads the parameters or sets OVR. Requests asserted together
are granted in the order HOLD, channel 0, channel 1 (R150, R710). -/
def Obligations.DmaCycles : Prop :=
  (∀ (s : State) (ch : Chan) (v : Half) (e : Bool), (s.dma.chan ch).active = false →
    event (.drq ch v e) s = .ok ((), s)) ∧
  (∀ (s : State) (ch : Chan) (v : Half) (e : Bool),
    let c := s.dma.chan ch
    let n := if c.bwWord then 2 else 1
    c.active = true → (¬DmaEven c → event (.drq ch v e) s = .error (.refuse .dmaProgramming)) ∧ (DmaEven c →
    (c.dir = false → s.readable c.adc n →
      event (.drq ch v e) s = .ok ((), { s with
        dmaOut := s.dmaOut ++ [⟨ch, c.bwWord, (s.valueAt c.adc n).setWidth 16⟩]
        dma := s.dma.setChan ch (c.endCycle e) })) ∧
    (c.dir = true → s.writable c.adc n →
      event (.drq ch v e) s = .ok ((), { s.pokeBus c.adc n (v.setWidth _) with
        dma := s.dma.setChan ch (c.endCycle e) })))) ∧
  (∀ (c : DmaChan),
    let w : Word := if c.bwWord then 2 else 1
    let u := { c with bltc := c.bltc - w, adc := if c.ad then c.adc + w else c.adc }
    c.endCycle true = { u with eot := true, chen := false } ∧
    (c.bltc ≠ w → c.endCycle false = u) ∧
    (c.bltc = w →
      (c.ot = true → c.endCycle false = { u with tc := true, adc := c.adr, bltc := c.bltr }) ∧
      (c.ot = false → c.vld = true →
        c.endCycle false = { u with tc := true, adc := c.adr, bltc := c.bltr, vld := false }) ∧
      (c.ot = false → c.vld = false → c.eot = false →
        c.endCycle false = { u with tc := true, ovr := true, chen := c.chen && !c.mOvr }))) ∧
  (∀ (s t u : State) (a : BitVec 24) (w : Byte) (v0 v1 : Half) (e0 e1 : Bool),
    event (.drq .ch0 v0 e0) (s.busWrite a.toNat w) = .ok ((), t) → event (.drq .ch1 v1 e1) t = .ok ((), u) →
    event (.together [(a, w)] (some (v0, e0)) (some (v1, e1))) s = .ok ((), u))

/-- Timers (R733, R734): in mode 1 each tick, in mode 2 each edge on TXB, counts down while TCS is 1, and at 0 reloads from TRCA and
TRCB in turn with its pending flag set and TXA toggled (stated for mode 1); in mode 3 the counter runs freely, underflow sets TCS, and
edges capture it. -/
def Obligations.TimerCounts : Prop :=
  ∀ (s : State) (k : TimerId),
    let t := s.timer k
    (t.tmc = .mode1 → t.tcs = false → event (.tick k) s = .ok ((), s)) ∧
    (t.tmc = .mode1 → t.tcs = true → t.tc ≠ 1 → event (.tick k) s = .ok ((), s.setTimer k { t with tc := t.tc - 1 })) ∧
    (t.tmc = .mode1 → t.tcs = true → t.tc = 1 → t.nextB = false →
      event (.tick k) s = .ok ((), s.setTimer k { t with tc := t.trca, ipfa := true, nextB := true, txa := !t.txa })) ∧
    (t.tmc = .mode1 → t.tcs = true → t.tc = 1 → t.nextB = true →
      event (.tick k) s = .ok ((), s.setTimer k { t with tc := t.trcb, ipfb := true, nextB := false, txa := !t.txa })) ∧
    (t.tmc = .mode3 → event (.tick k) s =
      .ok ((), s.setTimer k { t with tc := t.tc - 1, tcs := t.tcs || t.tc == 0 })) ∧
    (t.tmc = .mode3 → event (.txaRise k) s = .ok ((), s.setTimer k { t with trca := t.tc, ipfa := true })) ∧
    (t.tmc = .mode3 → event (.txbRise k) s = .ok ((), s.setTimer k { t with trcb := t.tc, ipfb := true })) ∧
    (t.tmc = .mode2 → t.tcs = true → t.tc ≠ 1 →
      event (.txbRise k) s = .ok ((), s.setTimer k { t with tc := t.tc - 1 })) ∧
    (t.tmc = .mode2 → event (.tick k) s = .ok ((), s)) ∧
    (t.tmc = .idle → event (.tick k) s = .ok ((), s) ∧ event (.txaRise k) s = .ok ((), s) ∧
      event (.txbRise k) s = .ok ((), s))
end

