-- ==== Sys2Proof/Laws/Memory.lean ====
section
/-! SUPPORT. The laws of memory: a byte reads as it was written, other bytes stay, and every operation keeps the
canonical form and the external range. -/

namespace Sys2Proof.Machine

open Sys2Proof

theorem cellRead_of_lt {l : List Host.Cell} {a : Nat} (h : ∀ c ∈ l, a < c.1) : cellRead l a = Config.blankByte := by
  induction l with
  | nil => rfl
  | cons c t ih =>
    obtain ⟨b, w⟩ := c
    have hb : a < b := h (b, w) (by simp)
    simp only [cellRead, if_neg (Nat.ne_of_lt hb)]
    exact ih (fun c hc => h c (by simp [hc]))

theorem cellWrite_mem {l : List Host.Cell} {a : Nat} {v : Byte} {c : Host.Cell} (h : c ∈ cellWrite l a v) :
    c = (a, v) ∧ v ≠ Config.blankByte ∨ c ∈ l := by
  induction l with
  | nil =>
    simp only [cellWrite] at h
    split at h <;> simp_all
  | cons d t ih =>
    obtain ⟨b, w⟩ := d
    simp only [cellWrite] at h
    split at h
    · split at h <;> simp_all
    · split at h
      · split at h <;> simp_all; tauto
      · rcases List.mem_cons.1 h with rfl | h
        · simp
        · rcases ih h with h | h <;> simp_all

theorem cellWrite_wf {l : List Host.Cell} (a : Nat) (v : Byte)
    (h : l.Pairwise (fun x y => x.1 < y.1) ∧ ∀ c ∈ l, c.2 ≠ Config.blankByte) :
    (cellWrite l a v).Pairwise (fun x y => x.1 < y.1) ∧ ∀ c ∈ cellWrite l a v, c.2 ≠ Config.blankByte := by
  refine ⟨?_, fun c hc => ?_⟩
  · obtain ⟨hp, -⟩ := h
    induction l with
    | nil => simp only [cellWrite]; split <;> simp
    | cons d t ih =>
      obtain ⟨b, w⟩ := d
      obtain ⟨hb, ht⟩ := List.pairwise_cons.1 hp
      simp only [cellWrite]
      split
      · rename_i hab
        split
        · exact hp
        · refine List.pairwise_cons.2 ⟨fun c hc => ?_, hp⟩
          rcases List.mem_cons.1 hc with rfl | hc
          · exact hab
          · exact Nat.lt_trans hab (hb c hc)
      · split
        · rename_i hab
          subst hab
          split
          · exact ht
          · exact List.pairwise_cons.2 ⟨hb, ht⟩
        · refine List.pairwise_cons.2 ⟨fun c hc => ?_, ih ht⟩
          rcases cellWrite_mem hc with ⟨rfl, -⟩ | hc
          · show b < a; omega
          · exact hb c hc
  · rcases cellWrite_mem hc with ⟨rfl, h⟩ | hc
    · exact h
    · exact h.2 c hc

theorem cellRead_cellWrite_other (l : List Host.Cell) {a x : Nat} (v : Byte) (h : x ≠ a) :
    cellRead (cellWrite l a v) x = cellRead l x := by
  induction l with
  | nil => simp only [cellWrite]; split <;> simp [cellRead, h]
  | cons d t ih =>
    obtain ⟨b, w⟩ := d
    simp only [cellWrite]
    split
    · split
      · rfl
      · simp [cellRead, h]
    · split
      · rename_i hab; subst hab
        split <;> simp [cellRead, h]
      · simp only [cellRead, ih]

theorem cellRead_cellWrite_same {l : List Host.Cell} (a : Nat) (v : Byte) (h : l.Pairwise (fun x y => x.1 < y.1)) :
    cellRead (cellWrite l a v) a = v := by
  induction l with
  | nil =>
    simp only [cellWrite]
    split
    · rename_i hv; rw [hv]; rfl
    · simp [cellRead]
  | cons d t ih =>
    obtain ⟨b, w⟩ := d
    obtain ⟨hb, ht⟩ := List.pairwise_cons.1 h
    simp only [cellWrite]
    split
    · rename_i hab
      split
      · rename_i hv
        rw [cellRead_of_lt, hv]
        intro c hc
        rcases List.mem_cons.1 hc with rfl | hc
        · exact hab
        · exact Nat.lt_trans hab (hb c hc)
      · simp [cellRead]
    · split
      · rename_i hab; subst hab
        split
        · rename_i hv
          rw [cellRead_of_lt hb, hv]
        · simp [cellRead]
      · rename_i hab
        simp only [cellRead, if_neg hab, ih ht]

/-! ### Memory -/

theorem Memory.read_write_same {m : Memory} (a : Nat) (v : Byte) (h : m.wf) : (m.write a v).read a = v :=
  cellRead_cellWrite_same a v h.1

theorem Memory.read_write_other (m : Memory) {a x : Nat} (v : Byte) (h : x ≠ a) :
    (m.write a v).read x = m.read x := cellRead_cellWrite_other m.cells v h

theorem Memory.wf_write {m : Memory} (a : Nat) (v : Byte) (h : m.wf) : (m.write a v).wf := cellWrite_wf a v h

theorem Memory.external_write {m : Memory} {a : Nat} (v : Byte) (ha : a < Config.externalEnd) (h : m.external) :
    (m.write a v).external := by
  intro c hc
  rcases cellWrite_mem hc with ⟨rfl, -⟩ | hc
  · exact ha
  · exact h c hc

theorem Memory.wf_writeAll {m : Memory} (l : List (Nat × Byte)) (h : m.wf) : (m.writeAll l).wf := by
  induction l generalizing m with
  | nil => exact h
  | cons c t ih => exact ih (Memory.wf_write _ _ h)

theorem Memory.external_writeAll {m : Memory} {l : List (Nat × Byte)} (ha : ∀ c ∈ l, c.1 < Config.externalEnd)
    (h : m.external) : (m.writeAll l).external := by
  induction l generalizing m with
  | nil => exact h
  | cons c t ih =>
    exact ih (fun d hd => ha d (by simp [hd])) (Memory.external_write _ (ha c (by simp)) h)

theorem Memory.read_writeAll_other {m : Memory} {l : List (Nat × Byte)} {x : Nat} (h : ∀ c ∈ l, x ≠ c.1) :
    (m.writeAll l).read x = m.read x := by
  induction l generalizing m with
  | nil => rfl
  | cons c t ih =>
    obtain ⟨a, v⟩ := c
    simp only [Memory.writeAll]
    rw [ih (fun d hd => h d (by simp [hd])), Memory.read_write_other _ _ (h (a, v) (by simp))]

/-- Bytes written at distinct addresses read back. -/
theorem Memory.read_writeAll_mem {m : Memory} {l : List (Nat × Byte)} (hm : m.wf)
    (hd : (l.map (·.1)).Nodup) {c : Nat × Byte} (hc : c ∈ l) : (m.writeAll l).read c.1 = c.2 := by
  induction l generalizing m with
  | nil => simp at hc
  | cons d t ih =>
    obtain ⟨a, v⟩ := d
    simp only [List.map_cons, List.nodup_cons] at hd
    simp only [Memory.writeAll]
    rcases List.mem_cons.1 hc with rfl | hc
    · rw [Memory.read_writeAll_other, Memory.read_write_same _ _ hm]
      intro e he h
      exact hd.1 (List.mem_map.2 ⟨e, he, h.symm⟩)
    · exact ih (Memory.wf_write _ _ hm) hd.2 hc

theorem Memory.reset_wf : State.reset.mem.wf ∧ State.reset.mem.external := by
  constructor
  · exact ⟨List.Pairwise.nil, by simp [State.reset]⟩
  · intro c hc; simp [State.reset] at hc

/-- Two memories in canonical form that read alike are equal. -/
theorem cells_ext {l k : List Host.Cell}
    (hl : l.Pairwise (fun x y => x.1 < y.1) ∧ ∀ c ∈ l, c.2 ≠ Config.blankByte)
    (hk : k.Pairwise (fun x y => x.1 < y.1) ∧ ∀ c ∈ k, c.2 ≠ Config.blankByte)
    (h : ∀ a, cellRead l a = cellRead k a) : l = k := by
  induction l generalizing k with
  | nil =>
    cases k with
    | nil => rfl
    | cons d t =>
      have := h d.1
      simp only [cellRead, if_true] at this
      exact absurd this.symm (hk.2 d (by simp))
  | cons c t ih =>
    obtain ⟨a, v⟩ := c
    obtain ⟨ha, ht⟩ := List.pairwise_cons.1 hl.1
    have hv : v ≠ Config.blankByte := hl.2 (a, v) (by simp)
    cases k with
    | nil =>
      have := h a
      simp only [cellRead, if_true] at this
      exact absurd this hv
    | cons d u =>
      obtain ⟨b, w⟩ := d
      obtain ⟨hb, hu⟩ := List.pairwise_cons.1 hk.1
      have hw : w ≠ Config.blankByte := hk.2 (b, w) (by simp)
      have hab : a = b := by
        rcases Nat.lt_trichotomy a b with hlt | heq | hgt
        · have := h a
          rw [cellRead_of_lt (l := (b, w) :: u)] at this
          · simp only [cellRead, if_true] at this; exact absurd this hv
          · intro c hc
            rcases List.mem_cons.1 hc with rfl | hc
            · exact hlt
            · exact Nat.lt_trans hlt (hb c hc)
        · exact heq
        · have := h b
          rw [cellRead_of_lt (l := (a, v) :: t)] at this
          · simp only [cellRead, if_true] at this; exact absurd this.symm hw
          · intro c hc
            rcases List.mem_cons.1 hc with rfl | hc
            · exact hgt
            · exact Nat.lt_trans hgt (ha c hc)
      subst hab
      have hvw : v = w := by have := h a; simpa [cellRead] using this
      subst hvw
      have : t = u := by
        refine ih ⟨ht, fun c hc => hl.2 c (by simp [hc])⟩ ⟨hu, fun c hc => hk.2 c (by simp [hc])⟩ (fun x => ?_)
        by_cases hx : x = a
        · subst hx; rw [cellRead_of_lt ha, cellRead_of_lt hb]
        · have := h x; simpa [cellRead, hx] using this
      rw [this]

/-! ### Byte addresses and numbers -/

@[simp] theorem byteAddrs_length (a : Word) (n : Nat) : (byteAddrs a n).length = n := by
  induction n generalizing a with
  | zero => rfl
  | succ n ih => simp [byteAddrs, ih]

@[simp] theorem leBytes_length (n v : Nat) : (leBytes n v).length = n := by
  induction n generalizing v with
  | zero => rfl
  | succ n ih => simp [leBytes, ih]

theorem mem_byteAddrs {a x : Word} {n : Nat} : x ∈ byteAddrs a n ↔ ∃ k, k < n ∧ x = a + BitVec.ofNat 32 k := by
  induction n generalizing a with
  | zero => simp [byteAddrs]
  | succ n ih =>
    simp only [byteAddrs, List.mem_cons, ih]
    constructor
    · rintro (rfl | ⟨k, hk, rfl⟩)
      · exact ⟨0, by omega, by simp⟩
      · refine ⟨k + 1, by omega, ?_⟩
        rw [BitVec.add_assoc]
        congr 1
        apply BitVec.eq_of_toNat_eq
        simp [Nat.add_comm]
    · rintro ⟨k, hk, rfl⟩
      cases k with
      | zero => left; simp
      | succ k =>
        refine .inr ⟨k, by omega, ?_⟩
        rw [BitVec.add_assoc]
        congr 1
        apply BitVec.eq_of_toNat_eq
        simp [Nat.add_comm]

theorem byteAddrs_nodup (a : Word) {n : Nat} (h : n ≤ 2 ^ 32) : (byteAddrs a n).Nodup := by
  induction n generalizing a with
  | zero => simp [byteAddrs]
  | succ n ih =>
    simp only [byteAddrs, List.nodup_cons]
    refine ⟨fun hm => ?_, ih _ (by omega)⟩
    obtain ⟨k, hk, he⟩ := mem_byteAddrs.1 hm
    have := congrArg BitVec.toNat he
    simp at this
    omega

theorem leNat_leBytes (n v : Nat) : leNat (leBytes n v) = v % 2 ^ (8 * n) := by
  induction n generalizing v with
  | zero => simp [leNat, leBytes, Nat.mod_one]
  | succ n ih =>
    simp only [leNat, leBytes, ih, BitVec.toNat_ofNat]
    rw [show 8 * (n + 1) = 8 + 8 * n by omega, Nat.pow_add, Nat.mod_mul]

theorem byteAddrs_append (a : Word) (k n : Nat) :
    byteAddrs a (k + n) = byteAddrs a k ++ byteAddrs (a + BitVec.ofNat 32 k) n := by
  induction k generalizing a with
  | zero => simp [byteAddrs]
  | succ k ih =>
    rw [Nat.succ_add, byteAddrs, byteAddrs, ih, List.cons_append, BitVec.add_assoc]
    congr 4
    apply BitVec.eq_of_toNat_eq
    simp [Nat.add_comm]

theorem leBytes_append (k n v : Nat) : leBytes (k + n) v = leBytes k v ++ leBytes n (v / 2 ^ (8 * k)) := by
  induction k generalizing v with
  | zero => simp [leBytes]
  | succ k ih =>
    rw [Nat.succ_add, leBytes, leBytes, ih, List.cons_append, Nat.div_div_eq_div_mul,
      show 2 ^ (8 * (k + 1)) = 256 * 2 ^ (8 * k) by rw [Nat.mul_add, Nat.pow_add, Nat.mul_comm]]

theorem leNat_append (l r : List Byte) : leNat (l ++ r) = leNat l + 2 ^ (8 * l.length) * leNat r := by
  induction l with
  | nil => simp [leNat]
  | cons b t ih =>
    rw [List.cons_append, leNat, leNat, ih, List.length_cons, Nat.mul_add 8, Nat.pow_add]
    ring

theorem bytesAt_append (s : State) (l r : List Word) : s.bytesAt (l ++ r) = s.bytesAt l ++ s.bytesAt r :=
  List.map_append

theorem Memory.writeAll_append (m : Memory) (l r : List (Nat × Byte)) :
    m.writeAll (l ++ r) = (m.writeAll l).writeAll r := by
  induction l generalizing m with
  | nil => rfl
  | cons c t ih => exact ih _

theorem insertAll_append (d l r : List Nat) : insertAll d (l ++ r) = insertAll (insertAll d l) r := by
  induction l generalizing d with
  | nil => rfl
  | cons a t ih => exact ih _

/-- Two stores one after the other are one. -/
theorem State.store_store (s : State) {l r : List Word} {bs cs : List Byte} (h : l.length = bs.length) :
    (s.store l bs).store r cs = s.store (l ++ r) (bs ++ cs) := by
  have hz : ((l ++ r).map (·.toNat)).zip (bs ++ cs) = (l.map (·.toNat)).zip bs ++ (r.map (·.toNat)).zip cs := by
    rw [List.map_append, List.zip_append (by simpa using h)]
  unfold State.store State.deposit
  rw [hz, Memory.writeAll_append]
  simp [insertAll_append]

@[simp] theorem State.store_nil (s : State) : s.store [] [] = s := by
  unfold State.store State.deposit
  simp [Memory.writeAll, insertAll]

/-- What a store writes reads back (R135). -/
theorem bytesAt_store {s : State} (hm : s.mem.wf) (a : Word) {n : Nat} (hn : n ≤ 8) (v : Nat) :
    (s.store (byteAddrs a n) (leBytes n v)).bytesAt (byteAddrs a n) = leBytes n v := by
  have hlen : (byteAddrs a n).length = (leBytes n v).length := by simp
  have hnd : (((byteAddrs a n).map (·.toNat)).zip (leBytes n v)).map (·.1) = (byteAddrs a n).map (·.toNat) := by
    rw [List.map_fst_zip]; simp
  have hnd' : ((((byteAddrs a n).map (·.toNat)).zip (leBytes n v)).map (·.1)).Nodup := by
    rw [hnd]
    exact List.Nodup.map (fun _ _ h => BitVec.eq_of_toNat_eq h) (byteAddrs_nodup a (by omega))
  apply List.ext_getElem
  · simp [State.bytesAt]
  · intro k h1 h2
    simp only [State.bytesAt, List.getElem_map, State.store, State.deposit]
    have hk : k < n := by simpa using h2
    exact Memory.read_writeAll_mem hm hnd'
      (c := (((byteAddrs a n)[k]'(by simpa using hk)).toNat, (leBytes n v)[k]'(by simpa using hk)))
      (List.mem_iff_getElem.2 ⟨k, by simp [hk], by simp⟩)

end Sys2Proof.Machine
end

