-- ==== Sys2Proof/Laws/State.lean ====
section
/-! SUPPORT. One lemma per field per named update of the state, so that no proof unfolds a record update. -/

namespace Sys2Proof.Machine

open Sys2Proof

/-! ### setReg -/

@[simp] theorem State.setReg_regs (s : State) (r : Reg) (v : Word) : (s.setReg r v).regs = s.regs.set r v := rfl
@[simp] theorem State.setReg_pc (s : State) (r : Reg) (v : Word) : (s.setReg r v).pc = s.pc := rfl
@[simp] theorem State.setReg_sp0 (s : State) (r : Reg) (v : Word) : (s.setReg r v).sp0 = s.sp0 := rfl
@[simp] theorem State.setReg_sp1 (s : State) (r : Reg) (v : Word) : (s.setReg r v).sp1 = s.sp1 := rfl
@[simp] theorem State.setReg_fp (s : State) (r : Reg) (v : Word) : (s.setReg r v).fp = s.fp := rfl
@[simp] theorem State.setReg_sb (s : State) (r : Reg) (v : Word) : (s.setReg r v).sb = s.sb := rfl
@[simp] theorem State.setReg_intbase (s : State) (r : Reg) (v : Word) : (s.setReg r v).intbase = s.intbase := rfl
@[simp] theorem State.setReg_mod (s : State) (r : Reg) (v : Word) : (s.setReg r v).mod = s.mod := rfl
@[simp] theorem State.setReg_psr (s : State) (r : Reg) (v : Word) : (s.setReg r v).psr = s.psr := rfl
@[simp] theorem State.setReg_cfg (s : State) (r : Reg) (v : Word) : (s.setReg r v).cfg = s.cfg := rfl
@[simp] theorem State.setReg_op (s : State) (r : Reg) (v : Word) : (s.setReg r v).op = s.op := rfl
@[simp] theorem State.setReg_mem (s : State) (r : Reg) (v : Word) : (s.setReg r v).mem = s.mem := rfl
@[simp] theorem State.setReg_bpu (s : State) (r : Reg) (v : Word) : (s.setReg r v).bpu = s.bpu := rfl
@[simp] theorem State.setReg_dma (s : State) (r : Reg) (v : Word) : (s.setReg r v).dma = s.dma := rfl
@[simp] theorem State.setReg_isrv (s : State) (r : Reg) (v : Word) : (s.setReg r v).isrv = s.isrv := rfl
@[simp] theorem State.setReg_irPins (s : State) (r : Reg) (v : Word) : (s.setReg r v).irPins = s.irPins := rfl
@[simp] theorem State.setReg_timer0 (s : State) (r : Reg) (v : Word) : (s.setReg r v).timer0 = s.timer0 := rfl
@[simp] theorem State.setReg_timer1 (s : State) (r : Reg) (v : Word) : (s.setReg r v).timer1 = s.timer1 := rfl
@[simp] theorem State.setReg_timer2 (s : State) (r : Reg) (v : Word) : (s.setReg r v).timer2 = s.timer2 := rfl
@[simp] theorem State.setReg_nmiLatch (s : State) (r : Reg) (v : Word) : (s.setReg r v).nmiLatch = s.nmiLatch := rfl
@[simp] theorem State.setReg_fpu (s : State) (r : Reg) (v : Word) : (s.setReg r v).fpu = s.fpu := rfl
@[simp] theorem State.setReg_dirty (s : State) (r : Reg) (v : Word) : (s.setReg r v).dirty = s.dirty := rfl
@[simp] theorem State.setReg_written (s : State) (r : Reg) (v : Word) : (s.setReg r v).written = s.written := rfl
@[simp] theorem State.setReg_plat (s : State) (r : Reg) (v : Word) : (s.setReg r v).plat = s.plat := rfl
@[simp] theorem State.setReg_inputs (s : State) (r : Reg) (v : Word) : (s.setReg r v).inputs = s.inputs := rfl
@[simp] theorem State.setReg_within (s : State) (r : Reg) (v : Word) : (s.setReg r v).within = s.within := rfl
@[simp] theorem State.setReg_dmaOut (s : State) (r : Reg) (v : Word) : (s.setReg r v).dmaOut = s.dmaOut := rfl
@[simp] theorem State.setReg_psrTouched (s : State) (r : Reg) (v : Word) : (s.setReg r v).psrTouched = s.psrTouched := rfl
@[simp] theorem State.setReg_freeCount (s : State) (r : Reg) (v : Word) : (s.setReg r v).freeCount = s.freeCount := rfl

/-! ### setSp -/

@[simp] theorem State.setSp_regs (s : State) (v : Word) : (s.setSp v).regs = s.regs := by unfold State.setSp; split <;> rfl
@[simp] theorem State.setSp_pc (s : State) (v : Word) : (s.setSp v).pc = s.pc := by unfold State.setSp; split <;> rfl
@[simp] theorem State.setSp_sp0 (s : State) (v : Word) : (s.setSp v).sp0 = if s.psr.s then s.sp0 else v := by unfold State.setSp; split <;> rfl
@[simp] theorem State.setSp_sp1 (s : State) (v : Word) : (s.setSp v).sp1 = if s.psr.s then v else s.sp1 := by unfold State.setSp; split <;> rfl
@[simp] theorem State.setSp_fp (s : State) (v : Word) : (s.setSp v).fp = s.fp := by unfold State.setSp; split <;> rfl
@[simp] theorem State.setSp_sb (s : State) (v : Word) : (s.setSp v).sb = s.sb := by unfold State.setSp; split <;> rfl
@[simp] theorem State.setSp_intbase (s : State) (v : Word) : (s.setSp v).intbase = s.intbase := by unfold State.setSp; split <;> rfl
@[simp] theorem State.setSp_mod (s : State) (v : Word) : (s.setSp v).mod = s.mod := by unfold State.setSp; split <;> rfl
@[simp] theorem State.setSp_psr (s : State) (v : Word) : (s.setSp v).psr = s.psr := by unfold State.setSp; split <;> rfl
@[simp] theorem State.setSp_cfg (s : State) (v : Word) : (s.setSp v).cfg = s.cfg := by unfold State.setSp; split <;> rfl
@[simp] theorem State.setSp_op (s : State) (v : Word) : (s.setSp v).op = s.op := by unfold State.setSp; split <;> rfl
@[simp] theorem State.setSp_mem (s : State) (v : Word) : (s.setSp v).mem = s.mem := by unfold State.setSp; split <;> rfl
@[simp] theorem State.setSp_bpu (s : State) (v : Word) : (s.setSp v).bpu = s.bpu := by unfold State.setSp; split <;> rfl
@[simp] theorem State.setSp_dma (s : State) (v : Word) : (s.setSp v).dma = s.dma := by unfold State.setSp; split <;> rfl
@[simp] theorem State.setSp_isrv (s : State) (v : Word) : (s.setSp v).isrv = s.isrv := by unfold State.setSp; split <;> rfl
@[simp] theorem State.setSp_irPins (s : State) (v : Word) : (s.setSp v).irPins = s.irPins := by unfold State.setSp; split <;> rfl
@[simp] theorem State.setSp_timer0 (s : State) (v : Word) : (s.setSp v).timer0 = s.timer0 := by unfold State.setSp; split <;> rfl
@[simp] theorem State.setSp_timer1 (s : State) (v : Word) : (s.setSp v).timer1 = s.timer1 := by unfold State.setSp; split <;> rfl
@[simp] theorem State.setSp_timer2 (s : State) (v : Word) : (s.setSp v).timer2 = s.timer2 := by unfold State.setSp; split <;> rfl
@[simp] theorem State.setSp_nmiLatch (s : State) (v : Word) : (s.setSp v).nmiLatch = s.nmiLatch := by unfold State.setSp; split <;> rfl
@[simp] theorem State.setSp_fpu (s : State) (v : Word) : (s.setSp v).fpu = s.fpu := by unfold State.setSp; split <;> rfl
@[simp] theorem State.setSp_dirty (s : State) (v : Word) : (s.setSp v).dirty = s.dirty := by unfold State.setSp; split <;> rfl
@[simp] theorem State.setSp_written (s : State) (v : Word) : (s.setSp v).written = s.written := by unfold State.setSp; split <;> rfl
@[simp] theorem State.setSp_plat (s : State) (v : Word) : (s.setSp v).plat = s.plat := by unfold State.setSp; split <;> rfl
@[simp] theorem State.setSp_inputs (s : State) (v : Word) : (s.setSp v).inputs = s.inputs := by unfold State.setSp; split <;> rfl
@[simp] theorem State.setSp_within (s : State) (v : Word) : (s.setSp v).within = s.within := by unfold State.setSp; split <;> rfl
@[simp] theorem State.setSp_dmaOut (s : State) (v : Word) : (s.setSp v).dmaOut = s.dmaOut := by unfold State.setSp; split <;> rfl
@[simp] theorem State.setSp_psrTouched (s : State) (v : Word) : (s.setSp v).psrTouched = s.psrTouched := by unfold State.setSp; split <;> rfl
@[simp] theorem State.setSp_freeCount (s : State) (v : Word) : (s.setSp v).freeCount = s.freeCount := by unfold State.setSp; split <;> rfl

/-! ### store -/

@[simp] theorem State.store_regs (s : State) (as : List Word) (bs : List Byte) : (s.store as bs).regs = s.regs := rfl
@[simp] theorem State.store_pc (s : State) (as : List Word) (bs : List Byte) : (s.store as bs).pc = s.pc := rfl
@[simp] theorem State.store_sp0 (s : State) (as : List Word) (bs : List Byte) : (s.store as bs).sp0 = s.sp0 := rfl
@[simp] theorem State.store_sp1 (s : State) (as : List Word) (bs : List Byte) : (s.store as bs).sp1 = s.sp1 := rfl
@[simp] theorem State.store_fp (s : State) (as : List Word) (bs : List Byte) : (s.store as bs).fp = s.fp := rfl
@[simp] theorem State.store_sb (s : State) (as : List Word) (bs : List Byte) : (s.store as bs).sb = s.sb := rfl
@[simp] theorem State.store_intbase (s : State) (as : List Word) (bs : List Byte) : (s.store as bs).intbase = s.intbase := rfl
@[simp] theorem State.store_mod (s : State) (as : List Word) (bs : List Byte) : (s.store as bs).mod = s.mod := rfl
@[simp] theorem State.store_psr (s : State) (as : List Word) (bs : List Byte) : (s.store as bs).psr = s.psr := rfl
@[simp] theorem State.store_cfg (s : State) (as : List Word) (bs : List Byte) : (s.store as bs).cfg = s.cfg := rfl
@[simp] theorem State.store_op (s : State) (as : List Word) (bs : List Byte) : (s.store as bs).op = s.op := rfl
@[simp] theorem State.store_mem (s : State) (as : List Word) (bs : List Byte) : (s.store as bs).mem = s.mem.writeAll ((as.map (·.toNat)).zip bs) := rfl
@[simp] theorem State.store_bpu (s : State) (as : List Word) (bs : List Byte) : (s.store as bs).bpu = s.bpu := rfl
@[simp] theorem State.store_dma (s : State) (as : List Word) (bs : List Byte) : (s.store as bs).dma = s.dma := rfl
@[simp] theorem State.store_isrv (s : State) (as : List Word) (bs : List Byte) : (s.store as bs).isrv = s.isrv := rfl
@[simp] theorem State.store_irPins (s : State) (as : List Word) (bs : List Byte) : (s.store as bs).irPins = s.irPins := rfl
@[simp] theorem State.store_timer0 (s : State) (as : List Word) (bs : List Byte) : (s.store as bs).timer0 = s.timer0 := rfl
@[simp] theorem State.store_timer1 (s : State) (as : List Word) (bs : List Byte) : (s.store as bs).timer1 = s.timer1 := rfl
@[simp] theorem State.store_timer2 (s : State) (as : List Word) (bs : List Byte) : (s.store as bs).timer2 = s.timer2 := rfl
@[simp] theorem State.store_nmiLatch (s : State) (as : List Word) (bs : List Byte) : (s.store as bs).nmiLatch = s.nmiLatch := rfl
@[simp] theorem State.store_fpu (s : State) (as : List Word) (bs : List Byte) : (s.store as bs).fpu = s.fpu := rfl
@[simp] theorem State.store_dirty (s : State) (as : List Word) (bs : List Byte) : (s.store as bs).dirty = insertAll s.dirty (as.map (·.toNat)) := rfl
@[simp] theorem State.store_written (s : State) (as : List Word) (bs : List Byte) : (s.store as bs).written = s.written ++ as.map (·.toNat) := rfl
@[simp] theorem State.store_plat (s : State) (as : List Word) (bs : List Byte) : (s.store as bs).plat = s.plat := rfl
@[simp] theorem State.store_inputs (s : State) (as : List Word) (bs : List Byte) : (s.store as bs).inputs = s.inputs := rfl
@[simp] theorem State.store_within (s : State) (as : List Word) (bs : List Byte) : (s.store as bs).within = s.within := rfl
@[simp] theorem State.store_dmaOut (s : State) (as : List Word) (bs : List Byte) : (s.store as bs).dmaOut = s.dmaOut := rfl
@[simp] theorem State.store_psrTouched (s : State) (as : List Word) (bs : List Byte) : (s.store as bs).psrTouched = s.psrTouched := rfl
@[simp] theorem State.store_freeCount (s : State) (as : List Word) (bs : List Byte) : (s.store as bs).freeCount = s.freeCount := rfl

/-! ### deposit -/

@[simp] theorem State.deposit_regs (s : State) (as : List Word) (bs : List Byte) : (s.deposit as bs).regs = s.regs := rfl
@[simp] theorem State.deposit_pc (s : State) (as : List Word) (bs : List Byte) : (s.deposit as bs).pc = s.pc := rfl
@[simp] theorem State.deposit_sp0 (s : State) (as : List Word) (bs : List Byte) : (s.deposit as bs).sp0 = s.sp0 := rfl
@[simp] theorem State.deposit_sp1 (s : State) (as : List Word) (bs : List Byte) : (s.deposit as bs).sp1 = s.sp1 := rfl
@[simp] theorem State.deposit_fp (s : State) (as : List Word) (bs : List Byte) : (s.deposit as bs).fp = s.fp := rfl
@[simp] theorem State.deposit_sb (s : State) (as : List Word) (bs : List Byte) : (s.deposit as bs).sb = s.sb := rfl
@[simp] theorem State.deposit_intbase (s : State) (as : List Word) (bs : List Byte) : (s.deposit as bs).intbase = s.intbase := rfl
@[simp] theorem State.deposit_mod (s : State) (as : List Word) (bs : List Byte) : (s.deposit as bs).mod = s.mod := rfl
@[simp] theorem State.deposit_psr (s : State) (as : List Word) (bs : List Byte) : (s.deposit as bs).psr = s.psr := rfl
@[simp] theorem State.deposit_cfg (s : State) (as : List Word) (bs : List Byte) : (s.deposit as bs).cfg = s.cfg := rfl
@[simp] theorem State.deposit_op (s : State) (as : List Word) (bs : List Byte) : (s.deposit as bs).op = s.op := rfl
@[simp] theorem State.deposit_mem (s : State) (as : List Word) (bs : List Byte) : (s.deposit as bs).mem = s.mem.writeAll ((as.map (·.toNat)).zip bs) := rfl
@[simp] theorem State.deposit_bpu (s : State) (as : List Word) (bs : List Byte) : (s.deposit as bs).bpu = s.bpu := rfl
@[simp] theorem State.deposit_dma (s : State) (as : List Word) (bs : List Byte) : (s.deposit as bs).dma = s.dma := rfl
@[simp] theorem State.deposit_isrv (s : State) (as : List Word) (bs : List Byte) : (s.deposit as bs).isrv = s.isrv := rfl
@[simp] theorem State.deposit_irPins (s : State) (as : List Word) (bs : List Byte) : (s.deposit as bs).irPins = s.irPins := rfl
@[simp] theorem State.deposit_timer0 (s : State) (as : List Word) (bs : List Byte) : (s.deposit as bs).timer0 = s.timer0 := rfl
@[simp] theorem State.deposit_timer1 (s : State) (as : List Word) (bs : List Byte) : (s.deposit as bs).timer1 = s.timer1 := rfl
@[simp] theorem State.deposit_timer2 (s : State) (as : List Word) (bs : List Byte) : (s.deposit as bs).timer2 = s.timer2 := rfl
@[simp] theorem State.deposit_nmiLatch (s : State) (as : List Word) (bs : List Byte) : (s.deposit as bs).nmiLatch = s.nmiLatch := rfl
@[simp] theorem State.deposit_fpu (s : State) (as : List Word) (bs : List Byte) : (s.deposit as bs).fpu = s.fpu := rfl
@[simp] theorem State.deposit_dirty (s : State) (as : List Word) (bs : List Byte) : (s.deposit as bs).dirty = insertAll s.dirty (as.map (·.toNat)) := rfl
@[simp] theorem State.deposit_written (s : State) (as : List Word) (bs : List Byte) : (s.deposit as bs).written = s.written := rfl
@[simp] theorem State.deposit_plat (s : State) (as : List Word) (bs : List Byte) : (s.deposit as bs).plat = s.plat := rfl
@[simp] theorem State.deposit_inputs (s : State) (as : List Word) (bs : List Byte) : (s.deposit as bs).inputs = s.inputs := rfl
@[simp] theorem State.deposit_within (s : State) (as : List Word) (bs : List Byte) : (s.deposit as bs).within = s.within := rfl
@[simp] theorem State.deposit_dmaOut (s : State) (as : List Word) (bs : List Byte) : (s.deposit as bs).dmaOut = s.dmaOut := rfl
@[simp] theorem State.deposit_psrTouched (s : State) (as : List Word) (bs : List Byte) : (s.deposit as bs).psrTouched = s.psrTouched := rfl
@[simp] theorem State.deposit_freeCount (s : State) (as : List Word) (bs : List Byte) : (s.deposit as bs).freeCount = s.freeCount := rfl

/-! ### setTimer -/

@[simp] theorem State.setTimer_regs (s : State) (k : TimerId) (x : Timer) : (s.setTimer k x).regs = s.regs := by cases k <;> rfl
@[simp] theorem State.setTimer_pc (s : State) (k : TimerId) (x : Timer) : (s.setTimer k x).pc = s.pc := by cases k <;> rfl
@[simp] theorem State.setTimer_sp0 (s : State) (k : TimerId) (x : Timer) : (s.setTimer k x).sp0 = s.sp0 := by cases k <;> rfl
@[simp] theorem State.setTimer_sp1 (s : State) (k : TimerId) (x : Timer) : (s.setTimer k x).sp1 = s.sp1 := by cases k <;> rfl
@[simp] theorem State.setTimer_fp (s : State) (k : TimerId) (x : Timer) : (s.setTimer k x).fp = s.fp := by cases k <;> rfl
@[simp] theorem State.setTimer_sb (s : State) (k : TimerId) (x : Timer) : (s.setTimer k x).sb = s.sb := by cases k <;> rfl
@[simp] theorem State.setTimer_intbase (s : State) (k : TimerId) (x : Timer) : (s.setTimer k x).intbase = s.intbase := by cases k <;> rfl
@[simp] theorem State.setTimer_mod (s : State) (k : TimerId) (x : Timer) : (s.setTimer k x).mod = s.mod := by cases k <;> rfl
@[simp] theorem State.setTimer_psr (s : State) (k : TimerId) (x : Timer) : (s.setTimer k x).psr = s.psr := by cases k <;> rfl
@[simp] theorem State.setTimer_cfg (s : State) (k : TimerId) (x : Timer) : (s.setTimer k x).cfg = s.cfg := by cases k <;> rfl
@[simp] theorem State.setTimer_op (s : State) (k : TimerId) (x : Timer) : (s.setTimer k x).op = s.op := by cases k <;> rfl
@[simp] theorem State.setTimer_mem (s : State) (k : TimerId) (x : Timer) : (s.setTimer k x).mem = s.mem := by cases k <;> rfl
@[simp] theorem State.setTimer_bpu (s : State) (k : TimerId) (x : Timer) : (s.setTimer k x).bpu = s.bpu := by cases k <;> rfl
@[simp] theorem State.setTimer_dma (s : State) (k : TimerId) (x : Timer) : (s.setTimer k x).dma = s.dma := by cases k <;> rfl
@[simp] theorem State.setTimer_isrv (s : State) (k : TimerId) (x : Timer) : (s.setTimer k x).isrv = s.isrv := by cases k <;> rfl
@[simp] theorem State.setTimer_irPins (s : State) (k : TimerId) (x : Timer) : (s.setTimer k x).irPins = s.irPins := by cases k <;> rfl
@[simp] theorem State.setTimer_nmiLatch (s : State) (k : TimerId) (x : Timer) : (s.setTimer k x).nmiLatch = s.nmiLatch := by cases k <;> rfl
@[simp] theorem State.setTimer_fpu (s : State) (k : TimerId) (x : Timer) : (s.setTimer k x).fpu = s.fpu := by cases k <;> rfl
@[simp] theorem State.setTimer_dirty (s : State) (k : TimerId) (x : Timer) : (s.setTimer k x).dirty = s.dirty := by cases k <;> rfl
@[simp] theorem State.setTimer_written (s : State) (k : TimerId) (x : Timer) : (s.setTimer k x).written = s.written := by cases k <;> rfl
@[simp] theorem State.setTimer_plat (s : State) (k : TimerId) (x : Timer) : (s.setTimer k x).plat = s.plat := by cases k <;> rfl
@[simp] theorem State.setTimer_inputs (s : State) (k : TimerId) (x : Timer) : (s.setTimer k x).inputs = s.inputs := by cases k <;> rfl
@[simp] theorem State.setTimer_within (s : State) (k : TimerId) (x : Timer) : (s.setTimer k x).within = s.within := by cases k <;> rfl
@[simp] theorem State.setTimer_dmaOut (s : State) (k : TimerId) (x : Timer) : (s.setTimer k x).dmaOut = s.dmaOut := by cases k <;> rfl
@[simp] theorem State.setTimer_psrTouched (s : State) (k : TimerId) (x : Timer) : (s.setTimer k x).psrTouched = s.psrTouched := by cases k <;> rfl
@[simp] theorem State.setTimer_freeCount (s : State) (k : TimerId) (x : Timer) : (s.setTimer k x).freeCount = s.freeCount := by cases k <;> rfl

/-! ### modChan -/

@[simp] theorem State.modChan_regs (s : State) (ch : Chan) (g : DmaChan → DmaChan) : (s.modChan ch g).regs = s.regs := rfl
@[simp] theorem State.modChan_pc (s : State) (ch : Chan) (g : DmaChan → DmaChan) : (s.modChan ch g).pc = s.pc := rfl
@[simp] theorem State.modChan_sp0 (s : State) (ch : Chan) (g : DmaChan → DmaChan) : (s.modChan ch g).sp0 = s.sp0 := rfl
@[simp] theorem State.modChan_sp1 (s : State) (ch : Chan) (g : DmaChan → DmaChan) : (s.modChan ch g).sp1 = s.sp1 := rfl
@[simp] theorem State.modChan_fp (s : State) (ch : Chan) (g : DmaChan → DmaChan) : (s.modChan ch g).fp = s.fp := rfl
@[simp] theorem State.modChan_sb (s : State) (ch : Chan) (g : DmaChan → DmaChan) : (s.modChan ch g).sb = s.sb := rfl
@[simp] theorem State.modChan_intbase (s : State) (ch : Chan) (g : DmaChan → DmaChan) : (s.modChan ch g).intbase = s.intbase := rfl
@[simp] theorem State.modChan_mod (s : State) (ch : Chan) (g : DmaChan → DmaChan) : (s.modChan ch g).mod = s.mod := rfl
@[simp] theorem State.modChan_psr (s : State) (ch : Chan) (g : DmaChan → DmaChan) : (s.modChan ch g).psr = s.psr := rfl
@[simp] theorem State.modChan_cfg (s : State) (ch : Chan) (g : DmaChan → DmaChan) : (s.modChan ch g).cfg = s.cfg := rfl
@[simp] theorem State.modChan_op (s : State) (ch : Chan) (g : DmaChan → DmaChan) : (s.modChan ch g).op = s.op := rfl
@[simp] theorem State.modChan_mem (s : State) (ch : Chan) (g : DmaChan → DmaChan) : (s.modChan ch g).mem = s.mem := rfl
@[simp] theorem State.modChan_bpu (s : State) (ch : Chan) (g : DmaChan → DmaChan) : (s.modChan ch g).bpu = s.bpu := rfl
@[simp] theorem State.modChan_dma (s : State) (ch : Chan) (g : DmaChan → DmaChan) : (s.modChan ch g).dma = s.dma.setChan ch (g (s.dma.chan ch)) := rfl
@[simp] theorem State.modChan_isrv (s : State) (ch : Chan) (g : DmaChan → DmaChan) : (s.modChan ch g).isrv = s.isrv := rfl
@[simp] theorem State.modChan_irPins (s : State) (ch : Chan) (g : DmaChan → DmaChan) : (s.modChan ch g).irPins = s.irPins := rfl
@[simp] theorem State.modChan_timer0 (s : State) (ch : Chan) (g : DmaChan → DmaChan) : (s.modChan ch g).timer0 = s.timer0 := rfl
@[simp] theorem State.modChan_timer1 (s : State) (ch : Chan) (g : DmaChan → DmaChan) : (s.modChan ch g).timer1 = s.timer1 := rfl
@[simp] theorem State.modChan_timer2 (s : State) (ch : Chan) (g : DmaChan → DmaChan) : (s.modChan ch g).timer2 = s.timer2 := rfl
@[simp] theorem State.modChan_nmiLatch (s : State) (ch : Chan) (g : DmaChan → DmaChan) : (s.modChan ch g).nmiLatch = s.nmiLatch := rfl
@[simp] theorem State.modChan_fpu (s : State) (ch : Chan) (g : DmaChan → DmaChan) : (s.modChan ch g).fpu = s.fpu := rfl
@[simp] theorem State.modChan_dirty (s : State) (ch : Chan) (g : DmaChan → DmaChan) : (s.modChan ch g).dirty = s.dirty := rfl
@[simp] theorem State.modChan_written (s : State) (ch : Chan) (g : DmaChan → DmaChan) : (s.modChan ch g).written = s.written := rfl
@[simp] theorem State.modChan_plat (s : State) (ch : Chan) (g : DmaChan → DmaChan) : (s.modChan ch g).plat = s.plat := rfl
@[simp] theorem State.modChan_inputs (s : State) (ch : Chan) (g : DmaChan → DmaChan) : (s.modChan ch g).inputs = s.inputs := rfl
@[simp] theorem State.modChan_within (s : State) (ch : Chan) (g : DmaChan → DmaChan) : (s.modChan ch g).within = s.within := rfl
@[simp] theorem State.modChan_dmaOut (s : State) (ch : Chan) (g : DmaChan → DmaChan) : (s.modChan ch g).dmaOut = s.dmaOut := rfl
@[simp] theorem State.modChan_psrTouched (s : State) (ch : Chan) (g : DmaChan → DmaChan) : (s.modChan ch g).psrTouched = s.psrTouched := rfl
@[simp] theorem State.modChan_freeCount (s : State) (ch : Chan) (g : DmaChan → DmaChan) : (s.modChan ch g).freeCount = s.freeCount := rfl

/-! ### acknowledge -/

@[simp] theorem State.acknowledge_regs (s : State) : (s.acknowledge).regs = s.regs := rfl
@[simp] theorem State.acknowledge_pc (s : State) : (s.acknowledge).pc = s.pc := rfl
@[simp] theorem State.acknowledge_sp0 (s : State) : (s.acknowledge).sp0 = s.sp0 := rfl
@[simp] theorem State.acknowledge_sp1 (s : State) : (s.acknowledge).sp1 = s.sp1 := rfl
@[simp] theorem State.acknowledge_fp (s : State) : (s.acknowledge).fp = s.fp := rfl
@[simp] theorem State.acknowledge_sb (s : State) : (s.acknowledge).sb = s.sb := rfl
@[simp] theorem State.acknowledge_intbase (s : State) : (s.acknowledge).intbase = s.intbase := rfl
@[simp] theorem State.acknowledge_mod (s : State) : (s.acknowledge).mod = s.mod := rfl
@[simp] theorem State.acknowledge_psr (s : State) : (s.acknowledge).psr = s.psr := rfl
@[simp] theorem State.acknowledge_cfg (s : State) : (s.acknowledge).cfg = s.cfg := rfl
@[simp] theorem State.acknowledge_op (s : State) : (s.acknowledge).op = s.op := rfl
@[simp] theorem State.acknowledge_mem (s : State) : (s.acknowledge).mem = s.mem := rfl
@[simp] theorem State.acknowledge_bpu (s : State) : (s.acknowledge).bpu = s.bpu := rfl
@[simp] theorem State.acknowledge_dma (s : State) : (s.acknowledge).dma = s.dma := rfl
@[simp] theorem State.acknowledge_isrv (s : State) : (s.acknowledge).isrv = (s.isrv ||| BitVec.twoPow 16 s.irqLevel) &&& 0xFFFE := rfl
@[simp] theorem State.acknowledge_irPins (s : State) : (s.acknowledge).irPins = s.irPins := rfl
@[simp] theorem State.acknowledge_timer0 (s : State) : (s.acknowledge).timer0 = s.timer0 := rfl
@[simp] theorem State.acknowledge_timer1 (s : State) : (s.acknowledge).timer1 = s.timer1 := rfl
@[simp] theorem State.acknowledge_timer2 (s : State) : (s.acknowledge).timer2 = s.timer2 := rfl
@[simp] theorem State.acknowledge_nmiLatch (s : State) : (s.acknowledge).nmiLatch = s.nmiLatch := rfl
@[simp] theorem State.acknowledge_fpu (s : State) : (s.acknowledge).fpu = s.fpu := rfl
@[simp] theorem State.acknowledge_dirty (s : State) : (s.acknowledge).dirty = s.dirty := rfl
@[simp] theorem State.acknowledge_written (s : State) : (s.acknowledge).written = s.written := rfl
@[simp] theorem State.acknowledge_plat (s : State) : (s.acknowledge).plat = s.plat := rfl
@[simp] theorem State.acknowledge_inputs (s : State) : (s.acknowledge).inputs = s.inputs := rfl
@[simp] theorem State.acknowledge_within (s : State) : (s.acknowledge).within = s.within := rfl
@[simp] theorem State.acknowledge_dmaOut (s : State) : (s.acknowledge).dmaOut = s.dmaOut := rfl
@[simp] theorem State.acknowledge_psrTouched (s : State) : (s.acknowledge).psrTouched = s.psrTouched := rfl
@[simp] theorem State.acknowledge_freeCount (s : State) : (s.acknowledge).freeCount = s.freeCount := rfl

/-! ### endOfInterrupt -/

@[simp] theorem State.endOfInterrupt_regs (s : State) : (s.endOfInterrupt).regs = s.regs := rfl
@[simp] theorem State.endOfInterrupt_pc (s : State) : (s.endOfInterrupt).pc = s.pc := rfl
@[simp] theorem State.endOfInterrupt_sp0 (s : State) : (s.endOfInterrupt).sp0 = s.sp0 := rfl
@[simp] theorem State.endOfInterrupt_sp1 (s : State) : (s.endOfInterrupt).sp1 = s.sp1 := rfl
@[simp] theorem State.endOfInterrupt_fp (s : State) : (s.endOfInterrupt).fp = s.fp := rfl
@[simp] theorem State.endOfInterrupt_sb (s : State) : (s.endOfInterrupt).sb = s.sb := rfl
@[simp] theorem State.endOfInterrupt_intbase (s : State) : (s.endOfInterrupt).intbase = s.intbase := rfl
@[simp] theorem State.endOfInterrupt_mod (s : State) : (s.endOfInterrupt).mod = s.mod := rfl
@[simp] theorem State.endOfInterrupt_psr (s : State) : (s.endOfInterrupt).psr = s.psr := rfl
@[simp] theorem State.endOfInterrupt_cfg (s : State) : (s.endOfInterrupt).cfg = s.cfg := rfl
@[simp] theorem State.endOfInterrupt_op (s : State) : (s.endOfInterrupt).op = s.op := rfl
@[simp] theorem State.endOfInterrupt_mem (s : State) : (s.endOfInterrupt).mem = s.mem := rfl
@[simp] theorem State.endOfInterrupt_bpu (s : State) : (s.endOfInterrupt).bpu = s.bpu := rfl
@[simp] theorem State.endOfInterrupt_dma (s : State) : (s.endOfInterrupt).dma = s.dma := rfl
@[simp] theorem State.endOfInterrupt_isrv (s : State) : (s.endOfInterrupt).isrv = if s.inService = 0 then s.isrv else s.isrv &&& ~~~BitVec.twoPow 16 s.inService := rfl
@[simp] theorem State.endOfInterrupt_irPins (s : State) : (s.endOfInterrupt).irPins = s.irPins := rfl
@[simp] theorem State.endOfInterrupt_timer0 (s : State) : (s.endOfInterrupt).timer0 = s.timer0 := rfl
@[simp] theorem State.endOfInterrupt_timer1 (s : State) : (s.endOfInterrupt).timer1 = s.timer1 := rfl
@[simp] theorem State.endOfInterrupt_timer2 (s : State) : (s.endOfInterrupt).timer2 = s.timer2 := rfl
@[simp] theorem State.endOfInterrupt_nmiLatch (s : State) : (s.endOfInterrupt).nmiLatch = s.nmiLatch := rfl
@[simp] theorem State.endOfInterrupt_fpu (s : State) : (s.endOfInterrupt).fpu = s.fpu := rfl
@[simp] theorem State.endOfInterrupt_dirty (s : State) : (s.endOfInterrupt).dirty = s.dirty := rfl
@[simp] theorem State.endOfInterrupt_written (s : State) : (s.endOfInterrupt).written = s.written := rfl
@[simp] theorem State.endOfInterrupt_plat (s : State) : (s.endOfInterrupt).plat = s.plat := rfl
@[simp] theorem State.endOfInterrupt_inputs (s : State) : (s.endOfInterrupt).inputs = s.inputs := rfl
@[simp] theorem State.endOfInterrupt_within (s : State) : (s.endOfInterrupt).within = s.within := rfl
@[simp] theorem State.endOfInterrupt_dmaOut (s : State) : (s.endOfInterrupt).dmaOut = s.dmaOut := rfl
@[simp] theorem State.endOfInterrupt_psrTouched (s : State) : (s.endOfInterrupt).psrTouched = s.psrTouched := rfl
@[simp] theorem State.endOfInterrupt_freeCount (s : State) : (s.endOfInterrupt).freeCount = s.freeCount := rfl

/-! ### traced -/

@[simp] theorem State.traced_regs (s : State) : (s.traced).regs = s.regs := rfl
@[simp] theorem State.traced_pc (s : State) : (s.traced).pc = s.pc := rfl
@[simp] theorem State.traced_sp0 (s : State) : (s.traced).sp0 = s.sp0 := rfl
@[simp] theorem State.traced_sp1 (s : State) : (s.traced).sp1 = s.sp1 := rfl
@[simp] theorem State.traced_fp (s : State) : (s.traced).fp = s.fp := rfl
@[simp] theorem State.traced_sb (s : State) : (s.traced).sb = s.sb := rfl
@[simp] theorem State.traced_intbase (s : State) : (s.traced).intbase = s.intbase := rfl
@[simp] theorem State.traced_mod (s : State) : (s.traced).mod = s.mod := rfl
@[simp] theorem State.traced_psr (s : State) : (s.traced).psr = { s.psr with p := s.psr.t } := rfl
@[simp] theorem State.traced_cfg (s : State) : (s.traced).cfg = s.cfg := rfl
@[simp] theorem State.traced_op (s : State) : (s.traced).op = s.op := rfl
@[simp] theorem State.traced_mem (s : State) : (s.traced).mem = s.mem := rfl
@[simp] theorem State.traced_bpu (s : State) : (s.traced).bpu = s.bpu := rfl
@[simp] theorem State.traced_dma (s : State) : (s.traced).dma = s.dma := rfl
@[simp] theorem State.traced_isrv (s : State) : (s.traced).isrv = s.isrv := rfl
@[simp] theorem State.traced_irPins (s : State) : (s.traced).irPins = s.irPins := rfl
@[simp] theorem State.traced_timer0 (s : State) : (s.traced).timer0 = s.timer0 := rfl
@[simp] theorem State.traced_timer1 (s : State) : (s.traced).timer1 = s.timer1 := rfl
@[simp] theorem State.traced_timer2 (s : State) : (s.traced).timer2 = s.timer2 := rfl
@[simp] theorem State.traced_nmiLatch (s : State) : (s.traced).nmiLatch = s.nmiLatch := rfl
@[simp] theorem State.traced_fpu (s : State) : (s.traced).fpu = s.fpu := rfl
@[simp] theorem State.traced_dirty (s : State) : (s.traced).dirty = s.dirty := rfl
@[simp] theorem State.traced_written (s : State) : (s.traced).written = s.written := rfl
@[simp] theorem State.traced_plat (s : State) : (s.traced).plat = s.plat := rfl
@[simp] theorem State.traced_inputs (s : State) : (s.traced).inputs = s.inputs := rfl
@[simp] theorem State.traced_within (s : State) : (s.traced).within = s.within := rfl
@[simp] theorem State.traced_dmaOut (s : State) : (s.traced).dmaOut = s.dmaOut := rfl
@[simp] theorem State.traced_psrTouched (s : State) : (s.traced).psrTouched = true := rfl
@[simp] theorem State.traced_freeCount (s : State) : (s.traced).freeCount = s.freeCount := rfl

/-! ### ended -/

@[simp] theorem State.ended_regs (s : State) : (s.ended).regs = s.regs := rfl
@[simp] theorem State.ended_pc (s : State) : (s.ended).pc = s.pc := rfl
@[simp] theorem State.ended_sp0 (s : State) : (s.ended).sp0 = s.sp0 := rfl
@[simp] theorem State.ended_sp1 (s : State) : (s.ended).sp1 = s.sp1 := rfl
@[simp] theorem State.ended_fp (s : State) : (s.ended).fp = s.fp := rfl
@[simp] theorem State.ended_sb (s : State) : (s.ended).sb = s.sb := rfl
@[simp] theorem State.ended_intbase (s : State) : (s.ended).intbase = s.intbase := rfl
@[simp] theorem State.ended_mod (s : State) : (s.ended).mod = s.mod := rfl
@[simp] theorem State.ended_psr (s : State) : (s.ended).psr = s.psr := rfl
@[simp] theorem State.ended_cfg (s : State) : (s.ended).cfg = s.cfg := rfl
@[simp] theorem State.ended_op (s : State) : (s.ended).op = s.op := rfl
@[simp] theorem State.ended_mem (s : State) : (s.ended).mem = s.mem := rfl
@[simp] theorem State.ended_bpu (s : State) : (s.ended).bpu = s.bpu := rfl
@[simp] theorem State.ended_dma (s : State) : (s.ended).dma = s.dma := rfl
@[simp] theorem State.ended_isrv (s : State) : (s.ended).isrv = s.isrv := rfl
@[simp] theorem State.ended_irPins (s : State) : (s.ended).irPins = s.irPins := rfl
@[simp] theorem State.ended_timer0 (s : State) : (s.ended).timer0 = s.timer0 := rfl
@[simp] theorem State.ended_timer1 (s : State) : (s.ended).timer1 = s.timer1 := rfl
@[simp] theorem State.ended_timer2 (s : State) : (s.ended).timer2 = s.timer2 := rfl
@[simp] theorem State.ended_nmiLatch (s : State) : (s.ended).nmiLatch = s.nmiLatch := rfl
@[simp] theorem State.ended_fpu (s : State) : (s.ended).fpu = s.fpu := rfl
@[simp] theorem State.ended_dirty (s : State) : (s.ended).dirty = s.dirty := rfl
@[simp] theorem State.ended_written (s : State) : (s.ended).written = [] := rfl
@[simp] theorem State.ended_plat (s : State) : (s.ended).plat = s.plat := rfl
@[simp] theorem State.ended_inputs (s : State) : (s.ended).inputs = s.inputs := rfl
@[simp] theorem State.ended_within (s : State) : (s.ended).within = s.within := rfl
@[simp] theorem State.ended_dmaOut (s : State) : (s.ended).dmaOut = s.dmaOut := rfl
@[simp] theorem State.ended_psrTouched (s : State) : (s.ended).psrTouched = s.psrTouched := rfl
@[simp] theorem State.ended_freeCount (s : State) : (s.ended).freeCount = s.freeCount := rfl

/-! ### placeCode -/

@[simp] theorem State.placeCode_regs (s : State) (bs : List Byte) : (s.placeCode bs).regs = s.regs := rfl
@[simp] theorem State.placeCode_pc (s : State) (bs : List Byte) : (s.placeCode bs).pc = s.pc := rfl
@[simp] theorem State.placeCode_sp0 (s : State) (bs : List Byte) : (s.placeCode bs).sp0 = s.sp0 := rfl
@[simp] theorem State.placeCode_sp1 (s : State) (bs : List Byte) : (s.placeCode bs).sp1 = s.sp1 := rfl
@[simp] theorem State.placeCode_fp (s : State) (bs : List Byte) : (s.placeCode bs).fp = s.fp := rfl
@[simp] theorem State.placeCode_sb (s : State) (bs : List Byte) : (s.placeCode bs).sb = s.sb := rfl
@[simp] theorem State.placeCode_intbase (s : State) (bs : List Byte) : (s.placeCode bs).intbase = s.intbase := rfl
@[simp] theorem State.placeCode_mod (s : State) (bs : List Byte) : (s.placeCode bs).mod = s.mod := rfl
@[simp] theorem State.placeCode_psr (s : State) (bs : List Byte) : (s.placeCode bs).psr = s.psr := rfl
@[simp] theorem State.placeCode_cfg (s : State) (bs : List Byte) : (s.placeCode bs).cfg = s.cfg := rfl
@[simp] theorem State.placeCode_op (s : State) (bs : List Byte) : (s.placeCode bs).op = s.op := rfl
@[simp] theorem State.placeCode_bpu (s : State) (bs : List Byte) : (s.placeCode bs).bpu = s.bpu := rfl
@[simp] theorem State.placeCode_dma (s : State) (bs : List Byte) : (s.placeCode bs).dma = s.dma := rfl
@[simp] theorem State.placeCode_isrv (s : State) (bs : List Byte) : (s.placeCode bs).isrv = s.isrv := rfl
@[simp] theorem State.placeCode_irPins (s : State) (bs : List Byte) : (s.placeCode bs).irPins = s.irPins := rfl
@[simp] theorem State.placeCode_timer0 (s : State) (bs : List Byte) : (s.placeCode bs).timer0 = s.timer0 := rfl
@[simp] theorem State.placeCode_timer1 (s : State) (bs : List Byte) : (s.placeCode bs).timer1 = s.timer1 := rfl
@[simp] theorem State.placeCode_timer2 (s : State) (bs : List Byte) : (s.placeCode bs).timer2 = s.timer2 := rfl
@[simp] theorem State.placeCode_nmiLatch (s : State) (bs : List Byte) : (s.placeCode bs).nmiLatch = s.nmiLatch := rfl
@[simp] theorem State.placeCode_fpu (s : State) (bs : List Byte) : (s.placeCode bs).fpu = s.fpu := rfl
@[simp] theorem State.placeCode_written (s : State) (bs : List Byte) : (s.placeCode bs).written = s.written := rfl
@[simp] theorem State.placeCode_plat (s : State) (bs : List Byte) : (s.placeCode bs).plat = s.plat := rfl
@[simp] theorem State.placeCode_inputs (s : State) (bs : List Byte) : (s.placeCode bs).inputs = s.inputs := rfl
@[simp] theorem State.placeCode_within (s : State) (bs : List Byte) : (s.placeCode bs).within = s.within := rfl
@[simp] theorem State.placeCode_dmaOut (s : State) (bs : List Byte) : (s.placeCode bs).dmaOut = s.dmaOut := rfl
@[simp] theorem State.placeCode_psrTouched (s : State) (bs : List Byte) : (s.placeCode bs).psrTouched = s.psrTouched := rfl
@[simp] theorem State.placeCode_freeCount (s : State) (bs : List Byte) : (s.placeCode bs).freeCount = s.freeCount := rfl

/-! ### busWrite -/

@[simp] theorem State.busWrite_regs (s : State) (a : Nat) (v : Byte) : (s.busWrite a v).regs = s.regs := by unfold State.busWrite; split <;> rfl
@[simp] theorem State.busWrite_pc (s : State) (a : Nat) (v : Byte) : (s.busWrite a v).pc = s.pc := by unfold State.busWrite; split <;> rfl
@[simp] theorem State.busWrite_sp0 (s : State) (a : Nat) (v : Byte) : (s.busWrite a v).sp0 = s.sp0 := by unfold State.busWrite; split <;> rfl
@[simp] theorem State.busWrite_sp1 (s : State) (a : Nat) (v : Byte) : (s.busWrite a v).sp1 = s.sp1 := by unfold State.busWrite; split <;> rfl
@[simp] theorem State.busWrite_fp (s : State) (a : Nat) (v : Byte) : (s.busWrite a v).fp = s.fp := by unfold State.busWrite; split <;> rfl
@[simp] theorem State.busWrite_sb (s : State) (a : Nat) (v : Byte) : (s.busWrite a v).sb = s.sb := by unfold State.busWrite; split <;> rfl
@[simp] theorem State.busWrite_intbase (s : State) (a : Nat) (v : Byte) : (s.busWrite a v).intbase = s.intbase := by unfold State.busWrite; split <;> rfl
@[simp] theorem State.busWrite_mod (s : State) (a : Nat) (v : Byte) : (s.busWrite a v).mod = s.mod := by unfold State.busWrite; split <;> rfl
@[simp] theorem State.busWrite_psr (s : State) (a : Nat) (v : Byte) : (s.busWrite a v).psr = s.psr := by unfold State.busWrite; split <;> rfl
@[simp] theorem State.busWrite_cfg (s : State) (a : Nat) (v : Byte) : (s.busWrite a v).cfg = s.cfg := by unfold State.busWrite; split <;> rfl
@[simp] theorem State.busWrite_op (s : State) (a : Nat) (v : Byte) : (s.busWrite a v).op = s.op := by unfold State.busWrite; split <;> rfl
@[simp] theorem State.busWrite_bpu (s : State) (a : Nat) (v : Byte) : (s.busWrite a v).bpu = s.bpu := by unfold State.busWrite; split <;> rfl
@[simp] theorem State.busWrite_dma (s : State) (a : Nat) (v : Byte) : (s.busWrite a v).dma = s.dma := by unfold State.busWrite; split <;> rfl
@[simp] theorem State.busWrite_isrv (s : State) (a : Nat) (v : Byte) : (s.busWrite a v).isrv = s.isrv := by unfold State.busWrite; split <;> rfl
@[simp] theorem State.busWrite_irPins (s : State) (a : Nat) (v : Byte) : (s.busWrite a v).irPins = s.irPins := by unfold State.busWrite; split <;> rfl
@[simp] theorem State.busWrite_timer0 (s : State) (a : Nat) (v : Byte) : (s.busWrite a v).timer0 = s.timer0 := by unfold State.busWrite; split <;> rfl
@[simp] theorem State.busWrite_timer1 (s : State) (a : Nat) (v : Byte) : (s.busWrite a v).timer1 = s.timer1 := by unfold State.busWrite; split <;> rfl
@[simp] theorem State.busWrite_timer2 (s : State) (a : Nat) (v : Byte) : (s.busWrite a v).timer2 = s.timer2 := by unfold State.busWrite; split <;> rfl
@[simp] theorem State.busWrite_nmiLatch (s : State) (a : Nat) (v : Byte) : (s.busWrite a v).nmiLatch = s.nmiLatch := by unfold State.busWrite; split <;> rfl
@[simp] theorem State.busWrite_fpu (s : State) (a : Nat) (v : Byte) : (s.busWrite a v).fpu = s.fpu := by unfold State.busWrite; split <;> rfl
@[simp] theorem State.busWrite_written (s : State) (a : Nat) (v : Byte) : (s.busWrite a v).written = s.written := by unfold State.busWrite; split <;> rfl
@[simp] theorem State.busWrite_plat (s : State) (a : Nat) (v : Byte) : (s.busWrite a v).plat = s.plat := by unfold State.busWrite; split <;> rfl
@[simp] theorem State.busWrite_inputs (s : State) (a : Nat) (v : Byte) : (s.busWrite a v).inputs = s.inputs := by unfold State.busWrite; split <;> rfl
@[simp] theorem State.busWrite_within (s : State) (a : Nat) (v : Byte) : (s.busWrite a v).within = s.within := by unfold State.busWrite; split <;> rfl
@[simp] theorem State.busWrite_dmaOut (s : State) (a : Nat) (v : Byte) : (s.busWrite a v).dmaOut = s.dmaOut := by unfold State.busWrite; split <;> rfl
@[simp] theorem State.busWrite_psrTouched (s : State) (a : Nat) (v : Byte) : (s.busWrite a v).psrTouched = s.psrTouched := by unfold State.busWrite; split <;> rfl
@[simp] theorem State.busWrite_freeCount (s : State) (a : Nat) (v : Byte) : (s.busWrite a v).freeCount = s.freeCount := by unfold State.busWrite; split <;> rfl

/-! ### Registers and timers read back -/

@[simp] theorem Regs.get_set_same (x : Regs) (r : Reg) (v : Word) : (x.set r v).get r = v := by cases r <;> rfl

theorem Regs.get_set_other (x : Regs) {r q : Reg} (v : Word) (h : q ≠ r) : (x.set r v).get q = x.get q := by
  cases r <;> cases q <;> first | rfl | exact absurd rfl h

@[simp] theorem State.sp_setSp (s : State) (v : Word) : (s.setSp v).sp = v := by
  unfold State.sp; simp; split <;> simp_all

@[simp] theorem State.sp_setReg (s : State) (r : Reg) (v : Word) : (s.setReg r v).sp = s.sp := rfl

@[simp] theorem State.sp_deposit (s : State) (as : List Word) (bs : List Byte) : (s.deposit as bs).sp = s.sp := rfl

@[simp] theorem State.sp_store (s : State) (as : List Word) (bs : List Byte) : (s.store as bs).sp = s.sp := rfl

@[simp] theorem State.timer_setTimer (s : State) (k : TimerId) (x : Timer) : (s.setTimer k x).timer k = x := by
  cases k <;> rfl

theorem State.timer_setTimer_other (s : State) {k j : TimerId} (x : Timer) (h : j ≠ k) :
    (s.setTimer k x).timer j = s.timer j := by
  cases k <;> cases j <;> first | rfl | exact absurd rfl h

@[simp] theorem Dma.chan_setChan (d : Dma) (ch : Chan) (c : DmaChan) : (d.setChan ch c).chan ch = c := by
  cases ch <;> rfl

theorem Dma.chan_setChan_other (d : Dma) {ch k : Chan} (c : DmaChan) (h : k ≠ ch) :
    (d.setChan ch c).chan k = d.chan k := by
  cases ch <;> cases k <;> first | rfl | exact absurd rfl h

end Sys2Proof.Machine
end

