-- ==== Sys2Proof/Laws/Monad.lean ====
section
/-! SUPPORT. Running a computation one operation at a time, and relations between the state before and after it. -/

namespace Sys2Proof.Machine

open Sys2Proof

variable {α β : Type}

/-! ### What each operation answers -/

theorem run_bind (m : M α) (f : α → M β) (s : State) :
    (m >>= f) s = match m s with
      | .ok (a, t) => f a t
      | .error e => .error e := by
  show (do let x ← m s; f x.1 x.2) = _
  cases m s <;> rfl

theorem run_bind_of_ok {m : M α} {f : α → M β} {s t : State} {a : α} (h : m s = .ok (a, t)) :
    (m >>= f) s = f a t := by rw [run_bind, h]

theorem run_bind_of_error {m : M α} {f : α → M β} {s : State} {e : Stop} (h : m s = .error e) :
    (m >>= f) s = .error e := by rw [run_bind, h]

theorem bind_eq_ok {m : M α} {f : α → M β} {s t : State} {b : β} :
    (m >>= f) s = .ok (b, t) ↔ ∃ a u, m s = .ok (a, u) ∧ f a u = .ok (b, t) := by
  rw [run_bind]
  cases h : m s with
  | error e => simp
  | ok x => obtain ⟨a, u⟩ := x; simp

@[simp] theorem run_pure (a : α) (s : State) : (pure a : M α) s = .ok (a, s) := rfl
@[simp] theorem run_peek (f : State → α) (s : State) : peek f s = .ok (f s, s) := rfl
@[simp] theorem run_upd (f : State → State) (s : State) : upd f s = .ok ((), f s) := rfl
@[simp] theorem run_raise (x : Trap) (s : State) : (raise x : M α) s = .error (.trap x s) := rfl
@[simp] theorem run_refuse (r : Refusal) (s : State) : (refuse r : M α) s = .error (.refuse r) := rfl
@[simp] theorem run_stopFault (f : Fault) (s : State) : (stopFault f : M α) s = .error (.fault f) := rfl
@[simp] theorem run_get (s : State) : (get : M State) s = .ok (s, s) := rfl

@[simp] theorem run_peek_bind (f : State → α) (g : α → M β) (s : State) : (peek f >>= g) s = g (f s) s := rfl
@[simp] theorem run_upd_bind (f : State → State) (g : Unit → M β) (s : State) : (upd f >>= g) s = g () (f s) := rfl
@[simp] theorem run_pure_bind (a : α) (g : α → M β) (s : State) : ((pure a : M α) >>= g) s = g a s := rfl
@[simp] theorem run_raise_bind (x : Trap) (g : α → M β) (s : State) :
    ((raise x : M α) >>= g) s = .error (.trap x s) := rfl
@[simp] theorem run_refuse_bind (r : Refusal) (g : α → M β) (s : State) :
    ((refuse r : M α) >>= g) s = .error (.refuse r) := rfl
@[simp] theorem run_get_bind (g : State → M β) (s : State) : ((get : M State) >>= g) s = g s s := rfl

@[simp] theorem run_require_true (r : Refusal) (s : State) : require r true s = .ok ((), s) := rfl
@[simp] theorem run_require_false (r : Refusal) (s : State) : require r false s = .error (.refuse r) := rfl

@[simp] theorem run_onlyIf_true (m : M Unit) (s : State) : onlyIf true m s = m s := rfl
@[simp] theorem run_onlyIf_false (m : M Unit) (s : State) : onlyIf false m s = .ok ((), s) := rfl

theorem require_eq_ok {r : Refusal} {p : Bool} {s t : State} {u : Unit} :
    require r p s = .ok (u, t) ↔ p = true ∧ t = s := by
  cases p <;> simp [require, eq_comm]

theorem run_fresh (n : Nat) (s : State) :
    fresh n s = .ok ((Config.freeWord s.freeCount).setWidth n, { s with freeCount := s.freeCount + 1 }) := rfl

@[simp] theorem run_cutShort (post : List Event) (s : State) :
    (cutShort post : M α) s = .error (.cut post .instruction s) := rfl

/-! ### Relations between the state before and after -/

/-- A computation that goes on, traps, or is cut short by RSTI leaves a state related to the one it started in; it is cut
short only by an RSTI low laid down for a place inside it. -/
structure RelAt (R : State → State → Prop) (r : Except Stop (α × State)) (s : State) : Prop where
  ok : ∀ a t, r = .ok (a, t) → R s t
  trap : ∀ x t, r = .error (.trap x t) → R s t
  cut : ∀ p d t, r = .error (.cut p d t) → R s t ∧ ∃ l ∈ s.within, .rstiLow ∈ l

/-- `RelAt` from every state. -/
def Rel (R : State → State → Prop) (m : M α) : Prop := ∀ s, RelAt R (m s) s

/-- A relation that holds of a state and itself and composes, that free values do not break, and under which the events
laid down for later places stay or are used up. -/
structure Frameable (R : State → State → Prop) : Prop where
  refl : ∀ s, R s s
  trans : ∀ {s t u}, R s t → R t u → R s u
  free : ∀ s k, R s { s with freeCount := k }
  spends : ∀ {s t}, R s t → ∀ l ∈ t.within, l ∈ s.within

variable {R : State → State → Prop}

theorem RelAt.of_ok {s t : State} {a : α} (h : R s t) : RelAt R (.ok (a, t)) s :=
  ⟨fun b u e => (by cases e; exact h), fun x u e => (by cases e), fun p d u e => (by cases e)⟩

theorem RelAt.of_trap {s t : State} {x : Trap} (h : R s t) : RelAt (α := α) R (.error (.trap x t)) s :=
  ⟨fun b u e => (by cases e), fun x u e => (by cases e; exact h), fun p d u e => (by cases e)⟩

theorem RelAt.of_fault {s : State} (f : Fault) : RelAt (α := α) R (.error (.fault f)) s :=
  ⟨fun b u e => (by cases e), fun x u e => (by cases e), fun p d u e => (by cases e)⟩

theorem RelAt.of_refuse {s : State} (f : Refusal) : RelAt (α := α) R (.error (.refuse f)) s :=
  ⟨fun b u e => (by cases e), fun x u e => (by cases e), fun p d u e => (by cases e)⟩

theorem RelAt.error {s : State} {e : Stop} (h : RelAt (α := α) R (.error e) s) : RelAt (α := β) R (.error e) s :=
  ⟨fun b u x => (by cases x), fun x u q => (by cases q; exact h.trap x u rfl), fun p d u q => (by cases q; exact h.cut p d u rfl)⟩

/-- What goes on from a related state. -/
theorem RelAt.after (hR : Frameable R) {s t : State} {r : Except Stop (α × State)} (h : R s t) (hr : RelAt R r t) :
    RelAt R r s :=
  ⟨fun a u e => hR.trans h (hr.ok a u e), fun x u e => hR.trans h (hr.trap x u e), fun p d u e => by
    obtain ⟨h1, l, hl, hl'⟩ := hr.cut p d u e
    exact ⟨hR.trans h h1, l, hR.spends h l hl, hl'⟩⟩

theorem Rel.bind (hR : Frameable R) {m : M α} {f : α → M β} (hm : Rel R m) (hf : ∀ a, Rel R (f a)) :
    Rel R (m >>= f) := by
  intro s
  rw [run_bind]
  cases h : m s with
  | ok x =>
    obtain ⟨a, t⟩ := x
    exact RelAt.after hR ((hm s).ok a t h) (hf a t)
  | error e => exact RelAt.error (h ▸ hm s)

theorem Rel.pure (hR : Frameable R) (a : α) : Rel R (pure a : M α) := fun s => RelAt.of_ok (hR.refl s)

theorem Rel.peek (hR : Frameable R) (f : State → α) : Rel R (peek f) := fun s => RelAt.of_ok (hR.refl s)

theorem Rel.get (hR : Frameable R) : Rel R (get : M State) := fun s => RelAt.of_ok (hR.refl s)

theorem Rel.upd {f : State → State} (h : ∀ s, R s (f s)) : Rel R (upd f) := fun s => RelAt.of_ok (h s)

theorem Rel.raise (hR : Frameable R) (x : Trap) : Rel R (raise x : M α) := fun s => RelAt.of_trap (hR.refl s)

theorem Rel.refuse (r : Refusal) : Rel R (refuse r : M α) := fun _ => RelAt.of_refuse r

theorem Rel.stopFault (r : Fault) : Rel R (stopFault r : M α) := fun _ => RelAt.of_fault r

theorem Rel.require (hR : Frameable R) (r : Refusal) (p : Bool) : Rel R (require r p) := by
  cases p
  · exact Rel.refuse r
  · exact Rel.pure hR ()

theorem Rel.onlyIf (hR : Frameable R) (p : Bool) {m : M Unit} (h : p = true → Rel R m) : Rel R (onlyIf p m) := by
  cases p
  · exact Rel.pure hR ()
  · exact h rfl

theorem Rel.ite {p : Prop} [Decidable p] {m k : M α} (h1 : p → Rel R m) (h2 : ¬p → Rel R k) :
    Rel R (if p then m else k) := by
  split
  · exact h1 ‹_›
  · exact h2 ‹_›

theorem Rel.fresh (hR : Frameable R) (n : Nat) : Rel R (fresh n) := fun s => RelAt.of_ok (hR.free s _)

theorem Rel.withFree (hR : Frameable R) {n : Nat} (mask v : BitVec n) : Rel R (withFree mask v) :=
  Rel.bind hR (Rel.fresh hR n) (fun _ => Rel.pure hR _)

/-- With nothing laid down inside it a computation is not cut short. -/
theorem Rel.not_cut {m : M α} (h : Rel R m) {s : State} (hs : s.within = []) (p : List Event) (d : Activity) (t : State) :
    m s ≠ .error (.cut p d t) := by
  intro e
  obtain ⟨-, l, hl, _⟩ := (h s).cut p d t e
  rw [hs] at hl
  cases hl

/-! ### A relation between calm states -/

/-- P, for a state with nothing laid down inside the instruction. -/
def WhenCalm (P : State → State → Prop) (s t : State) : Prop :=
  (∀ l ∈ t.within, l ∈ s.within) ∧ (s.within = [] → P s t)

theorem WhenCalm.frameable {P : State → State → Prop} (hrefl : ∀ s, P s s)
    (htrans : ∀ {s t u}, P s t → P t u → P s u) (hfree : ∀ s k, P s { s with freeCount := k }) :
    Frameable (WhenCalm P) where
  refl s := ⟨fun _ h => h, fun _ => hrefl s⟩
  trans := by
    rintro s t u ⟨h1, h2⟩ ⟨h3, h4⟩
    refine ⟨fun l hl => h1 l (h3 l hl), fun hs => htrans (h2 hs) (h4 ?_)⟩
    rw [List.eq_nil_iff_forall_not_mem]
    intro l hl
    have := h1 l hl
    rw [hs] at this
    cases this
  free s k := ⟨fun _ h => h, fun _ => hfree s k⟩
  spends h := h.1

/-- A step that keeps P and what is laid down. -/
theorem WhenCalm.of {P : State → State → Prop} {s t : State} (hw : t.within = s.within) (h : P s t) : WhenCalm P s t :=
  ⟨fun _ hl => hw ▸ hl, fun _ => h⟩

end Sys2Proof.Machine
end

