-- ==== Sys2Proof/Laws/Bus.lean ====
section
/-! SUPPORT. On-chip registers, single accesses, the other agents on the bus, the gaps between the CPU's bus cycles, and the
CPU's accesses: what each answers and the relations it keeps. -/

namespace Sys2Proof.Machine

open Sys2Proof

variable {α : Type} {R : State → State → Prop}

/-! ### On-chip registers -/

/-- A read of an on-chip register changes nothing but the place in the stream of free values. -/
theorem Rel.regRead (hR : Frameable R) (r : PReg) : Rel R (regRead r) := by
  have hw : ∀ {n : Nat} (mask v : BitVec n), Rel R (Machine.withFree mask v) := fun m v => Rel.withFree hR m v
  cases r <;> unfold Machine.regRead <;> refine Rel.bind hR (Rel.peek hR _) (fun b => ?_)
  case chan ch r => cases r <;> first | exact Rel.pure hR _ | exact hw _ _
  case timer t r =>
    cases r <;> first | exact Rel.pure hR _ | exact Rel.bind hR (hw _ _) (fun _ => Rel.pure hR _)
  case stat | dstat | imsk => exact Rel.bind hR (Rel.peek hR _) (fun _ => hw _ _)
  all_goals first
    | exact Rel.pure hR _
    | exact Rel.bind hR (hw _ _) (fun _ => Rel.pure hR _)

/-- What a read leaves: the state but for the place in the stream of free values. -/
def OnlyFree (s t : State) : Prop := ∃ k, t = { s with freeCount := k }

theorem OnlyFree.trans {s t u : State} (h1 : OnlyFree s t) (h2 : OnlyFree t u) : OnlyFree s u := by
  obtain ⟨k, rfl⟩ := h1
  obtain ⟨j, rfl⟩ := h2
  exact ⟨j, rfl⟩

theorem onlyFree_frameable : Frameable OnlyFree where
  refl s := ⟨s.freeCount, rfl⟩
  trans := OnlyFree.trans
  free s k := ⟨k, rfl⟩
  spends := by
    rintro s t ⟨k, rfl⟩ l hl
    exact hl

/-- What a write of an on-chip register may change: the peripherals' registers. -/
def OnlyChip (s t : State) : Prop := ∃ b d i t0 t1 t2 k,
  t = { s with bpu := b, dma := d, isrv := i, timer0 := t0, timer1 := t1, timer2 := t2, freeCount := k }

theorem onlyChip_frameable : Frameable OnlyChip where
  refl s := ⟨s.bpu, s.dma, s.isrv, s.timer0, s.timer1, s.timer2, s.freeCount, rfl⟩
  trans := by
    rintro s t u ⟨b, d, i, t0, t1, t2, k, rfl⟩ ⟨b', d', i', t0', t1', t2', k', rfl⟩
    exact ⟨b', d', i', t0', t1', t2', k', rfl⟩
  free s k := ⟨s.bpu, s.dma, s.isrv, s.timer0, s.timer1, s.timer2, k, rfl⟩
  spends := by
    rintro s t ⟨b, d, i, t0, t1, t2, k, rfl⟩ l hl
    exact hl

theorem onlyChip_setTimer (s : State) (k : TimerId) (x : Timer) : OnlyChip s (s.setTimer k x) := by
  cases k
  · exact ⟨s.bpu, s.dma, s.isrv, x, s.timer1, s.timer2, s.freeCount, rfl⟩
  · exact ⟨s.bpu, s.dma, s.isrv, s.timer0, x, s.timer2, s.freeCount, rfl⟩
  · exact ⟨s.bpu, s.dma, s.isrv, s.timer0, s.timer1, x, s.freeCount, rfl⟩

theorem onlyChip_modChan (s : State) (ch : Chan) (g : DmaChan → DmaChan) : OnlyChip s (s.modChan ch g) :=
  ⟨s.bpu, s.dma.setChan ch (g (s.dma.chan ch)), s.isrv, s.timer0, s.timer1, s.timer2, s.freeCount, rfl⟩

/-- A settled channel is not enabled against R88. -/
theorem DmaChan.settle_ok (c : DmaChan) : c.settle.ok := by
  intro h
  have : c.settle.blocked = c.blocked := rfl
  rw [this] at h
  simp [DmaChan.settle, h]

/-- A relation that the peripherals' own updates keep is kept by every write of an on-chip register. -/
theorem Rel.regWrite_of (hR : Frameable R)
    (hbpu : ∀ (s : State) (b : Bpu), R s { s with bpu := b })
    (htimer : ∀ s k x, R s (s.setTimer k x))
    (hisrv : ∀ (s : State) (v : Half), R s { s with isrv := v &&& 0xFFFE })
    (hchan : ∀ s ch g, (∀ c : DmaChan, c.ok → (g c).ok) → R s (s.modChan ch g))
    (r : PReg) (v : Word) : Rel R (regWrite r v) := by
  have hboth : ∀ g k : DmaChan → DmaChan, (∀ c, c.ok → (g c).ok) → (∀ c, c.ok → (k c).ok) →
      Rel R (Machine.upd (fun s => (s.modChan .ch0 g).modChan .ch1 k)) := fun g k hg hk =>
    Rel.upd (fun s => hR.trans (hchan s .ch0 g hg) (hchan _ .ch1 k hk))
  have hst : ∀ ch g, (∀ c : DmaChan, c.ok → (g c).ok) → Rel R (chanStore ch g) := fun ch g hg =>
    Rel.bind hR (Rel.peek hR _) (fun _ => Rel.bind hR (Rel.require hR _ _) (fun _ => Rel.upd (fun s => hchan s ch g hg)))
  have hch : ∀ ch cr v, Rel R (chanWrite ch cr v) := by
    intro ch cr v
    unfold chanWrite
    refine Rel.bind hR (Rel.peek hR _) (fun c => ?_)
    cases cr
    · exact Rel.bind hR (Rel.require hR _ _) (fun _ => hst ch _ (fun c h => h))
    · exact hst ch _ (fun c h => h)
    · exact Rel.bind hR (Rel.require hR _ _) (fun _ => hst ch _ (fun c h => h))
    · exact Rel.bind hR (Rel.require hR _ _) (fun _ => hst ch _ (fun c h => h))
    · exact Rel.bind hR (Rel.require hR _ _) (fun _ => Rel.bind hR (Rel.require hR _ _) (fun _ => hst ch _ (fun c h => h)))
    · exact hst ch _ (fun c _ => DmaChan.settle_ok _)
  have hclear : ∀ l v (c : DmaChan), c.ok → (c.clearStat l v).ok := by
    intro l v c h hb
    apply h
    simp only [DmaChan.blocked, DmaChan.clearStat, Bool.or_eq_true, Bool.and_eq_true] at hb ⊢
    tauto
  cases r <;> unfold Machine.regWrite
  case chan ch cr => exact hch ch cr v
  case timer t tr =>
    cases tr <;> try exact Rel.upd (fun s => htimer s t _)
    simp only
    split
    · exact Rel.refuse _
    · exact Rel.bind hR (Rel.fresh hR 1) (fun x => Rel.upd (fun s => htimer s t _))
  case stat => exact Rel.bind hR (Rel.peek hR _) (fun l => hboth _ _ (hclear _ _) (hclear _ _))
  case imsk =>
    exact Rel.bind hR (Rel.peek hR _) (fun l =>
      hboth _ _ (fun c _ => DmaChan.settle_ok _) (fun c _ => DmaChan.settle_ok _))
  case dstat =>
    exact Rel.bind hR (Rel.peek hR _) (fun d => Rel.bind hR (Rel.require hR _ _) (fun _ =>
      Rel.bind hR (Rel.peek hR _) (fun l =>
        hboth _ _ (fun c _ => DmaChan.settle_ok _) (fun c _ => DmaChan.settle_ok _))))
  case ivct => exact Rel.refuse _
  case isrv => exact Rel.upd (fun s => hisrv s _)
  all_goals exact Rel.upd (fun s => hbpu s _)

theorem regWrite_onlyChip (r : PReg) (v : Word) : Rel OnlyChip (regWrite r v) :=
  Rel.regWrite_of onlyChip_frameable
    (fun s b => ⟨b, s.dma, s.isrv, s.timer0, s.timer1, s.timer2, s.freeCount, rfl⟩)
    onlyChip_setTimer
    (fun s v => ⟨s.bpu, s.dma, v &&& 0xFFFE, s.timer0, s.timer1, s.timer2, s.freeCount, rfl⟩)
    (fun s ch g _ => onlyChip_modChan s ch g) r v

/-! ### Single accesses -/

theorem byteStop_none {p : Platform} {w : Bool} {a : Word} (h : p.byteStop w a = none) :
    a.toNat < Config.externalEnd := by
  by_contra hn
  unfold Platform.byteStop at h
  rw [if_neg hn] at h
  split at h
  · cases h
  · split at h <;> cases h

/-- A byte that may not be accessed stops the machine with a fault or a refusal. -/
theorem byteStop_stops {p : Platform} {w : Bool} {a : Word} {e : Stop} (h : p.byteStop w a = some e) :
    (∃ f, e = .fault f) ∨ ∃ r, e = .refuse r := by
  unfold Platform.byteStop at h
  split at h
  · split at h
    · cases h; exact .inl ⟨_, rfl⟩
    · split at h <;> cases h; exact .inl ⟨_, rfl⟩
    · cases h
  · split at h
    · cases h; exact .inl ⟨_, rfl⟩
    · split at h <;> cases h
      · exact .inr ⟨_, rfl⟩
      · exact .inl ⟨_, rfl⟩

theorem allow_eq_ok {w : Bool} {as : List Word} {s t : State} {u : Unit} :
    allow w as s = .ok (u, t) ↔ (∀ a ∈ as, s.plat.byteStop w a = none) ∧ t = s := by
  unfold allow
  cases h : as.findSome? (s.plat.byteStop w) with
  | none =>
    simp only [List.findSome?_eq_none_iff] at h
    constructor
    · intro e; cases e; exact ⟨h, rfl⟩
    · rintro ⟨-, rfl⟩; rfl
  | some e =>
    obtain ⟨a, ha, he⟩ := List.exists_of_findSome?_eq_some h
    simp only [reduceCtorEq, false_iff, not_and]
    intro hn
    rw [hn a ha] at he
    cases he

theorem allow_stops {w : Bool} {as : List Word} {s : State} {e : Stop} (h : allow w as s = .error e) :
    (∃ f, e = .fault f) ∨ ∃ r, e = .refuse r := by
  unfold allow at h
  split at h
  · rename_i e' he
    obtain ⟨a, -, ha⟩ := List.exists_of_findSome?_eq_some he
    cases h
    exact byteStop_stops ha
  · cases h

/-- What follows the check of an access may use that every byte is external. -/
theorem Rel.allow_bind {w : Bool} {as : List Word} {m : Unit → M α}
    (h : (∀ a ∈ as, a.toNat < Config.externalEnd) → Rel R (m ())) : Rel R (allow w as >>= m) := by
  intro s
  cases ha : allow w as s with
  | ok x =>
    obtain ⟨u, t⟩ := x
    rw [run_bind_of_ok ha]
    obtain ⟨hn, rfl⟩ := allow_eq_ok.1 ha
    exact h (fun a ha => byteStop_none (hn a ha)) _
  | error e =>
    rw [run_bind_of_error ha]
    rcases allow_stops ha with ⟨f, rfl⟩ | ⟨r, rfl⟩
    · exact RelAt.of_fault f
    · exact RelAt.of_refuse r

theorem regAt_none_of_external {p : Platform} {a : Word} (h : a.toNat < Config.externalEnd) : p.regAt a = none := by
  unfold Platform.regAt
  rw [if_pos]
  exact Nat.lt_of_lt_of_le h (by decide)

theorem Rel.busRead (hR : Frameable R) (a : Word) (n : Nat) : Rel R (busRead a n) := by
  unfold Machine.busRead
  refine Rel.bind hR (Rel.peek hR _) (fun p => ?_)
  split
  · exact Rel.bind hR (Rel.require hR _ _) (fun _ => Rel.bind hR (Rel.regRead hR _) (fun _ => Rel.pure hR _))
  · exact Rel.allow_bind (fun _ => Rel.bind hR (Rel.peek hR _) (fun _ => Rel.pure hR _))

/-! ### The other agents -/

/-- What a relation must keep for the agents beside the CPU to keep it. -/
structure Eventful (R : State → State → Prop) : Prop extends Frameable R where
  deposit : ∀ s as bs, (∀ a ∈ as, a.toNat < Config.externalEnd) → R s (State.deposit s as bs)
  chip : ∀ r v, Rel R (regWrite r v)
  bus : ∀ (s : State) (a : BitVec 24) v, R s (s.busWrite a.toNat v)
  cycle : ∀ s ch e, R s (State.modChan s ch (·.endCycle e))
  timer : ∀ s k x, R s (State.setTimer s k x)
  pins : ∀ (s : State) v, R s { s with irPins := v }
  latch : ∀ (s : State) v, R s { s with nmiLatch := v }
  mode : ∀ (s : State) v, R s { s with op := v }
  out : ∀ (s : State) o, R s { s with dmaOut := o }

theorem Rel.busWrite (hR : Eventful R) (a : Word) (n : Nat) (v : BitVec (8 * n)) : Rel R (busWrite a n v) := by
  have hF := hR.toFrameable
  unfold Machine.busWrite
  refine Rel.bind hF (Rel.peek hF _) (fun p => ?_)
  split
  · exact Rel.bind hF (Rel.require hF _ _) (fun _ => hR.chip _ _)
  · exact Rel.allow_bind (fun h => Rel.upd (fun s => hR.deposit s _ _ h))

theorem Rel.dmaTransfer (hR : Eventful R) (ch : Chan) (c : DmaChan) (v : Half) : Rel R (dmaTransfer ch c v) := by
  have hF := hR.toFrameable
  unfold Machine.dmaTransfer
  split
  · exact Rel.bind hF (Rel.busRead hF _ _) (fun _ => Rel.upd (fun s => hR.out s _))
  · exact Rel.bind hF (Rel.busRead hF _ _) (fun _ => Rel.upd (fun s => hR.out s _))
  · exact Rel.busWrite hR _ _ _
  · exact Rel.busWrite hR _ _ _

theorem Rel.dmaCycle (hR : Eventful R) (ch : Chan) (v : Half) (eot : Bool) : Rel R (dmaCycle ch v eot) := by
  have hF := hR.toFrameable
  refine Rel.bind hF (Rel.peek hF _) (fun c => Rel.ite (fun _ => ?_) (fun _ => Rel.pure hF _))
  exact Rel.bind hF (Rel.require hF _ _) (fun _ => Rel.bind hF (Rel.dmaTransfer hR _ _ _)
    (fun _ => Rel.upd (fun s => hR.cycle s _ _)))

theorem Rel.dmaRequest (hR : Eventful R) (ch : Chan) (q : Option (Half × Bool)) : Rel R (dmaRequest ch q) := by
  cases q with
  | none => exact Rel.pure hR.toFrameable _
  | some x => exact Rel.dmaCycle hR _ _ _

theorem Eventful.holdWrites (hR : Eventful R) (l : List (BitVec 24 × Byte)) (s : State) : R s (s.holdWrites l) := by
  induction l generalizing s with
  | nil => exact hR.refl s
  | cons x t ih => exact hR.trans (hR.bus s x.1 x.2) (ih _)

/-- Every event but RSTI low keeps such a relation. -/
theorem Rel.event (hR : Eventful R) {e : Event} (he : e ≠ .rstiLow) : Rel R (event e) := by
  have hF := hR.toFrameable
  cases e <;> unfold Machine.event
  case nmiEdge =>
    refine Rel.upd (fun s => ?_)
    split
    · exact hR.refl s
    · exact hR.latch s true
  case irPins v => exact Rel.upd (fun s => hR.pins s v)
  case tick t => exact Rel.upd (fun s => hR.timer s t _)
  case txaRise t => exact Rel.upd (fun s => hR.timer s t _)
  case txbRise t => exact Rel.upd (fun s => hR.timer s t _)
  case drq ch v eot => exact Rel.dmaCycle hR ch v eot
  case busWrite a v => exact Rel.upd (fun s => hR.bus s a v)
  case together h d0 d1 =>
    exact Rel.bind hF (Rel.upd (fun s => hR.holdWrites h s)) (fun _ =>
      Rel.bind hF (Rel.dmaRequest hR _ _) (fun _ => Rel.dmaRequest hR _ _))
  case passPoint => exact Rel.pure hF _
  case rstiLow => exact absurd rfl he
  case rstiHigh =>
    refine Rel.upd (fun s => ?_)
    split
    · exact hR.mode s .executing
    · exact hR.refl s

theorem Rel.events (hF : Frameable R) (he : ∀ e, Rel R (Machine.event e)) (l : List Event) : Rel R (events l) := by
  induction l with
  | nil => exact Rel.pure hF ()
  | cons e t ih => exact Rel.bind hF (he e) (fun _ => ih)

/-! ### Gaps -/

/-- The events of a place: each but RSTI low keeps the relation, RSTI low cuts short. -/
theorem RelAt.outside (hF : Frameable R) (he : ∀ e, e ≠ .rstiLow → Rel R (Machine.event e)) {s t : State} {l : List Event}
    (h : R s t) (hl : .rstiLow ∈ l → ∃ k ∈ s.within, .rstiLow ∈ k) : RelAt R (outside l t) s := by
  induction l generalizing t with
  | nil => exact RelAt.of_ok h
  | cons e r ih =>
    unfold Machine.outside
    split
    · rename_i hc
      exact ⟨fun b u x => (by cases x), fun b u x => (by cases x), fun p d u x => by
        cases x; exact ⟨h, hl (by simp [hc])⟩⟩
    · rename_i hc
      cases hm : Machine.event e t with
      | ok x =>
        obtain ⟨a, u⟩ := x
        rw [run_bind_of_ok hm]
        exact ih (hF.trans h ((he e hc t).ok a u hm)) (fun hr => hl (by simp [hr]))
      | error x =>
        rw [run_bind_of_error hm]
        have hx := he e hc t
        rw [hm] at hx
        exact RelAt.after hF h hx.error

/-- A gap keeps a relation that the other agents keep and that using up a place keeps. -/
theorem Rel.gap_of (hF : Frameable R) (he : ∀ e, e ≠ .rstiLow → Rel R (Machine.event e))
    (ht : ∀ s : State, R s { s with within := s.within.tail }) : Rel R gap := by
  intro s
  refine RelAt.outside hF he (ht s) (fun h => ?_)
  have h : Event.rstiLow ∈ s.within.headD [] := h
  cases hw : s.within with
  | nil => rw [hw] at h; cases h
  | cons l t => exact ⟨l, List.mem_cons_self, by rwa [hw] at h⟩

/-- With nothing laid down a gap changes nothing. -/
theorem run_gap_calm {s : State} (hs : s.within = []) : gap s = .ok ((), s) := by
  show outside (s.within.headD []) { s with within := s.within.tail } = _
  rw [hs]
  show Except.ok ((), ({ s with within := [] } : State)) = _
  rw [← hs]

/-- The events laid down for later places stay or are used up. -/
def Spends (s t : State) : Prop := ∀ l ∈ t.within, l ∈ s.within

theorem Spends.of_eq {s t : State} (h : t.within = s.within) : Spends s t := fun _ hl => h ▸ hl

theorem spends_frameable : Frameable Spends where
  refl _ := Spends.of_eq rfl
  trans h1 h2 l hl := h1 l (h2 l hl)
  free _ _ := Spends.of_eq rfl
  spends h := h

theorem spends_eventful : Eventful Spends where
  toFrameable := spends_frameable
  deposit _ _ _ _ := Spends.of_eq rfl
  chip := Rel.regWrite_of spends_frameable (fun _ _ => Spends.of_eq rfl)
    (fun s k x => by cases k <;> exact Spends.of_eq rfl) (fun _ _ => Spends.of_eq rfl)
    (fun s ch g _ => Spends.of_eq rfl)
  bus s a v := by unfold State.busWrite; split <;> exact Spends.of_eq rfl
  cycle _ _ _ := Spends.of_eq rfl
  timer s k x := by cases k <;> exact Spends.of_eq rfl
  pins _ _ := Spends.of_eq rfl
  latch _ _ := Spends.of_eq rfl
  mode _ _ := Spends.of_eq rfl
  out _ _ := Spends.of_eq rfl

theorem spends_gap : Rel Spends gap :=
  Rel.gap_of spends_frameable (fun _ he => Rel.event spends_eventful he) (fun _ _ hl => List.mem_of_mem_tail hl)

/-! ### The CPU's accesses -/

/-- What a relation must keep for the CPU's reads to keep it. -/
structure Shared (R : State → State → Prop) : Prop extends Frameable R where
  gap : Rel R Machine.gap

/-- What a relation must keep for the CPU's writes to keep it: stores to external memory and writes of on-chip registers. -/
structure Storable (R : State → State → Prop) : Prop extends Shared R where
  store : ∀ s as bs, (∀ a ∈ as, a.toNat < Config.externalEnd) → R s (State.store s as bs)
  chip : ∀ r v, Rel R (regWrite r v)

/-- A relation between calm states is kept by the gaps between bus cycles. -/
theorem WhenCalm.shared {P : State → State → Prop} (h : Frameable (WhenCalm P)) : Shared (WhenCalm P) where
  toFrameable := h
  gap s := by
    have hs := spends_gap s
    refine ⟨fun a t e => ⟨hs.ok a t e, fun hw => ?_⟩, fun x t e => ⟨hs.trap x t e, fun hw => ?_⟩,
      fun p d t e => ⟨⟨(hs.cut p d t e).1, fun hw => ?_⟩, (hs.cut p d t e).2⟩⟩
    · rw [run_gap_calm hw] at e
      cases e
      exact (h.refl s).2 hw
    · rw [run_gap_calm hw] at e
      cases e
    · rw [run_gap_calm hw] at e
      cases e

theorem calmFree_shared : Shared (WhenCalm OnlyFree) :=
  WhenCalm.shared (WhenCalm.frameable onlyFree_frameable.refl OnlyFree.trans onlyFree_frameable.free)

theorem Rel.readCycles (hR : Shared R) (l : List Nat) (a : Word) : Rel R (readCycles l a) := by
  have hF := hR.toFrameable
  induction l generalizing a with
  | nil => exact Rel.pure hF _
  | cons k t ih =>
    exact Rel.bind hF hR.gap (fun _ => Rel.bind hF (Rel.peek hF _) (fun _ => Rel.bind hF (ih _) (fun _ => Rel.pure hF _)))

theorem Rel.readRegCycles (hR : Shared R) (r : PReg) (l : List Nat) (o : Nat) : Rel R (readRegCycles r l o) := by
  have hF := hR.toFrameable
  induction l generalizing o with
  | nil => exact Rel.pure hF _
  | cons k t ih =>
    exact Rel.bind hF hR.gap (fun _ => Rel.bind hF (Rel.regRead hF _) (fun _ => Rel.bind hF (ih _)
      (fun _ => Rel.pure hF _)))

/-- A read by the CPU keeps what the gaps between bus cycles keep. -/
theorem Rel.memRead (hR : Shared R) (a : Word) (n : Nat) : Rel R (memRead a n) := by
  have hF := hR.toFrameable
  unfold Machine.memRead
  refine Rel.bind hF (Rel.peek hF _) (fun p => ?_)
  split
  · exact Rel.bind hF (Rel.require hF _ _) (fun _ => Rel.bind hF (Rel.readRegCycles hR _ _ _) (fun _ => Rel.pure hF _))
  · exact Rel.allow_bind (fun _ => Rel.bind hF (Rel.readCycles hR _ _) (fun _ => Rel.pure hF _))

/-- With nothing laid down a read changes nothing but the place in the stream of free values. -/
theorem memRead_onlyFree {a : Word} {n : Nat} {s t : State} {v : BitVec (8 * n)} (hs : s.calm)
    (h : memRead a n s = .ok (v, t)) : OnlyFree s t := ((Rel.memRead calmFree_shared a n s).ok v t h).2 hs

/-- The widths of an access's bus cycles add up to its own. -/
theorem cyclesFrom_sum (odd : Bool) (n : Nat) : (cyclesFrom odd n).sum = n := by
  have h : ∀ n, (∀ odd, (cyclesFrom odd n).sum = n) ∧ ∀ odd, (cyclesFrom odd (n + 1)).sum = n + 1 := by
    intro n
    induction n with
    | zero => exact ⟨fun _ => by simp [cyclesFrom], fun _ => by simp [cyclesFrom]⟩
    | succ n ih =>
      refine ⟨ih.2, fun odd => ?_⟩
      cases odd
      · simp [cyclesFrom, ih.1 false]; omega
      · simp [cyclesFrom, ih.2 false]; omega
  exact (h n).1 odd

@[simp] theorem busCycles_sum (a : Word) (n : Nat) : (busCycles a n).sum = n := by
  unfold busCycles
  split
  · rw [List.sum_append, cyclesFrom_sum]; omega
  · exact cyclesFrom_sum _ _

theorem Rel.writeCycles (hR : Storable R) (l : List Nat) (a : Word) (v : Nat)
    (h : ∀ x ∈ byteAddrs a l.sum, x.toNat < Config.externalEnd) : Rel R (writeCycles l a v) := by
  have hF := hR.toFrameable
  induction l generalizing a v with
  | nil => exact Rel.pure hF _
  | cons k t ih =>
    rw [List.sum_cons, byteAddrs_append] at h
    exact Rel.bind hF hR.gap (fun _ => Rel.bind hF
      (Rel.upd (fun s => hR.store s _ _ (fun x hx => h x (List.mem_append_left _ hx))))
      (fun _ => ih _ _ (fun x hx => h x (List.mem_append_right _ hx))))

theorem Rel.writeRegCycles (hR : Storable R) (r : PReg) (v : Word) (l : List Nat) : Rel R (writeRegCycles r v l) := by
  induction l with
  | nil => exact hR.chip _ _
  | cons k t ih => exact Rel.bind hR.toFrameable hR.gap (fun _ => ih)

theorem Rel.memWrite (hR : Storable R) (a : Word) (n : Nat) (v : BitVec (8 * n)) : Rel R (memWrite a n v) := by
  have hF := hR.toFrameable
  unfold Machine.memWrite
  refine Rel.bind hF (Rel.peek hF _) (fun p => ?_)
  split
  · exact Rel.bind hF (Rel.require hF _ _) (fun _ => Rel.writeRegCycles hR _ _ _)
  · exact Rel.allow_bind (fun h => Rel.writeCycles hR _ _ _ (by rw [busCycles_sum]; exact h))

theorem run_readCycles_calm {s : State} (hs : s.calm) (l : List Nat) (a : Word) :
    readCycles l a s = .ok (leNat (s.bytesAt (byteAddrs a l.sum)), s) := by
  induction l generalizing a with
  | nil => rfl
  | cons k t ih =>
    unfold readCycles
    rw [run_bind_of_ok (run_gap_calm hs), run_peek_bind, run_bind_of_ok (ih _), run_pure, List.sum_cons, byteAddrs_append,
      bytesAt_append, leNat_append]
    simp [State.bytesAt]

theorem run_writeCycles_calm {s : State} (hs : s.calm) (l : List Nat) (a : Word) (v : Nat) :
    writeCycles l a v s = .ok ((), s.store (byteAddrs a l.sum) (leBytes l.sum v)) := by
  induction l generalizing a v s with
  | nil => simp [writeCycles, byteAddrs, leBytes]
  | cons k t ih =>
    unfold writeCycles
    rw [run_bind_of_ok (run_gap_calm hs), run_upd_bind, ih (show (s.store _ _).calm from hs), List.sum_cons,
      byteAddrs_append, leBytes_append, State.store_store]
    simp

/-- With nothing laid down the cycles of a register's write make one write. -/
theorem run_writeRegCycles_calm {s : State} (hs : s.calm) (r : PReg) (v : Word) (l : List Nat) :
    writeRegCycles r v l s = regWrite r v s := by
  induction l with
  | nil => rfl
  | cons k t ih =>
    unfold writeRegCycles
    rw [run_bind_of_ok (run_gap_calm hs), ih]

/-- A read of external memory with nothing laid down (R135, R137): the little-endian number of the bytes. -/
theorem run_memRead_external {a : Word} {n : Nat} {s : State} (hs : s.calm) (hr : s.plat.regAt a = none)
    (h : ∀ x ∈ byteAddrs a n, s.plat.byteStop false x = none) :
    memRead a n s = .ok (BitVec.ofNat (8 * n) (leNat (s.bytesAt (byteAddrs a n))), s) := by
  unfold memRead
  rw [run_peek_bind, hr]
  simp only
  rw [run_bind_of_ok (allow_eq_ok.2 ⟨h, rfl⟩ : allow false (byteAddrs a n) s = .ok ((), s)),
    run_bind_of_ok (run_readCycles_calm hs _ _), busCycles_sum]
  rfl

/-- A write of external memory with nothing laid down (R135, R137). -/
theorem run_memWrite_external {a : Word} {n : Nat} {v : BitVec (8 * n)} {s : State} (hs : s.calm)
    (hr : s.plat.regAt a = none) (h : ∀ x ∈ byteAddrs a n, s.plat.byteStop true x = none) :
    memWrite a n v s = .ok ((), s.store (byteAddrs a n) (leBytes n v.toNat)) := by
  unfold memWrite
  rw [run_peek_bind, hr]
  simp only
  rw [run_bind_of_ok (allow_eq_ok.2 ⟨h, rfl⟩ : allow true (byteAddrs a n) s = .ok ((), s)),
    run_writeCycles_calm hs, busCycles_sum]

/-- A write that goes on with nothing laid down has stored the bytes in external memory, or has written one on-chip
register. -/
theorem memWrite_ok {a : Word} {n : Nat} {v : BitVec (8 * n)} {s t : State} {u : Unit} (hs : s.calm)
    (h : memWrite a n v s = .ok (u, t)) :
    (s.plat.regAt a = none ∧ (∀ x ∈ byteAddrs a n, s.plat.byteStop true x = none) ∧
        t = s.store (byteAddrs a n) (leBytes n v.toNat)) ∨
    (∃ r, s.plat.regAt a = some r ∧ r.width = n ∧ regWrite r (v.setWidth 32) s = .ok (u, t)) := by
  unfold memWrite at h
  rw [run_peek_bind] at h
  cases hr : s.plat.regAt a with
  | some r =>
    rw [hr] at h
    simp only at h
    refine .inr ⟨r, rfl, ?_⟩
    obtain ⟨x, w, hx, hw⟩ := bind_eq_ok.1 h
    obtain ⟨hp, rfl⟩ := require_eq_ok.1 hx
    rw [run_writeRegCycles_calm hs] at hw
    exact ⟨by simpa using hp, hw⟩
  | none =>
    rw [hr] at h
    simp only at h
    refine .inl ⟨rfl, ?_⟩
    obtain ⟨x, w, hx, hw⟩ := bind_eq_ok.1 h
    obtain ⟨ha, rfl⟩ := allow_eq_ok.1 hx
    rw [run_writeCycles_calm hs, busCycles_sum] at hw
    cases hw
    exact ⟨ha, rfl⟩

end Sys2Proof.Machine
end

