-- ==== Sys2Proof/Laws/Ops.lean ====
section
/-! SUPPORT. One lemma per shared operation over registers and the stacks, for exception entry and return, and for how a
meaning ends: what it answers, what it changes, and the relations it keeps. -/

namespace Sys2Proof.Machine

open Sys2Proof

variable {α : Type} {R : State → State → Prop}

/-! ### General registers and stack pointers -/

@[simp] theorem run_getReg (r : Reg) (s : State) : getReg r s = .ok (s.regs.get r, s) := rfl
@[simp] theorem run_setReg (r : Reg) (v : Word) (s : State) : setReg r v s = .ok ((), s.setReg r v) := rfl
@[simp] theorem run_setRegLow {n : Nat} (r : Reg) (v : BitVec n) (s : State) :
    setRegLow r v s = .ok ((), s.setReg r (mergeLow (s.regs.get r) v)) := rfl
@[simp] theorem run_getSp (s : State) : getSp s = .ok (s.sp, s) := rfl
@[simp] theorem run_setSp (v : Word) (s : State) : setSp v s = .ok ((), s.setSp v) := rfl
@[simp] theorem run_updPsr (f : Psr → Psr) (s : State) :
    updPsr f s = .ok ((), { s with psr := f s.psr, psrTouched := true }) := rfl
@[simp] theorem run_clearPending (s : State) :
    clearPending s = .ok ((), { s with psr := { s.psr with p := false }, psrTouched := true }) := rfl
@[simp] theorem run_loadPsr (v : Half) (s : State) :
    loadPsr v s = .ok ((), { s with psr := Psr.ofBits v, psrTouched := true }) := rfl
@[simp] theorem run_purge (s : State) : purge s = .ok ((), { s with dirty := [] }) := rfl

theorem run_privileged (s : State) :
    privileged s = if s.psr.u then .error (.trap .ill s) else .ok ((), s) := by
  unfold privileged
  rw [run_peek_bind]
  split <;> rfl

/-- The low n bits written, the others kept (R32). -/
theorem mergeLow_getLsbD {n : Nat} (old : Word) (v : BitVec n) {k : Nat} (hk : k < 32) :
    (mergeLow old v).getLsbD k = if k < n then v.getLsbD k else old.getLsbD k := by
  unfold mergeLow
  simp only [BitVec.getLsbD_or, BitVec.getLsbD_and, BitVec.getLsbD_not, BitVec.getLsbD_setWidth,
    BitVec.getLsbD_allOnes, hk]
  by_cases h : k < n
  · simp [h]
  · simp [h, BitVec.getLsbD_of_ge v k (by omega)]

theorem mergeLow_full (old v : Word) : mergeLow old v = v := by
  apply BitVec.eq_of_getLsbD_eq
  intro k hk
  rw [mergeLow_getLsbD old v hk, if_pos hk]

/-! ### The PSR -/

@[simp] theorem Psr.ofBits_toBits (p : Psr) : Psr.ofBits p.toBits = p := by
  simp only [Psr.ofBits, Psr.toBits, BitVec.getLsbD_setWidth, BitVec.getLsbD_ofBoolListLE]
  rfl

theorem readPsr_ok {s : State} : ∃ v k, readPsr s = .ok (v, { s with freeCount := k }) := by
  unfold readPsr
  rw [run_get_bind]
  split
  · exact ⟨_, _, rfl⟩
  · exact ⟨_, _, rfl⟩

/-- The named bits of the PSR as read are its named bits. -/
theorem readPsr_named {s t : State} {v : Half} (h : readPsr s = .ok (v, t)) : Psr.ofBits v = s.psr := by
  unfold readPsr at h
  rw [run_get_bind] at h
  split at h
  · unfold withFree at h
    rw [run_bind_of_ok (run_fresh 16 s)] at h
    cases h
    refine Eq.trans ?_ (Psr.ofBits_toBits s.psr)
    simp [Psr.ofBits]
  · simp only [run_pure, Except.ok.injEq, Prod.mk.injEq] at h
    rw [← h.1]
    exact Psr.ofBits_toBits s.psr

theorem Rel.readPsr (hR : Frameable R) : Rel R readPsr := by
  intro s
  obtain ⟨v, k, h⟩ := readPsr_ok (s := s)
  rw [h]
  exact RelAt.of_ok (hR.free s k)

theorem Rel.privileged (hR : Frameable R) : Rel R privileged := by
  intro s
  rw [run_privileged]
  split
  · exact RelAt.of_trap (hR.refl s)
  · exact RelAt.of_ok (hR.refl s)

/-! ### The stacks -/

theorem Rel.getReg (hR : Frameable R) (r : Reg) : Rel R (getReg r) := Rel.peek hR _

theorem Rel.getSp (hR : Frameable R) : Rel R getSp := Rel.peek hR _

theorem Rel.push (hR : Storable R) (hsp : ∀ s v, R s (State.setSp s v)) (n : Nat) (v : BitVec (8 * n)) :
    Rel R (push n v) :=
  Rel.bind hR.toFrameable (Rel.getSp hR.toFrameable) (fun _ =>
    Rel.bind hR.toFrameable (Rel.memWrite hR _ _ _) (fun _ => Rel.upd (fun s => hsp s _)))

theorem Rel.pop (hR : Shared R) (hsp : ∀ s v, R s (State.setSp s v)) (n : Nat) : Rel R (pop n) :=
  Rel.bind hR.toFrameable (Rel.getSp hR.toFrameable) (fun _ => Rel.bind hR.toFrameable (Rel.memRead hR _ _) (fun _ =>
    Rel.bind hR.toFrameable (Rel.upd (fun s => hsp s _)) (fun _ => Rel.pure hR.toFrameable _)))

theorem Rel.pushInterrupt (hR : Storable R) (hsp : ∀ (s : State) v, R s { s with sp0 := v }) (n : Nat)
    (v : BitVec (8 * n)) : Rel R (pushInterrupt n v) :=
  Rel.bind hR.toFrameable (Rel.peek hR.toFrameable _) (fun _ =>
    Rel.bind hR.toFrameable (Rel.memWrite hR _ _ _) (fun _ => Rel.upd (fun s => hsp s _)))

/-! ### Exceptions -/

/-- What a relation must keep for exception entry and return to keep it. -/
structure Enterable (R : State → State → Prop) : Prop extends Storable R where
  control : ∀ (s : State) pc sp0 sp1 sb m psr touched isrv latch op,
    isrv = s.isrv ∨ isrv = s.acknowledge.isrv ∨ isrv = s.endOfInterrupt.isrv →
    R s { s with pc := pc, sp0 := sp0, sp1 := sp1, sb := sb, mod := m, psr := psr, psrTouched := touched,
                 isrv := isrv, nmiLatch := latch, op := op }
  purged : ∀ (s : State), R s { s with dirty := [] }
  entered : ∀ {s t : State}, R s t → R s { t with written := s.written }

/-- An exception sequence keeps what its steps keep. -/
theorem Rel.asEntry (hR : Enterable R) {m : M α} (hm : Rel R m) : Rel R (asEntry m) := by
  intro s
  have h := hm s
  unfold Machine.asEntry
  cases e : m s with
  | ok x => exact RelAt.of_ok (hR.entered (h.ok _ _ e))
  | error y =>
    rw [e] at h
    cases y with
    | cut p d t => exact ⟨fun _ _ q => (by cases q), fun _ _ q => (by cases q), fun _ _ _ q => (by cases q; exact h.cut p d t rfl)⟩
    | trap x t => exact h
    | fault f => exact h
    | refuse f => exact h

/-- An exception sequence that is cut short is cut as such: nothing is due (R760). -/
theorem asEntry_cut {m : M α} {s t : State} {p : List Event} {d : Activity} (h : asEntry m s = .error (.cut p d t)) :
    d = .entry := by
  unfold asEntry at h
  cases e : m s with
  | ok x => rw [e] at h; cases h
  | error y => rw [e] at h; cases y <;> cases h; rfl

theorem Enterable.read (hR : Enterable R) (a : Word) (n : Nat) : Rel R (Machine.memRead a n) := Rel.memRead hR.toShared a n

theorem Enterable.push (hR : Enterable R) (n : Nat) (v : BitVec (8 * n)) : Rel R (Machine.pushInterrupt n v) :=
  Rel.pushInterrupt hR.toStorable
    (fun s v => hR.control s s.pc v s.sp1 s.sb s.mod s.psr s.psrTouched s.isrv s.nmiLatch s.op (.inl rfl)) n v

theorem Rel.service (hR : Enterable R) (vector : Nat) (copy : Half) (ret : Word) : Rel R (service vector copy ret) := by
  have hF := hR.toFrameable
  unfold Machine.service
  refine Rel.bind hF (hR.push _ _) (fun _ => Rel.bind hF (Rel.peek hF _) (fun base =>
    Rel.bind hF (hR.read _ _) (fun entry => Rel.bind hF (Rel.peek hF _) (fun de => ?_))))
  have last : Rel R Machine.purge := Rel.upd hR.purged
  split
  · refine Rel.bind hF (Rel.upd (fun s => ?_)) (fun _ => Rel.bind hF (hR.push _ _) (fun _ => last))
    exact hR.control s entry (s.sp0 - 2) s.sp1 s.sb s.mod s.psr s.psrTouched s.isrv s.nmiLatch s.op (.inl rfl)
  · refine Rel.bind hF (hR.read _ _) (fun program => Rel.bind hF (hR.read _ _) (fun static =>
      Rel.bind hF (Rel.upd (fun s => ?_)) (fun _ => Rel.bind hF (Rel.peek hF _) (fun old =>
      Rel.bind hF (hR.push _ _) (fun _ => Rel.bind hF (Rel.upd (fun s => ?_)) (fun _ =>
      Rel.bind hF (hR.push _ _) (fun _ => last)))))))
    · exact hR.control s _ s.sp0 s.sp1 static s.mod s.psr s.psrTouched s.isrv s.nmiLatch s.op (.inl rfl)
    · exact hR.control s s.pc s.sp0 s.sp1 s.sb _ s.psr s.psrTouched s.isrv s.nmiLatch s.op (.inl rfl)

theorem Enterable.psr (hR : Enterable R) (f : Psr → Psr) : Rel R (updPsr f) :=
  Rel.upd (fun s => hR.control s s.pc s.sp0 s.sp1 s.sb s.mod (f s.psr) true s.isrv s.nmiLatch s.op (.inl rfl))

theorem Enterable.pending (hR : Enterable R) : Rel R clearPending := hR.psr _

theorem Rel.trapSequence (hR : Enterable R) (x : Trap) (s : State) : Rel R (trapSequence x s) := by
  have hF := hR.toFrameable
  refine Rel.asEntry hR (Rel.bind hF (Rel.upd (fun t => ?_)) (fun _ => Rel.bind hF (Rel.onlyIf hF _ (fun _ => hR.pending))
    (fun _ => Rel.bind hF (Rel.readPsr hF) (fun copy => Rel.bind hF (hR.psr _) (fun _ => Rel.service hR _ _ _)))))
  exact hR.control t t.pc s.sp0 s.sp1 t.sb t.mod s.psr true t.isrv t.nmiLatch t.op (.inl rfl)

theorem Rel.traceSequence (hR : Enterable R) : Rel R traceSequence := by
  have hF := hR.toFrameable
  exact Rel.asEntry hR (Rel.bind hF hR.pending (fun _ => Rel.bind hF (Rel.readPsr hF) (fun _ => Rel.bind hF (hR.psr _)
    (fun _ => Rel.bind hF (Rel.peek hF _) (fun _ => Rel.service hR _ _ _)))))

theorem Rel.nmiSequence (hR : Enterable R) (ret : Word) : Rel R (nmiSequence ret) := by
  have hF := hR.toFrameable
  refine Rel.asEntry hR (Rel.bind hF (Rel.readPsr hF) (fun copy => Rel.bind hF (hR.psr _) (fun _ => Rel.bind hF hR.gap
    (fun _ => Rel.bind hF (Rel.upd (fun s => ?_)) (fun _ => Rel.service hR _ _ _)))))
  exact hR.control s s.pc s.sp0 s.sp1 s.sb s.mod s.psr s.psrTouched s.isrv false .executing (.inl rfl)

theorem Rel.maskableSequence (hR : Enterable R) (ret : Word) : Rel R (maskableSequence ret) := by
  have hF := hR.toFrameable
  refine Rel.asEntry hR (Rel.bind hF (Rel.readPsr hF) (fun copy => Rel.bind hF (hR.psr _) (fun _ => Rel.bind hF hR.gap
    (fun _ => Rel.bind hF (Rel.peek hF _) (fun vectored => Rel.bind hF (Rel.peek hF _) (fun ivct => Rel.bind hF
    (Rel.upd (fun s => ?_)) (fun _ => Rel.service hR _ _ _)))))))
  exact hR.control s s.pc s.sp0 s.sp1 s.sb s.mod s.psr s.psrTouched _ s.nmiLatch .executing (.inr (.inl rfl))

theorem Rel.interruptSequence (hR : Enterable R) (ret : Word) : Rel R (interruptSequence ret) :=
  Rel.bind hR.toFrameable (Rel.peek hR.toFrameable _) (fun _ =>
    Rel.ite (fun _ => Rel.nmiSequence hR ret) (fun _ => Rel.maskableSequence hR ret))

theorem Rel.restoreMod (hR : Enterable R) (sp : Word) : Rel R (restoreMod sp) :=
  Rel.bind hR.toFrameable (hR.read _ _) (fun m => Rel.upd (fun s =>
    hR.control s s.pc s.sp0 s.sp1 s.sb m s.psr s.psrTouched s.isrv s.nmiLatch s.op (.inl rfl)))

theorem Rel.reloadSb (hR : Enterable R) : Rel R reloadSb :=
  Rel.bind hR.toFrameable (Rel.peek hR.toFrameable _) (fun _ => Rel.bind hR.toFrameable (hR.read _ _) (fun sb =>
    Rel.upd (fun s => hR.control s s.pc s.sp0 s.sp1 sb s.mod s.psr s.psrTouched s.isrv s.nmiLatch s.op (.inl rfl))))

theorem Enterable.setSp (hR : Enterable R) (s : State) (v : Word) : R s (s.setSp v) := by
  unfold State.setSp
  split
  · exact hR.control s s.pc s.sp0 v s.sb s.mod s.psr s.psrTouched s.isrv s.nmiLatch s.op (.inl rfl)
  · exact hR.control s s.pc v s.sp1 s.sb s.mod s.psr s.psrTouched s.isrv s.nmiLatch s.op (.inl rfl)

theorem Rel.returnFromException (hR : Enterable R) (disp : Word) : Rel R (returnFromException disp) := by
  have hF := hR.toFrameable
  refine Rel.bind hF (Rel.peek hF _) (fun sp => Rel.bind hF (hR.read _ _) (fun pc =>
    Rel.bind hF (Rel.peek hF _) (fun de => Rel.bind hF (Rel.onlyIf hF _ (fun _ => Rel.restoreMod hR _)) (fun _ =>
    Rel.bind hF (hR.read _ _) (fun psr => Rel.bind hF (Rel.upd (fun s => ?_)) (fun _ =>
    Rel.bind hF (Rel.upd (fun s => ?_)) (fun _ => Rel.bind hF (Rel.onlyIf hF _ (fun _ => Rel.reloadSb hR)) (fun _ =>
    Rel.bind hF (Rel.upd (fun s => hR.setSp s _)) (fun _ => Rel.pure hF _)))))))))
  · exact hR.control s s.pc _ s.sp1 s.sb s.mod s.psr s.psrTouched s.isrv s.nmiLatch s.op (.inl rfl)
  · exact hR.control s s.pc s.sp0 s.sp1 s.sb s.mod _ true s.isrv s.nmiLatch s.op (.inl rfl)

/-! ### How a meaning ends -/

theorem complete_seq {i : Instr} {m : M Next} {s u : State} (h : m s = .ok (.seq, u)) :
    complete i m s = .ok ((), { u with pc := s.pc + BitVec.ofNat 32 (instrLength i), psrTouched := true }) := by
  unfold complete
  rw [h]

theorem complete_jump {i : Instr} {m : M Next} {s u : State} {a : Word} (h : m s = .ok (.jump a, u)) :
    complete i m s = .ok ((), { u with pc := a, dirty := [], psrTouched := true }) := by
  unfold complete
  rw [h]

theorem complete_stay {i : Instr} {m : M Next} {s u : State} (h : m s = .ok (.stay, u)) :
    complete i m s = .ok ((), u) := by
  unfold complete
  rw [h]

theorem complete_trap {i : Instr} {m : M Next} {s u : State} {x : Trap} (h : m s = .error (.trap x u)) :
    complete i m s = trapSequence x s u := by
  unfold complete
  rw [h]

/-- A relation that a meaning keeps is kept by the whole instruction. -/
theorem Rel.complete (hR : Enterable R) {m : M Next} (hm : Rel R m) (i : Instr) : Rel R (complete i m) := by
  have hF := hR.toFrameable
  have hpc : ∀ (u : State) pc, R u { u with pc := pc, psrTouched := true } := fun u pc =>
    hR.control u pc u.sp0 u.sp1 u.sb u.mod u.psr true u.isrv u.nmiLatch u.op (.inl rfl)
  intro s
  have h := hm s
  cases e : m s with
  | ok x =>
    obtain ⟨n, u⟩ := x
    have hu := h.ok n u e
    cases n with
    | seq => rw [complete_seq e]; exact RelAt.of_ok (hR.trans hu (hpc u _))
    | jump a => rw [complete_jump e]; exact RelAt.of_ok (hR.trans hu (hR.trans (hpc u a) (hR.purged _)))
    | stay => rw [complete_stay e]; exact RelAt.of_ok hu
  | error e' =>
    rw [e] at h
    cases e' with
    | trap x u => rw [complete_trap e]; exact RelAt.after hF (h.trap x u rfl) (Rel.trapSequence hR x s u)
    | cut p d u => unfold Machine.complete; rw [e]; exact h.error
    | fault f => unfold Machine.complete; rw [e]; exact RelAt.of_fault f
    | refuse f => unfold Machine.complete; rw [e]; exact RelAt.of_refuse f

theorem settled_of_ok {m : M α} {s u : State} {a : α} (h : m s = .ok (a, u)) : settled m s = .next u.ended := by
  unfold settled
  rw [h]
  rfl

/-- An instruction that goes on in sequence ends after its last byte (R35). -/
theorem finish_seq {i : Instr} {m : M Next} {s u : State} (h : m s = .ok (.seq, u)) :
    finish i m s = .next { u with pc := s.pc + BitVec.ofNat 32 (instrLength i), written := [], psrTouched := true } :=
  settled_of_ok (complete_seq h)

/-- An instruction that goes to an address purges the queue (R161). -/
theorem finish_jump {i : Instr} {m : M Next} {s u : State} {a : Word} (h : m s = .ok (.jump a, u)) :
    finish i m s = .next { u with pc := a, dirty := [], written := [], psrTouched := true } :=
  settled_of_ok (complete_jump h)

/-- An instruction that has itself entered an exception or a state. -/
theorem finish_stay {i : Instr} {m : M Next} {s u : State} (h : m s = .ok (.stay, u)) :
    finish i m s = .next u.ended := settled_of_ok (complete_stay h)

/-- With nothing laid down a whole computation's next state is the one it leaves. -/
theorem Rel.settled_calm {m : M α} (h : Rel R m) {s t : State} (hs : s.calm) (e : settled m s = .next t) :
    ∃ u, R s u ∧ t = u.ended := by
  unfold Machine.settled outcomeOf at e
  cases hm : m s with
  | ok x =>
    obtain ⟨a, u⟩ := x
    rw [hm] at e
    cases e
    exact ⟨u, (h s).ok a u hm, rfl⟩
  | error x =>
    rw [hm] at e
    cases x with
    | trap x u => cases e; exact ⟨u, (h s).trap x u hm, rfl⟩
    | cut p d u => exact absurd hm (h.not_cut hs p d u)
    | fault f => cases e
    | refuse f => cases e

/-- A trap with nothing laid down: the outcome is TrapSequence's, in the state the operand reads left (R620). -/
theorem finish_trap {i : Instr} {m : M Next} {s u : State} {x : Trap} (h : m s = .error (.trap x u)) {t : State}
    (ht : trapSequence x s u = .ok ((), t)) : finish i m s = .next t.ended :=
  settled_of_ok ((complete_trap h).trans ht)

theorem spends_enterable : Enterable Spends where
  toFrameable := spends_frameable
  gap := spends_gap
  store _ _ _ _ := Spends.of_eq rfl
  chip := spends_eventful.chip
  control _ _ _ _ _ _ _ _ _ _ _ _ := Spends.of_eq rfl
  purged _ := Spends.of_eq rfl
  entered h := h

/-- A trap found in a state with nothing left laid down: the outcome is TrapSequence's there (R620). -/
theorem finish_trap_calm {i : Instr} {m : M Next} {s u : State} {x : Trap} (h : m s = .error (.trap x u)) (hu : u.calm) :
    finish i m s = settled (trapSequence x s) u := by
  unfold finish settled
  rw [complete_trap h]
  cases ht : trapSequence x s u with
  | ok y => rfl
  | error e =>
    cases e with
    | cut p d c => exact absurd ht (Rel.not_cut (Rel.trapSequence spends_enterable x s) hu p d c)
    | trap y v => rfl
    | fault f => rfl
    | refuse f => rfl

end Sys2Proof.Machine
end

