-- ==== Sys2Proof/Laws/Operands.lean ====
section
/-! SUPPORT. General operands: what each operand operation answers, what it changes, and the shared shapes of the
instructions. -/

namespace Sys2Proof.Machine

open Sys2Proof

variable {R : State → State → Prop}

/-! ### Addresses -/

theorem Rel.modeAddr (hR : Shared R) (m : Mode) : Rel R (modeAddr m) := by
  cases m <;> unfold Machine.modeAddr
  case reg r => exact Rel.peek hR.toFrameable _
  case regRel r d => exact Rel.bind hR.toFrameable (Rel.peek hR.toFrameable _) (fun _ => Rel.pure hR.toFrameable _)
  case memRel a d1 d2 =>
    exact Rel.bind hR.toFrameable (Rel.peek hR.toFrameable _) (fun _ => Rel.bind hR.toFrameable (Rel.memRead hR _ _) (fun _ => Rel.pure hR.toFrameable _))
  case abs d => exact Rel.pure hR.toFrameable _
  case ext d1 d2 =>
    exact Rel.bind hR.toFrameable (Rel.peek hR.toFrameable _) (fun _ => Rel.bind hR.toFrameable (Rel.memRead hR _ _) (fun _ =>
      Rel.bind hR.toFrameable (Rel.memRead hR _ _) (fun _ => Rel.pure hR.toFrameable _)))
  case tos => exact Rel.peek hR.toFrameable _
  case space a d => exact Rel.bind hR.toFrameable (Rel.peek hR.toFrameable _) (fun _ => Rel.pure hR.toFrameable _)
  case prog d => exact Rel.bind hR.toFrameable (Rel.peek hR.toFrameable _) (fun _ => Rel.pure hR.toFrameable _)

theorem Rel.scaledAddr (hR : Shared R) (k : Scale) (b : Mode) (x : Reg) : Rel R (scaledAddr k b x) :=
  Rel.bind hR.toFrameable (Rel.modeAddr hR b) (fun _ => Rel.bind hR.toFrameable (Rel.getReg hR.toFrameable x) (fun _ => Rel.pure hR.toFrameable _))

/-- The operation below the special cases of `ea`. -/
theorem ea_of_memory {g : Gen} (h1 : ∀ v, g ≠ .imm v) (h2 : ∀ r, g ≠ .mode (.reg r)) :
    ea g = match g with
      | .mode m => modeAddr m
      | .scaled k b x => scaledAddr k b x
      | .imm _ => refuse .illegalOperand := by
  cases g with
  | imm v => exact absurd rfl (h1 v)
  | scaled k b x => rfl
  | mode m => cases m <;> first | rfl | exact absurd rfl (h2 _)

/-- The effective address changes nothing but the place in the stream of free values. -/
theorem Rel.ea (hR : Shared R) (g : Gen) : Rel R (ea g) := by
  cases g with
  | imm v => exact Rel.refuse _
  | scaled k b x => exact Rel.scaledAddr hR k b x
  | mode m =>
    cases m <;> first
      | exact Rel.refuse _
      | (unfold Machine.ea; exact Rel.modeAddr hR _)

/-! ### Reading -/

@[simp] theorem rd_reg (r : Reg) (n : Nat) (s : State) :
    rd (.mode (.reg r)) n s = .ok ((s.regs.get r).setWidth (8 * n), s) := rfl

@[simp] theorem rd_imm (v : Imm) (n : Nat) (s : State) : rd (.imm v) n s = .ok (BitVec.ofNat (8 * n) v.nat, s) := rfl

@[simp] theorem rd_tos (n : Nat) (s : State) : rd (.mode .tos) n s = pop n s := rfl

theorem Rel.rd (hR : Shared R) (hsp : ∀ s v, R s (State.setSp s v)) (g : Gen) (n : Nat) : Rel R (rd g n) := by
  have hm : ∀ g, Rel R (do
      let a ← Machine.ea g
      Machine.memRead a n : M (BitVec (8 * n))) := fun g =>
    Rel.bind hR.toFrameable (Rel.ea hR g) (fun a => Rel.memRead hR a n)
  cases g with
  | imm v => exact Rel.pure hR.toFrameable _
  | scaled k b x => exact hm (.scaled k b x)
  | mode m =>
    cases m with
    | reg r => exact Rel.bind hR.toFrameable (Rel.getReg hR.toFrameable r) (fun _ => Rel.pure hR.toFrameable _)
    | tos => exact Rel.pop hR hsp n
    | regRel r d => exact hm _
    | memRel a d1 d2 => exact hm _
    | abs d => exact hm _
    | ext d1 d2 => exact hm _
    | space a d => exact hm _
    | prog d => exact hm _

/-! ### Destinations -/

theorem Rel.dstWrite (hR : Shared R) (g : Gen) : Rel R (dstWrite g) := by
  have hm : ∀ g, Rel R (do
      let a ← Machine.ea g
      Pure.pure (Dest.mem a) : M Dest) := fun g => Rel.bind hR.toFrameable (Rel.ea hR g) (fun _ => Rel.pure hR.toFrameable _)
  cases g with
  | imm v => exact Rel.refuse _
  | scaled k b x => exact hm (.scaled k b x)
  | mode m =>
    cases m with
    | reg r => exact Rel.pure hR.toFrameable _
    | tos => exact Rel.pure hR.toFrameable _
    | regRel r d => exact hm _
    | memRel a d1 d2 => exact hm _
    | abs d => exact hm _
    | ext d1 d2 => exact hm _
    | space a d => exact hm _
    | prog d => exact hm _

theorem Rel.dstModify (hR : Shared R) (g : Gen) : Rel R (dstModify g) := by
  have hm : ∀ g, Rel R (do
      let a ← Machine.ea g
      Pure.pure (Dest.mem a) : M Dest) := fun g => Rel.bind hR.toFrameable (Rel.ea hR g) (fun _ => Rel.pure hR.toFrameable _)
  cases g with
  | imm v => exact Rel.refuse _
  | scaled k b x => exact hm (.scaled k b x)
  | mode m =>
    cases m with
    | reg r => exact Rel.pure hR.toFrameable _
    | tos => exact hm _
    | regRel r d => exact hm _
    | memRel a d1 d2 => exact hm _
    | abs d => exact hm _
    | ext d1 d2 => exact hm _
    | space a d => exact hm _
    | prog d => exact hm _

theorem Rel.dstDouble (hR : Shared R) (g : Gen) (i : Size) : Rel R (dstDouble g i) := by
  refine Rel.bind hR.toFrameable (Rel.dstModify hR g) (fun d => ?_)
  cases d <;> cases i <;> first
    | exact Rel.pure hR.toFrameable _
    | exact Rel.ite (fun _ => Rel.pure hR.toFrameable _) (fun _ => Rel.refuse _)

theorem Rel.getDest (hR : Shared R) (d : Dest) (n : Nat) : Rel R (getDest d n) := by
  cases d with
  | reg r => exact Rel.bind hR.toFrameable (Rel.getReg hR.toFrameable r) (fun _ => Rel.pure hR.toFrameable _)
  | pair r =>
    exact Rel.bind hR.toFrameable (Rel.getReg hR.toFrameable r) (fun _ => Rel.bind hR.toFrameable (Rel.getReg hR.toFrameable _) (fun _ => Rel.pure hR.toFrameable _))
  | mem a => exact Rel.memRead hR a n
  | push => exact Rel.bind hR.toFrameable (Rel.getSp hR.toFrameable) (fun a => Rel.memRead hR a n)

/-- What a relation must keep for operands to keep it: the memory operations, and the registers. -/
structure Operable (R : State → State → Prop) : Prop extends Storable R where
  reg : ∀ s r v, R s (State.setReg s r v)
  stack : ∀ s v, R s (State.setSp s v)

theorem Rel.putDest (hR : Operable R) (d : Dest) (n : Nat) (v : BitVec (8 * n)) : Rel R (putDest d n v) := by
  cases d with
  | reg r => exact Rel.upd (fun s => hR.reg s r _)
  | pair r =>
    exact Rel.bind hR.toFrameable (Rel.upd (fun s => hR.reg s r _)) (fun _ => Rel.upd (fun s => hR.reg s _ _))
  | mem a => exact Rel.memWrite hR.toStorable a n v
  | push => exact Rel.push hR.toStorable hR.stack n v

/-! ### The shapes of instructions -/

theorem Rel.modifyOp (hR : Operable R) (hpsr : ∀ f, Rel R (updPsr f)) (src dst : Gen) (m n : Nat)
    {f : BitVec (8 * m) → BitVec (8 * n) → M (Result (8 * n))} (hf : ∀ a b, Rel R (f a b)) :
    Rel R (modifyOp src dst m n f) := by
  have hF := hR.toFrameable
  exact Rel.bind hF (Rel.rd hR.toShared hR.stack _ _) (fun a => Rel.bind hF (Rel.dstModify hR.toShared _) (fun d =>
    Rel.bind hF (Rel.getDest hR.toShared _ _) (fun b => Rel.bind hF (hf a b) (fun r => Rel.bind hF (Rel.putDest hR _ _ _)
    (fun _ => Rel.bind hF (hpsr _) (fun _ => Rel.pure hF _))))))

theorem Rel.moveOp (hR : Operable R) (hpsr : ∀ f, Rel R (updPsr f)) (src dst : Gen) (m n : Nat)
    {f : BitVec (8 * m) → M (Result (8 * n))} (hf : ∀ a, Rel R (f a)) : Rel R (moveOp src dst m n f) := by
  have hF := hR.toFrameable
  exact Rel.bind hF (Rel.rd hR.toShared hR.stack _ _) (fun a => Rel.bind hF (Rel.dstWrite hR.toShared _) (fun d =>
    Rel.bind hF (hf a) (fun r => Rel.bind hF (Rel.putDest hR _ _ _) (fun _ =>
    Rel.bind hF (hpsr _) (fun _ => Rel.pure hF _)))))

theorem Rel.storeOp (hR : Operable R) (dst : Gen) (n : Nat) (v : BitVec (8 * n)) : Rel R (storeOp dst n v) := by
  have hF := hR.toFrameable
  exact Rel.bind hF (Rel.dstWrite hR.toShared _) (fun d => Rel.bind hF (Rel.putDest hR _ _ _) (fun _ => Rel.pure hF _))

/-- An instruction of classes read and rmw, run on operands that can be read and written. -/
theorem run_modifyOp {src dst : Gen} {m n : Nat} {f : BitVec (8 * m) → BitVec (8 * n) → M (Result (8 * n))}
    {s s1 s2 s3 s4 s5 : State} {a : BitVec (8 * m)} {d : Dest} {b : BitVec (8 * n)} {r : Result (8 * n)}
    (ha : rd src m s = .ok (a, s1)) (hd : dstModify dst s1 = .ok (d, s2)) (hb : getDest d n s2 = .ok (b, s3))
    (hr : f a b s3 = .ok (r, s4)) (hp : putDest d n r.val s4 = .ok ((), s5)) :
    modifyOp src dst m n f s = .ok (.seq, { s5 with psr := r.flags s5.psr, psrTouched := true }) := by
  unfold modifyOp
  rw [run_bind_of_ok ha, run_bind_of_ok hd, run_bind_of_ok hb, run_bind_of_ok hr, run_bind_of_ok hp]
  rfl

/-- An instruction of classes read and write, run on operands that can be read and written. -/
theorem run_moveOp {src dst : Gen} {m n : Nat} {f : BitVec (8 * m) → M (Result (8 * n))}
    {s s1 s2 s3 s4 : State} {a : BitVec (8 * m)} {d : Dest} {r : Result (8 * n)}
    (ha : rd src m s = .ok (a, s1)) (hd : dstWrite dst s1 = .ok (d, s2))
    (hr : f a s2 = .ok (r, s3)) (hp : putDest d n r.val s3 = .ok ((), s4)) :
    moveOp src dst m n f s = .ok (.seq, { s4 with psr := r.flags s4.psr, psrTouched := true }) := by
  unfold moveOp
  rw [run_bind_of_ok ha, run_bind_of_ok hd, run_bind_of_ok hr, run_bind_of_ok hp]
  rfl

theorem run_storeOp {dst : Gen} {n : Nat} {v : BitVec (8 * n)} {s s1 s2 : State} {d : Dest}
    (hd : dstWrite dst s = .ok (d, s1)) (hp : putDest d n v s1 = .ok ((), s2)) :
    storeOp dst n v s = .ok (.seq, s2) := by
  unfold storeOp
  rw [run_bind_of_ok hd, run_bind_of_ok hp]
  rfl

/-- A modifying instruction that went on has read its operands and written its result. -/
theorem modifyOp_ok {src dst : Gen} {m n : Nat} {f : BitVec (8 * m) → BitVec (8 * n) → M (Result (8 * n))}
    {s t : State} {x : Next} (h : modifyOp src dst m n f s = .ok (x, t)) :
    ∃ a s1 d s2 b s3 r s4 s5, rd src m s = .ok (a, s1) ∧ dstModify dst s1 = .ok (d, s2) ∧
      getDest d n s2 = .ok (b, s3) ∧ f a b s3 = .ok (r, s4) ∧ putDest d n r.val s4 = .ok ((), s5) ∧
      x = .seq ∧ t = { s5 with psr := r.flags s5.psr, psrTouched := true } := by
  unfold modifyOp at h
  obtain ⟨a, s1, ha, h⟩ := bind_eq_ok.1 h
  obtain ⟨d, s2, hd, h⟩ := bind_eq_ok.1 h
  obtain ⟨b, s3, hb, h⟩ := bind_eq_ok.1 h
  obtain ⟨r, s4, hr, h⟩ := bind_eq_ok.1 h
  obtain ⟨u, s5, hp, h⟩ := bind_eq_ok.1 h
  cases h
  exact ⟨a, s1, d, s2, b, s3, r, s4, s5, ha, hd, hb, hr, hp, rfl, rfl⟩

/-- A moving instruction that went on has read its source and written its result. -/
theorem moveOp_ok {src dst : Gen} {m n : Nat} {f : BitVec (8 * m) → M (Result (8 * n))}
    {s t : State} {x : Next} (h : moveOp src dst m n f s = .ok (x, t)) :
    ∃ a s1 d s2 r s3 s4, rd src m s = .ok (a, s1) ∧ dstWrite dst s1 = .ok (d, s2) ∧
      f a s2 = .ok (r, s3) ∧ putDest d n r.val s3 = .ok ((), s4) ∧
      x = .seq ∧ t = { s4 with psr := r.flags s4.psr, psrTouched := true } := by
  unfold moveOp at h
  obtain ⟨a, s1, ha, h⟩ := bind_eq_ok.1 h
  obtain ⟨d, s2, hd, h⟩ := bind_eq_ok.1 h
  obtain ⟨r, s3, hr, h⟩ := bind_eq_ok.1 h
  obtain ⟨u, s4, hp, h⟩ := bind_eq_ok.1 h
  cases h
  exact ⟨a, s1, d, s2, r, s3, s4, ha, hd, hr, hp, rfl, rfl⟩

/-! ### What operands change -/

/-- What reading an operand may change: the selected stack pointer and the place in the stream of free values. -/
def OnlySp (s t : State) : Prop := ∃ x y k, t = { s with sp0 := x, sp1 := y, freeCount := k }

theorem calmSp_frameable : Frameable (WhenCalm OnlySp) :=
  WhenCalm.frameable (fun s => ⟨s.sp0, s.sp1, s.freeCount, rfl⟩)
    (by
      rintro s t u ⟨x, y, k, rfl⟩ ⟨x', y', k', rfl⟩
      exact ⟨x', y', k', rfl⟩)
    (fun s k => ⟨s.sp0, s.sp1, k, rfl⟩)

theorem onlySp_setSp (s : State) (v : Word) : OnlySp s (s.setSp v) := by
  unfold State.setSp
  split
  · exact ⟨s.sp0, v, s.freeCount, rfl⟩
  · exact ⟨v, s.sp1, s.freeCount, rfl⟩

theorem rd_onlySp {g : Gen} {n : Nat} {s t : State} {v : BitVec (8 * n)} (hs : s.calm) (h : rd g n s = .ok (v, t)) :
    OnlySp s t :=
  ((Rel.rd (WhenCalm.shared calmSp_frameable) (fun s v => WhenCalm.of (by simp) (onlySp_setSp s v)) g n s).ok v t h).2 hs

/-- A source that is not Top of Stack moves no stack pointer. -/
theorem rd_onlyFree {g : Gen} {n : Nat} {s t : State} {v : BitVec (8 * n)} (hs : s.calm) (hg : g ≠ .mode .tos)
    (h : rd g n s = .ok (v, t)) : OnlyFree s t := by
  have hm : ∀ g, (do
      let a ← ea g
      memRead a n : M (BitVec (8 * n))) s = .ok (v, t) → OnlyFree s t := fun g h =>
    ((Rel.bind calmFree_shared.toFrameable (Rel.ea calmFree_shared g) (fun a => Rel.memRead calmFree_shared a n) s).ok
      v t h).2 hs
  cases g with
  | imm v => cases h; exact onlyFree_frameable.refl s
  | scaled k b x => exact hm _ h
  | mode m =>
    cases m with
    | reg r => cases h; exact onlyFree_frameable.refl s
    | tos => exact absurd rfl hg
    | regRel r d => exact hm _ h
    | memRel a d1 d2 => exact hm _ h
    | abs d => exact hm _ h
    | ext d1 d2 => exact hm _ h
    | space a d => exact hm _ h
    | prog d => exact hm _ h

/-- A pop (R39): the bytes at the selected stack pointer, which moves up. -/
theorem pop_ok {n : Nat} {s t : State} {v : BitVec (8 * n)} (h : pop n s = .ok (v, t)) :
    ∃ u, memRead s.sp n s = .ok (v, u) ∧ t = u.setSp (s.sp + BitVec.ofNat 32 n) := by
  unfold pop at h
  rw [bind_eq_ok] at h
  obtain ⟨a, u, ha, h⟩ := h
  cases ha
  obtain ⟨w, u, hw, h⟩ := bind_eq_ok.1 h
  cases h
  exact ⟨u, hw, rfl⟩

/-- A push (R39): the selected stack pointer moves down and the bytes are stored there. -/
theorem push_ok {n : Nat} {s t : State} {v : BitVec (8 * n)} {x : Unit} (h : push n v s = .ok (x, t)) :
    ∃ u, memWrite (s.sp - BitVec.ofNat 32 n) n v s = .ok ((), u) ∧ t = u.setSp (s.sp - BitVec.ofNat 32 n) := by
  unfold push at h
  rw [bind_eq_ok] at h
  obtain ⟨a, u, ha, h⟩ := h
  cases ha
  obtain ⟨w, u, hw, h⟩ := bind_eq_ok.1 h
  cases h
  exact ⟨u, hw, rfl⟩

theorem dstModify_onlyFree {g : Gen} {s t : State} {d : Dest} (hs : s.calm) (h : dstModify g s = .ok (d, t)) :
    OnlyFree s t := ((Rel.dstModify calmFree_shared g s).ok d t h).2 hs

theorem dstWrite_onlyFree {g : Gen} {s t : State} {d : Dest} (hs : s.calm) (h : dstWrite g s = .ok (d, t)) :
    OnlyFree s t := ((Rel.dstWrite calmFree_shared g s).ok d t h).2 hs

theorem getDest_onlyFree {d : Dest} {n : Nat} {s t : State} {v : BitVec (8 * n)} (hs : s.calm)
    (h : getDest d n s = .ok (v, t)) : OnlyFree s t := ((Rel.getDest calmFree_shared d n s).ok v t h).2 hs

theorem OnlyFree.calm {s t : State} (h : OnlyFree s t) (hs : s.calm) : t.calm := by
  obtain ⟨k, rfl⟩ := h
  exact hs

theorem OnlySp.calm {s t : State} (h : OnlySp s t) (hs : s.calm) : t.calm := by
  obtain ⟨x, y, k, rfl⟩ := h
  exact hs

end Sys2Proof.Machine
end

