-- ==== Sys2Proof/Laws/Env.lean ====
section
/-! SUPPORT. What a whole instruction keeps, the interruptible points, and the invariant: as a relation, over reset inside an
instruction, and over the events before a step. -/

namespace Sys2Proof.Machine

open Sys2Proof

variable {α : Type} {R : State → State → Prop}

/-- What a relation must keep for a whole instruction to keep it. -/
structure Lively (R : State → State → Prop) : Prop extends Enterable R where
  reg : ∀ s r v, R s (State.setReg s r v)
  cpu : ∀ (s : State) fp intbase cfg bpu fpu,
    R s { s with fp := fp, intbase := intbase, cfg := cfg, bpu := bpu, fpu := fpu }

theorem Lively.operable (hR : Lively R) : Operable R :=
  { hR.toStorable with reg := hR.reg, stack := hR.toEnterable.setSp }

/-! ### Points -/

theorem Rel.point (hR : Shared R) : Rel R Machine.point := by
  have hF := hR.toFrameable
  exact Rel.bind hF (Rel.peek hF _) (fun _ => Rel.bind hF hR.gap (fun _ => Rel.bind hF (Rel.get hF) (fun _ =>
    Rel.ite (fun _ => Rel.pure hF _) (fun _ => Rel.pure hF _))))

theorem Rel.loop (hR : Shared R) {body : M Bool} (hb : Rel R body) (n : Nat) : Rel R (loop body n) := by
  have hF := hR.toFrameable
  induction n with
  | zero => exact Rel.pure hF _
  | succ n ih =>
    refine Rel.bind hF hb (fun again => Rel.ite (fun _ => Rel.bind hF (Rel.point hR) (fun p => ?_)) (fun _ => Rel.pure hF _))
    cases p
    · exact ih
    · exact Rel.pure hF _

theorem Rel.endLoop (hR : Enterable R) (clearP : Bool) (e : Ended) : Rel R (endLoop clearP e) := by
  have hF := hR.toFrameable
  cases e
  · exact Rel.pure hF _
  · exact Rel.bind hF (Rel.onlyIf hF _ (fun _ => hR.pending)) (fun _ => Rel.bind hF (Rel.peek hF _) (fun _ =>
      Rel.bind hF (Rel.interruptSequence hR _) (fun _ => Rel.pure hF _)))

/-- With nothing laid down an interruptible point changes nothing; it takes the interrupt that is pending. -/
theorem run_point_calm {s : State} (hs : s.calm) :
    point s = .ok (if s.interruptPending then .interrupt else .goOn, s) := by
  unfold point
  rw [run_peek_bind, run_bind_of_ok (run_gap_calm hs), run_get_bind]
  show (if s.interruptPending && !(s.within.headD []).contains .passPoint then pure Point.interrupt else pure Point.goOn : M Point)
    s = _
  rw [show s.within = [] from hs]
  cases s.interruptPending <;> rfl

/-! ### DMA parameters -/

/-- The check of a channel's parameters is what the statements say of them (R774 c). -/
theorem DmaChan.paramsOk_iff (c : DmaChan) : c.paramsOk = true ↔ DmaEven c := by
  simp only [DmaChan.paramsOk, DmaChan.aligned, DmaEven]
  cases c.bwWord <;> cases c.adrSet <;> cases c.ot <;> cases c.vld <;> simp [and_assoc]

/-- A program's change of a channel: made if the channel is then disabled or its parameters are right, else refused. -/
theorem run_chanStore (ch : Chan) (f : DmaChan → DmaChan) (s : State) :
    chanStore ch f s = if (f (s.dma.chan ch)).chen = false ∨ DmaEven (f (s.dma.chan ch)) then .ok ((), s.modChan ch f)
      else .error (.refuse .dmaProgramming) := by
  unfold chanStore
  rw [run_peek_bind]
  by_cases h : (f (s.dma.chan ch)).chen = false ∨ DmaEven (f (s.dma.chan ch))
  · rw [if_pos h, show (!(f (s.dma.chan ch)).chen || (f (s.dma.chan ch)).paramsOk) = true by
      rcases h with h | h
      · rw [h]; rfl
      · rw [(DmaChan.paramsOk_iff _).2 h, Bool.or_true]]
    rfl
  · rw [if_neg h, show (!(f (s.dma.chan ch)).chen || (f (s.dma.chan ch)).paramsOk) = false by
      rw [← DmaChan.paramsOk_iff] at h
      simpa using h]
    rfl

/-! ### The invariant -/

/-- The invariant as a relation: it is kept, and what is laid down stays or is used up. -/
def KeepsInv (s t : State) : Prop := (s.Inv → t.Inv) ∧ Spends s t

theorem KeepsInv.of {s t : State} (h : s.Inv → t.Inv) (hw : t.within = s.within) : KeepsInv s t := ⟨h, Spends.of_eq hw⟩

theorem keepsInv_frameable : Frameable KeepsInv where
  refl _ := KeepsInv.of id rfl
  trans h1 h2 := ⟨fun h => h2.1 (h1.1 h), spends_frameable.trans h1.2 h2.2⟩
  free _ _ := KeepsInv.of id rfl
  spends h := h.2

theorem and_FFFE_bit0 (v : Half) : (v &&& 0xFFFE).getLsbD 0 = false := by
  rw [BitVec.getLsbD_and]; simp

theorem keepsInv_modChan (s : State) (ch : Chan) (g : DmaChan → DmaChan)
    (hg : ∀ c : DmaChan, c.ok → (g c).ok) : KeepsInv s (s.modChan ch g) := by
  refine KeepsInv.of ?_ rfl
  rintro ⟨h1, h2, h3, h4, h5, h6⟩
  cases ch
  · exact ⟨h1, h2, h3, hg _ h4, h5, h6⟩
  · exact ⟨h1, h2, h3, h4, hg _ h5, h6⟩

theorem keepsInv_setTimer (s : State) (k : TimerId) (x : Timer) : KeepsInv s (s.setTimer k x) := by
  cases k <;> exact KeepsInv.of id rfl

theorem keepsInv_deposit (s : State) (as : List Word) (bs : List Byte) (ha : ∀ a ∈ as, a.toNat < Config.externalEnd) :
    KeepsInv s (s.deposit as bs) := by
  refine KeepsInv.of ?_ rfl
  rintro ⟨h1, h2, h3, h4, h5, h6⟩
  refine ⟨Memory.wf_writeAll _ h1, Memory.external_writeAll (fun c hc => ?_) h2, h3, h4, h5, h6⟩
  obtain ⟨x, hx, hxc⟩ := List.mem_map.1 (List.of_mem_zip hc).1
  exact hxc ▸ ha x hx

theorem keepsInv_chip (r : PReg) (v : Word) : Rel KeepsInv (regWrite r v) :=
  Rel.regWrite_of keepsInv_frameable (fun _ _ => KeepsInv.of id rfl) keepsInv_setTimer
    (fun _ v => KeepsInv.of (fun ⟨h1, h2, _, h4⟩ => ⟨h1, h2, and_FFFE_bit0 v, h4⟩) rfl)
    (fun s ch g hg => keepsInv_modChan s ch g hg) r v

theorem DmaChan.terminalCount_ok {c : DmaChan} (h : c.ok) : c.terminalCount.ok := by
  unfold DmaChan.terminalCount
  simp only
  split
  · exact h
  · split
    · exact h
    · exact DmaChan.settle_ok _

theorem DmaChan.endCycle_ok {c : DmaChan} (e : Bool) (h : c.ok) : (c.endCycle e).ok := by
  have key : ∀ d : DmaChan, d.ok → (if e = true then { d with eot := true }.settle
      else if d.bltc = 0 then d.terminalCount else d).ok := by
    intro d hd
    split
    · exact DmaChan.settle_ok _
    · split
      · exact DmaChan.terminalCount_ok hd
      · exact hd
  exact key _ h

theorem keepsInv_busWrite (s : State) (a : BitVec 24) (v : Byte) : KeepsInv s (s.busWrite a.toNat v) := by
  unfold State.busWrite
  split
  · refine KeepsInv.of ?_ rfl
    rintro ⟨h1, h2, h3, h4, h5, h6⟩
    exact ⟨Memory.wf_write _ _ h1, Memory.external_write _ a.isLt h2, h3, h4, h5, h6⟩
  · exact KeepsInv.of id rfl

/-- The agents beside the CPU keep the invariant. -/
theorem keepsInv_eventful : Eventful KeepsInv where
  toFrameable := keepsInv_frameable
  deposit := keepsInv_deposit
  chip := keepsInv_chip
  bus := keepsInv_busWrite
  cycle s ch e := keepsInv_modChan s ch _ (fun _ h => DmaChan.endCycle_ok e h)
  timer := keepsInv_setTimer
  pins _ _ := KeepsInv.of id rfl
  latch _ _ := KeepsInv.of id rfl
  mode _ _ := KeepsInv.of id rfl
  out _ _ := KeepsInv.of id rfl

/-- RSTI low leaves the invariant (R760). -/
theorem keepsInv_resetLow (s : State) : KeepsInv s s.resetLow :=
  KeepsInv.of (fun h => ⟨h.1, h.2.1, (by decide : (0 : Half).getLsbD 0 = false), fun _ => rfl, fun _ => rfl,
    fun _ ha => (by cases ha)⟩) rfl

theorem keepsInv_event (e : Event) : Rel KeepsInv (event e) := by
  by_cases he : e = .rstiLow
  · subst he; exact Rel.upd keepsInv_resetLow
  · exact Rel.event keepsInv_eventful he

theorem acknowledge_bit0 (s : State) : s.acknowledge.isrv.getLsbD 0 = false := by
  rw [State.acknowledge_isrv]; exact and_FFFE_bit0 _

theorem endOfInterrupt_bit0 {s : State} (h : s.isrv.getLsbD 0 = false) : s.endOfInterrupt.isrv.getLsbD 0 = false := by
  rw [State.endOfInterrupt_isrv]
  split
  · exact h
  · rw [BitVec.getLsbD_and, h]; rfl

theorem keepsInv_storable : Storable KeepsInv where
  toFrameable := keepsInv_frameable
  gap := Rel.gap_of keepsInv_frameable (fun e _ => keepsInv_event e) (fun _ => ⟨id, fun _ hl => List.mem_of_mem_tail hl⟩)
  store s as bs ha := by
    refine KeepsInv.of (fun h => ?_) rfl
    obtain ⟨h1, h2, h3, h4, h5, h6⟩ := (keepsInv_deposit s as bs ha).1 h
    refine ⟨h1, h2, h3, h4, h5, fun a hm => ?_⟩
    rcases List.mem_append.1 hm with hm | hm
    · exact h6 a hm
    · obtain ⟨x, hx, rfl⟩ := List.mem_map.1 hm
      exact ha x hx
  chip := keepsInv_chip

/-- The invariant is kept by everything an instruction does. -/
theorem keepsInv_lively : Lively KeepsInv where
  toStorable := keepsInv_storable
  control := by
    intro s pc sp0 sp1 sb m psr touched isrv latch op hi
    refine KeepsInv.of ?_ rfl
    rintro ⟨h1, h2, h3, h4, h5⟩
    refine ⟨h1, h2, ?_, h4, h5⟩
    rcases hi with rfl | rfl | rfl
    · exact h3
    · exact acknowledge_bit0 s
    · exact endOfInterrupt_bit0 h3
  purged _ := KeepsInv.of id rfl
  entered h := ⟨fun hs => let ⟨h1, h2, h3, h4, h5, _⟩ := h.1 hs; ⟨h1, h2, h3, h4, h5, hs.2.2.2.2.2⟩, h.2⟩
  reg _ _ _ := KeepsInv.of id rfl
  cpu _ _ _ _ _ _ := KeepsInv.of id rfl

/-! ### Reset inside an instruction -/

theorem keepsInv_freeBytes (l : List Nat) (h : ∀ a ∈ l, a < Config.externalEnd) : Rel KeepsInv (freeBytes l) := by
  induction l with
  | nil => exact Rel.pure keepsInv_frameable _
  | cons a t ih =>
    refine Rel.bind keepsInv_frameable (Rel.fresh keepsInv_frameable _) (fun v => Rel.bind keepsInv_frameable
      (Rel.upd (fun s => KeepsInv.of ?_ rfl)) (fun _ => ih (fun x hx => h x (by simp [hx]))))
    rintro ⟨h1, h2, h3⟩
    exact ⟨Memory.wf_write _ _ h1, Memory.external_write _ (h a (by simp)) h2, h3⟩

theorem keepsInv_freeRegs (l : List Reg) : Rel KeepsInv (freeRegs l) := by
  induction l with
  | nil => exact Rel.pure keepsInv_frameable _
  | cons r t ih =>
    exact Rel.bind keepsInv_frameable (Rel.fresh keepsInv_frameable _) (fun _ => Rel.bind keepsInv_frameable
      (Rel.upd (fun s => keepsInv_lively.reg s _ _)) (fun _ => ih))

/-- What reset inside an instruction leaves keeps the invariant, if the bytes due are external memory. -/
theorem keepsInv_cutByReset {due : List Nat} (h : ∀ a ∈ due, a < Config.externalEnd) (post : List Event) :
    Rel KeepsInv (cutByReset due post) := by
  have hF := keepsInv_frameable
  have f : ∀ {β : Type} {n : Nat} {m : BitVec n → M β}, (∀ v, Rel KeepsInv (m v)) → Rel KeepsInv (fresh n >>= m) :=
    fun hm => Rel.bind hF (Rel.fresh hF _) hm
  have chan : ∀ ch, Rel KeepsInv (freeChan ch) := fun ch => f fun _ => f fun _ =>
    Rel.upd (fun s => keepsInv_modChan s ch _ (fun _ h => h))
  have timer : ∀ k, Rel KeepsInv (freeTimer k) := fun k => f fun _ => f fun _ => f fun _ =>
    Rel.upd (fun s => keepsInv_setTimer s k _)
  refine Rel.bind hF (Rel.upd keepsInv_resetLow) fun _ => Rel.bind hF (keepsInv_freeRegs _) fun _ =>
    Rel.bind hF (f fun _ => f fun _ => f fun _ => f fun _ => f fun _ => f fun _ => Rel.upd (fun s => KeepsInv.of id rfl))
      fun _ => Rel.bind hF (f fun _ => f fun _ => f fun _ => f fun _ => f fun _ =>
      Rel.upd (fun s => KeepsInv.of id rfl)) fun _ => Rel.bind hF (chan _) fun _ => Rel.bind hF (chan _) fun _ =>
    Rel.bind hF (timer _) fun _ => Rel.bind hF (timer _) fun _ => Rel.bind hF (timer _) fun _ =>
    Rel.bind hF (keepsInv_freeBytes _ h) fun _ => Rel.events hF keepsInv_event _

/-- The bytes due are external memory. -/
theorem dueBytes_external {m : M α} (hm : Rel KeepsInv m) {s c : State} (hs : s.Inv) (hc : c.Inv) :
    ∀ a ∈ dueBytes m s c, a < Config.externalEnd := by
  have hu : ({ s with within := beforeReset s.within } : State).Inv := hs
  have hr := hm { s with within := beforeReset s.within }
  unfold dueBytes
  split
  · exact ((hr.ok _ _ ‹_›).1 hu).2.2.2.2.2
  · exact ((hr.trap _ _ ‹_›).1 hu).2.2.2.2.2
  all_goals exact hc.2.2.2.2.2

theorem ended_inv {s : State} (h : s.Inv) : s.ended.Inv :=
  ⟨h.1, h.2.1, h.2.2.1, h.2.2.2.1, h.2.2.2.2.1, fun _ ha => (by cases ha)⟩

/-- An outcome's state has the invariant if the computation keeps it. -/
theorem outcomeOf_inv {r : Except Stop (α × State)} {s t : State} (hs : s.Inv) (h : RelAt KeepsInv r s)
    (e : outcomeOf r = .next t) : t.Inv := by
  unfold outcomeOf at e
  split at e <;> cases e
  · exact ended_inv ((h.ok _ _ rfl).1 hs)
  · exact ended_inv ((h.trap _ _ rfl).1 hs)
  · exact ended_inv ((h.cut _ _ _ rfl).1.1 hs)

/-- A whole computation that keeps the invariant keeps it even when RSTI cuts it short. -/
theorem settled_inv {m : M α} (hm : Rel KeepsInv m) {s t : State} (hs : s.Inv) (e : settled m s = .next t) : t.Inv := by
  unfold settled at e
  split at e
  · rename_i p c hc
    have hci := ((hm s).cut p _ c hc).1.1 hs
    exact outcomeOf_inv hci (keepsInv_cutByReset (dueBytes_external hm hs hci) p c) e
  · rename_i p c hc
    have hci := ((hm s).cut p _ c hc).1.1 hs
    exact outcomeOf_inv hci (keepsInv_cutByReset (fun _ h => (by cases h)) p c) e
  · exact outcomeOf_inv hs (hm s) e

/-- An instruction whose meaning keeps the invariant keeps it. -/
theorem finish_inv {i : Instr} {m : M Next} (hm : Rel KeepsInv m) {s t : State} (hs : s.Inv) (e : finish i m s = .next t) :
    t.Inv := settled_inv (Rel.complete keepsInv_lively.toEnterable hm i) hs e

/-- The events before a step keep the invariant. -/
theorem arrive_inv {s : State} (hs : s.Inv) : ∃ u : State, u.Inv ∧ RelAt KeepsInv (arrive s) u := by
  unfold arrive
  rw [run_peek_bind]
  cases s.inputs with
  | nil => exact ⟨{ s with within := [] }, hs, RelAt.of_ok (keepsInv_frameable.refl _)⟩
  | cons x t => exact ⟨{ s with inputs := t, within := x.within }, hs, Rel.events keepsInv_frameable keepsInv_event _ _⟩

end Sys2Proof.Machine
end

