-- ==== Sys2Proof/Laws/Keeps.lean ====
section
/-! SUPPORT. The shared operations of the instruction families keep every relation of the kind `Lively`. -/

namespace Sys2Proof.Machine

open Sys2Proof

variable {R : State → State → Prop}

section
variable (hR : Lively R)
include hR

theorem Lively.setSp (s : State) (v : Word) : R s (s.setSp v) := hR.toEnterable.setSp s v
theorem Lively.rdR (g : Gen) (n : Nat) : Rel R (rd g n) := Rel.rd hR.toShared hR.setSp g n
theorem Lively.putR (d : Dest) (n : Nat) (v : BitVec (8 * n)) : Rel R (putDest d n v) := Rel.putDest hR.operable d n v
theorem Lively.writeR (a : Word) (n : Nat) (v : BitVec (8 * n)) : Rel R (memWrite a n v) :=
  Rel.memWrite hR.toStorable a n v
theorem Lively.readR (a : Word) (n : Nat) : Rel R (memRead a n) := Rel.memRead hR.toShared a n
theorem Lively.pushR (n : Nat) (v : BitVec (8 * n)) : Rel R (push n v) := Rel.push hR.toStorable hR.setSp n v
theorem Lively.popR (n : Nat) : Rel R (pop n) := Rel.pop hR.toShared hR.setSp n
theorem Lively.setRegR (r : Reg) (v : Word) : Rel R (setReg r v) := Rel.upd (fun s => hR.reg s r v)
theorem Lively.setSpR (v : Word) : Rel R (Machine.setSp v) := Rel.upd (fun s => hR.setSp s v)
theorem Lively.updPsrR (f : Psr → Psr) : Rel R (updPsr f) := hR.toEnterable.psr f
theorem Lively.purgeR : Rel R purge := Rel.upd hR.purged
theorem Lively.modSb (s : State) (sb : Word) (m : Half) : R s { s with sb := sb, mod := m } :=
  hR.control s s.pc s.sp0 s.sp1 sb m s.psr s.psrTouched s.isrv s.nmiLatch s.op (.inl rfl)
theorem Lively.setFp (s : State) (v : Word) : R s { s with fp := v } :=
  hR.cpu s v s.intbase s.cfg s.bpu s.fpu
theorem Lively.setBpu (s : State) (b : Bpu) : R s { s with bpu := b } :=
  hR.cpu s s.fp s.intbase s.cfg b s.fpu
theorem Lively.setFpu (s : State) (x : Fpu) (op : OpState) : R s { s with fpu := x, op := op } :=
  hR.trans (hR.cpu s s.fp s.intbase s.cfg s.bpu x)
    (hR.control _ s.pc s.sp0 s.sp1 s.sb s.mod s.psr s.psrTouched s.isrv s.nmiLatch op (.inl rfl))
theorem Lively.modify (src dst : Gen) (m n : Nat) {f : BitVec (8 * m) → BitVec (8 * n) → M (Result (8 * n))}
    (hf : ∀ a b, Rel R (f a b)) : Rel R (modifyOp src dst m n f) := Rel.modifyOp hR.operable hR.updPsrR src dst m n hf
theorem Lively.move (src dst : Gen) (m n : Nat) {f : BitVec (8 * m) → M (Result (8 * n))}
    (hf : ∀ a, Rel R (f a)) : Rel R (moveOp src dst m n f) := Rel.moveOp hR.operable hR.updPsrR src dst m n hf
theorem Lively.storeR (dst : Gen) (n : Nat) (v : BitVec (8 * n)) : Rel R (storeOp dst n v) :=
  Rel.storeOp hR.operable dst n v

/-! ### Blocks, comparisons, packed numbers -/

theorem Lively.copyBlock (z n : Nat) (a b : Word) : Rel R (copyBlock z n a b) := by
  induction n generalizing a b with
  | zero => exact Rel.pure hR.toFrameable _
  | succ n ih =>
    exact Rel.bind hR.toFrameable (hR.readR _ _) (fun _ => Rel.bind hR.toFrameable (hR.writeR _ _ _) (fun _ => ih _ _))

theorem Lively.compareBlock (z n : Nat) (a b : Word) : Rel R (compareBlock z n a b) := by
  induction n generalizing a b with
  | zero => exact hR.updPsrR _
  | succ n ih =>
    exact Rel.bind hR.toFrameable (hR.readR _ _) (fun _ => Rel.bind hR.toFrameable (hR.readR _ _) (fun _ =>
      Rel.ite (fun _ => ih _ _) (fun _ => hR.updPsrR _)))

theorem Lively.blockCount (i : Size) (d : Disp) : Rel R (blockCount i d) :=
  Rel.ite (fun _ => Rel.refuse _) (fun _ => Rel.pure hR.toFrameable _)

theorem Lively.packed {w : Nat} (a b : BitVec w) (r : Result w) : Rel R (packed a b r) :=
  Rel.ite (fun _ => Rel.pure hR.toFrameable _) (fun _ => Rel.bind hR.toFrameable (Rel.fresh hR.toFrameable _) (fun _ =>
    Rel.bind hR.toFrameable (Rel.fresh hR.toFrameable _) (fun _ => Rel.pure hR.toFrameable _)))

theorem Lively.divisor {w : Nat} (a : BitVec w) : Rel R (divisor a) :=
  Rel.ite (fun _ => Rel.raise hR.toFrameable _) (fun _ => Rel.pure hR.toFrameable _)

/-! ### Bits and fields -/

theorem Lively.bitOp (i : Size) (off base : Gen) (f : Option (Bool → Bool)) : Rel R (bitOp i off base f) := by
  have hF := hR.toFrameable
  refine Rel.bind hF (hR.rdR _ _) (fun v => Rel.bind hF (Rel.dstModify hR.toShared _) (fun d => Rel.bind hF (Rel.getDest hR.toShared _ _)
    (fun x => Rel.bind hF ?_ (fun _ => Rel.bind hF (hR.updPsrR _) (fun _ => Rel.pure hF _)))))
  cases f with
  | none => exact Rel.pure hF _
  | some g => exact hR.putR _ _ _

theorem Lively.locate (d : Dest) (o len : Word) : Rel R (locate d o len) := by
  have hF := hR.toFrameable
  have hp : ∀ d, Rel R (fieldPlace d o) := by
    intro d
    cases d with
    | mem a => exact Rel.pure hF _
    | reg r => exact Rel.bind hF (Rel.require hF _ _) (fun _ => Rel.pure hF _)
    | pair r => exact Rel.bind hF (Rel.require hF _ _) (fun _ => Rel.pure hF _)
    | push => exact Rel.bind hF (Rel.require hF _ _) (fun _ => Rel.pure hF _)
  exact Rel.bind hF (Rel.require hF _ _) (fun _ => Rel.bind hF (hp d) (fun _ => Rel.bind hF (Rel.require hF _ _)
    (fun _ => Rel.pure hF _)))

theorem Lively.extractOp (i : Size) (o len : Word) (base dst : Gen) : Rel R (extractOp i o len base dst) := by
  have hF := hR.toFrameable
  exact Rel.bind hF (Rel.dstModify hR.toShared _) (fun _ => Rel.bind hF (hR.locate _ _ _) (fun _ => Rel.bind hF
    (Rel.getDest hR.toShared _ _) (fun _ => Rel.bind hF (Rel.dstWrite hR.toShared _) (fun _ => Rel.bind hF (hR.putR _ _ _)
    (fun _ => Rel.pure hF _)))))

theorem Lively.insertOp (i : Size) (o len : Word) (src base : Gen) : Rel R (insertOp i o len src base) := by
  have hF := hR.toFrameable
  exact Rel.bind hF (hR.rdR _ _) (fun _ => Rel.bind hF (Rel.dstModify hR.toShared _) (fun _ => Rel.bind hF (hR.locate _ _ _)
    (fun _ => Rel.bind hF (Rel.getDest hR.toShared _ _) (fun _ => Rel.bind hF (hR.putR _ _ _) (fun _ => Rel.pure hF _)))))

theorem Lively.checkFailed (dst : Reg) : Rel R (checkFailed dst) :=
  Rel.bind hR.toFrameable (Rel.fresh hR.toFrameable _) (fun _ => hR.setRegR _ _)

/-! ### Strings -/

theorem Lively.loop {body : M Bool} (hb : Rel R body) (n : Nat) : Rel R (loop body n) :=
  Rel.loop hR.toShared hb n

theorem Lively.strIteration (k : StrKind) (o : StrOpts) (n : Nat) (t : Bool) : Rel R (strIteration k o n t) := by
  have hF := hR.toFrameable
  have hg : ∀ r, Rel R (getReg r) := Rel.getReg hF
  refine Rel.bind hF ?_ (fun x => Rel.bind hF (hg _) (fun r4 => Rel.ite
    (fun _ => Rel.bind hF (hR.updPsrR _) (fun _ => Rel.pure hF _))
    (fun _ => Rel.bind hF ?_ (fun on => Rel.ite (fun _ => ?_) (fun _ => Rel.pure hF _)))))
  · exact Rel.bind hF (hg _) (fun _ => Rel.bind hF (hR.readR _ _) (fun _ => Rel.ite
      (fun _ => Rel.bind hF (hg _) (fun _ => Rel.bind hF (hR.readR _ _) (fun _ => Rel.pure hF _)))
      (fun _ => Rel.pure hF _)))
  · cases k
    · exact Rel.bind hF (hg _) (fun _ => Rel.bind hF (hR.writeR _ _ _) (fun _ => Rel.pure hF _))
    · exact Rel.bind hF (hg _) (fun _ => Rel.bind hF (hR.readR _ _) (fun _ => Rel.ite (fun _ => Rel.pure hF _)
        (fun _ => Rel.bind hF (hR.updPsrR _) (fun _ => Rel.pure hF _))))
    · exact Rel.pure hF _
  · exact Rel.bind hF (hg _) (fun _ => Rel.bind hF (hR.setRegR _ _) (fun _ => Rel.bind hF
      (Rel.onlyIf hF _ (fun _ => Rel.bind hF (hg _) (fun _ => hR.setRegR _ _)))
      (fun _ => Rel.bind hF (hg _) (fun _ => Rel.bind hF (hR.setRegR _ _) (fun _ => Rel.pure hF _)))))

theorem Lively.stringOp (k : StrKind) (o : StrOpts) (n : Nat) (t : Bool) : Rel R (stringOp k o n t) := by
  have hF := hR.toFrameable
  exact Rel.bind hF (hR.updPsrR _) (fun _ => Rel.bind hF (Rel.getReg hF _) (fun _ =>
    Rel.bind hF (hR.loop (hR.strIteration k o n t) _) (fun _ => Rel.endLoop hR.toEnterable _ _)))

/-! ### Control -/

theorem Lively.branch (c : Cond) (d : Disp) : Rel R (branch c d) := by
  have hF := hR.toFrameable
  exact Rel.bind hF (Rel.peek hF _) (fun _ => Rel.bind hF (Rel.peek hF _) (fun _ =>
    Rel.ite (fun _ => Rel.pure hF _) (fun _ => Rel.pure hF _)))

theorem Lively.afterInstr (i : Instr) : Rel R (afterInstr i) :=
  Rel.bind hR.toFrameable (Rel.peek hR.toFrameable _) (fun _ => Rel.pure hR.toFrameable _)

theorem Lively.discard (n : Word) : Rel R (discard n) :=
  Rel.bind hR.toFrameable (Rel.getSp hR.toFrameable) (fun _ => hR.setSpR _)

theorem Lively.readDescriptor (a : Word) : Rel R (readDescriptor a) := by
  have hF := hR.toFrameable
  exact Rel.bind hF (hR.readR _ _) (fun _ => Rel.bind hF (hR.readR _ _) (fun _ => Rel.pure hF _))

theorem Lively.callDescriptor (desc ret : Word) : Rel R (callDescriptor desc ret) := by
  have hF := hR.toFrameable
  exact Rel.bind hF (Rel.getSp hF) (fun _ => Rel.bind hF (Rel.peek hF _) (fun _ => Rel.bind hF (hR.writeR _ _ _) (fun _ =>
    Rel.bind hF (hR.setSpR _) (fun _ => Rel.bind hF (hR.pushR _ _) (fun _ =>
    Rel.bind hF (Rel.upd (fun s => hR.modSb s s.sb _)) (fun _ => Rel.bind hF (hR.readR _ _) (fun _ =>
    Rel.bind hF (Rel.upd (fun s => hR.modSb s _ s.mod)) (fun _ => Rel.bind hF (hR.readR _ _) (fun _ =>
    Rel.pure hF _)))))))))

theorem Lively.pushRegs (l : List Reg) : Rel R (pushRegs l) := by
  have hF := hR.toFrameable
  induction l with
  | nil => exact Rel.pure hF _
  | cons r t ih => exact Rel.bind hF (Rel.getReg hF _) (fun _ => Rel.bind hF (hR.pushR _ _) (fun _ => ih))

theorem Lively.popRegs (l : List Reg) : Rel R (popRegs l) := by
  have hF := hR.toFrameable
  induction l with
  | nil => exact Rel.pure hF _
  | cons r t ih => exact Rel.bind hF (hR.popR _) (fun _ => Rel.bind hF (hR.setRegR _ _) (fun _ => ih))

/-! ### CPU registers -/

theorem Lively.setPsrLow {w : Nat} (v : BitVec w) : Rel R (setPsrLow v) :=
  Rel.upd (fun s => hR.control s s.pc s.sp0 s.sp1 s.sb s.mod _ _ s.isrv s.nmiLatch s.op (.inl rfl))

theorem Lively.aregPrivilege (a : AReg) : Rel R (aregPrivilege a) := by
  cases a <;> first | exact Rel.privileged hR.toFrameable | exact Rel.pure hR.toFrameable _

theorem Lively.psrLengthPrivilege (i : Size) : Rel R (psrLengthPrivilege i) := by
  cases i <;> first | exact Rel.privileged hR.toFrameable | exact Rel.pure hR.toFrameable _

theorem Lively.writeAreg {w : Nat} (a : AReg) (v : BitVec w) : Rel R (writeAreg a v) := by
  cases a
  · exact hR.setPsrLow _
  · exact Rel.upd (fun s => hR.setFp s _)
  · exact Rel.upd (fun s => hR.setSp s _)
  · exact Rel.upd (fun s => hR.modSb s _ s.mod)
  · exact hR.setPsrLow _
  · exact Rel.upd (fun s => hR.cpu s s.fp _ s.cfg s.bpu s.fpu)
  · exact Rel.upd (fun s => hR.modSb s s.sb _)

theorem Lively.readAreg (a : AReg) : Rel R (readAreg a) := by
  have hF := hR.toFrameable
  cases a <;> first
    | exact Rel.peek hF _
    | exact Rel.bind hF (Rel.readPsr hF) (fun _ => Rel.pure hF _)

/-! ### Floating point -/

theorem Lively.needFpu : Rel R needFpu :=
  Rel.bind hR.toFrameable (Rel.peek hR.toFrameable _) (fun _ =>
    Rel.ite (fun _ => Rel.pure hR.toFrameable _) (fun _ => Rel.raise hR.toFrameable _))

theorem Lively.fread (g : Gen) (n : Nat) : Rel R (fread g n) := by
  have hF := hR.toFrameable
  have h : ∀ g, Rel R (do
      let v ← Machine.rd g n
      Pure.pure (some (v.setWidth 64)) : M (Option (BitVec 64))) := fun g =>
    Rel.bind hF (hR.rdR _ _) (fun _ => Rel.pure hF _)
  cases g with
  | imm v => exact h (.imm v)
  | scaled k b x => exact h (.scaled k b x)
  | mode m => cases m <;> first | exact Rel.pure hF _ | (unfold Machine.fread; exact h _)

theorem Lively.fwrite (g : Gen) : Rel R (fwrite g) := by
  have hF := hR.toFrameable
  have h : ∀ g, Rel R (do
      let d ← Machine.dstWrite g
      Pure.pure (some d) : M (Option Dest)) := fun g =>
    Rel.bind hF (Rel.dstWrite hR.toShared _) (fun _ => Rel.pure hF _)
  cases g with
  | imm v => exact h (.imm v)
  | scaled k b x => exact h (.scaled k b x)
  | mode m => cases m <;> first | exact Rel.pure hF _ | (unfold Machine.fwrite; exact h _)

theorem Lively.fmodify (g : Gen) (n : Nat) : Rel R (fmodify g n) := by
  have hF := hR.toFrameable
  have h : ∀ g, Rel R (do
      let d ← Machine.dstModify g
      let v ← Machine.getDest d n
      Pure.pure (some d, some (v.setWidth 64)) : M (Option Dest × Option (BitVec 64))) := fun g =>
    Rel.bind hF (Rel.dstModify hR.toShared _) (fun _ => Rel.bind hF (Rel.getDest hR.toShared _ _) (fun _ => Rel.pure hF _))
  cases g with
  | imm v => exact h (.imm v)
  | scaled k b x => exact h (.scaled k b x)
  | mode m => cases m <;> first | exact Rel.pure hF _ | (unfold Machine.fmodify; exact h _)

theorem Lively.protocol (i : Instr) (a b : Option (BitVec 64)) {k : FpuReply → M Unit} (hk : ∀ r, Rel R (k r)) :
    Rel R (protocol i a b k) := by
  have hF := hR.toFrameable
  refine Rel.bind hF (Rel.peek hF _) (fun has => Rel.bind hF (Rel.peek hF _) (fun f => Rel.ite (fun _ => ?_) (fun _ => ?_)))
  · exact Rel.bind hF (Rel.upd (fun s => hR.setFpu s _ s.op)) (fun _ => Rel.bind hF
      (Rel.onlyIf hF _ (fun _ => Rel.raise hF _)) (fun _ => Rel.bind hF (hk _) (fun _ => Rel.pure hF _)))
  · exact Rel.bind hF (Rel.upd (fun s => hR.setFpu s _ _)) (fun _ => Rel.pure hF _)

theorem Lively.fresult (d : Option Dest) (n : Nat) (r : FpuReply) : Rel R (fresult d n r) := by
  cases d
  · exact Rel.pure hR.toFrameable _
  · exact hR.putR _ _ _

theorem Lively.floatModify (i : Instr) (f : FSize) (src dst : Gen) : Rel R (floatModify i f src dst) := by
  have hF := hR.toFrameable
  exact Rel.bind hF hR.needFpu (fun _ => Rel.bind hF (hR.fread _ _) (fun _ => Rel.bind hF (hR.fmodify _ _) (fun _ =>
    hR.protocol _ _ _ (fun _ => hR.fresult _ _ _))))

theorem Lively.floatMove (i : Instr) (m n : Nat) (src dst : Gen) : Rel R (floatMove i m n src dst) := by
  have hF := hR.toFrameable
  exact Rel.bind hF hR.needFpu (fun _ => Rel.bind hF (hR.fread _ _) (fun _ => Rel.bind hF (hR.fwrite _) (fun _ =>
    hR.protocol _ _ _ (fun _ => hR.fresult _ _ _))))

theorem Lively.floatRead (i : Instr) (f : FSize) (a b : Gen) {k : FpuReply → M Unit} (hk : ∀ r, Rel R (k r)) :
    Rel R (floatRead i f a b k) := by
  have hF := hR.toFrameable
  exact Rel.bind hF hR.needFpu (fun _ => Rel.bind hF (hR.fread _ _) (fun _ => Rel.bind hF (hR.fread _ _) (fun _ =>
    hR.protocol _ _ _ hk)))

theorem Lively.floatToInt (i : Instr) (f : FSize) (z : Size) (src dst : Gen) : Rel R (floatToInt i f z src dst) := by
  have hF := hR.toFrameable
  exact Rel.bind hF hR.needFpu (fun _ => Rel.bind hF (hR.fread _ _) (fun _ => Rel.bind hF (Rel.dstWrite hR.toShared _) (fun _ =>
    hR.protocol _ _ _ (fun _ => hR.fresult _ _ _))))

/-! ### Graphics -/

theorem Lively.bbWords (fn : BBFn) (o : BBOpts) (width n : Nat) : Rel R (bbWords fn o width n) := by
  have hF := hR.toFrameable
  have hg : ∀ r, Rel R (getReg r) := Rel.getReg hF
  induction n with
  | zero => exact Rel.pure hF _
  | succ n ih =>
    refine Rel.bind hF ?_ (fun _ => ih)
    exact Rel.bind hF (hg _) (fun _ => Rel.bind hF (hg _) (fun _ => Rel.bind hF (hg _) (fun _ => Rel.bind hF (hg _)
      (fun _ => Rel.bind hF (hg _) (fun _ => Rel.bind hF (hR.readR _ _) (fun _ => Rel.bind hF (hR.readR _ _) (fun _ =>
      Rel.bind hF (hR.writeR _ _ _) (fun _ => Rel.bind hF (hR.setRegR _ _) (fun _ => hR.setRegR _ _)))))))))

theorem Lively.bbOp (fn : BBFn) (o : BBOpts) : Rel R (bbOp fn o) := by
  have hF := hR.toFrameable
  have hg : ∀ r, Rel R (getReg r) := Rel.getReg hF
  refine Rel.bind hF (Rel.bind hF (hg _) (fun _ => Rel.require hF _ _)) (fun _ => Rel.bind hF (Rel.getSp hF) (fun _ =>
    Rel.bind hF (hR.readR _ _) (fun w => Rel.bind hF (hg _) (fun _ => Rel.bind hF (hR.loop ?_ _)
    (fun _ => Rel.endLoop hR.toEnterable _ _)))))
  exact Rel.bind hF (hR.bbWords _ _ _ _) (fun _ => Rel.bind hF (hg _) (fun _ => Rel.bind hF (hg _) (fun _ =>
    Rel.bind hF (hg _) (fun _ => Rel.bind hF (hg _) (fun _ => Rel.bind hF (hg _) (fun _ =>
    Rel.bind hF (hR.setRegR _ _) (fun _ => Rel.bind hF (hR.setRegR _ _) (fun _ => Rel.bind hF (hR.setRegR _ _) (fun _ =>
    Rel.pure hF _)))))))))

theorem Lively.extbltSource : Rel R extbltSource := by
  have hF := hR.toFrameable
  exact Rel.bind hF (Rel.getReg hF _) (fun _ => Rel.bind hF (Rel.getReg hF _) (fun _ => Rel.bind hF (hR.readR _ _)
    (fun _ => Rel.bind hF (Rel.upd (fun s => hR.setBpu s _)) (fun _ => hR.setRegR _ _))))

theorem Lively.latch (v : Option Half) : Rel R (latch v) := by
  cases v
  · exact Rel.fresh hR.toFrameable _
  · exact Rel.pure hR.toFrameable _

theorem Lively.bpuResult (w : Nat) : Rel R (bpuResult w) := by
  have hF := hR.toFrameable
  exact Rel.bind hF (Rel.peek hF _) (fun _ => Rel.bind hF (hR.latch _) (fun _ => Rel.bind hF (hR.latch _) (fun _ =>
    Rel.bind hF (hR.latch _) (fun _ => Rel.pure hF _))))

theorem Lively.extbltWords (total n : Nat) : Rel R (extbltWords total n) := by
  have hF := hR.toFrameable
  have hg : ∀ r, Rel R (getReg r) := Rel.getReg hF
  induction n with
  | zero => exact Rel.pure hF _
  | succ n ih =>
    exact Rel.bind hF hR.extbltSource (fun _ => Rel.bind hF (hg _) (fun _ => Rel.bind hF (hg _) (fun _ =>
      Rel.bind hF (hR.readR _ _) (fun _ => Rel.bind hF (Rel.upd (fun s => hR.setBpu s _)) (fun _ =>
      Rel.bind hF (hR.bpuResult _) (fun _ => Rel.bind hF (hR.writeR _ _ _) (fun _ => Rel.bind hF (hR.setRegR _ _)
      (fun _ => Rel.bind hF (hg _) (fun _ => Rel.bind hF (hR.setRegR _ _) (fun _ => ih))))))))))

theorem Lively.extbltLine : Rel R extbltLine := by
  have hF := hR.toFrameable
  have hg : ∀ r, Rel R (getReg r) := Rel.getReg hF
  exact Rel.bind hF (hg _) (fun _ => Rel.bind hF (hR.setRegR _ _) (fun _ => Rel.bind hF (Rel.peek hF _) (fun _ =>
    Rel.bind hF (Rel.onlyIf hF _ (fun _ => hR.extbltSource)) (fun _ => Rel.bind hF (hR.extbltWords _ _) (fun _ =>
    Rel.bind hF (hg _) (fun _ => Rel.bind hF (hg _) (fun _ => Rel.bind hF (hg _) (fun _ => Rel.bind hF (hg _) (fun _ =>
    Rel.bind hF (hg _) (fun _ => Rel.bind hF (hR.setRegR _ _) (fun _ => Rel.bind hF (hR.setRegR _ _) (fun _ =>
    Rel.bind hF (hR.setRegR _ _) (fun _ => Rel.pure hF _)))))))))))))

theorem Lively.extbltEnd : Rel R extbltEnd := by
  have hF := hR.toFrameable
  exact Rel.bind hF (hR.updPsrR _) (fun _ => Rel.bind hF (Rel.fresh hF _) (fun _ => hR.setRegR _ _))

theorem Lively.finalStep (e : Ended) (ran : Bool) (r step : Reg) : Rel R (finalStep e ran r step) := by
  have hF := hR.toFrameable
  exact Rel.bind hF (Rel.peek hF _) (fun _ => Rel.onlyIf hF _ (fun _ => Rel.bind hF (Rel.getReg hF _) (fun _ =>
    Rel.bind hF (Rel.getReg hF _) (fun _ => hR.setRegR _ _))))

theorem Lively.movmpIteration (n : Nat) : Rel R (movmpIteration n) := by
  have hF := hR.toFrameable
  have hg : ∀ r, Rel R (getReg r) := Rel.getReg hF
  exact Rel.bind hF (hg _) (fun _ => Rel.bind hF (hg _) (fun _ => Rel.bind hF (hg _) (fun _ => Rel.bind hF (hg _)
    (fun _ => Rel.bind hF (hR.writeR _ _ _) (fun _ => Rel.bind hF (hR.setRegR _ _) (fun _ =>
    Rel.bind hF (hR.setRegR _ _) (fun _ => Rel.pure hF _)))))))

theorem Lively.sbitpsIteration : Rel R sbitpsIteration := by
  have hF := hR.toFrameable
  have hg : ∀ r, Rel R (getReg r) := Rel.getReg hF
  exact Rel.bind hF (hg _) (fun _ => Rel.bind hF (hg _) (fun _ => Rel.bind hF (hg _) (fun _ => Rel.bind hF (hg _)
    (fun _ => Rel.bind hF (hR.readR _ _) (fun _ => Rel.bind hF (hR.writeR _ _ _) (fun _ =>
    Rel.bind hF (hR.setRegR _ _) (fun _ => Rel.bind hF (hR.setRegR _ _) (fun _ => Rel.pure hF _))))))))

theorem Lively.tbitsLoop (opt : Bool) (n m count : Nat) : Rel R (tbitsLoop opt n m count) := by
  have hF := hR.toFrameable
  have hg : ∀ r, Rel R (getReg r) := Rel.getReg hF
  induction n generalizing m count with
  | zero => unfold Machine.tbitsLoop; exact Rel.pure hF _
  | succ n ih =>
    cases m with
    | zero => exact Rel.pure hF _
    | succ m =>
      exact Rel.bind hF (hg _) (fun _ => Rel.bind hF (hg _) (fun _ => Rel.bind hF (hR.readR _ _) (fun _ =>
        Rel.bind hF (hR.setRegR _ _) (fun _ => Rel.ite (fun _ => ih _ _) (fun _ => Rel.pure hF _)))))

theorem Lively.sbitsStore (a e : Word) : Rel R (sbitsStore a e) := by
  have hF := hR.toFrameable
  exact Rel.bind hF (hR.readR _ _) (fun _ => Rel.bind hF (hR.readR _ _) (fun _ => hR.writeR _ _ _))

end

end Sys2Proof.Machine
end

