-- ==== Sys2Proof/Laws/PerInstr.lean ====
section
/-! SUPPORT. A family of statements about every instruction: its encoding has between 1 and 25 bytes (spec/30_encoding.md
R182), one lemma per constructor. -/

namespace Sys2Proof

@[simp] theorem littleBytes_length (n v : Nat) : (littleBytes n v).length = n := by
  induction n generalizing v with
  | zero => rfl
  | succ n ih => simp [littleBytes, ih]

@[simp] theorem bigBytes_length (n v : Nat) : (bigBytes n v).length = n := by simp [bigBytes]

theorem Disp.encode_length_le (d : Disp) : d.encode.length ≤ 4 := by cases d <;> simp [Disp.encode]

theorem Imm.encode_length (v : Imm) : v.encode.length = v.bytes := by simp [Imm.encode]

theorem Mode.encode_length_le (m : Mode) : m.encode.length ≤ 8 := by
  cases m <;> simp only [Mode.encode, List.length_append, List.length_nil]
  case memRel a d1 d2 => have := d1.encode_length_le; have := d2.encode_length_le; omega
  case ext d1 d2 => have := d1.encode_length_le; have := d2.encode_length_le; omega
  case regRel r d => have := d.encode_length_le; omega
  case abs d => have := d.encode_length_le; omega
  case space a d => have := d.encode_length_le; omega
  case prog d => have := d.encode_length_le; omega
  all_goals omega

theorem ext1_length_le (a : Gen) : (ext1 a).length ≤ 9 := by
  cases a with
  | mode m => have := m.encode_length_le; simp [ext1, Gen.index, Gen.ext]; omega
  | imm v =>
    rw [ext1, List.length_append]
    simp only [Gen.index, Gen.ext, Imm.encode_length, List.length_nil]
    cases v <;> simp [Imm.bytes]
  | scaled k m x => have := m.encode_length_le; simp [ext1, Gen.index, Gen.ext]; omega

theorem ext2_length_le (a b : Gen) : (ext2 a b).length ≤ 18 := by
  have ha := ext1_length_le a
  have hb := ext1_length_le b
  simp only [ext1, ext2, List.length_append] at ha hb ⊢
  omega

namespace Laws.EncodedLength

/-- The encoding of an instruction has between 1 and 25 bytes. -/
def Statement (i : Instr) : Prop := 1 ≤ (encode i).length ∧ (encode i).length ≤ maxLength

/-- At least one byte and at most k. -/
def Bound (l : List Byte) (k : Nat) : Prop := 1 ≤ l.length ∧ l.length ≤ k

theorem base (n v : Nat) (h : 1 ≤ n) : Bound (littleBytes n v) n := by simp [Bound, h]

theorem Bound.app {l e : List Byte} {k j : Nat} (h : Bound l k) (he : e.length ≤ j) : Bound (l ++ e) (k + j) := by
  unfold Bound at *
  rw [List.length_append]
  omega

theorem Bound.fits {l : List Byte} {k : Nat} (h : Bound l k) (hk : k ≤ maxLength) : 1 ≤ l.length ∧ l.length ≤ maxLength :=
  ⟨h.1, Nat.le_trans h.2 hk⟩


theorem beq (x0 : Disp) : Statement (.beq x0) :=
  Bound.fits ((base 1 _ (Nat.le_of_ble_eq_true rfl)).app (Disp.encode_length_le x0)) (Nat.le_of_ble_eq_true rfl)

theorem bne (x0 : Disp) : Statement (.bne x0) :=
  Bound.fits ((base 1 _ (Nat.le_of_ble_eq_true rfl)).app (Disp.encode_length_le x0)) (Nat.le_of_ble_eq_true rfl)

theorem bcs (x0 : Disp) : Statement (.bcs x0) :=
  Bound.fits ((base 1 _ (Nat.le_of_ble_eq_true rfl)).app (Disp.encode_length_le x0)) (Nat.le_of_ble_eq_true rfl)

theorem bcc (x0 : Disp) : Statement (.bcc x0) :=
  Bound.fits ((base 1 _ (Nat.le_of_ble_eq_true rfl)).app (Disp.encode_length_le x0)) (Nat.le_of_ble_eq_true rfl)

theorem bhi (x0 : Disp) : Statement (.bhi x0) :=
  Bound.fits ((base 1 _ (Nat.le_of_ble_eq_true rfl)).app (Disp.encode_length_le x0)) (Nat.le_of_ble_eq_true rfl)

theorem bls (x0 : Disp) : Statement (.bls x0) :=
  Bound.fits ((base 1 _ (Nat.le_of_ble_eq_true rfl)).app (Disp.encode_length_le x0)) (Nat.le_of_ble_eq_true rfl)

theorem bgt (x0 : Disp) : Statement (.bgt x0) :=
  Bound.fits ((base 1 _ (Nat.le_of_ble_eq_true rfl)).app (Disp.encode_length_le x0)) (Nat.le_of_ble_eq_true rfl)

theorem ble (x0 : Disp) : Statement (.ble x0) :=
  Bound.fits ((base 1 _ (Nat.le_of_ble_eq_true rfl)).app (Disp.encode_length_le x0)) (Nat.le_of_ble_eq_true rfl)

theorem bfs (x0 : Disp) : Statement (.bfs x0) :=
  Bound.fits ((base 1 _ (Nat.le_of_ble_eq_true rfl)).app (Disp.encode_length_le x0)) (Nat.le_of_ble_eq_true rfl)

theorem bfc (x0 : Disp) : Statement (.bfc x0) :=
  Bound.fits ((base 1 _ (Nat.le_of_ble_eq_true rfl)).app (Disp.encode_length_le x0)) (Nat.le_of_ble_eq_true rfl)

theorem blo (x0 : Disp) : Statement (.blo x0) :=
  Bound.fits ((base 1 _ (Nat.le_of_ble_eq_true rfl)).app (Disp.encode_length_le x0)) (Nat.le_of_ble_eq_true rfl)

theorem bhs (x0 : Disp) : Statement (.bhs x0) :=
  Bound.fits ((base 1 _ (Nat.le_of_ble_eq_true rfl)).app (Disp.encode_length_le x0)) (Nat.le_of_ble_eq_true rfl)

theorem blt (x0 : Disp) : Statement (.blt x0) :=
  Bound.fits ((base 1 _ (Nat.le_of_ble_eq_true rfl)).app (Disp.encode_length_le x0)) (Nat.le_of_ble_eq_true rfl)

theorem bge (x0 : Disp) : Statement (.bge x0) :=
  Bound.fits ((base 1 _ (Nat.le_of_ble_eq_true rfl)).app (Disp.encode_length_le x0)) (Nat.le_of_ble_eq_true rfl)

theorem br (x0 : Disp) : Statement (.br x0) :=
  Bound.fits ((base 1 _ (Nat.le_of_ble_eq_true rfl)).app (Disp.encode_length_le x0)) (Nat.le_of_ble_eq_true rfl)

theorem bnever (x0 : Disp) : Statement (.bnever x0) :=
  Bound.fits ((base 1 _ (Nat.le_of_ble_eq_true rfl)).app (Disp.encode_length_le x0)) (Nat.le_of_ble_eq_true rfl)

theorem bsr (x0 : Disp) : Statement (.bsr x0) :=
  Bound.fits ((base 1 _ (Nat.le_of_ble_eq_true rfl)).app (Disp.encode_length_le x0)) (Nat.le_of_ble_eq_true rfl)

theorem ret (x0 : Disp) : Statement (.ret x0) :=
  Bound.fits ((base 1 _ (Nat.le_of_ble_eq_true rfl)).app (Disp.encode_length_le x0)) (Nat.le_of_ble_eq_true rfl)

theorem cxp (x0 : Disp) : Statement (.cxp x0) :=
  Bound.fits ((base 1 _ (Nat.le_of_ble_eq_true rfl)).app (Disp.encode_length_le x0)) (Nat.le_of_ble_eq_true rfl)

theorem rxp (x0 : Disp) : Statement (.rxp x0) :=
  Bound.fits ((base 1 _ (Nat.le_of_ble_eq_true rfl)).app (Disp.encode_length_le x0)) (Nat.le_of_ble_eq_true rfl)

theorem rett (x0 : Disp) : Statement (.rett x0) :=
  Bound.fits ((base 1 _ (Nat.le_of_ble_eq_true rfl)).app (Disp.encode_length_le x0)) (Nat.le_of_ble_eq_true rfl)

theorem reti : Statement (.reti) :=
  Bound.fits (base 1 _ (Nat.le_of_ble_eq_true rfl)) (Nat.le_of_ble_eq_true rfl)

theorem save (x0 : Byte) : Statement (.save x0) :=
  Bound.fits ((base 1 _ (Nat.le_of_ble_eq_true rfl)).app (e := [x0]) (j := 1) (Nat.le_refl 1)) (Nat.le_of_ble_eq_true rfl)

theorem restore (x0 : Byte) : Statement (.restore x0) :=
  Bound.fits ((base 1 _ (Nat.le_of_ble_eq_true rfl)).app (e := [x0]) (j := 1) (Nat.le_refl 1)) (Nat.le_of_ble_eq_true rfl)

theorem enter (x0 : Byte) (x1 : Disp) : Statement (.enter x0 x1) :=
  Bound.fits (((base 1 _ (Nat.le_of_ble_eq_true rfl)).app (e := [x0]) (j := 1) (Nat.le_refl 1)).app (Disp.encode_length_le x1)) (Nat.le_of_ble_eq_true rfl)

theorem exit (x0 : Byte) : Statement (.exit x0) :=
  Bound.fits ((base 1 _ (Nat.le_of_ble_eq_true rfl)).app (e := [x0]) (j := 1) (Nat.le_refl 1)) (Nat.le_of_ble_eq_true rfl)

theorem nop : Statement (.nop) :=
  Bound.fits (base 1 _ (Nat.le_of_ble_eq_true rfl)) (Nat.le_of_ble_eq_true rfl)

theorem wait : Statement (.wait) :=
  Bound.fits (base 1 _ (Nat.le_of_ble_eq_true rfl)) (Nat.le_of_ble_eq_true rfl)

theorem dia : Statement (.dia) :=
  Bound.fits (base 1 _ (Nat.le_of_ble_eq_true rfl)) (Nat.le_of_ble_eq_true rfl)

theorem flag : Statement (.flag) :=
  Bound.fits (base 1 _ (Nat.le_of_ble_eq_true rfl)) (Nat.le_of_ble_eq_true rfl)

theorem svc : Statement (.svc) :=
  Bound.fits (base 1 _ (Nat.le_of_ble_eq_true rfl)) (Nat.le_of_ble_eq_true rfl)

theorem bpt : Statement (.bpt) :=
  Bound.fits (base 1 _ (Nat.le_of_ble_eq_true rfl)) (Nat.le_of_ble_eq_true rfl)

theorem addqi (x0 : Size) (x1 : BitVec 4) (x2 : Gen) : Statement (.addqi x0 x1 x2) :=
  Bound.fits ((base 2 _ (Nat.le_of_ble_eq_true rfl)).app (ext1_length_le x2)) (Nat.le_of_ble_eq_true rfl)

theorem cmpqi (x0 : Size) (x1 : BitVec 4) (x2 : Gen) : Statement (.cmpqi x0 x1 x2) :=
  Bound.fits ((base 2 _ (Nat.le_of_ble_eq_true rfl)).app (ext1_length_le x2)) (Nat.le_of_ble_eq_true rfl)

theorem spri (x0 : Size) (x1 : AReg) (x2 : Gen) : Statement (.spri x0 x1 x2) :=
  Bound.fits ((base 2 _ (Nat.le_of_ble_eq_true rfl)).app (ext1_length_le x2)) (Nat.le_of_ble_eq_true rfl)

theorem scondi (x0 : Size) (x1 : Cond) (x2 : Gen) : Statement (.scondi x0 x1 x2) :=
  Bound.fits ((base 2 _ (Nat.le_of_ble_eq_true rfl)).app (ext1_length_le x2)) (Nat.le_of_ble_eq_true rfl)

theorem acbi (x0 : Size) (x1 : BitVec 4) (x2 : Gen) (x3 : Disp) : Statement (.acbi x0 x1 x2 x3) :=
  Bound.fits (((base 2 _ (Nat.le_of_ble_eq_true rfl)).app (ext1_length_le x2)).app (Disp.encode_length_le x3)) (Nat.le_of_ble_eq_true rfl)

theorem movqi (x0 : Size) (x1 : BitVec 4) (x2 : Gen) : Statement (.movqi x0 x1 x2) :=
  Bound.fits ((base 2 _ (Nat.le_of_ble_eq_true rfl)).app (ext1_length_le x2)) (Nat.le_of_ble_eq_true rfl)

theorem lpri (x0 : Size) (x1 : AReg) (x2 : Gen) : Statement (.lpri x0 x1 x2) :=
  Bound.fits ((base 2 _ (Nat.le_of_ble_eq_true rfl)).app (ext1_length_le x2)) (Nat.le_of_ble_eq_true rfl)

theorem cxpd (x0 : Gen) : Statement (.cxpd x0) :=
  Bound.fits ((base 2 _ (Nat.le_of_ble_eq_true rfl)).app (ext1_length_le x0)) (Nat.le_of_ble_eq_true rfl)

theorem bicpsri (x0 : Size) (x1 : Gen) : Statement (.bicpsri x0 x1) :=
  Bound.fits ((base 2 _ (Nat.le_of_ble_eq_true rfl)).app (ext1_length_le x1)) (Nat.le_of_ble_eq_true rfl)

theorem jump (x0 : Gen) : Statement (.jump x0) :=
  Bound.fits ((base 2 _ (Nat.le_of_ble_eq_true rfl)).app (ext1_length_le x0)) (Nat.le_of_ble_eq_true rfl)

theorem bispsri (x0 : Size) (x1 : Gen) : Statement (.bispsri x0 x1) :=
  Bound.fits ((base 2 _ (Nat.le_of_ble_eq_true rfl)).app (ext1_length_le x1)) (Nat.le_of_ble_eq_true rfl)

theorem adjspi (x0 : Size) (x1 : Gen) : Statement (.adjspi x0 x1) :=
  Bound.fits ((base 2 _ (Nat.le_of_ble_eq_true rfl)).app (ext1_length_le x1)) (Nat.le_of_ble_eq_true rfl)

theorem jsr (x0 : Gen) : Statement (.jsr x0) :=
  Bound.fits ((base 2 _ (Nat.le_of_ble_eq_true rfl)).app (ext1_length_le x0)) (Nat.le_of_ble_eq_true rfl)

theorem casei (x0 : Size) (x1 : Gen) : Statement (.casei x0 x1) :=
  Bound.fits ((base 2 _ (Nat.le_of_ble_eq_true rfl)).app (ext1_length_le x1)) (Nat.le_of_ble_eq_true rfl)

theorem addi (x0 : Size) (x1 : Gen) (x2 : Gen) : Statement (.addi x0 x1 x2) :=
  Bound.fits ((base 2 _ (Nat.le_of_ble_eq_true rfl)).app (ext2_length_le x1 x2)) (Nat.le_of_ble_eq_true rfl)

theorem cmpi (x0 : Size) (x1 : Gen) (x2 : Gen) : Statement (.cmpi x0 x1 x2) :=
  Bound.fits ((base 2 _ (Nat.le_of_ble_eq_true rfl)).app (ext2_length_le x1 x2)) (Nat.le_of_ble_eq_true rfl)

theorem bici (x0 : Size) (x1 : Gen) (x2 : Gen) : Statement (.bici x0 x1 x2) :=
  Bound.fits ((base 2 _ (Nat.le_of_ble_eq_true rfl)).app (ext2_length_le x1 x2)) (Nat.le_of_ble_eq_true rfl)

theorem addci (x0 : Size) (x1 : Gen) (x2 : Gen) : Statement (.addci x0 x1 x2) :=
  Bound.fits ((base 2 _ (Nat.le_of_ble_eq_true rfl)).app (ext2_length_le x1 x2)) (Nat.le_of_ble_eq_true rfl)

theorem movi (x0 : Size) (x1 : Gen) (x2 : Gen) : Statement (.movi x0 x1 x2) :=
  Bound.fits ((base 2 _ (Nat.le_of_ble_eq_true rfl)).app (ext2_length_le x1 x2)) (Nat.le_of_ble_eq_true rfl)

theorem ori (x0 : Size) (x1 : Gen) (x2 : Gen) : Statement (.ori x0 x1 x2) :=
  Bound.fits ((base 2 _ (Nat.le_of_ble_eq_true rfl)).app (ext2_length_le x1 x2)) (Nat.le_of_ble_eq_true rfl)

theorem subi (x0 : Size) (x1 : Gen) (x2 : Gen) : Statement (.subi x0 x1 x2) :=
  Bound.fits ((base 2 _ (Nat.le_of_ble_eq_true rfl)).app (ext2_length_le x1 x2)) (Nat.le_of_ble_eq_true rfl)

theorem addr (x0 : Gen) (x1 : Gen) : Statement (.addr x0 x1) :=
  Bound.fits ((base 2 _ (Nat.le_of_ble_eq_true rfl)).app (ext2_length_le x0 x1)) (Nat.le_of_ble_eq_true rfl)

theorem andi (x0 : Size) (x1 : Gen) (x2 : Gen) : Statement (.andi x0 x1 x2) :=
  Bound.fits ((base 2 _ (Nat.le_of_ble_eq_true rfl)).app (ext2_length_le x1 x2)) (Nat.le_of_ble_eq_true rfl)

theorem subci (x0 : Size) (x1 : Gen) (x2 : Gen) : Statement (.subci x0 x1 x2) :=
  Bound.fits ((base 2 _ (Nat.le_of_ble_eq_true rfl)).app (ext2_length_le x1 x2)) (Nat.le_of_ble_eq_true rfl)

theorem tbiti (x0 : Size) (x1 : Gen) (x2 : Gen) : Statement (.tbiti x0 x1 x2) :=
  Bound.fits ((base 2 _ (Nat.le_of_ble_eq_true rfl)).app (ext2_length_le x1 x2)) (Nat.le_of_ble_eq_true rfl)

theorem xori (x0 : Size) (x1 : Gen) (x2 : Gen) : Statement (.xori x0 x1 x2) :=
  Bound.fits ((base 2 _ (Nat.le_of_ble_eq_true rfl)).app (ext2_length_le x1 x2)) (Nat.le_of_ble_eq_true rfl)

theorem movsi (x0 : Size) (x1 : StrOpts) : Statement (.movsi x0 x1) :=
  Bound.fits (base 3 _ (Nat.le_of_ble_eq_true rfl)) (Nat.le_of_ble_eq_true rfl)

theorem movst (x0 : StrOpts) : Statement (.movst x0) :=
  Bound.fits (base 3 _ (Nat.le_of_ble_eq_true rfl)) (Nat.le_of_ble_eq_true rfl)

theorem cmpsi (x0 : Size) (x1 : StrOpts) : Statement (.cmpsi x0 x1) :=
  Bound.fits (base 3 _ (Nat.le_of_ble_eq_true rfl)) (Nat.le_of_ble_eq_true rfl)

theorem cmpst (x0 : StrOpts) : Statement (.cmpst x0) :=
  Bound.fits (base 3 _ (Nat.le_of_ble_eq_true rfl)) (Nat.le_of_ble_eq_true rfl)

theorem skpsi (x0 : Size) (x1 : StrOpts) : Statement (.skpsi x0 x1) :=
  Bound.fits (base 3 _ (Nat.le_of_ble_eq_true rfl)) (Nat.le_of_ble_eq_true rfl)

theorem skpst (x0 : StrOpts) : Statement (.skpst x0) :=
  Bound.fits (base 3 _ (Nat.le_of_ble_eq_true rfl)) (Nat.le_of_ble_eq_true rfl)

theorem setcfg (x0 : CfgOpts) : Statement (.setcfg x0) :=
  Bound.fits (base 3 _ (Nat.le_of_ble_eq_true rfl)) (Nat.le_of_ble_eq_true rfl)

theorem bband (x0 : BBOpts) : Statement (.bband x0) :=
  Bound.fits (base 3 _ (Nat.le_of_ble_eq_true rfl)) (Nat.le_of_ble_eq_true rfl)

theorem bbor (x0 : BBOpts) : Statement (.bbor x0) :=
  Bound.fits (base 3 _ (Nat.le_of_ble_eq_true rfl)) (Nat.le_of_ble_eq_true rfl)

theorem bbxor (x0 : BBOpts) : Statement (.bbxor x0) :=
  Bound.fits (base 3 _ (Nat.le_of_ble_eq_true rfl)) (Nat.le_of_ble_eq_true rfl)

theorem bbstod (x0 : BBOpts) : Statement (.bbstod x0) :=
  Bound.fits (base 3 _ (Nat.le_of_ble_eq_true rfl)) (Nat.le_of_ble_eq_true rfl)

theorem bbfor : Statement (.bbfor) :=
  Bound.fits (base 3 _ (Nat.le_of_ble_eq_true rfl)) (Nat.le_of_ble_eq_true rfl)

theorem bitwt : Statement (.bitwt) :=
  Bound.fits (base 3 _ (Nat.le_of_ble_eq_true rfl)) (Nat.le_of_ble_eq_true rfl)

theorem extblt : Statement (.extblt) :=
  Bound.fits (base 3 _ (Nat.le_of_ble_eq_true rfl)) (Nat.le_of_ble_eq_true rfl)

theorem sbits : Statement (.sbits) :=
  Bound.fits (base 3 _ (Nat.le_of_ble_eq_true rfl)) (Nat.le_of_ble_eq_true rfl)

theorem sbitps : Statement (.sbitps) :=
  Bound.fits (base 3 _ (Nat.le_of_ble_eq_true rfl)) (Nat.le_of_ble_eq_true rfl)

theorem movmpi (x0 : Size) : Statement (.movmpi x0) :=
  Bound.fits (base 3 _ (Nat.le_of_ble_eq_true rfl)) (Nat.le_of_ble_eq_true rfl)

theorem tbits (x0 : Bool) : Statement (.tbits x0) :=
  Bound.fits (base 3 _ (Nat.le_of_ble_eq_true rfl)) (Nat.le_of_ble_eq_true rfl)

theorem roti (x0 : Size) (x1 : Gen) (x2 : Gen) : Statement (.roti x0 x1 x2) :=
  Bound.fits ((base 3 _ (Nat.le_of_ble_eq_true rfl)).app (ext2_length_le x1 x2)) (Nat.le_of_ble_eq_true rfl)

theorem ashi (x0 : Size) (x1 : Gen) (x2 : Gen) : Statement (.ashi x0 x1 x2) :=
  Bound.fits ((base 3 _ (Nat.le_of_ble_eq_true rfl)).app (ext2_length_le x1 x2)) (Nat.le_of_ble_eq_true rfl)

theorem cbiti (x0 : Size) (x1 : Gen) (x2 : Gen) : Statement (.cbiti x0 x1 x2) :=
  Bound.fits ((base 3 _ (Nat.le_of_ble_eq_true rfl)).app (ext2_length_le x1 x2)) (Nat.le_of_ble_eq_true rfl)

theorem cbitii (x0 : Size) (x1 : Gen) (x2 : Gen) : Statement (.cbitii x0 x1 x2) :=
  Bound.fits ((base 3 _ (Nat.le_of_ble_eq_true rfl)).app (ext2_length_le x1 x2)) (Nat.le_of_ble_eq_true rfl)

theorem lshi (x0 : Size) (x1 : Gen) (x2 : Gen) : Statement (.lshi x0 x1 x2) :=
  Bound.fits ((base 3 _ (Nat.le_of_ble_eq_true rfl)).app (ext2_length_le x1 x2)) (Nat.le_of_ble_eq_true rfl)

theorem sbiti (x0 : Size) (x1 : Gen) (x2 : Gen) : Statement (.sbiti x0 x1 x2) :=
  Bound.fits ((base 3 _ (Nat.le_of_ble_eq_true rfl)).app (ext2_length_le x1 x2)) (Nat.le_of_ble_eq_true rfl)

theorem sbitii (x0 : Size) (x1 : Gen) (x2 : Gen) : Statement (.sbitii x0 x1 x2) :=
  Bound.fits ((base 3 _ (Nat.le_of_ble_eq_true rfl)).app (ext2_length_le x1 x2)) (Nat.le_of_ble_eq_true rfl)

theorem negi (x0 : Size) (x1 : Gen) (x2 : Gen) : Statement (.negi x0 x1 x2) :=
  Bound.fits ((base 3 _ (Nat.le_of_ble_eq_true rfl)).app (ext2_length_le x1 x2)) (Nat.le_of_ble_eq_true rfl)

theorem noti (x0 : Size) (x1 : Gen) (x2 : Gen) : Statement (.noti x0 x1 x2) :=
  Bound.fits ((base 3 _ (Nat.le_of_ble_eq_true rfl)).app (ext2_length_le x1 x2)) (Nat.le_of_ble_eq_true rfl)

theorem subpi (x0 : Size) (x1 : Gen) (x2 : Gen) : Statement (.subpi x0 x1 x2) :=
  Bound.fits ((base 3 _ (Nat.le_of_ble_eq_true rfl)).app (ext2_length_le x1 x2)) (Nat.le_of_ble_eq_true rfl)

theorem absi (x0 : Size) (x1 : Gen) (x2 : Gen) : Statement (.absi x0 x1 x2) :=
  Bound.fits ((base 3 _ (Nat.le_of_ble_eq_true rfl)).app (ext2_length_le x1 x2)) (Nat.le_of_ble_eq_true rfl)

theorem comi (x0 : Size) (x1 : Gen) (x2 : Gen) : Statement (.comi x0 x1 x2) :=
  Bound.fits ((base 3 _ (Nat.le_of_ble_eq_true rfl)).app (ext2_length_le x1 x2)) (Nat.le_of_ble_eq_true rfl)

theorem ibiti (x0 : Size) (x1 : Gen) (x2 : Gen) : Statement (.ibiti x0 x1 x2) :=
  Bound.fits ((base 3 _ (Nat.le_of_ble_eq_true rfl)).app (ext2_length_le x1 x2)) (Nat.le_of_ble_eq_true rfl)

theorem addpi (x0 : Size) (x1 : Gen) (x2 : Gen) : Statement (.addpi x0 x1 x2) :=
  Bound.fits ((base 3 _ (Nat.le_of_ble_eq_true rfl)).app (ext2_length_le x1 x2)) (Nat.le_of_ble_eq_true rfl)

theorem movmi (x0 : Size) (x1 : Gen) (x2 : Gen) (x3 : Disp) : Statement (.movmi x0 x1 x2 x3) :=
  Bound.fits (((base 3 _ (Nat.le_of_ble_eq_true rfl)).app (ext2_length_le x1 x2)).app (Disp.encode_length_le x3)) (Nat.le_of_ble_eq_true rfl)

theorem cmpmi (x0 : Size) (x1 : Gen) (x2 : Gen) (x3 : Disp) : Statement (.cmpmi x0 x1 x2 x3) :=
  Bound.fits (((base 3 _ (Nat.le_of_ble_eq_true rfl)).app (ext2_length_le x1 x2)).app (Disp.encode_length_le x3)) (Nat.le_of_ble_eq_true rfl)

theorem inssi (x0 : Size) (x1 : Gen) (x2 : Gen) (x3 : Byte) : Statement (.inssi x0 x1 x2 x3) :=
  Bound.fits (((base 3 _ (Nat.le_of_ble_eq_true rfl)).app (ext2_length_le x1 x2)).app (e := [x3]) (j := 1) (Nat.le_refl 1)) (Nat.le_of_ble_eq_true rfl)

theorem extsi (x0 : Size) (x1 : Gen) (x2 : Gen) (x3 : Byte) : Statement (.extsi x0 x1 x2 x3) :=
  Bound.fits (((base 3 _ (Nat.le_of_ble_eq_true rfl)).app (ext2_length_le x1 x2)).app (e := [x3]) (j := 1) (Nat.le_refl 1)) (Nat.le_of_ble_eq_true rfl)

theorem movxbw (x0 : Gen) (x1 : Gen) : Statement (.movxbw x0 x1) :=
  Bound.fits ((base 3 _ (Nat.le_of_ble_eq_true rfl)).app (ext2_length_le x0 x1)) (Nat.le_of_ble_eq_true rfl)

theorem movzbw (x0 : Gen) (x1 : Gen) : Statement (.movzbw x0 x1) :=
  Bound.fits ((base 3 _ (Nat.le_of_ble_eq_true rfl)).app (ext2_length_le x0 x1)) (Nat.le_of_ble_eq_true rfl)

theorem movzid (x0 : Size) (x1 : Gen) (x2 : Gen) : Statement (.movzid x0 x1 x2) :=
  Bound.fits ((base 3 _ (Nat.le_of_ble_eq_true rfl)).app (ext2_length_le x1 x2)) (Nat.le_of_ble_eq_true rfl)

theorem movxid (x0 : Size) (x1 : Gen) (x2 : Gen) : Statement (.movxid x0 x1 x2) :=
  Bound.fits ((base 3 _ (Nat.le_of_ble_eq_true rfl)).app (ext2_length_le x1 x2)) (Nat.le_of_ble_eq_true rfl)

theorem muli (x0 : Size) (x1 : Gen) (x2 : Gen) : Statement (.muli x0 x1 x2) :=
  Bound.fits ((base 3 _ (Nat.le_of_ble_eq_true rfl)).app (ext2_length_le x1 x2)) (Nat.le_of_ble_eq_true rfl)

theorem meii (x0 : Size) (x1 : Gen) (x2 : Gen) : Statement (.meii x0 x1 x2) :=
  Bound.fits ((base 3 _ (Nat.le_of_ble_eq_true rfl)).app (ext2_length_le x1 x2)) (Nat.le_of_ble_eq_true rfl)

theorem deii (x0 : Size) (x1 : Gen) (x2 : Gen) : Statement (.deii x0 x1 x2) :=
  Bound.fits ((base 3 _ (Nat.le_of_ble_eq_true rfl)).app (ext2_length_le x1 x2)) (Nat.le_of_ble_eq_true rfl)

theorem quoi (x0 : Size) (x1 : Gen) (x2 : Gen) : Statement (.quoi x0 x1 x2) :=
  Bound.fits ((base 3 _ (Nat.le_of_ble_eq_true rfl)).app (ext2_length_le x1 x2)) (Nat.le_of_ble_eq_true rfl)

theorem remi (x0 : Size) (x1 : Gen) (x2 : Gen) : Statement (.remi x0 x1 x2) :=
  Bound.fits ((base 3 _ (Nat.le_of_ble_eq_true rfl)).app (ext2_length_le x1 x2)) (Nat.le_of_ble_eq_true rfl)

theorem modi (x0 : Size) (x1 : Gen) (x2 : Gen) : Statement (.modi x0 x1 x2) :=
  Bound.fits ((base 3 _ (Nat.le_of_ble_eq_true rfl)).app (ext2_length_le x1 x2)) (Nat.le_of_ble_eq_true rfl)

theorem divi (x0 : Size) (x1 : Gen) (x2 : Gen) : Statement (.divi x0 x1 x2) :=
  Bound.fits ((base 3 _ (Nat.le_of_ble_eq_true rfl)).app (ext2_length_le x1 x2)) (Nat.le_of_ble_eq_true rfl)

theorem exti (x0 : Size) (x1 : Reg) (x2 : Gen) (x3 : Gen) (x4 : Disp) : Statement (.exti x0 x1 x2 x3 x4) :=
  Bound.fits (((base 3 _ (Nat.le_of_ble_eq_true rfl)).app (ext2_length_le x2 x3)).app (Disp.encode_length_le x4)) (Nat.le_of_ble_eq_true rfl)

theorem cvtp (x0 : Reg) (x1 : Gen) (x2 : Gen) : Statement (.cvtp x0 x1 x2) :=
  Bound.fits ((base 3 _ (Nat.le_of_ble_eq_true rfl)).app (ext2_length_le x1 x2)) (Nat.le_of_ble_eq_true rfl)

theorem insi (x0 : Size) (x1 : Reg) (x2 : Gen) (x3 : Gen) (x4 : Disp) : Statement (.insi x0 x1 x2 x3 x4) :=
  Bound.fits (((base 3 _ (Nat.le_of_ble_eq_true rfl)).app (ext2_length_le x2 x3)).app (Disp.encode_length_le x4)) (Nat.le_of_ble_eq_true rfl)

theorem checki (x0 : Size) (x1 : Reg) (x2 : Gen) (x3 : Gen) : Statement (.checki x0 x1 x2 x3) :=
  Bound.fits ((base 3 _ (Nat.le_of_ble_eq_true rfl)).app (ext2_length_le x2 x3)) (Nat.le_of_ble_eq_true rfl)

theorem indexi (x0 : Size) (x1 : Reg) (x2 : Gen) (x3 : Gen) : Statement (.indexi x0 x1 x2 x3) :=
  Bound.fits ((base 3 _ (Nat.le_of_ble_eq_true rfl)).app (ext2_length_le x2 x3)) (Nat.le_of_ble_eq_true rfl)

theorem ffsi (x0 : Size) (x1 : Gen) (x2 : Gen) : Statement (.ffsi x0 x1 x2) :=
  Bound.fits ((base 3 _ (Nat.le_of_ble_eq_true rfl)).app (ext2_length_le x1 x2)) (Nat.le_of_ble_eq_true rfl)

theorem movif (x0 : FSize) (x1 : Size) (x2 : Gen) (x3 : Gen) : Statement (.movif x0 x1 x2 x3) :=
  Bound.fits ((base 3 _ (Nat.le_of_ble_eq_true rfl)).app (ext2_length_le x2 x3)) (Nat.le_of_ble_eq_true rfl)

theorem lfsr (x0 : FBits) (x1 : Gen) : Statement (.lfsr x0 x1) :=
  Bound.fits ((base 3 _ (Nat.le_of_ble_eq_true rfl)).app (ext1_length_le x1)) (Nat.le_of_ble_eq_true rfl)

theorem movlf (x0 : FBits) (x1 : Gen) (x2 : Gen) : Statement (.movlf x0 x1 x2) :=
  Bound.fits ((base 3 _ (Nat.le_of_ble_eq_true rfl)).app (ext2_length_le x1 x2)) (Nat.le_of_ble_eq_true rfl)

theorem movfl (x0 : FBits) (x1 : Gen) (x2 : Gen) : Statement (.movfl x0 x1 x2) :=
  Bound.fits ((base 3 _ (Nat.le_of_ble_eq_true rfl)).app (ext2_length_le x1 x2)) (Nat.le_of_ble_eq_true rfl)

theorem roundfi (x0 : FSize) (x1 : Size) (x2 : Gen) (x3 : Gen) : Statement (.roundfi x0 x1 x2 x3) :=
  Bound.fits ((base 3 _ (Nat.le_of_ble_eq_true rfl)).app (ext2_length_le x2 x3)) (Nat.le_of_ble_eq_true rfl)

theorem truncfi (x0 : FSize) (x1 : Size) (x2 : Gen) (x3 : Gen) : Statement (.truncfi x0 x1 x2 x3) :=
  Bound.fits ((base 3 _ (Nat.le_of_ble_eq_true rfl)).app (ext2_length_le x2 x3)) (Nat.le_of_ble_eq_true rfl)

theorem sfsr (x0 : FBits) (x1 : Gen) : Statement (.sfsr x0 x1) :=
  Bound.fits ((base 3 _ (Nat.le_of_ble_eq_true rfl)).app (ext1_length_le x1)) (Nat.le_of_ble_eq_true rfl)

theorem floorfi (x0 : FSize) (x1 : Size) (x2 : Gen) (x3 : Gen) : Statement (.floorfi x0 x1 x2 x3) :=
  Bound.fits ((base 3 _ (Nat.le_of_ble_eq_true rfl)).app (ext2_length_le x2 x3)) (Nat.le_of_ble_eq_true rfl)

theorem addf (x0 : FSize) (x1 : Gen) (x2 : Gen) : Statement (.addf x0 x1 x2) :=
  Bound.fits ((base 3 _ (Nat.le_of_ble_eq_true rfl)).app (ext2_length_le x1 x2)) (Nat.le_of_ble_eq_true rfl)

theorem movf (x0 : FSize) (x1 : Gen) (x2 : Gen) : Statement (.movf x0 x1 x2) :=
  Bound.fits ((base 3 _ (Nat.le_of_ble_eq_true rfl)).app (ext2_length_le x1 x2)) (Nat.le_of_ble_eq_true rfl)

theorem cmpf (x0 : FSize) (x1 : Gen) (x2 : Gen) : Statement (.cmpf x0 x1 x2) :=
  Bound.fits ((base 3 _ (Nat.le_of_ble_eq_true rfl)).app (ext2_length_le x1 x2)) (Nat.le_of_ble_eq_true rfl)

theorem subf (x0 : FSize) (x1 : Gen) (x2 : Gen) : Statement (.subf x0 x1 x2) :=
  Bound.fits ((base 3 _ (Nat.le_of_ble_eq_true rfl)).app (ext2_length_le x1 x2)) (Nat.le_of_ble_eq_true rfl)

theorem negf (x0 : FSize) (x1 : Gen) (x2 : Gen) : Statement (.negf x0 x1 x2) :=
  Bound.fits ((base 3 _ (Nat.le_of_ble_eq_true rfl)).app (ext2_length_le x1 x2)) (Nat.le_of_ble_eq_true rfl)

theorem divf (x0 : FSize) (x1 : Gen) (x2 : Gen) : Statement (.divf x0 x1 x2) :=
  Bound.fits ((base 3 _ (Nat.le_of_ble_eq_true rfl)).app (ext2_length_le x1 x2)) (Nat.le_of_ble_eq_true rfl)

theorem mulf (x0 : FSize) (x1 : Gen) (x2 : Gen) : Statement (.mulf x0 x1 x2) :=
  Bound.fits ((base 3 _ (Nat.le_of_ble_eq_true rfl)).app (ext2_length_le x1 x2)) (Nat.le_of_ble_eq_true rfl)

theorem absf (x0 : FSize) (x1 : Gen) (x2 : Gen) : Statement (.absf x0 x1 x2) :=
  Bound.fits ((base 3 _ (Nat.le_of_ble_eq_true rfl)).app (ext2_length_le x1 x2)) (Nat.le_of_ble_eq_true rfl)

theorem polyf (x0 : FSize) (x1 : Gen) (x2 : Gen) : Statement (.polyf x0 x1 x2) :=
  Bound.fits ((base 3 _ (Nat.le_of_ble_eq_true rfl)).app (ext2_length_le x1 x2)) (Nat.le_of_ble_eq_true rfl)

theorem dotf (x0 : FSize) (x1 : Gen) (x2 : Gen) : Statement (.dotf x0 x1 x2) :=
  Bound.fits ((base 3 _ (Nat.le_of_ble_eq_true rfl)).app (ext2_length_le x1 x2)) (Nat.le_of_ble_eq_true rfl)

theorem scalbf (x0 : FSize) (x1 : Gen) (x2 : Gen) : Statement (.scalbf x0 x1 x2) :=
  Bound.fits ((base 3 _ (Nat.le_of_ble_eq_true rfl)).app (ext2_length_le x1 x2)) (Nat.le_of_ble_eq_true rfl)

theorem logbf (x0 : FSize) (x1 : Gen) (x2 : Gen) : Statement (.logbf x0 x1 x2) :=
  Bound.fits ((base 3 _ (Nat.le_of_ble_eq_true rfl)).app (ext2_length_le x1 x2)) (Nat.le_of_ble_eq_true rfl)

end Laws.EncodedLength

end Sys2Proof
end

