-- ==== Sys2Proof/Tests/Slice0.lean ====
section
/-! SUPPORT. The tests: ill-formed terms, a word of every row of the opcode table written out from its encoding, one step
of one machine for the instructions (the spec's own vectors, spec/95_test_vectors.md), and a witness for every statement with
hypotheses. -/

open Sys2Proof Sys2Proof.Machine

/-! ### WellFormed: an ill-formed term for each check, refused, beside one that passes -/

theorem test_wf_immediate_length :
    (Instr.addi .w (.imm (.b 1)) (.mode (.reg .r0))).wellFormed = false ∧
    (Instr.addi .w (.imm (.w 1)) (.mode (.reg .r0))).wellFormed = true ∧
    (Instr.lshi .d (.imm (.d 1)) (.mode (.reg .r0))).wellFormed = false := by decide

theorem test_wf_immediate_written :
    (Instr.movi .b (.imm (.b 1)) (.imm (.b 1))).wellFormed = false ∧
    (Instr.addi .b (.imm (.b 1)) (.imm (.b 1))).wellFormed = false ∧
    (Instr.sbiti .b (.imm (.b 1)) (.imm (.b 1))).wellFormed = false := by decide

theorem test_wf_address_operand :
    (Instr.jump (.imm (.d 1))).wellFormed = false ∧ (Instr.jump (.mode (.reg .r0))).wellFormed = false ∧
    (Instr.jump (.mode .tos)).wellFormed = true := by decide

theorem test_wf_size_field :
    (Instr.bispsri .d (.imm (.d 1))).wellFormed = false ∧ (Instr.bicpsri .d (.mode (.reg .r0))).wellFormed = false ∧
    (Instr.movzid .d (.mode (.reg .r0)) (.mode (.reg .r1))).wellFormed = false ∧
    (Instr.movxid .d (.mode (.reg .r0)) (.mode (.reg .r1))).wellFormed = false := by decide

theorem test_wf_even_pair :
    (Instr.meii .d (.mode (.reg .r0)) (.mode (.reg .r1))).wellFormed = false ∧
    (Instr.deii .d (.mode (.reg .r0)) (.mode (.reg .r7))).wellFormed = false ∧
    (Instr.deii .w (.mode (.reg .r0)) (.mode (.reg .r7))).wellFormed = true := by decide

/-! ### Decoding: every constructor by a word written out from spec/30_encoding.md and spec/95_test_vectors.md section 2 -/

theorem test_decode_format0 :
    decode [0x0A, 0x7C] = .ok (.beq (.d7 0x7c)) [] ∧
    decode [0x1A, 0x80, 0xC8] = .ok (.bne (.d14 0xc8)) [] ∧
    decode [0x2A, 0x10] = .ok (.bcs (.d7 0x10)) [] ∧
    decode [0x3A, 0x10] = .ok (.bcc (.d7 0x10)) [] ∧
    decode [0x4A, 0x10] = .ok (.bhi (.d7 0x10)) [] ∧
    decode [0x5A, 0x10] = .ok (.bls (.d7 0x10)) [] ∧
    decode [0x6A, 0x10] = .ok (.bgt (.d7 0x10)) [] ∧
    decode [0x7A, 0x10] = .ok (.ble (.d7 0x10)) [] ∧
    decode [0x8A, 0x10] = .ok (.bfs (.d7 0x10)) [] ∧
    decode [0x9A, 0x10] = .ok (.bfc (.d7 0x10)) [] ∧
    decode [0xAA, 0x10] = .ok (.blo (.d7 0x10)) [] ∧
    decode [0xBA, 0x10] = .ok (.bhs (.d7 0x10)) [] ∧
    decode [0xCA, 0x10] = .ok (.blt (.d7 0x10)) [] ∧
    decode [0xDA, 0x10] = .ok (.bge (.d7 0x10)) [] ∧
    decode [0xEA, 0x0A] = .ok (.br (.d7 0xa)) [] ∧
    decode [0xFA, 0x10] = .ok (.bnever (.d7 0x10)) [] :=
  ⟨rfl, rfl, rfl, rfl, rfl, rfl, rfl, rfl, rfl, rfl, rfl, rfl, rfl, rfl, rfl, rfl⟩

theorem test_decode_format1 :
    decode [0x02, 0x20] = .ok (.bsr (.d7 0x20)) [] ∧
    decode [0x12, 0x08] = .ok (.ret (.d7 0x8)) [] ∧
    decode [0x22, 0x03] = .ok (.cxp (.d7 0x3)) [] ∧
    decode [0x32, 0x00] = .ok (.rxp (.d7 0x0)) [] ∧
    decode [0x42, 0x00] = .ok (.rett (.d7 0x0)) [] ∧
    decode [0x52] = .ok .reti [] ∧
    decode [0x62, 0x07] = .ok (.save 0x7) [] ∧
    decode [0x72, 0xE0] = .ok (.restore 0xe0) [] ∧
    decode [0x82, 0x08, 0x08] = .ok (.enter 0x8 (.d7 0x8)) [] ∧
    decode [0x92, 0x10] = .ok (.exit 0x10) [] ∧
    decode [0xA2] = .ok .nop [] ∧
    decode [0xB2] = .ok .wait [] ∧
    decode [0xC2] = .ok .dia [] ∧
    decode [0xD2] = .ok .flag [] ∧
    decode [0xE2] = .ok .svc [] ∧
    decode [0xF2] = .ok .bpt [] :=
  ⟨rfl, rfl, rfl, rfl, rfl, rfl, rfl, rfl, rfl, rfl, rfl, rfl, rfl, rfl, rfl, rfl⟩

theorem test_decode_format2 :
    decode [0x8C, 0x17] = .ok (.addqi .b 0xf (.mode (.reg .r2))) [] ∧
    decode [0x1D, 0xC8, 0x04] = .ok (.cmpqi .w 0x0 (.mode (.space .sp (.d7 0x4)))) [] ∧
    decode [0x2F, 0x04] = .ok (.spri .d .fp (.mode (.reg .r0))) [] ∧
    decode [0x3C, 0x08] = .ok (.scondi .b .eq (.mode (.reg .r1))) [] ∧
    decode [0xCF, 0x0F, 0x7E] = .ok (.acbi .d 0xf (.mode (.reg .r1)) (.d7 0x7e)) [] ∧
    decode [0xDF, 0x02] = .ok (.movqi .d 0x5 (.mode (.reg .r0))) [] ∧
    decode [0xEF, 0xA4, 0x00, 0x00, 0x80, 0x00] = .ok (.lpri .d .sp (.imm (.d 0x8000))) [] :=
  ⟨rfl, rfl, rfl, rfl, rfl, rfl, rfl⟩

theorem test_decode_format3 :
    decode [0x7F, 0xD0, 0x08] = .ok (.cxpd (.mode (.space .sb (.d7 0x8)))) [] ∧
    decode [0x7D, 0xA1, 0x08, 0x00] = .ok (.bicpsri .w (.imm (.w 0x800))) [] ∧
    decode [0x7F, 0x42, 0x00] = .ok (.jump (.mode (.regRel .r0 (.d7 0x0)))) [] ∧
    decode [0x7C, 0xA3, 0x01] = .ok (.bispsri .b (.imm (.b 0x1))) [] ∧
    decode [0x7C, 0xA5, 0xFC] = .ok (.adjspi .b (.imm (.b 0xfc))) [] ∧
    decode [0x7F, 0xAE, 0xC0, 0x00, 0x20, 0x00] = .ok (.jsr (.mode (.abs (.d30 0x2000)))) [] ∧
    decode [0x7C, 0x07] = .ok (.casei .b (.mode (.reg .r0))) [] :=
  ⟨rfl, rfl, rfl, rfl, rfl, rfl, rfl⟩

theorem test_decode_format4 :
    decode [0x80, 0x08] = .ok (.addi .b (.mode (.reg .r1)) (.mode (.reg .r2))) [] ∧
    decode [0x45, 0x00] = .ok (.cmpi .w (.mode (.reg .r0)) (.mode (.reg .r1))) [] ∧
    decode [0x88, 0x08] = .ok (.bici .b (.mode (.reg .r1)) (.mode (.reg .r2))) [] ∧
    decode [0x90, 0x08] = .ok (.addci .b (.mode (.reg .r1)) (.mode (.reg .r2))) [] ∧
    decode [0x57, 0x00] = .ok (.movi .d (.mode (.reg .r0)) (.mode (.reg .r1))) [] ∧
    decode [0x98, 0x08] = .ok (.ori .b (.mode (.reg .r1)) (.mode (.reg .r2))) [] ∧
    decode [0xA0, 0x08] = .ok (.subi .b (.mode (.reg .r1)) (.mode (.reg .r2))) [] ∧
    decode [0x27, 0xA8, 0x81, 0x00] = .ok (.addr (.mode (.abs (.d14 0x100))) (.mode (.reg .r0))) [] ∧
    decode [0xA8, 0x08] = .ok (.andi .b (.mode (.reg .r1)) (.mode (.reg .r2))) [] ∧
    decode [0xB0, 0x08] = .ok (.subci .b (.mode (.reg .r1)) (.mode (.reg .r2))) [] ∧
    decode [0x77, 0x0D, 0xC0, 0x00, 0x40, 0x00] = .ok (.tbiti .d (.mode (.reg .r1)) (.mode (.abs (.d30 0x4000)))) [] ∧
    decode [0xFB, 0xD9, 0x78] = .ok (.xori .d (.mode (.prog (.d7 0x78))) (.mode (.reg .r7))) [] :=
  ⟨rfl, rfl, rfl, rfl, rfl, rfl, rfl, rfl, rfl, rfl, rfl, rfl⟩

theorem test_decode_format5 :
    decode [0x0E, 0x00, 0x00] = .ok (.movsi .b { back := false, uw := .none }) [] ∧
    decode [0x0E, 0x80, 0x00] = .ok (.movst { back := false, uw := .none }) [] ∧
    decode [0x0E, 0x05, 0x00] = .ok (.cmpsi .w { back := false, uw := .none }) [] ∧
    decode [0x0E, 0x84, 0x00] = .ok (.cmpst { back := false, uw := .none }) [] ∧
    decode [0x0E, 0x0C, 0x06] = .ok (.skpsi .b { back := false, uw := .untilMatch }) [] ∧
    decode [0x0E, 0x8C, 0x06] = .ok (.skpst { back := false, uw := .untilMatch }) [] ∧
    decode [0x0E, 0x8B, 0x00] = .ok (.setcfg { i := true, f := false, m := false, c := false, de := false }) [] ∧
    decode [0x0E, 0xAB, 0x03] = .ok (.bband { da := true, negS := true }) [] ∧
    decode [0x0E, 0x19, 0x00] = .ok (.bbor { da := false, negS := false }) [] ∧
    decode [0x0E, 0xB9, 0x00] = .ok (.bbxor { da := false, negS := true }) [] ∧
    decode [0x0E, 0x11, 0x02] = .ok (.bbstod { da := true, negS := false }) [] ∧
    decode [0x0E, 0x31, 0x00] = .ok .bbfor [] ∧
    decode [0x0E, 0x21, 0x00] = .ok .bitwt [] ∧
    decode [0x0E, 0x17, 0x00] = .ok .extblt [] ∧
    decode [0x0E, 0x37, 0x00] = .ok .sbits [] ∧
    decode [0x0E, 0x2F, 0x00] = .ok .sbitps [] ∧
    decode [0x0E, 0x1D, 0x00] = .ok (.movmpi .w) [] ∧
    decode [0x0E, 0xA7, 0x00] = .ok (.tbits true) [] :=
  ⟨rfl, rfl, rfl, rfl, rfl, rfl, rfl, rfl, rfl, rfl, rfl, rfl, rfl, rfl, rfl, rfl, rfl, rfl⟩

theorem test_decode_format6 :
    decode [0x4E, 0xC0, 0x10] = .ok (.roti .b (.mode (.reg .r2)) (.mode (.reg .r3))) [] ∧
    decode [0x4E, 0x45, 0xA0, 0xFD] = .ok (.ashi .w (.imm (.b 0xfd)) (.mode (.reg .r1))) [] ∧
    decode [0x4E, 0x88, 0x08] = .ok (.cbiti .b (.mode (.reg .r1)) (.mode (.reg .r2))) [] ∧
    decode [0x4E, 0x4D, 0x02, 0x00] = .ok (.cbitii .w (.mode (.reg .r0)) (.mode (.regRel .r1 (.d7 0x0)))) [] ∧
    decode [0x4E, 0x17, 0xA0, 0x04] = .ok (.lshi .d (.imm (.b 0x4)) (.mode (.reg .r0))) [] ∧
    decode [0x4E, 0x5B, 0x0D, 0xC0, 0x00, 0x40, 0x00] = .ok (.sbiti .d (.mode (.reg .r1)) (.mode (.abs (.d30 0x4000)))) [] ∧
    decode [0x4E, 0x9C, 0x08] = .ok (.sbitii .b (.mode (.reg .r1)) (.mode (.reg .r2))) [] ∧
    decode [0x4E, 0x63, 0x00] = .ok (.negi .d (.mode (.reg .r0)) (.mode (.reg .r1))) [] ∧
    decode [0x4E, 0xA4, 0x08] = .ok (.noti .b (.mode (.reg .r1)) (.mode (.reg .r2))) [] ∧
    decode [0x4E, 0xAC, 0x08] = .ok (.subpi .b (.mode (.reg .r1)) (.mode (.reg .r2))) [] ∧
    decode [0x4E, 0xB0, 0x08] = .ok (.absi .b (.mode (.reg .r1)) (.mode (.reg .r2))) [] ∧
    decode [0x4E, 0xB4, 0x08] = .ok (.comi .b (.mode (.reg .r1)) (.mode (.reg .r2))) [] ∧
    decode [0x4E, 0xB8, 0x08] = .ok (.ibiti .b (.mode (.reg .r1)) (.mode (.reg .r2))) [] ∧
    decode [0x4E, 0x7C, 0x00] = .ok (.addpi .b (.mode (.reg .r0)) (.mode (.reg .r1))) [] :=
  ⟨rfl, rfl, rfl, rfl, rfl, rfl, rfl, rfl, rfl, rfl, rfl, rfl, rfl, rfl⟩

theorem test_decode_format7 :
    decode [0xCE, 0x80, 0x4A, 0x00, 0x00, 0x03] = .ok (.movmi .b (.mode (.regRel .r1 (.d7 0x0))) (.mode (.regRel .r2 (.d7 0x0))) (.d7 0x3)) [] ∧
    decode [0xCE, 0x85, 0x4A, 0x00, 0x00, 0x04] = .ok (.cmpmi .w (.mode (.regRel .r1 (.d7 0x0))) (.mode (.regRel .r2 (.d7 0x0))) (.d7 0x4)) [] ∧
    decode [0xCE, 0x48, 0x02, 0x00, 0x07] = .ok (.inssi .b (.mode (.reg .r0)) (.mode (.regRel .r1 (.d7 0x0))) 0x7) [] ∧
    decode [0xCE, 0x4F, 0x00, 0x64] = .ok (.extsi .d (.mode (.reg .r0)) (.mode (.reg .r1)) 0x64) [] ∧
    decode [0xCE, 0x50, 0x00] = .ok (.movxbw (.mode (.reg .r0)) (.mode (.reg .r1))) [] ∧
    decode [0xCE, 0x94, 0x08] = .ok (.movzbw (.mode (.reg .r1)) (.mode (.reg .r2))) [] ∧
    decode [0xCE, 0x58, 0x00] = .ok (.movzid .b (.mode (.reg .r0)) (.mode (.reg .r1))) [] ∧
    decode [0xCE, 0x9C, 0x08] = .ok (.movxid .b (.mode (.reg .r1)) (.mode (.reg .r2))) [] ∧
    decode [0xCE, 0x23, 0x08] = .ok (.muli .d (.mode (.reg .r1)) (.mode (.reg .r0))) [] ∧
    decode [0xCE, 0xA4, 0x08] = .ok (.meii .b (.mode (.reg .r1)) (.mode (.reg .r2))) [] ∧
    decode [0xCE, 0x2D, 0x10] = .ok (.deii .w (.mode (.reg .r2)) (.mode (.reg .r0))) [] ∧
    decode [0xCE, 0xB0, 0x08] = .ok (.quoi .b (.mode (.reg .r1)) (.mode (.reg .r2))) [] ∧
    decode [0xCE, 0xB4, 0x08] = .ok (.remi .b (.mode (.reg .r1)) (.mode (.reg .r2))) [] ∧
    decode [0xCE, 0xB8, 0x08] = .ok (.modi .b (.mode (.reg .r1)) (.mode (.reg .r2))) [] ∧
    decode [0xCE, 0xBC, 0x08] = .ok (.divi .b (.mode (.reg .r1)) (.mode (.reg .r2))) [] :=
  ⟨rfl, rfl, rfl, rfl, rfl, rfl, rfl, rfl, rfl, rfl, rfl, rfl, rfl, rfl, rfl⟩

theorem test_decode_format8 :
    decode [0x2E, 0xD3, 0x48, 0x00, 0x05] = .ok (.exti .d .r2 (.mode (.regRel .r1 (.d7 0x0))) (.mode (.reg .r3)) (.d7 0x5)) [] ∧
    decode [0x6E, 0x83, 0x48, 0x00] = .ok (.cvtp .r0 (.mode (.regRel .r1 (.d7 0x0))) (.mode (.reg .r2))) [] ∧
    decode [0xAE, 0x80, 0x0A, 0x00, 0x04] = .ok (.insi .b .r0 (.mode (.reg .r1)) (.mode (.regRel .r2 (.d7 0x0))) (.d7 0x4)) [] ∧
    decode [0xEE, 0x80, 0x48, 0x00] = .ok (.checki .b .r0 (.mode (.regRel .r1 (.d7 0x0))) (.mode (.reg .r2))) [] ∧
    decode [0x2E, 0x0F, 0xA0, 0x00, 0x00, 0x02, 0x7F] = .ok (.indexi .d .r1 (.imm (.d 0x27f)) (.mode (.reg .r0))) [] ∧
    decode [0x6E, 0x47, 0x00] = .ok (.ffsi .d (.mode (.reg .r0)) (.mode (.reg .r1))) [] :=
  ⟨rfl, rfl, rfl, rfl, rfl, rfl⟩

theorem test_decode_format9 :
    decode [0x3E, 0x05, 0x10] = .ok (.movif .std .w (.mode (.reg .r2)) (.mode (.reg .r0))) [] ∧
    decode [0x3E, 0x0F, 0x00] = .ok (.lfsr { f := 0x1, i := 0x3 } (.mode (.reg .r0))) [] ∧
    decode [0x3E, 0x56, 0x05, 0xC0, 0x00, 0x30, 0x00] = .ok (.movlf { f := 0x1, i := 0x2 } (.mode (.reg .r0)) (.mode (.abs (.d30 0x3000)))) [] ∧
    decode [0x3E, 0x9B, 0x00] = .ok (.movfl { f := 0x0, i := 0x3 } (.mode (.reg .r0)) (.mode (.reg .r2))) [] ∧
    decode [0x3E, 0x67, 0x00] = .ok (.roundfi .std .d (.mode (.reg .r0)) (.mode (.reg .r1))) [] ∧
    decode [0x3E, 0xAD, 0x08] = .ok (.truncfi .std .w (.mode (.reg .r1)) (.mode (.reg .r2))) [] ∧
    decode [0x3E, 0x37, 0x00] = .ok (.sfsr { f := 0x1, i := 0x3 } (.mode (.reg .r0))) [] ∧
    decode [0x3E, 0xBD, 0x08] = .ok (.floorfi .std .w (.mode (.reg .r1)) (.mode (.reg .r2))) [] :=
  ⟨rfl, rfl, rfl, rfl, rfl, rfl, rfl, rfl⟩

theorem test_decode_format11 :
    decode [0xBE, 0x41, 0x00] = .ok (.addf .std (.mode (.reg .r0)) (.mode (.reg .r1))) [] ∧
    decode [0xBE, 0x05, 0xB8] = .ok (.movf .std (.mode .tos) (.mode (.reg .r0))) [] ∧
    decode [0xBE, 0x49, 0x05, 0xC0, 0x00, 0x30, 0x00] = .ok (.cmpf .std (.mode (.reg .r0)) (.mode (.abs (.d30 0x3000)))) [] ∧
    decode [0xBE, 0x91, 0x08] = .ok (.subf .std (.mode (.reg .r1)) (.mode (.reg .r2))) [] ∧
    decode [0xBE, 0x95, 0x08] = .ok (.negf .std (.mode (.reg .r1)) (.mode (.reg .r2))) [] ∧
    decode [0xBE, 0x21, 0x08] = .ok (.divf .std (.mode (.reg .r1)) (.mode (.reg .r0))) [] ∧
    decode [0xBE, 0x31, 0x44, 0x14, 0x0A, 0x04] = .ok (.mulf .std (.mode (.regRel .r0 (.d7 0x14))) (.mode (.memRel .fp (.d7 0xa) (.d7 0x4)))) [] ∧
    decode [0xBE, 0xB5, 0x08] = .ok (.absf .std (.mode (.reg .r1)) (.mode (.reg .r2))) [] :=
  ⟨rfl, rfl, rfl, rfl, rfl, rfl, rfl, rfl⟩

theorem test_decode_format12 :
    decode [0xFE, 0x89, 0x08] = .ok (.polyf .std (.mode (.reg .r1)) (.mode (.reg .r2))) [] ∧
    decode [0xFE, 0x8D, 0x08] = .ok (.dotf .std (.mode (.reg .r1)) (.mode (.reg .r2))) [] ∧
    decode [0xFE, 0x91, 0x08] = .ok (.scalbf .std (.mode (.reg .r1)) (.mode (.reg .r2))) [] ∧
    decode [0xFE, 0x95, 0x08] = .ok (.logbf .std (.mode (.reg .r1)) (.mode (.reg .r2))) [] :=
  ⟨rfl, rfl, rfl, rfl⟩

/-! ### One step, from the vectors of spec/95_test_vectors.md part 3 -/

/-- The machine of the spec's vectors: reset, PC = 0x1000 (spec/95_test_vectors.md section 0). -/
def Tests.blank : State := { State.reset with pc := 0x1000 }

/-- Set a general register. -/
def Tests.reg (r : Reg) (v : Word) (s : State) : State := s.setReg r v

/-- Memory that was there before: the little-endian n bytes of v at a. -/
def Tests.mem (a n v : Nat) (s : State) : State :=
  { s with mem := s.mem.writeAll ((List.range' a n).zip (leBytes n v)) }

/-- The little-endian number of n bytes at a. -/
def Tests.num (s : State) (a n : Nat) : Nat := leNat ((List.range' a n).map s.mem.read)

def Tests.fp (v : Word) (s : State) : State := { s with fp := v }
def Tests.sb (v : Word) (s : State) : State := { s with sb := v }
def Tests.sp0 (v : Word) (s : State) : State := { s with sp0 := v }
def Tests.sp1 (v : Word) (s : State) : State := { s with sp1 := v }
def Tests.pc (v : Word) (s : State) : State := { s with pc := v }
def Tests.intbase (v : Word) (s : State) : State := { s with intbase := v }
def Tests.mod (v : Half) (s : State) : State := { s with mod := v }
def Tests.psr (v : Half) (s : State) : State := { s with psr := Psr.ofBits v }
def Tests.cfgde (s : State) : State := { s with cfg := { s.cfg with de := true } }

/-- One step on an instruction's bytes; the state of no machine if it stops. -/
def Tests.run (bs : List Byte) (s : State) : State :=
  match step (s.placeCode bs) with
  | .next t => t
  | .fault _ => { s with op := .waitingForSlave, pc := 0xDEAD, regs := Regs.zero, mem := ⟨[]⟩ }
  | .refused _ => { s with op := .waitingForSlave, pc := 0xDEAD, regs := Regs.zero, mem := ⟨[]⟩ }

/-- Whether a computation goes on. -/
def Tests.goesOn {α : Type} (r : Except Stop (α × State)) : Bool :=
  match r with
  | .ok _ => true
  | .error _ => false

/-- ADDR 8(R1),R0 -/
theorem test_addr :
    let t := Tests.run [0x27, 0x48, 0x08]
      (Tests.blank |> Tests.reg .r1 0x3000)
    t.regs.r0 = 0x3008 := by decide

/-- MOVD 4(8(FP)),R0 -/
theorem test_movd :
    let t := Tests.run [0x17, 0x80, 0x08, 0x04]
      (Tests.blank |> Tests.fp 0x4000 |> Tests.mem 0x4008 4 0x5000 |> Tests.mem 0x5004 4 0xDEADBEEF)
    (t.regs.r0, t.pc) = (0xDEADBEEF, 0x1004) := by decide

/-- ADDW TOS,TOS -/
theorem test_addw :
    let t := Tests.run [0xC1, 0xBD]
      (Tests.blank |> (State.setSp · 0x7FFC) |> Tests.mem 0x7FFC 2 3 |> Tests.mem 0x7FFE 2 4)
    (t.sp, Tests.num t 0x7FFE 2) = (0x7FFE, 7) := by decide

/-- CMPD TOS,TOS -/
theorem test_cmpd :
    let t := Tests.run [0xC7, 0xBD]
      (Tests.blank |> (State.setSp · 0x7FF8) |> Tests.mem 0x7FF8 4 1 |> Tests.mem 0x7FFC 4 1)
    (t.sp, t.psr.toBits) = (0x8000, 0x40) := by decide

/-- MOVQD -1,R0 -/
theorem test_movqd :
    let t := Tests.run [0xDF, 0x07]
      (Tests.blank)
    t.regs.r0 = 0xFFFFFFFF := by decide

/-- MOVZBW R0,R1 -/
theorem test_movzbw :
    let t := Tests.run [0xCE, 0x54, 0x00]
      (Tests.blank |> Tests.reg .r0 0x80 |> Tests.reg .r1 0xFFFFFFFF)
    t.regs.r1 = 0xFFFF0080 := by decide

/-- MOVXBW R0,R1 -/
theorem test_movxbw :
    let t := Tests.run [0xCE, 0x50, 0x00]
      (Tests.blank |> Tests.reg .r0 0x80 |> Tests.reg .r1 0x11111111)
    t.regs.r1 = 0x1111FF80 := by decide

/-- MOVZWD R1,R1 -/
theorem test_movzwd :
    let t := Tests.run [0xCE, 0x59, 0x08]
      (Tests.blank |> Tests.reg .r1 0xFFFF8001)
    t.regs.r1 = 0x8001 := by decide

/-- MOVZBD R0,R1 -/
theorem test_movzbd :
    let t := Tests.run [0xCE, 0x58, 0x00]
      (Tests.blank |> Tests.reg .r0 0x123456FE |> Tests.reg .r1 0)
    t.regs.r1 = 0xFE := by decide

/-- MOVXBD R0,R1 -/
theorem test_movxbd :
    let t := Tests.run [0xCE, 0x5C, 0x00]
      (Tests.blank |> Tests.reg .r0 0xFE |> Tests.reg .r1 0)
    t.regs.r1 = 0xFFFFFFFE := by decide

/-- MOVXWD R0,R1 -/
theorem test_movxwd :
    let t := Tests.run [0xCE, 0x5D, 0x00]
      (Tests.blank |> Tests.reg .r0 0x7FFF |> Tests.reg .r1 0xFFFFFFFF)
    t.regs.r1 = 0x7FFF := by decide

/-- MOVMD 0(R1),0(R2),4 -/
theorem test_movmd :
    let t := Tests.run [0xCE, 0x83, 0x4A, 0x00, 0x00, 0x0C]
      (Tests.blank |> Tests.reg .r1 0x3000 |> Tests.reg .r2 0x4000 |> Tests.mem 0x3000 16 0x100F0E0D0C0B0A090807060504030201)
    (Tests.num t 0x4000 4, Tests.num t 0x400C 4) = (0x4030201, 0x100F0E0D) := by decide +kernel

/-- ADDB R1,R2 -/
theorem test_addb :
    let t := Tests.run [0x80, 0x08]
      (Tests.blank |> Tests.reg .r1 0x7F |> Tests.reg .r2 1)
    (t.regs.r2, t.psr.toBits) = (0x80, 0x20) := by decide

/-- ADDQD -1,R0 -/
theorem test_addqd :
    let t := Tests.run [0x8F, 0x07]
      (Tests.blank |> Tests.reg .r0 0)
    (t.regs.r0, t.psr.toBits) = (0xFFFFFFFF, 0) := by decide

/-- ADDCD R1,R0 -/
theorem test_addcd :
    let t := Tests.run [0x13, 0x08]
      (Tests.blank |> Tests.psr 1 |> Tests.reg .r1 0 |> Tests.reg .r0 0xFFFFFFFF)
    (t.regs.r0, t.psr.toBits) = (0, 1) := by decide

/-- SUBB R1,R2 -/
theorem test_subb :
    let t := Tests.run [0xA0, 0x08]
      (Tests.blank |> Tests.reg .r1 1 |> Tests.reg .r2 0)
    (t.regs.r2, t.psr.toBits) = (0xFF, 1) := by decide

/-- SUBCD R1,R0 -/
theorem test_subcd :
    let t := Tests.run [0x33, 0x08]
      (Tests.blank |> Tests.psr 1 |> Tests.reg .r1 0xFFFFFFFF |> Tests.reg .r0 0)
    (t.regs.r0, t.psr.toBits) = (0, 1) := by decide

/-- NEGB R0,R1 -/
theorem test_negb :
    let t := Tests.run [0x4E, 0x60, 0x00]
      (Tests.blank |> Tests.reg .r0 0x80 |> Tests.reg .r1 0)
    (t.regs.r1, t.psr.toBits) = (0x80, 0x21) := by decide

/-- ABSB R0,R1 -/
theorem test_absb :
    let t := Tests.run [0x4E, 0x70, 0x00]
      (Tests.blank |> Tests.reg .r0 0xFB |> Tests.reg .r1 0)
    (t.regs.r1, t.psr.toBits) = (5, 0) := by decide

/-- MULD R1,R0 -/
theorem test_muld :
    let t := Tests.run [0xCE, 0x23, 0x08]
      (Tests.blank |> Tests.psr 0x21 |> Tests.reg .r1 0x10000 |> Tests.reg .r0 0x10001)
    (t.regs.r0, t.psr.toBits) = (0x10000, 0x21) := by decide

/-- MEIB R1,R0 -/
theorem test_meib :
    let t := Tests.run [0xCE, 0x24, 0x08]
      (Tests.blank |> Tests.reg .r1 0xFF |> Tests.reg .r0 0xAAAA00FF)
    t.regs.r0 = 0xAAAAFE01 := by decide

/-- DEIB R1,R0 -/
theorem test_deib :
    let t := Tests.run [0xCE, 0x2C, 0x08]
      (Tests.blank |> Tests.reg .r1 0x10 |> Tests.reg .r0 0xFFFF0123)
    t.regs.r0 = 0xFFFF1203 := by decide

/-- QUOB R1,R0 -/
theorem test_quob :
    let t := Tests.run [0xCE, 0x30, 0x08]
      (Tests.blank |> Tests.reg .r1 2 |> Tests.reg .r0 0xF9)
    t.regs.r0 = 0xFD := by decide

/-- QUOB R1,R0 -/
theorem test_quob_2 :
    let t := Tests.run [0xCE, 0x30, 0x08]
      (Tests.blank |> Tests.reg .r1 0xFE |> Tests.reg .r0 7)
    t.regs.r0 = 0xFD := by decide

/-- REMB R1,R0 -/
theorem test_remb :
    let t := Tests.run [0xCE, 0x34, 0x08]
      (Tests.blank |> Tests.reg .r1 2 |> Tests.reg .r0 0xF9)
    t.regs.r0 = 0xFF := by decide

/-- DIVB R1,R0 -/
theorem test_divb :
    let t := Tests.run [0xCE, 0x3C, 0x08]
      (Tests.blank |> Tests.reg .r1 2 |> Tests.reg .r0 0xF9)
    t.regs.r0 = 0xFC := by decide

/-- MODB R1,R0 -/
theorem test_modb :
    let t := Tests.run [0xCE, 0x38, 0x08]
      (Tests.blank |> Tests.reg .r1 2 |> Tests.reg .r0 0xF9)
    t.regs.r0 = 1 := by decide

/-- ADDPB R1,R0 -/
theorem test_addpb :
    let t := Tests.run [0x4E, 0x3C, 0x08]
      (Tests.blank |> Tests.reg .r1 3 |> Tests.reg .r0 0x19)
    (t.regs.r0, t.psr.toBits) = (0x22, 0) := by decide

/-- SUBPB R1,R0 -/
theorem test_subpb :
    let t := Tests.run [0x4E, 0x2C, 0x08]
      (Tests.blank |> Tests.reg .r1 1 |> Tests.reg .r0 0x10)
    (t.regs.r0, t.psr.toBits) = (9, 0) := by decide

/-- CMPQB 2,R0 -/
theorem test_cmpqb :
    let t := Tests.run [0x1C, 0x01]
      (Tests.blank |> Tests.reg .r0 1)
    t.psr.toBits = 0x84 := by decide

/-- CMPMB 0(R1),0(R2),3 -/
theorem test_cmpmb :
    let t := Tests.run [0xCE, 0x84, 0x4A, 0x00, 0x00, 0x02]
      (Tests.blank |> Tests.reg .r1 0x3000 |> Tests.reg .r2 0x4000 |> Tests.mem 0x3000 3 0x30201 |> Tests.mem 0x4000 3 0x40201)
    (t.psr.toBits, t.regs.r1) = (0, 0x3000) := by decide

/-- ANDB R1,R0 -/
theorem test_andb :
    let t := Tests.run [0x28, 0x08]
      (Tests.blank |> Tests.psr 0xE5 |> Tests.reg .r1 15 |> Tests.reg .r0 0x123456A5)
    (t.regs.r0, t.psr.toBits) = (0x12345605, 0xE5) := by decide

/-- ORW R1,R0 -/
theorem test_orw :
    let t := Tests.run [0x19, 0x08]
      (Tests.blank |> Tests.reg .r1 0xF000 |> Tests.reg .r0 0x1234000F)
    t.regs.r0 = 0x1234F00F := by decide

/-- BICB R1,R0 -/
theorem test_bicb :
    let t := Tests.run [0x08, 0x08]
      (Tests.blank |> Tests.reg .r1 15 |> Tests.reg .r0 0xFF)
    t.regs.r0 = 0xF0 := by decide

/-- XORD R1,R0 -/
theorem test_xord :
    let t := Tests.run [0x3B, 0x08]
      (Tests.blank |> Tests.reg .r1 0xFFFFFFFF |> Tests.reg .r0 0x12345678)
    t.regs.r0 = 0xEDCBA987 := by decide

/-- COMB R0,R1 -/
theorem test_comb :
    let t := Tests.run [0x4E, 0x74, 0x00]
      (Tests.blank |> Tests.reg .r0 0xA5 |> Tests.reg .r1 0)
    t.regs.r1 = 0x5A := by decide

/-- NOTB R0,R1 -/
theorem test_notb :
    let t := Tests.run [0x4E, 0x64, 0x00]
      (Tests.blank |> Tests.reg .r0 1 |> Tests.reg .r1 0xFFFFFF55)
    t.regs.r1 = 0xFFFFFF00 := by decide

/-- SEQD R1 -/
theorem test_seqd :
    let t := Tests.run [0x3F, 0x08]
      (Tests.blank |> Tests.psr 0x40 |> Tests.reg .r1 0xFFFFFFFF)
    (t.regs.r1, t.psr.toBits) = (1, 0x40) := by decide

/-- SLOB R1 -/
theorem test_slob :
    let t := Tests.run [0x3C, 0x0D]
      (Tests.blank |> Tests.psr 0 |> Tests.reg .r1 0)
    t.regs.r1 = 1 := by decide

/-- LSHD 4,R0 -/
theorem test_lshd :
    let t := Tests.run [0x4E, 0x17, 0xA0, 0x04]
      (Tests.blank |> Tests.psr 0xE5 |> Tests.reg .r0 0x12345678)
    (t.regs.r0, t.psr.toBits) = (0x23456780, 0xE5) := by decide

/-- ASHB -1,R0 -/
theorem test_ashb :
    let t := Tests.run [0x4E, 0x04, 0xA0, 0xFF]
      (Tests.blank |> Tests.reg .r0 0x81)
    t.regs.r0 = 0xC0 := by decide

/-- ROTB 1,R0 -/
theorem test_rotb :
    let t := Tests.run [0x4E, 0x00, 0xA0, 0x01]
      (Tests.blank |> Tests.reg .r0 0x81)
    t.regs.r0 = 3 := by decide

/-- TBITB 9,@0x3000 -/
theorem test_tbitb :
    let t := Tests.run [0x74, 0xA5, 0x09, 0xC0, 0x00, 0x30, 0x00]
      (Tests.blank |> Tests.mem 0x3000 2 0x200)
    t.psr.toBits = 0x20 := by decide

/-- SBITD R1,@0x3000 -/
theorem test_sbitd :
    let t := Tests.run [0x4E, 0x5B, 0x0D, 0xC0, 0x00, 0x30, 0x00]
      (Tests.blank |> Tests.reg .r1 0x11 |> Tests.mem 0x3000 4 0x0)
    (Tests.num t 0x3000 4, t.psr.toBits) = (0x20000, 0) := by decide

/-- CBITW 15,R0 -/
theorem test_cbitw :
    let t := Tests.run [0x4E, 0x09, 0xA0, 0x00, 0x0F]
      (Tests.blank |> Tests.reg .r0 0xFFFFFFFF)
    (t.regs.r0, t.psr.toBits) = (0xFFFF7FFF, 0x20) := by decide

/-- IBITB 7,@0x3000 -/
theorem test_ibitb :
    let t := Tests.run [0x4E, 0x78, 0xA5, 0x07, 0xC0, 0x00, 0x30, 0x00]
      (Tests.blank |> Tests.mem 0x3000 1 0x80)
    (Tests.num t 0x3000 1, t.psr.toBits) = (0, 0x20) := by decide

/-- SBITIB 3,@0x3000 -/
theorem test_sbitib :
    let t := Tests.run [0x4E, 0x5C, 0xA5, 0x03, 0xC0, 0x00, 0x30, 0x00]
      (Tests.blank |> Tests.mem 0x3000 1 0x0)
    (Tests.num t 0x3000 1, t.psr.toBits) = (8, 0) := by decide

/-- CBITIB 3,@0x3000 -/
theorem test_cbitib :
    let t := Tests.run [0x4E, 0x4C, 0xA5, 0x03, 0xC0, 0x00, 0x30, 0x00]
      (Tests.blank |> Tests.mem 0x3000 1 0xFF)
    (Tests.num t 0x3000 1, t.psr.toBits) = (0xF7, 0x20) := by decide

/-- FFSB R1,R0 -/
theorem test_ffsb :
    let t := Tests.run [0x6E, 0x04, 0x08]
      (Tests.blank |> Tests.reg .r1 0x28 |> Tests.reg .r0 0)
    (t.regs.r0, t.psr.toBits) = (3, 0) := by decide

/-- FFSB R1,R0 -/
theorem test_ffsb_2 :
    let t := Tests.run [0x6E, 0x04, 0x08]
      (Tests.blank |> Tests.reg .r1 0x28 |> Tests.reg .r0 4)
    (t.regs.r0, t.psr.toBits) = (5, 0) := by decide

/-- EXTB R0,@0x3000,R1,4 -/
theorem test_extb :
    let t := Tests.run [0x2E, 0x40, 0xA8, 0xC0, 0x00, 0x30, 0x00, 0x04]
      (Tests.blank |> Tests.reg .r0 2 |> Tests.reg .r1 0xFFFFFFFF |> Tests.mem 0x3000 4 0x1B4)
    (t.regs.r1, t.psr.toBits) = (0xFFFFFF0D, 0) := by decide

/-- INSB R0,R2,@0x3000,4 -/
theorem test_insb :
    let t := Tests.run [0xAE, 0x40, 0x15, 0xC0, 0x00, 0x30, 0x00, 0x04]
      (Tests.blank |> Tests.reg .r0 2 |> Tests.reg .r2 5 |> Tests.mem 0x3000 4 0xFFFFFFFF)
    Tests.num t 0x3000 4 = 0xFFFFFFD7 := by decide

/-- EXTSB @0x3000,R1,2,4 -/
theorem test_extsb :
    let t := Tests.run [0xCE, 0x4C, 0xA8, 0xC0, 0x00, 0x30, 0x00, 0x43]
      (Tests.blank |> Tests.reg .r1 0 |> Tests.mem 0x3000 4 0x1B4)
    t.regs.r1 = 13 := by decide

/-- INSSW R2,@0x3000,5,6 -/
theorem test_inssw :
    let t := Tests.run [0xCE, 0x49, 0x15, 0xC0, 0x00, 0x30, 0x00, 0xA5]
      (Tests.blank |> Tests.reg .r2 0xFFFF |> Tests.mem 0x3000 4 0x0)
    Tests.num t 0x3000 4 = 0x7E0 := by decide

/-- CVTP R0,@0x200,R1 -/
theorem test_cvtp :
    let t := Tests.run [0x6E, 0x43, 0xA8, 0x82, 0x00]
      (Tests.blank |> Tests.reg .r0 5 |> Tests.reg .r1 0)
    t.regs.r1 = 0x1005 := by decide

/-- CHECKB R0,@0x3000,R1 -/
theorem test_checkb :
    let t := Tests.run [0xEE, 0x40, 0xA8, 0xC0, 0x00, 0x30, 0x00]
      (Tests.blank |> Tests.reg .r0 0xFFFFFFFF |> Tests.reg .r1 4 |> Tests.mem 0x3000 2 0x10A)
    (t.regs.r0, t.psr.toBits) = (3, 0) := by decide

/-- CHECKB R0,@0x3000,R1 -/
theorem test_checkb_2 :
    let t := Tests.run [0xEE, 0x40, 0xA8, 0xC0, 0x00, 0x30, 0x00]
      (Tests.blank |> Tests.reg .r0 0x77 |> Tests.reg .r1 11 |> Tests.mem 0x3000 2 0x10A)
    t.psr.toBits = 0x20 := by decide

/-- INDEXD R1,639,R0 -/
theorem test_indexd :
    let t := Tests.run [0x2E, 0x0F, 0xA0, 0x00, 0x00, 0x02, 0x7F]
      (Tests.blank |> Tests.reg .r1 3 |> Tests.reg .r0 10)
    (t.regs.r1, t.psr.toBits) = (0x78A, 0) := by decide

/-- MOVSB -/
theorem test_movsb :
    let t := Tests.run [0x0E, 0x00, 0x00]
      (Tests.blank |> Tests.psr 0x20 |> Tests.reg .r0 3 |> Tests.reg .r1 0x3000 |> Tests.reg .r2 0x4000 |> Tests.mem 0x3000 3 0x434241)
    (t.regs.r0, t.regs.r1) = (0, 0x3003) := by decide +kernel

/-- MOVST -/
theorem test_movst :
    let t := Tests.run [0x0E, 0x80, 0x00]
      (Tests.blank |> Tests.reg .r0 2 |> Tests.reg .r1 0x3000 |> Tests.reg .r2 0x4000 |> Tests.reg .r3 0x5000 |> Tests.mem 0x3000 2 0x301 |> Tests.mem 0x5000 4 0x63626160)
    (t.regs.r0, t.regs.r1) = (0, 0x3002) := by decide

/-- CMPSB -/
theorem test_cmpsb :
    let t := Tests.run [0x0E, 0x04, 0x00]
      (Tests.blank |> Tests.psr 0x20 |> Tests.reg .r0 3 |> Tests.reg .r1 0x3000 |> Tests.reg .r2 0x4000 |> Tests.mem 0x3000 3 0x444241 |> Tests.mem 0x4000 3 0x434241)
    (t.regs.r0, t.regs.r1) = (1, 0x3002) := by decide

/-- SKPSB U -/
theorem test_skpsb :
    let t := Tests.run [0x0E, 0x0C, 0x06]
      (Tests.blank |> Tests.reg .r0 10 |> Tests.reg .r1 0x3000 |> Tests.reg .r4 0x20 |> Tests.mem 0x3000 3 0x204241)
    (t.regs.r0, t.regs.r1) = (8, 0x3002) := by decide

/-- BR +10 -/
theorem test_br :
    let t := Tests.run [0xEA, 0x0A]
      (Tests.blank)
    t.pc = 0x100A := by decide

/-- BEQ -4 -/
theorem test_beq :
    let t := Tests.run [0x0A, 0x7C]
      (Tests.blank |> Tests.psr 0x40)
    t.pc = 0xFFC := by decide

/-- BLO +100 -/
theorem test_blo :
    let t := Tests.run [0xAA, 0x80, 0x64]
      (Tests.blank |> Tests.psr 0)
    t.pc = 0x1064 := by decide

/-- BGE +0x12345 -/
theorem test_bge :
    let t := Tests.run [0xDA, 0xC0, 0x01, 0x23, 0x45]
      (Tests.blank |> Tests.psr 0x80)
    t.pc = 0x13345 := by decide

/-- JUMP 0(R0) -/
theorem test_jump :
    let t := Tests.run [0x7F, 0x42, 0x00]
      (Tests.blank |> Tests.reg .r0 0x3000)
    t.pc = 0x3000 := by decide

/-- CASEB 0(R1)[R0:B] -/
theorem test_caseb :
    let t := Tests.run [0x7C, 0xE7, 0x48, 0x00]
      (Tests.blank |> Tests.reg .r0 2 |> Tests.reg .r1 0x3000 |> Tests.mem 0x3000 3 0xF00804)
    t.pc = 0xFF0 := by decide

/-- ACBD -1,R0,-6 -/
theorem test_acbd :
    let t := Tests.run [0xCF, 0x07, 0x7A]
      (Tests.blank |> Tests.psr 0x21 |> Tests.reg .r0 2)
    (t.pc, t.regs.r0) = (0xFFA, 1) := by decide

/-- JSR @0x2000 -/
theorem test_jsr :
    let t := Tests.run [0x7F, 0xAE, 0xC0, 0x00, 0x20, 0x00]
      (Tests.blank |> (State.setSp · 0x8000))
    (t.pc, t.sp) = (0x2000, 0x7FFC) := by decide

/-- BSR +0x20 -/
theorem test_bsr :
    let t := Tests.run [0x02, 0x20]
      (Tests.blank |> (State.setSp · 0x8000))
    (t.pc, t.sp) = (0x1020, 0x7FFC) := by decide

/-- RET 8 -/
theorem test_ret :
    let t := Tests.run [0x12, 0x08]
      (Tests.blank |> (State.setSp · 0x7FFC) |> Tests.mem 0x7FFC 4 0x1002)
    (t.pc, t.sp) = (0x1002, 0x8008) := by decide

/-- ENTER [R3],8 -/
theorem test_enter :
    let t := Tests.run [0x82, 0x08, 0x08]
      (Tests.blank |> (State.setSp · 0x8000) |> Tests.fp 0x9000 |> Tests.reg .r3 7)
    (t.pc, t.sp) = (0x1003, 0x7FF0) := by decide

/-- EXIT [R3] -/
theorem test_exit :
    let t := Tests.run [0x92, 0x10]
      (Tests.blank |> (State.setSp · 0x7FF0) |> Tests.fp 0x7FFC |> Tests.reg .r3 0 |> Tests.mem 0x7FF0 4 7 |> Tests.mem 0x7FFC 4 0x9000)
    (t.regs.r3, t.sp) = (7, 0x8000) := by decide

/-- SAVE [R0,R1,R2] -/
theorem test_save :
    let t := Tests.run [0x62, 0x07]
      (Tests.blank |> (State.setSp · 0x8000) |> Tests.reg .r0 0xA0 |> Tests.reg .r1 0xA1 |> Tests.reg .r2 0xA2)
    (t.sp, Tests.num t 0x7FFC 4) = (0x7FF4, 0xA0) := by decide

/-- RESTORE [R0,R1,R2] -/
theorem test_restore :
    let t := Tests.run [0x72, 0xE0]
      (Tests.blank |> (State.setSp · 0x7FF4) |> Tests.reg .r0 0 |> Tests.reg .r1 0 |> Tests.reg .r2 0 |> Tests.mem 0x7FF4 4 0xA2 |> Tests.mem 0x7FF8 4 0xA1 |> Tests.mem 0x7FFC 4 0xA0)
    (t.regs.r0, t.regs.r1) = (0xA0, 0xA1) := by decide

/-- CXP 2 -/
theorem test_cxp :
    let t := Tests.run [0x22, 0x02]
      (Tests.blank |> (State.setSp · 0x8000) |> Tests.mod 0x100 |> Tests.sb 0x3000 |> Tests.mem 0x100 4 0x3000 |> Tests.mem 0x104 4 0x6000 |> Tests.mem 0x108 4 0x500 |> Tests.mem 0x6008 4 0x100200 |> Tests.mem 0x200 4 0x3800 |> Tests.mem 0x208 4 0x7000)
    (t.pc, t.mod) = (0x7010, 0x200) := by decide

/-- RXP 4 -/
theorem test_rxp :
    let t := Tests.run [0x32, 0x04]
      (Tests.blank |> (State.setSp · 0x7FF8) |> Tests.mod 0x200 |> Tests.sb 0x3800 |> Tests.mem 0x7FF8 4 0x1002 |> Tests.mem 0x7FFC 4 0xAAAA0100 |> Tests.mem 0x100 4 0x3000)
    (t.pc, t.mod) = (0x1002, 0x100) := by decide

/-- FLAG (F=0) -/
theorem test_flag :
    let t := Tests.run [0xD2]
      (Tests.blank |> Tests.psr 0)
    t.pc = 0x1001 := by decide

/-- NOP -/
theorem test_nop :
    let t := Tests.run [0xA2]
      (Tests.blank |> Tests.psr 0xE5)
    (t.psr.toBits, t.pc) = (0xE5, 0x1001) := by decide

/-- WAIT -/
theorem test_wait :
    let t := Tests.run [0xB2]
      (Tests.blank)
    t.pc = 0x1001 := by decide

/-- DIA -/
theorem test_dia :
    let t := Tests.run [0xC2]
      (Tests.blank)
    t.pc = 0x1000 := by decide

/-- LPRD SP,0x8000 -/
theorem test_lprd :
    let t := Tests.run [0xEF, 0xA4, 0x00, 0x00, 0x80, 0x00]
      (Tests.blank |> Tests.psr 0 |> Tests.sp0 1)
    t.sp0 = 0x8000 := by decide

/-- LPRW MOD,R0 -/
theorem test_lprw :
    let t := Tests.run [0xED, 0x07]
      (Tests.blank |> Tests.reg .r0 0xABCD0020 |> Tests.mod 0)
    t.mod = 0x20 := by decide

/-- SPRD FP,R0 -/
theorem test_sprd :
    let t := Tests.run [0x2F, 0x04]
      (Tests.blank |> Tests.fp 0x2000 |> Tests.reg .r0 0)
    t.regs.r0 = 0x2000 := by decide

/-- SPRW PSR,R0 before anything has written the PSR; after a write bits 13-15 are free. -/
theorem test_sprw :
    (match exec (.spri .w .psr (.mode (.reg .r0))) (Tests.blank |> Tests.psr 0x861 |> Tests.reg .r0 0xFFFFFFFF) with
      | .next t => t.regs.r0
      | .fault _ => 0
      | .refused _ => 0) = 0xFFFF0861 := by decide

/-- ADJSPB -4 -/
theorem test_adjspb :
    let t := Tests.run [0x7C, 0xA5, 0xFC]
      (Tests.blank |> (State.setSp · 0x8000))
    t.sp = 0x8004 := by decide

/-- BISPSRB 0x01 -/
theorem test_bispsrb :
    let t := Tests.run [0x7C, 0xA3, 0x01]
      (Tests.blank |> Tests.psr 0x100)
    t.psr.toBits = 0x101 := by decide

/-- BICPSRB 0x18 -/
theorem test_bicpsrb :
    let t := Tests.run [0x7C, 0xA1, 0x18]
      (Tests.blank |> Tests.psr 0x79)
    t.psr.toBits = 0x61 := by decide

/-- SETCFG [I] -/
theorem test_setcfg :
    let t := Tests.run [0x0E, 0x8B, 0x00]
      (Tests.blank |> Tests.psr 0)
    t.pc = 0x1003 := by decide

/-- BBOR -/
theorem test_bbor :
    let t := Tests.run [0x0E, 0x19, 0x00]
      (Tests.blank |> Tests.reg .r0 0x3000 |> Tests.reg .r1 0x4000 |> Tests.reg .r2 3 |> Tests.reg .r3 1 |> Tests.reg .r4 0xFFFF |> Tests.reg .r5 0xFFFF |> Tests.reg .r6 0 |> Tests.reg .r7 0 |> (State.setSp · 0x8000) |> Tests.mem 0x8000 4 1 |> Tests.mem 0x3000 2 0x8001 |> Tests.mem 0x4000 4 0)
    (Tests.num t 0x4000 4, t.regs.r0) = (0x40008, 0x3002) := by decide

/-- BBSTOD -/
theorem test_bbstod :
    let t := Tests.run [0x0E, 0x11, 0x00]
      (Tests.blank |> Tests.reg .r0 0x3000 |> Tests.reg .r1 0x4000 |> Tests.reg .r2 4 |> Tests.reg .r3 1 |> Tests.reg .r4 0xFF0 |> Tests.reg .r5 0xFF0 |> Tests.reg .r6 0 |> Tests.reg .r7 0 |> (State.setSp · 0x8000) |> Tests.mem 0x8000 4 1 |> Tests.mem 0x3000 2 0xABCD |> Tests.mem 0x4000 4 0x12345678)
    (Tests.num t 0x4000 4, t.regs.r0) = (0x1234BC78, 0x3002) := by decide

/-- BBAND -/
theorem test_bband :
    let t := Tests.run [0x0E, 0x2B, 0x01]
      (Tests.blank |> Tests.reg .r0 0x3000 |> Tests.reg .r1 0x4000 |> Tests.reg .r2 0 |> Tests.reg .r3 1 |> Tests.reg .r4 0xFF |> Tests.reg .r5 0xFF |> Tests.reg .r6 0 |> Tests.reg .r7 0 |> (State.setSp · 0x8000) |> Tests.mem 0x8000 4 1 |> Tests.mem 0x3000 2 0xF0F |> Tests.mem 0x4000 4 0xFFFFFFFF)
    Tests.num t 0x4000 4 = 0xFFFFFF0F := by decide

/-- BBXOR -/
theorem test_bbxor :
    let t := Tests.run [0x0E, 0x39, 0x00]
      (Tests.blank |> Tests.reg .r0 0x3000 |> Tests.reg .r1 0x4000 |> Tests.reg .r2 1 |> Tests.reg .r3 1 |> Tests.reg .r4 0xFFFF |> Tests.reg .r5 0xFFFF |> Tests.reg .r6 0 |> Tests.reg .r7 0 |> (State.setSp · 0x8000) |> Tests.mem 0x8000 4 1 |> Tests.mem 0x3000 2 0xFFFF |> Tests.mem 0x4000 4 0x1FFFE)
    Tests.num t 0x4000 4 = 0 := by decide

/-- BBFOR -/
theorem test_bbfor :
    let t := Tests.run [0x0E, 0x31, 0x00]
      (Tests.blank |> Tests.reg .r0 0x3000 |> Tests.reg .r1 0x4000 |> Tests.reg .r2 15 |> Tests.reg .r3 1 |> Tests.reg .r4 0xFFFF |> Tests.reg .r5 0xFFFF |> Tests.reg .r6 0 |> Tests.reg .r7 0 |> (State.setSp · 0x8000) |> Tests.mem 0x8000 4 1 |> Tests.mem 0x3000 2 0x8001 |> Tests.mem 0x4000 4 1)
    Tests.num t 0x4000 4 = 0x40008001 := by decide

/-- BITWT -/
theorem test_bitwt :
    let t := Tests.run [0x0E, 0x21, 0x00]
      (Tests.blank |> Tests.reg .r0 0x3000 |> Tests.reg .r1 0x4000 |> Tests.reg .r2 8 |> Tests.mem 0x3000 2 0xFF |> Tests.mem 0x4000 4 0x80000001)
    (Tests.num t 0x4000 4, t.regs.r0) = (0x8000FF01, 0x3002) := by decide

/-- MOVMPW -/
theorem test_movmpw :
    let t := Tests.run [0x0E, 0x1D, 0x00]
      (Tests.blank |> Tests.reg .r0 0x3000 |> Tests.reg .r1 4 |> Tests.reg .r2 3 |> Tests.reg .r3 0x1234ABCD |> Tests.mem 0x3000 12 0x0)
    (Tests.num t 0x3000 4, Tests.num t 0x3004 4) = (0xABCD, 0xABCD) := by decide

/-- TBITS 0 -/
theorem test_tbits :
    let t := Tests.run [0x0E, 0x27, 0x00]
      (Tests.blank |> Tests.reg .r0 0x3000 |> Tests.reg .r1 0 |> Tests.reg .r3 0x64 |> Tests.reg .r4 0x40 |> Tests.mem 0x3000 1 0x38)
    (t.regs.r1, t.regs.r2) = (4, 3) := by decide

/-- TBITS 0 (run limit) -/
theorem test_tbits_2 :
    let t := Tests.run [0x0E, 0x27, 0x00]
      (Tests.blank |> Tests.reg .r0 0x3000 |> Tests.reg .r1 0 |> Tests.reg .r3 2 |> Tests.reg .r4 0x40 |> Tests.mem 0x3000 1 0x38)
    (t.regs.r1, t.regs.r2) = (2, 2) := by decide

/-- SBITS -/
theorem test_sbits :
    let t := Tests.run [0x0E, 0x37, 0x00]
      (Tests.blank |> Tests.reg .r0 0x4000 |> Tests.reg .r1 13 |> Tests.reg .r2 6 |> Tests.reg .r3 0x6000 |> Tests.mem 0x6298 4 0x7E0 |> Tests.mem 0x4001 4 0x80000000)
    (Tests.num t 0x4001 4, t.regs.r0) = (0x800007E0, 0x4000) := by decide

/-- SBITPS -/
theorem test_sbitps :
    let t := Tests.run [0x0E, 0x2F, 0x00]
      (Tests.blank |> Tests.reg .r0 0x4000 |> Tests.reg .r1 3 |> Tests.reg .r2 3 |> Tests.reg .r3 0x20 |> Tests.mem 0x4000 12 0x0)
    (Tests.num t 0x4000 1, Tests.num t 0x4004 1) = (8, 8) := by decide

/-- SVC (modular, DE=0). Bits 13-15 of the saved copy are free, so that the bytes of the dispatch and module entries below the
frame must all be listed for the kernel to find them. -/
theorem test_svc :
    let t := Tests.run [0xE2]
      (Tests.blank |> Tests.psr 0xB21 |> Tests.sp1 0x7000 |> Tests.intbase 0x400 |> Tests.mod 0x20 |>
        Tests.mem 0x140 4 0x01013801 |> Tests.mem 0x148 4 0x01016001 |> Tests.mem 0x414 4 0x01100140)
    (t.pc, t.psr.toBits, t.sp0, t.sp1, t.mod, t.sb) = (0x01016111, 0x821, 0x7FF8, 0x7000, 0x140, 0x01013801) := by
  decide +kernel

/-- SVC (direct, DE=1) -/
theorem test_svc_2 :
    let t := Tests.run [0xE2]
      (Tests.blank |> Tests.psr 0xB21 |> Tests.intbase 0x400 |> Tests.mod 0x20 |> Tests.cfgde |> Tests.mem 0x414 4 0x01016010)
    (t.pc, t.psr.toBits, t.sp0, t.mod) = (0x01016010, 0x821, 0x7FF8, 0x20) := by decide +kernel

/-- BPT (T=1) -/
theorem test_bpt :
    let t := Tests.run [0xF2]
      (Tests.blank |> Tests.psr 2 |> Tests.intbase 0x400 |> Tests.cfgde |> Tests.mem 0x420 4 0x01016101)
    (t.pc, t.psr.toBits, t.sp0) = (0x01016101, 0, 0x7FF8) := by decide +kernel

/-- RETT 4 (modular) -/
theorem test_rett :
    let t := Tests.run [0x42, 0x04]
      (Tests.blank |> Tests.psr 1 |> id |> Tests.sp0 0x7FF8 |> Tests.sp1 0x7000 |> Tests.mod 0x40 |> Tests.sb 0x3800 |> Tests.mem 0x7FF8 4 0x1234 |> Tests.mem 0x7FFC 2 0x20 |> Tests.mem 0x7FFE 2 0xB20 |> Tests.mem 0x20 4 0x3000)
    (t.pc, t.psr.toBits) = (0x1234, 0xB20) := by decide

/-- RETT 4 (direct) -/
theorem test_rett_2 :
    let t := Tests.run [0x42, 0x04]
      (Tests.blank |> Tests.psr 1 |> Tests.cfgde |> Tests.sp0 0x7FF8 |> Tests.sp1 0x7000 |> Tests.mod 0x40 |> Tests.sb 0x3800 |> Tests.mem 0x7FF8 4 0x1234 |> Tests.mem 0x7FFC 2 0x20 |> Tests.mem 0x7FFE 2 0xB20)
    (t.pc, t.psr.toBits) = (0x1234, 0xB20) := by decide

/-- ADDF F0,F1 (CFG.F=0) -/
theorem test_addf :
    let t := Tests.run [0xBE, 0x41, 0x00]
      (Tests.blank |> Tests.psr 0 |> Tests.sp0 0x8000 |> Tests.sp1 0x7000 |> Tests.intbase 0x400 |> Tests.mod 0x20 |> Tests.sb 0x3000 |> Tests.cfgde |> id |> Tests.mem 0x428 4 0x6300 |> Tests.mem 0x7FFC 2 0xEEEE)
    (t.psr.toBits, t.sp0) = (0, 0x7FF8) := by decide

/-- MOVF TOS,F0 (CFG.F=0) -/
theorem test_movf :
    let t := Tests.run [0xBE, 0x05, 0xB8]
      (Tests.blank |> Tests.psr 0 |> Tests.sp0 0x8000 |> Tests.sp1 0x7000 |> Tests.intbase 0x400 |> Tests.mod 0x20 |> Tests.sb 0x3000 |> Tests.cfgde |> id |> Tests.mem 0x428 4 0x6300 |> Tests.mem 0x7FFC 2 0xEEEE)
    (t.psr.toBits, t.sp0) = (0, 0x7FF8) := by decide

/-- RETI -/
theorem test_reti :
    let t := Tests.run [0x52]
      ({ Tests.blank with isrv := 0x2020 } |> Tests.psr 0x800 |> Tests.cfgde |> Tests.sp0 0x7FF8 |>
        Tests.mem 0x7FF8 4 0x1234 |> Tests.mem 0x7FFC 4 0x0B200020)
    (t.pc, t.psr.toBits, t.sp0, t.isrv) = (0x1234, 0xB20, 0x8000, 0x20) := by decide

/-- CXPD @0x6008 -/
theorem test_cxpd :
    let t := Tests.run [0x7F, 0xA8, 0xC0, 0x00, 0x60, 0x08]
      (Tests.blank |> Tests.mod 0x20 |> Tests.mem 0x6008 4 0x00300040 |> Tests.mem 0x40 4 0x3800 |> Tests.mem 0x48 4 0x5000)
    (t.pc, t.mod, t.sb, Tests.num t 0x7FF8 4, Tests.num t 0x7FFC 2) = (0x5030, 0x40, 0x3800, 0x1006, 0x20) := by decide

/-- CXPD @0x6007: the descriptor is two words, at an odd address four cycles; a write between the last two is seen (R140, R451). -/
theorem test_cxpd_two_words :
    let t := Tests.run [0x7F, 0xA8, 0xC0, 0x00, 0x60, 0x07]
      ({ Tests.blank with inputs := [⟨[], [[], [], [.busWrite 0x6008 0x02], [.busWrite 0x600A 0x01]]⟩] } |>
        Tests.mem 0x6007 4 0x00300040 |> Tests.mem 0x48 4 0x5000)
    (t.mod, t.pc) = (0x40, 0x5130) := by decide +kernel

/-- X1 of section 3.10, the instruction elsewhere. -/
theorem test_extblt :
    let t := Tests.run [0x0E, 0x17, 0x00]
      ({ Tests.blank with
        pc := 0x5000, regs := ⟨0x1000, 0x2000, 4, 1, 2, 0, 0, 0⟩
        bpu := { Bpu.reset with bis := true, sn := 12, rm := 11, lm := 2, fs := 3, blme := true, erme := true,
                                ebpu := true, sprd := true, wcnt := 0xFE } } |>
        Tests.mem 0x1000 4 0x1234ABCD |> Tests.mem 0x1004 2 0x00FF |> Tests.mem 0x2000 2 0xFFFF)
    (Tests.num t 0x2000 4, t.regs.r0, t.regs.r1, t.regs.r3) = (0x0FF1234B, 0x1006, 0x2004, 0) := by decide +kernel

/-- NMI of section 3.9. -/
theorem test_nmi :
    let t := Tests.run []
      ({ Tests.blank with nmiLatch := true } |> Tests.psr 0x1B23 |> Tests.cfgde |> Tests.intbase 0x400 |>
        Tests.mem 0x404 4 0x6600)
    (t.pc, t.psr.toBits, Tests.num t 0x7FFE 2, Tests.num t 0x7FF8 4) = (0x6600, 0x21, 0x1B23, 0x1000) := by decide

/-- Maskable, vectored, Timer 0 IPFA (level 13) of section 3.9. -/
theorem test_maskable :
    let t := Tests.run []
      ({ Tests.blank with cfg := { Tests.blank.cfg with i := true, de := true },
                          timer0 := { Timer.reset with ipfa := true, iena := true } } |>
        Tests.psr 0x0B21 |> Tests.intbase 0x400 |> Tests.mem 0x474 4 0x6800)
    (t.pc, t.psr.toBits, t.isrv, Tests.num t 0x7FFE 2) = (0x6800, 0x21, 0x2000, 0x0B21) := by decide

/-- The pins are released between the sampling and the acknowledge cycle: vector 0x10, no bit of ISRV (R631, R664, U32). -/
theorem test_request_withdrawn :
    let t := Tests.run []
      ({ Tests.blank with cfg := { Tests.blank.cfg with i := true, de := true }, irPins := 0b0010,
                          inputs := [⟨[], [[.irPins 0b1111]]⟩] } |>
        Tests.psr 0x0B21 |> Tests.intbase 0x400 |> Tests.mem 0x440 4 0x6800)
    (t.pc, t.isrv, Tests.num t 0x7FFE 2) = (0x6800, 0, 0x0B21) := by decide

/-- A string move with a non-maskable interrupt pending stops after its first element, to be resumed (R428). -/
theorem test_movsb_interrupted :
    let t := Tests.run [0x0E, 0x00, 0x00]
      ({ Tests.blank with regs := ⟨3, 0x3000, 0x4000, 0, 0, 0, 0, 0⟩, within := [],
                          inputs := [⟨[], [[.nmiEdge]]⟩] } |> Tests.mem 0x3000 3 0x030201 |> Tests.cfgde)
    (t.regs.r0, t.regs.r1, t.sp0, t.nmiLatch) = (2, 0x3001, 0x7FF8, false) := by decide +kernel

/-- Between two elements the environment may let a point pass (INTERRUPT_POINTS): the whole string is moved. -/
theorem test_pass_point :
    let t := Tests.run [0x0E, 0x00, 0x00]
      ({ Tests.blank with regs := ⟨2, 0x3000, 0x4000, 0, 0, 0, 0, 0⟩,
                          inputs := [⟨[], [[.nmiEdge], [], [.passPoint]]⟩] } |> Tests.mem 0x3000 2 0x0201)
    (t.regs.r0, Tests.num t 0x4000 2, t.nmiLatch) = (0, 0x0201, true) := by decide +kernel

/-- MOVD 0(R1),R0 while DMA replaces the double-word between its two bus cycles: a mixture of the old and the new (R152). -/
theorem test_torn_read :
    let c := { DmaChan.reset with adc := 0x3000, bltc := 4, ad := true, bwWord := true, dir := true, chen := true }
    let t := Tests.run [0x17, 0x48, 0x00]
      ({ Tests.blank with dma := { Dma.reset with ch0 := c },
                          inputs := [⟨[], [[], [.drq .ch0 0x2222 false, .drq .ch0 0x3333 false]]⟩] } |>
        Tests.reg .r1 0x3000 |> Tests.mem 0x3000 4 0x11111111)
    (t.regs.r0, Tests.num t 0x3000 4, t.dma.ch0.tc) = (0x33331111, 0x33332222, true) := by decide +kernel

/-- MOVD 0(R1),R0 from the DMA register ADC while a transfer steps it between the two bus cycles: the low half before the
step, the high half after it (R83, R140). -/
theorem test_torn_register :
    let c := { DmaChan.reset with adc := 0xFFFE, bltc := 4, ad := true, bwWord := true, dir := true, chen := true }
    let t := Tests.run [0x17, 0x48, 0x00]
      ({ Tests.blank with dma := { Dma.reset with ch0 := c }, inputs := [⟨[], [[], [.drq .ch0 0x2222 false]]⟩] } |>
        Tests.reg .r1 0xFFFFF020)
    (t.regs.r0, t.dma.ch0.adc) = (0x1FFFE, 0x10000) := by decide +kernel

/-- SBITIB R1,0(R2): a byte DMA writes between the read and the write is lost (R153, R384, R781). -/
theorem test_sbitii_not_atomic :
    let c := { DmaChan.reset with adc := 0x3000, bltc := 2, ad := true, dir := true, chen := true }
    let t := Tests.run [0x4E, 0x9C, 0x0A, 0x00]
      ({ Tests.blank with dma := { Dma.reset with ch0 := c }, inputs := [⟨[], [[], [.drq .ch0 0xF0 false]]⟩] } |>
        Tests.reg .r1 1 |> Tests.reg .r2 0x3000)
    (Tests.num t 0x3000 1, t.dma.ch0.adc) = (2, 0x3001) := by decide +kernel

/-- RSTI low between the two stores of MOVD R0,0(R1), and high again (R760): reset's values. -/
theorem test_reset_inside :
    let t := Tests.run [0x57, 0x02, 0x00]
      ({ Tests.blank with inputs := [⟨[], [[], [.rstiLow, .rstiHigh]]⟩] } |> Tests.reg .r1 0x3000 |> Tests.psr 0xE1)
    (t.pc, t.psr.toBits, t.op, t.cfg.f, t.dirty) = (0, 0, .executing, false, []) := by decide +kernel

/-- RSTI low in an NMI sequence after its first push (R760): the pushed copy of the PSR stays, nothing else of memory changes. -/
theorem test_reset_in_entry :
    let s := { Tests.blank with nmiLatch := true, inputs := [⟨[], [[], [], [.rstiLow]]⟩] } |> Tests.sp0 0x8000 |> Tests.psr 0xE1
    let t := Tests.run [0xA2] s
    (t.op, t.nmiLatch, t.mem) = (.reset, false, (s.placeCode [0xA2]).mem.write 0x7FFE 0xE1) := by decide +kernel

/-- HOLD, channel 0, channel 1 asserted together on one byte: the last granted remains (R710). -/
theorem test_together :
    let c := { DmaChan.reset with adc := 0x3000, bltc := 2, dir := true, chen := true }
    let t := Tests.run [0xA2]
      { Tests.blank with dma := { ch0 := c, ch1 := { c with bltc := 1 } },
                         inputs := [⟨[.together [(0x3000, 1), (0x3001, 7)] (some (2, false)) (some (3, false))], []⟩] }
    (Tests.num t 0x3000 2, t.dma.ch1.tc) = (0x0703, true) := by decide +kernel

/-- DIP of each channel (R81, R712, D10): channel 1 at level 14, channel 0 at level 6. -/
theorem test_dip :
    let c := { DmaChan.reset with tc := true, mTc := true }
    let s := { Tests.blank with dma := { ch0 := c, ch1 := { c with dip := true } } }
    (s.irqLevel, { s with dma := { ch0 := c, ch1 := c } : State }.irqLevel, s.dma.imsk s.plat.imskBits) =
      (14, 6, 0x91) := by decide

/-- An odd ADR or BLTR of an enabled 16-bit channel, a single-transfer channel enabled with an odd BLTR (R774 c), and a 16-bit
channel enabled with an ADR nobody wrote. -/
theorem test_dma_odd_parameters :
    let on := { Tests.blank with dma := { Dma.reset with ch0 := { DmaChan.reset with bwWord := true, ot := true, chen := true } } }
    let off := { Tests.blank with dma := { Dma.reset with ch0 := { DmaChan.reset with bwWord := true, bltr := 1 } } }
    let free := { Tests.blank with dma := { Dma.reset with ch0 := { DmaChan.reset with bwWord := true, adr := 1 } } }
    (memWrite 0xFFFFF024 4 0x3001 on = .error (.refuse .dmaProgramming) ∧
      memWrite 0xFFFFF02C 4 3 on = .error (.refuse .dmaProgramming)) ∧
    memWrite 0xFFFFF034 4 1 off = .error (.refuse .dmaProgramming) ∧
    Tests.goesOn (memWrite 0xFFFFF034 4 1 free) = true := ⟨⟨rfl, rfl⟩, rfl, rfl⟩

/-- A falling NMI edge while RSTI is low (log 47). -/
theorem test_nmi_in_reset :
    ∃ t, events [.rstiLow, .nmiEdge, .rstiHigh] Tests.blank = .ok ((), t) ∧ t.nmiLatch = false ∧ t.op = .executing :=
  ⟨_, rfl, rfl, rfl⟩

/-- The third cycle of D-1: terminal count with a masked OVR. -/
theorem test_dma_terminal_count :
    let c := { DmaChan.reset with adc := 0x5002, bltc := 1, ad := true, chen := true }
    let t := Tests.run [0xA2]
      ({ Tests.blank with dma := { Dma.reset with ch0 := c }, inputs := [⟨[.drq .ch0 0 false], []⟩] } |>
        Tests.mem 0x5000 3 0x332211)
    (t.dma.ch0.adc, t.dma.ch0.bltc, t.dma.stat t.plat.statBits, t.dma.ch0.chen, t.dmaOut) =
      (0x5003, 0, 5, true, [⟨.ch0, false, 0x33⟩]) := by decide

/-- The third tick of T-1: reload from TRCA, request A at level 13. -/
theorem test_timer_reload :
    let t := Tests.run [0xA2]
      { Tests.blank with
        timer0 := { Timer.reset with tc := 1, trca := 2, trcb := 1, tmc := .mode1, tcs := true, iena := true, ienb := true }
        inputs := [⟨[.tick .t0], []⟩] }
    (t.timer0.tc, t.timer0.tcntl, t.ivct, t.timer0.nextB) = (2, 0x3D, 0x1D, true) := by decide

/-! ### Witnesses: for each statement with hypotheses, states and operands that meet all of them -/

theorem witness_DecodeInvertsEncode :
    Codes.standard.wf = true ∧ { Codes.standard with bbor := 4, bbstod := 6, deBit := 23 : Codes }.wf = true ∧
    (Instr.addi .w (.imm (.w 0xFFFF)) (.scaled .x8 (.space .sp (.d14 0x1FFF)) .r7)).wellFormed = true ∧
    (Instr.deii .d (.mode .tos) (.mode (.reg .r6))).wellFormed = true ∧
    (Instr.insi .b .r0 (.imm (.b 0)) (.mode (.ext (.d30 0x20000000) (.d7 0x40))) (.d7 1)).wellFormed = true := by decide

/-- The clauses at their boundary values: format 2's register codes 1, 7, 11, 12; the undefined codes of formats 3, 5, 6, 7, 8. -/
theorem witness_UndefinedOpcodesTrap :
    ((0x8E : Byte) ∈ [(0x7E : Byte), 0x9E, 0x1E, 0x5E, 0xDE, 0x8E] ∧ (0xF6 : Byte) &&& 0x0F = 0x06) ∧
    ((0x2F : Byte) ∈ [(0x2C : Byte), 0x2D, 0x2F, 0xAC, 0xAD, 0xAF, 0x6C, 0x6D, 0x6F, 0xEC, 0xED, 0xEF] ∧
      (0xEC : Byte).toNat / 128 + 2 * ((0x05 : Byte).toNat % 8) ∉ [0, 8, 9, 10, 13, 14, 15] ∧
      (0xAD : Byte).toNat / 128 + 2 * ((0x00 : Byte).toNat % 8) ∉ [0, 8, 9, 10, 13, 14, 15]) ∧
    (decode [0x2F, 0x06] = .bad .undefined ∧ decode [0x7F, 0x04] = .bad .undefined ∧ decode [0xFC, 0x00] = .bad .undefined) ∧
    (decode [0x0E, 0x3C, 0x00] = .bad .undefined ∧ decode [0x4E, 0x10, 0x00] = .bad .undefined ∧
      decode [0x4E, 0x28, 0x00] = .bad .undefined ∧ decode [0xCE, 0x28, 0x00] = .bad .undefined ∧
      decode [0xAE, 0x04, 0x00] = .bad .undefined ∧ decode [0xEE, 0x3C, 0x00] = .bad .undefined) ∧
    (let s := Tests.blank.placeCode [0x06]; decodeWith s.plat.codes s.codeBytes = .bad .undefined) ∧
    (let s := Tests.blank.placeCode [0x3E]; fpuFirst s.codeBytes = true ∧ s.cfg.f = false) := by decide

theorem witness_StepRunsDecodedInstruction :
    let s := Tests.blank.placeCode [0xA2]
    ∃ rest, arrive s = .ok ((), s) ∧ s.op = .executing ∧ s.interruptPending = false ∧ s.psr.p = false ∧
      decodeWith s.plat.codes s.codeBytes = .ok .nop rest := ⟨_, rfl, rfl, rfl, rfl, rfl⟩

theorem witness_StepTakesExceptionsInOrder :
    (∃ u, arrive { Tests.blank with op := .reset } = .ok ((), u) ∧ u.op = .reset) ∧
    (∃ u, arrive { Tests.blank with op := .waiting } = .ok ((), u) ∧ u.op = .waiting ∧ u.nmiLatch = false ∧
      (u.psr.i && u.irqRequest) = false) ∧
    (∃ u, arrive { Tests.blank with inputs := [⟨[.nmiEdge], []⟩] } = .ok ((), u) ∧ u.op = .executing ∧
      u.nmiLatch = true) ∧
    (∃ u, arrive { Tests.blank with psr := { Psr.zero with i := true }, inputs := [⟨[.irPins 0], []⟩] } = .ok ((), u) ∧
      u.op = .executing ∧ u.nmiLatch = false ∧ u.psr.i = true ∧ u.irqRequest = true) ∧
    (∃ u, arrive { Tests.blank with psr := { Psr.zero with p := true } } = .ok ((), u) ∧ u.op = .executing ∧
      u.nmiLatch = false ∧ (u.psr.i && u.irqRequest) = false ∧ u.psr.p = true) :=
  ⟨⟨_, rfl, rfl⟩, ⟨_, rfl, rfl, rfl, rfl⟩, ⟨_, rfl, rfl, rfl⟩, ⟨_, rfl, rfl, rfl, rfl, rfl⟩, ⟨_, rfl, rfl, rfl, rfl, rfl⟩⟩

theorem witness_StoredCodeNeedsPurge :
    let s := { Tests.blank with dirty := [0x1000] }
    arrive s = .ok ((), s) ∧ s.op = .executing ∧ s.interruptPending = false ∧ s.psr.p = false ∧ s.readable s.pc 1 ∧
      s.pc.toNat ∈ s.dirty := ⟨rfl, rfl, rfl, rfl, by decide, by decide⟩

theorem witness_StepKeepsInvariant :
    let s := Tests.blank.placeCode [0xA2]
    s.Inv ∧ ∃ t, step s = .next t :=
  ⟨⟨by decide, by unfold Memory.external; decide, rfl, by unfold DmaChan.ok; decide, by unfold DmaChan.ok; decide, by decide⟩, _, rfl⟩

theorem witness_UserModeCannotChangeControl :
    let s := { Tests.blank with psr := { Psr.zero with u := true, s := true } }
    s.psr.u = true ∧ (∀ l ∈ s.within, Event.rstiLow ∉ l) ∧ (∃ t, exec .nop s = .next t ∧ t.psr.u = true) :=
  ⟨rfl, (by decide), _, rfl, rfl⟩

theorem witness_MemoryStoreThenLoad :
    Tests.blank.calm ∧ Tests.blank.mem.wf ∧ Tests.blank.writable 0xFFFFF8 8 ∧ Tests.blank.writable 0 1 := by decide

/-- A word at an odd address and a double-word with a write between two cycles, a byte, an event in a gap, and RSTI low between the
two bus cycles of a double-word's store: all four bytes are due. -/
theorem witness_BetweenBusCycles :
    (let s := { Tests.blank with within := [[], [.busWrite 0x3002 0xFF]] };
      s.readable 0x3001 2 ∧ ∃ v t, ReadsBy (tableCycles ((0x3001 : Word).toNat % 2 == 1) 2) 0x3001 s v t) ∧
    (Tests.blank.readable 0x3000 1 ∧
      ∃ v t, ReadsBy (tableCycles ((0x3000 : Word).toNat % 2 == 1) 1) 0x3000 Tests.blank v t) ∧
    (let s := { Tests.blank with within := [[], [.busWrite 0x3000 0xFF]] };
      s.writable 0x3000 4 ∧ 0xFFFFFFFF < 2 ^ (8 * 4) ∧
        ∃ t, WritesBy (tableCycles ((0x3000 : Word).toNat % 2 == 1) 4) 0x3000 0xFFFFFFFF s t) ∧
    (let s := { Tests.blank with within := [[.nmiEdge]] };
      ∃ t, Event.rstiLow ∉ [Event.nmiEdge] ∧ events [.nmiEdge] { s with within := [] } = .ok ((), t)) ∧
    { Tests.blank with within := [[.rstiLow]] : State }.within = [.rstiLow] :: [] ∧
    (let s := { Tests.blank with within := [[], [.rstiLow]] };
      ∃ c, memWrite 0x3000 4 0x11223344 s = .error (.cut [] .instruction c) ∧ c.written = [0x3000, 0x3001] ∧
        dueBytes (memWrite 0x3000 4 0x11223344) s c = [0x3000, 0x3001, 0x3002, 0x3003]) ∧
    ∃ c, nmiSequence 0x100 { Tests.blank with within := [[.rstiLow]] } = .error (.cut [] .entry c) :=
  ⟨⟨by decide, _, _, _, _, rfl, ⟨_, _, rfl, ⟨rfl, rfl⟩, rfl⟩, rfl⟩, ⟨by decide, _, _, _, _, rfl, ⟨rfl, rfl⟩, rfl⟩,
    ⟨by decide, by decide, _, _, rfl, _, rfl, rfl⟩, ⟨_, by decide, rfl⟩, rfl, ⟨_, rfl, rfl, rfl⟩, _, rfl⟩

/-- A platform with a kilobyte of ROM at 0 and nothing else. -/
def Tests.romOnly : State :=
  { Tests.blank with plat := { Platform.standard with regions := [{ base := 0, size := 0x400, kind := .rom }] } }

theorem witness_AccessesOutsideMemoryStop :
    (Config.externalEnd ≤ (0x01000000 : Word).toNat ∧ (0xFF7FFFFF : Word).toNat < Config.topBlock) ∧
    (Config.topBlock ≤ (0xFF800000 : Word).toNat ∧ Tests.blank.plat.ownsByte 0xFF800000 = false) ∧
    (Config.topBlock ≤ (0xFFFFFFFF : Word).toNat ∧ Tests.blank.plat.ownsByte 0xFFFFFFFF = false) ∧
    (Tests.romOnly.plat.memAt 0x400 = none ∧ Tests.romOnly.plat.memAt 0xFFFFFF = none) ∧
    (Tests.romOnly.plat.memAt 0 = some .rom ∧ Tests.romOnly.plat.memAt 0x3FF = some .rom) ∧
    (Tests.blank.plat.regAt 0xFFFFE000 = some .bbsc ∧ PReg.bbsc.width ≠ 2) := by decide

/-- A register the statement names, at its address, with a value it takes. -/
def Tests.taken (r : PReg) (a v : Word) (s : State) : Prop :=
  s.calm ∧ s.plat.regAt a = some r ∧ r.takes s v

/-- Channel 0 and 1 disabled, timer 0 counting with both flags pending. -/
theorem witness_PeripheralRegisters :
    let s := { Tests.blank with timer0 := { Timer.reset with tcs := true, ipfa := true, ipfb := true } }
    (Tests.taken .bbsc 0xFFFFE000 0x1F s ∧ Tests.taken .brm 0xFFFFE004 15 s ∧ Tests.taken .blm 0xFFFFE008 0 s ∧
      Tests.taken .bfs 0xFFFFE00C 15 s ∧ Tests.taken .bcntl 0xFFFFE010 0xF6 s ∧ Tests.taken .bc 0xFFFFE014 0xFF s) ∧
    (Tests.taken .imsk 0xFFFFF014 0xFF s ∧ Tests.taken .dstat 0xFFFFF018 0x77 s ∧
      Tests.taken (.chan .ch0 .mode) 0xFFFFF030 0x4289 s ∧ Tests.taken (.chan .ch1 .mode) 0xFFFFF050 0 s) ∧
    (Tests.taken (.chan .ch1 .adc) 0xFFFFF040 0xFFFFFFFF s ∧ Tests.taken (.chan .ch0 .adr) 0xFFFFF024 1 s ∧
      Tests.taken (.chan .ch0 .bltc) 0xFFFFF028 0 s ∧ Tests.taken (.chan .ch1 .bltr) 0xFFFFF04C 0 s) ∧
    (Tests.taken (.timer .t0 .tc) 0xFFFFF100 0xFFFF s ∧ Tests.taken (.timer .t1 .trca) 0xFFFFF114 0 s ∧
      Tests.taken (.timer .t2 .trcb) 0xFFFFF128 1 s) ∧
    (s.plat.regAt 0xFFFFFE04 = some .isrv ∧ s.plat.regAt 0xFFFFFE00 = some .ivct) ∧
    (s.plat.regAt 0xFFFFF010 = some .stat ∧ s.plat.statBits.statWf = true) ∧
    (s.plat.regAt 0xFFFFF034 = some (.chan .ch0 .cntl) ∧
      DmaEven { s.dma.chan .ch0 with vld := true, chen := true } ∧
      ¬DmaEven { s.dma.chan .ch0 with bwWord := true, bltr := 1, chen := true }) ∧
    (let e := { s with dma := Dma.reset.setChan .ch0 { DmaChan.reset with bwWord := true, chen := true } };
      e.plat.regAt 0xFFFFF024 = some (.chan .ch0 .adr) ∧ e.plat.regAt 0xFFFFF02C = some (.chan .ch0 .bltr) ∧
        (1 : BitVec (8 * 4)).getLsbD 0 = true ∧ (e.dma.chan .ch0).chen = true ∧ (e.dma.chan .ch0).bwWord = true) ∧
    (s.plat.regAt 0xFFFFF10C = some (.timer .t0 .tcntl) ∧ ((0xE9F : BitVec (8 * 2)).extractLsb' 5 3).toNat ∈ [0, 1, 2, 4] ∧
      (0xE9F : BitVec (8 * 2)).getLsbD 11 = true ∧ ((0x000 : BitVec (8 * 2)).extractLsb' 5 3).toNat ∈ [0, 1, 2, 4]) :=
  ⟨⟨⟨rfl, rfl, trivial⟩, ⟨rfl, rfl, trivial⟩, ⟨rfl, rfl, trivial⟩, ⟨rfl, rfl, trivial⟩, ⟨rfl, rfl, trivial⟩, ⟨rfl, rfl, trivial⟩⟩,
    ⟨⟨rfl, rfl, trivial⟩, ⟨rfl, rfl, rfl, rfl⟩, ⟨rfl, rfl, rfl, by decide, by decide⟩, ⟨rfl, rfl, rfl, by decide, by decide⟩⟩,
    ⟨⟨rfl, rfl, rfl⟩, ⟨rfl, rfl, fun h => nomatch h⟩, ⟨rfl, rfl, rfl⟩, ⟨rfl, rfl, fun h => (nomatch h), fun _ h => nomatch h⟩⟩,
    ⟨⟨rfl, rfl, trivial⟩, ⟨rfl, rfl, trivial⟩, ⟨rfl, rfl, trivial⟩⟩, ⟨rfl, rfl⟩, ⟨rfl, by decide⟩,
    ⟨rfl, fun h => (nomatch h), fun h => absurd (h rfl) (by decide)⟩, ⟨rfl, rfl, rfl, rfl, rfl⟩, ⟨rfl, by decide, by decide, by decide⟩⟩

theorem witness_EffectiveAddresses :
    let s := { Tests.blank with sb := 0xFFFFF8, fp := 4, mod := 0xFF00 }
    s.calm ∧ s.readable (s.fp + (Disp.d7 0x7C).value) 4 ∧ s.readable (s.sp + (Disp.d7 0x3F).value) 4 ∧
    s.readable (s.sb + (Disp.d7 4).value) 4 ∧
    (s.readable (s.mod.setWidth 32 + 4) 4 ∧
      s.readable (s.valueAt (s.mod.setWidth 32 + 4) 4 + 4 * (Disp.d7 2).value) 4) ∧
    ∃ y t, ea (.mode (.space .sb (.d7 0))) s = .ok (y, t) :=
  ⟨rfl, by decide, by decide, by decide, ⟨by decide, by decide⟩, _, _, rfl⟩

theorem witness_SourceOperandForms :
    Tests.blank.calm ∧ Tests.blank.readable Tests.blank.sp 8 ∧
    (Gen.mode (.abs (.d30 0xFFFFFC)) ≠ .mode .tos ∧
      ∃ a t, ea (.mode (.abs (.d30 0xFFFFFC))) Tests.blank = .ok (a, t) ∧ t.readable a 4) :=
  ⟨rfl, by decide, by decide, _, _, rfl, by decide⟩

theorem witness_DestinationOperandForms :
    Tests.blank.calm ∧
    (Gen.mode (.abs (.d7 0)) ≠ .mode .tos ∧ ∃ a t, ea (.mode (.abs (.d7 0))) Tests.blank = .ok (a, t)) ∧
    Tests.blank.writable 0xFFFFFF 1 ∧ Tests.blank.writable (Tests.blank.sp - BitVec.ofNat 32 4) 4 :=
  ⟨rfl, ⟨by decide, _, _, rfl⟩, by decide, by decide⟩

/-- The operands of an instruction of classes read and rmw can be read, and any result written. -/
def Tests.Modifies (src dst : Gen) (m n : Nat) (s : State) : Prop :=
  ∃ a s1 d s2 b s3, rd src m s = .ok (a, s1) ∧ dstModify dst s1 = .ok (d, s2) ∧ getDest d n s2 = .ok (b, s3) ∧
    ∀ v, ∃ s4, putDest d n v s3 = .ok ((), s4)

/-- The operands of an instruction of classes read and write can be read, and any result written. -/
def Tests.Moves (src dst : Gen) (m n : Nat) (s : State) : Prop :=
  ∃ a s1 d s2, rd src m s = .ok (a, s1) ∧ dstWrite dst s1 = .ok (d, s2) ∧ ∀ v, ∃ s3, putDest d n v s2 = .ok ((), s3)

/-- Forms for every length: a register with a register, Top of Stack with the last double-word of memory. -/
theorem Tests.modifies (m n : Nat) : Tests.Modifies (.mode (.reg .r1)) (.mode (.reg .r0)) m n Tests.blank :=
  ⟨_, _, _, _, _, _, rfl, rfl, rfl, fun _ => ⟨_, rfl⟩⟩

theorem Tests.moves (m n : Nat) : Tests.Moves (.mode (.reg .r1)) (.mode (.reg .r0)) m n Tests.blank :=
  ⟨_, _, _, _, rfl, rfl, fun _ => ⟨_, rfl⟩⟩

theorem witness_AddAndSubtract :
    Tests.Modifies (.imm (.w 0x8000)) (.mode (.reg .r0)) 2 2 Tests.blank ∧
    Tests.Modifies (.mode .tos) (.mode .tos) 4 4 Tests.blank ∧
    Tests.Modifies (.mode (.reg .r1)) (.mode (.abs (.d30 0xFFFFFF))) 1 1 Tests.blank :=
  ⟨⟨_, _, _, _, _, _, rfl, rfl, rfl, fun _ => ⟨_, rfl⟩⟩, ⟨_, _, _, _, _, _, rfl, rfl, rfl, fun _ => ⟨_, rfl⟩⟩,
    ⟨_, _, _, _, _, _, rfl, rfl, rfl, fun _ => ⟨_, rfl⟩⟩⟩

theorem witness_MovesAndUnaryResults :
    Tests.Moves (.imm (.b 0x80)) (.mode .tos) 1 4 Tests.blank ∧
    Tests.Moves (.mode .tos) (.mode (.abs (.d30 0xFFFFFE))) 2 2 Tests.blank ∧
    Tests.Moves (.mode (.reg .r1)) (.mode (.reg .r1)) 4 4 Tests.blank :=
  ⟨⟨_, _, _, _, rfl, rfl, fun _ => ⟨_, rfl⟩⟩, ⟨_, _, _, _, rfl, rfl, fun _ => ⟨_, rfl⟩⟩, ⟨_, _, _, _, rfl, rfl, fun _ => ⟨_, rfl⟩⟩⟩

theorem witness_StoredValues :
    (∃ d s1, dstWrite (.mode .tos) Tests.blank = .ok (d, s1) ∧ ∀ v, ∃ s2, putDest d 2 v s1 = .ok ((), s2)) ∧
    (∃ a s1 d s2 s3, ea (.mode .tos) Tests.blank = .ok (a, s1) ∧ dstWrite (.mode (.reg .r7)) s1 = .ok (d, s2) ∧
      putDest d 4 a s2 = .ok ((), s3)) ∧
    (∃ a s1 d s2 s3, ea (.mode (.abs (.d7 0x7F))) Tests.blank = .ok (a, s1) ∧
      dstWrite (.mode (.reg .r0)) s1 = .ok (d, s2) ∧
      putDest d 4 (BitVec.ofNat 32 (8 * a.toNat + (Tests.blank.regs.get .r0).toNat)) s2 = .ok ((), s3)) :=
  ⟨⟨_, _, rfl, fun _ => ⟨_, rfl⟩⟩, ⟨_, _, _, _, _, rfl, rfl, rfl⟩, ⟨_, _, _, _, _, rfl, rfl, rfl⟩⟩

theorem witness_MultiplyAndDivide :
    Tests.Modifies (.imm (.b 0xFF)) (.mode (.reg .r0)) 1 1 Tests.blank ∧
    (∃ a s1 d s2 b s3, rd (.imm (.b 0xFF)) 1 (Tests.reg .r0 0x80 Tests.blank) = .ok (a, s1) ∧ a ≠ 0 ∧
      dstModify (.mode (.reg .r0)) s1 = .ok (d, s2) ∧ getDest d 1 s2 = .ok (b, s3) ∧
      ∀ v, ∃ s4, putDest d 1 v s3 = .ok ((), s4)) :=
  ⟨⟨_, _, _, _, _, _, rfl, rfl, rfl, fun _ => ⟨_, rfl⟩⟩,
    ⟨_, _, _, _, _, _, rfl, by decide, rfl, rfl, fun _ => ⟨_, rfl⟩⟩⟩

theorem witness_ExtendedMultiplyAndDivide :
    (∃ a s1 d s2 b s3 s4, rd (.imm (.d 0xFFFFFFFF)) Size.d.bytes Tests.blank = .ok (a, s1) ∧
      dstDouble (.mode (.reg .r6)) .d s1 = .ok (d, s2) ∧ getDest d.low Size.d.bytes s2 = .ok (b, s3) ∧
      putDest d (2 * Size.d.bytes) (BitVec.ofNat _ (a.toNat * b.toNat)) s3 = .ok ((), s4)) ∧
    (∃ a s1 d s2 b s3, ∃ v : BitVec (8 * (2 * Size.b.bytes)), ∃ s4,
      rd (.imm (.b 7)) Size.b.bytes (Tests.reg .r1 0xFFFF Tests.blank) = .ok (a, s1) ∧
      a ≠ 0 ∧ dstDouble (.mode (.reg .r1)) .b s1 = .ok (d, s2) ∧ getDest d (2 * Size.b.bytes) s2 = .ok (b, s3) ∧
      v.toNat % 2 ^ (8 * Size.b.bytes) = b.toNat % a.toNat ∧
      v.toNat / 2 ^ (8 * Size.b.bytes) = (b.toNat / a.toNat) % 2 ^ (8 * Size.b.bytes) ∧
      putDest d (2 * Size.b.bytes) v s3 = .ok ((), s4)) :=
  ⟨⟨_, _, _, _, _, _, _, rfl, rfl, rfl, rfl⟩,
    ⟨_, _, _, _, _, _, BitVec.ofNat _ (0xFFFF / 7 % 256 * 256 + 0xFFFF % 7), _, rfl, by decide, rfl, rfl, by decide,
      by decide, rfl⟩⟩

theorem witness_ZeroDivisorTraps :
    (∃ s1 d s2 b s3, rd (.imm (.w 0)) Size.w.bytes Tests.blank = .ok (0, s1) ∧
      dstModify (.mode (.reg .r0)) s1 = .ok (d, s2) ∧ getDest d Size.w.bytes s2 = .ok (b, s3) ∧ s3.calm) ∧
    (∃ s1 d s2 b s3, rd (.mode .tos) Size.w.bytes Tests.blank = .ok (0, s1) ∧
      dstDouble (.mode (.reg .r1)) .w s1 = .ok (d, s2) ∧ getDest d (2 * Size.w.bytes) s2 = .ok (b, s3) ∧ s3.calm) :=
  ⟨⟨_, _, _, _, _, rfl, rfl, rfl, rfl⟩, ⟨_, _, _, _, _, rfl, rfl, rfl, rfl⟩⟩

theorem witness_PackedDecimal :
    (∃ s1 d s2 s3, rd (.imm (.b 0x99)) Size.b.bytes (Tests.reg .r0 0x01 Tests.blank) =
        .ok (BitVec.ofNat _ (bcdDigits (2 * Size.b.bytes) 99), s1) ∧
      dstModify (.mode (.reg .r0)) s1 = .ok (d, s2) ∧
      getDest d Size.b.bytes s2 = .ok (BitVec.ofNat _ (bcdDigits (2 * Size.b.bytes) 1), s3) ∧
      ∀ v, ∃ s4, putDest d Size.b.bytes v s3 = .ok ((), s4)) ∧
    (∃ a s1 d s2 b s3, rd (.imm (.b 0x0A)) Size.b.bytes Tests.blank = .ok (a, s1) ∧
      dstModify (.mode (.reg .r0)) s1 = .ok (d, s2) ∧ getDest d Size.b.bytes s2 = .ok (b, s3) ∧
      (bcdValid (2 * Size.b.bytes) a.toNat && bcdValid (2 * Size.b.bytes) b.toNat) = false ∧
      ∀ v k, ∃ s4, putDest d Size.b.bytes v { s3 with freeCount := k } = .ok ((), s4)) :=
  ⟨⟨_, _, _, _, rfl, rfl, rfl, fun _ => ⟨_, rfl⟩⟩,
    ⟨_, _, _, _, _, _, rfl, rfl, rfl, by decide, fun _ _ => ⟨_, rfl⟩⟩⟩

theorem witness_Comparisons :
    (∃ a s1 b s2, rd (.imm (.d 0x80000000)) 4 Tests.blank = .ok (a, s1) ∧ rd (.mode .tos) 4 s1 = .ok (b, s2)) ∧
    (∃ b s1, rd (.mode (.reg .r0)) 1 Tests.blank = .ok (b, s1)) :=
  ⟨⟨_, _, _, _, rfl, rfl⟩, ⟨_, _, rfl⟩⟩

/-- The 16 bytes at the end of memory and those before them: a block of four double-words, ten at most. -/
theorem witness_BlockMoveAndCompare :
    let s := Tests.mem 0xFFFFF0 4 1 Tests.blank
    ∃ a1 s1 a2 s2, ea (.mode (.abs (.d30 0xFFFFE0))) s = .ok (a1, s1) ∧
      ea (.mode (.abs (.d30 0xFFFFF0))) s1 = .ok (a2, s2) ∧ s2.calm ∧ 4 * Size.d.bytes ≤ 16 ∧
      (Disp.d7 12).value = BitVec.ofNat 32 ((4 - 1) * Size.d.bytes) ∧
      (∀ l, l < 4 → s2.readable (a1 + BitVec.ofNat 32 (l * Size.d.bytes)) Size.d.bytes) ∧
      (∀ l, l < 4 → s2.writable (a2 + BitVec.ofNat 32 (l * Size.d.bytes)) Size.d.bytes) ∧
      (∀ l, l < 4 → s2.readable (a2 + BitVec.ofNat 32 (l * Size.d.bytes)) Size.d.bytes) ∧
      s2.valueAt a1 4 ≠ s2.valueAt a2 4 ∧
      (∀ l, l < 3 → s2.valueAt (a1 + BitVec.ofNat 32 (l * Size.d.bytes)) 4 =
        s2.valueAt (a1 + 4 + BitVec.ofNat 32 (l * Size.d.bytes)) 4) :=
  ⟨_, _, _, _, rfl, rfl, rfl, by decide, by decide, by decide, by decide, by decide, by decide, by decide⟩

theorem witness_ModifyFrame :
    let i := Instr.addi .d (.mode .tos) (.mode (.abs (.d7 0)))
    ∃ a s1 d s2 t, rd (.mode .tos) 4 Tests.blank = .ok (a, s1) ∧ dstModify (.mode (.abs (.d7 0))) s1 = .ok (d, s2) ∧
      d.onChip 4 s2 = false ∧ Tests.blank.calm ∧ exec i Tests.blank = .next t := ⟨_, _, _, _, _, rfl, rfl, by decide, rfl, rfl⟩

theorem witness_MoveFrame :
    let i := Instr.negi .w (.imm (.w 1)) (.mode .tos)
    ∃ a s1 d s2 t, rd (.imm (.w 1)) 2 Tests.blank = .ok (a, s1) ∧ dstWrite (.mode .tos) s1 = .ok (d, s2) ∧
      d.onChip 2 s2 = false ∧ Tests.blank.calm ∧ exec i Tests.blank = .next t := ⟨_, _, _, _, _, rfl, rfl, by decide, rfl, rfl⟩

theorem witness_LogicalAndShiftResults :
    (∃ r : BitVec (8 * Size.b.bytes) → BitVec (8 * Size.b.bytes) → BitVec (8 * Size.b.bytes),
      ∀ a b k, k < 8 * Size.b.bytes → (r a b).getLsbD k = (b.getLsbD k && !a.getLsbD k)) ∧
    Tests.Modifies (.imm (.b 0x80)) (.mode (.reg .r0)) 1 1 Tests.blank ∧
    Tests.Modifies (.imm (.b 0x20)) (.mode (.abs (.d30 0xFFFFFC))) 1 4 Tests.blank :=
  ⟨⟨fun a b => b &&& ~~~a, fun a b k h => by simp [h]⟩, ⟨_, _, _, _, _, _, rfl, rfl, rfl, fun _ => ⟨_, rfl⟩⟩,
    ⟨_, _, _, _, _, _, rfl, rfl, rfl, fun _ => ⟨_, rfl⟩⟩⟩

theorem witness_SingleBits :
    (∃ v s1, rd (.imm (.b 0xFF)) 1 Tests.blank = .ok (v, s1)) ∧
    (∃ v s1 a s2 x s3 s4, rd (.imm (.b 0xFF)) 1 Tests.blank = .ok (v, s1) ∧
      dstModify (.mode (.abs (.d7 1))) s1 = .ok (.mem a, s2) ∧ memRead (bitByte a v) 1 s2 = .ok (x, s3) ∧
      memWrite (bitByte a v) 1 (putBitAt x (v.toInt % 8).toNat true) s3 = .ok ((), s4)) :=
  ⟨⟨_, _, rfl⟩, ⟨_, _, _, _, _, _, _, rfl, rfl, rfl, rfl⟩⟩

/-- A field of 32 bits in a register, and one of 25 bits from bit 7 of the byte before a memory base. -/
theorem witness_BitFields :
    (∃ b s1 word s2 d s3, dstModify (.mode (.reg .r2)) Tests.blank = .ok (b, s1) ∧
      fieldBit b (Tests.blank.regs.get .r0) + (Disp.d7 32).value.toNat ≤ 32 ∧
      getDest (fieldCell b (Tests.blank.regs.get .r0)) 4 s1 = .ok (word, s2) ∧
      dstWrite (.mode (.reg .r3)) s2 = .ok (d, s3) ∧ ∀ v, ∃ s4, putDest d 4 v s3 = .ok ((), s4)) ∧
    (let s := Tests.reg .r0 0xFFFFFFFF Tests.blank
      ∃ v s1 b s2 word s3 new s4, rd (.mode (.reg .r1)) 4 s = .ok (v, s1) ∧
        dstModify (.mode (.abs (.d7 1))) s1 = .ok (b, s2) ∧ 1 ≤ (Disp.d7 25).value.toNat ∧
        fieldBit b (s.regs.get .r0) + (Disp.d7 25).value.toNat ≤ 32 ∧
        getDest (fieldCell b (s.regs.get .r0)) 4 s2 = .ok (word, s3) ∧
        FieldReplaced word v (fieldBit b (s.regs.get .r0)) (Disp.d7 25).value.toNat new ∧
        putDest (fieldCell b (s.regs.get .r0)) 4 new s3 = .ok ((), s4)) :=
  ⟨⟨_, _, _, _, _, _, rfl, by decide, rfl, rfl, fun _ => ⟨_, rfl⟩⟩,
    ⟨_, _, _, _, _, _, 0, _, rfl, rfl, by decide, by decide, rfl, by unfold FieldReplaced; decide, rfl⟩⟩

theorem witness_FindCheckIndex :
    (∃ b s1 d s2 o s3, rd (.imm (.b 0x80)) 1 Tests.blank = .ok (b, s1) ∧
      dstModify (.mode (.reg .r0)) s1 = .ok (d, s2) ∧ getDest d 1 s2 = .ok (o, s3) ∧
      (o.toNat ≤ 7 ∧ b.getLsbD 7 = true ∧ ∀ j, j < 7 → b.getLsbD j = false) ∧
      ∃ s4, putDest d 1 (BitVec.ofNat _ 7) s3 = .ok ((), s4)) ∧
    (∃ b s1 d s2 o s3, rd (.imm (.b 0x7F)) 1 (Tests.reg .r0 7 Tests.blank) = .ok (b, s1) ∧
      dstModify (.mode (.reg .r0)) s1 = .ok (d, s2) ∧ getDest d 1 s2 = .ok (o, s3) ∧
      (∀ k, k < 8 → o.toNat ≤ k → b.getLsbD k = false) ∧ ∃ s4, putDest d 1 0 s3 = .ok ((), s4)) ∧
    (let s := Tests.mem 0x20 2 0x8005 Tests.blank
      ∃ a s1 upper s2 lower s3 v s4, ea (.mode (.abs (.d7 0x20))) s = .ok (a, s1) ∧
        memRead a 1 s1 = .ok (upper, s2) ∧ memRead (a + 1) 1 s2 = .ok (lower, s3) ∧
        rd (.imm (.b 5)) 1 s3 = .ok (v, s4) ∧ lower.toInt ≤ v.toInt ∧ v.toInt ≤ upper.toInt) ∧
    (let s := Tests.mem 0x20 2 0x8005 Tests.blank
      ∃ a s1 upper s2 lower s3 v s4, ea (.mode (.abs (.d7 0x20))) s = .ok (a, s1) ∧
        memRead a 1 s1 = .ok (upper, s2) ∧ memRead (a + 1) 1 s2 = .ok (lower, s3) ∧
        rd (.imm (.b 6)) 1 s3 = .ok (v, s4) ∧ (v.toInt < lower.toInt ∨ upper.toInt < v.toInt)) ∧
    (∃ l s1 x s2, rd (.imm (.w 0xFFFF)) 2 Tests.blank = .ok (l, s1) ∧ rd (.mode .tos) 2 s1 = .ok (x, s2)) :=
  ⟨⟨_, _, _, _, _, _, rfl, rfl, rfl, by decide, _, rfl⟩, ⟨_, _, _, _, _, _, rfl, rfl, rfl, by decide, _, rfl⟩,
    ⟨_, _, _, _, _, _, _, _, rfl, rfl, rfl, rfl, by decide, by decide⟩,
    ⟨_, _, _, _, _, _, _, _, rfl, rfl, rfl, rfl, by decide⟩, ⟨_, _, _, _, rfl, rfl⟩⟩

theorem witness_BranchesAndJumps :
    (∃ a t, ea (.mode .tos) Tests.blank = .ok (a, t)) ∧
    (∃ v t, rd (.imm (.b 0x80)) 1 Tests.blank = .ok (v, t)) ∧
    (∃ x s1 v s2 s3, dstModify (.mode .tos) (Tests.mem 0x8000 1 1 Tests.blank) = .ok (x, s1) ∧
      getDest x 1 s1 = .ok (v, s2) ∧ putDest x 1 (BitVec.ofInt _ (v.toInt + (0xF : BitVec 4).toInt)) s2 = .ok ((), s3)) :=
  ⟨⟨_, _, rfl⟩, ⟨_, _, rfl⟩, ⟨_, _, _, _, _, rfl, rfl, rfl⟩⟩

theorem witness_SubroutineCalls :
    Tests.blank.calm ∧ Tests.blank.writable (Tests.blank.sp - 4) 4 ∧ (∃ a t, ea (.mode (.prog (.d7 0))) Tests.blank = .ok (a, t)) ∧
    Tests.blank.readable Tests.blank.sp 4 := ⟨rfl, by decide, ⟨_, _, rfl⟩, by decide⟩

theorem witness_SubroutineRoundTrip :
    let s := Tests.sp0 4 Tests.blank
    s.calm ∧ s.mem.wf ∧ s.writable (s.sp - 4) 4 := by decide

/-- A module table at 0x40 whose link entry 1 names module 0x60 with offset 0x10. -/
def Tests.modules : State :=
  Tests.blank |> Tests.mod 0x40 |> Tests.mem 0x44 4 0x6000 |> Tests.mem 0x6004 4 0x00100060 |> Tests.mem 0x60 4 0x3000 |>
    Tests.mem 0x68 4 0x2000

theorem witness_ModuleCalls :
    (Tests.modules.readable (Tests.modules.mod.setWidth 32 + 4) 4 ∧
      Tests.modules.readable (Tests.modules.valueAt (Tests.modules.mod.setWidth 32 + 4) 4 + 4 * (Disp.d7 1).value) 4 ∧
      CallReady Tests.modules (Tests.modules.valueAt 0x6004 4)) ∧
    (∃ a t, ea (.mode (.abs (.d30 0x6004))) Tests.modules = .ok (a, t) ∧ t.readable a 4 ∧
      CallReady Tests.modules (t.valueAt a 4)) ∧
    (Tests.modules.readable Tests.modules.sp 4 ∧ Tests.modules.readable (Tests.modules.sp + 4) 2 ∧
      Tests.modules.readable ((Tests.modules.valueAt (Tests.modules.sp + 4) 2).setWidth 32) 4) :=
  ⟨⟨by decide, by decide, rfl, by decide, by decide, by decide, by decide⟩,
    ⟨_, _, rfl, by decide, rfl, by decide, by decide, by decide, by decide⟩, by decide, by decide, by decide⟩

theorem witness_StackFrames :
    Tests.blank.calm ∧
    Tests.blank.writable (Tests.blank.sp - BitVec.ofNat 32 (4 * (saved 0xFF).length)) (4 * (saved 0xFF).length) ∧
    (saved 0xFF)[7]? = some .r7 ∧ (saved 0x00).length = 0 ∧
    Tests.blank.readable Tests.blank.sp (4 * (restored 0xFF).length) ∧ (restored 0x81)[1]? = some .r0 ∧
    (Tests.blank.writable (Tests.blank.sp - 4) 4 ∧
      Tests.blank.writable (Tests.blank.sp - 4 - (Disp.d7 8).value - BitVec.ofNat 32 (4 * (saved 0x80).length))
        (4 * (saved 0x80).length)) ∧
    Tests.blank.readable Tests.blank.fp 4 := by decide

theorem witness_SimpleControl : Tests.blank.psr.f = false := rfl

/-- Direct-Exception mode with INTBASE 0. -/
def Tests.direct : State := Tests.cfgde Tests.blank

/-- Vectors 0 to 31 of the dispatch table at 0x400 all lead through the module at 0x40 (only the entry asked for is set). -/
def Tests.modular (v : Nat) : State :=
  Tests.blank |> Tests.intbase 0x400 |> Tests.mem (0x400 + 4 * v) 4 0x00200040

theorem Tests.directReady (v : Nat) (h : v < 32) (p : Psr) : DirectReady v { Tests.direct with psr := p } := by
  have r : ∀ w, w < 32 → Tests.direct.readable (Tests.direct.intbase + BitVec.ofNat 32 (4 * w)) 4 ∧
      Apart (Tests.direct.intbase + BitVec.ofNat 32 (4 * w)) 4 (Tests.direct.sp0 - 2) 2 := by decide
  have k : Tests.direct.mem.wf ∧ Tests.direct.writable (Tests.direct.sp0 - 8) 8 := by decide
  exact ⟨rfl, rfl, k.1, k.2, (r v h).1, (r v h).2⟩

/-- What a modular entry needs, as facts to decide. -/
def Tests.modularFacts (v : Nat) : Bool :=
  let s := Tests.modular v
  let e := s.intbase + BitVec.ofNat 32 (4 * v)
  let m : Word := (moduleOf (s.valueAt e 4)).setWidth 32
  decide (s.mem.wf ∧ s.writable (s.sp0 - 8) 8 ∧ s.readable e 4 ∧ (s.readable m 4 ∧ s.readable (m + 8) 4) ∧
    Apart e 4 (s.sp0 - 2) 2 ∧ (Apart m 4 (s.sp0 - 2) 2 ∧ Apart (m + 8) 4 (s.sp0 - 2) 2))

theorem Tests.modularReady (p : Psr) (v : Nat) (h : Tests.modularFacts v = true) :
    ModularReady v { Tests.modular v with psr := p } :=
  have k := of_decide_eq_true h
  ⟨rfl, rfl, k.1, k.2.1, k.2.2.1, k.2.2.2.1, k.2.2.2.2.1, k.2.2.2.2.2⟩

theorem witness_TrapInstructionsEnter :
    (({ Tests.direct with psr := { Psr.zero with f := true } } : State).psr.f = true ∧
      DirectReady Trap.flg.vector { Tests.direct with psr := { Psr.zero with f := true } }) ∧
    DirectReady Trap.svc.vector { Tests.direct with psr := Psr.zero } ∧
    ModularReady Trap.bpt.vector { Tests.modular 8 with psr := Psr.zero } :=
  ⟨⟨rfl, Tests.directReady 7 (by decide) _⟩, Tests.directReady 5 (by decide) _, Tests.modularReady _ 8 (by decide)⟩

theorem witness_TrapSequenceEnters :
    (∃ a b k, Tests.sp0 0 Tests.direct = { Tests.direct with sp0 := a, sp1 := b, freeCount := k }) ∧
    DirectReady Trap.und.vector { Tests.direct with psr := Psr.zero } ∧
    ModularReady Trap.ill.vector { Tests.modular 4 with psr := Psr.zero } :=
  ⟨⟨0, _, _, rfl⟩, Tests.directReady 10 (by decide) _, Tests.modularReady _ 4 (by decide)⟩

theorem witness_ReturnFromExceptions :
    (Tests.direct.psr.u = false ∧ ReturnReady Tests.direct) ∧ (Tests.blank.psr.u = false ∧ ReturnReady Tests.blank) :=
  ⟨⟨rfl, rfl, by decide, by decide, fun h => nomatch h⟩, rfl, rfl, by decide, by decide, fun _ => ⟨by decide, by decide⟩⟩

theorem witness_SupervisorCallRoundTrip :
    DirectReady 5 { Tests.direct with psr := Psr.zero } ∧
    (ModularReady 5 { Tests.modular 5 with psr := Psr.zero } ∧
      (Tests.modular 5).sb = (Tests.modular 5).valueAt ((Tests.modular 5).mod.setWidth 32) 4 ∧
      (Tests.modular 5).readable ((Tests.modular 5).mod.setWidth 32) 4 ∧
      Apart ((Tests.modular 5).mod.setWidth 32) 4 ((Tests.modular 5).sp0 - 8) 8) :=
  ⟨Tests.directReady 5 (by decide) _, Tests.modularReady _ 5 (by decide), by decide, by decide, by decide⟩

theorem witness_PrivilegedInstructionsTrap : (Tests.psr 0x0100 Tests.blank).psr.u = true := by decide

theorem witness_InterruptAndTraceEntry :
    (∃ s : State, s.nmiLatch = true ∧ s.cfg.de = true ∧ s.mem.wf ∧ s.writable (s.sp0 - 8) 8 ∧
      s.readable (s.intbase + BitVec.ofNat 32 (4 * 1)) 4 ∧ Apart (s.intbase + BitVec.ofNat 32 (4 * 1)) 4 (s.sp0 - 2) 2) ∧
    (∃ s : State, s.psr.i = true ∧ s.irqRequest = true ∧ s.cfg.i = true ∧ s.irqLevel = 15 ∧ s.cfg.de = true ∧ s.mem.wf ∧
      s.writable (s.sp0 - 8) 8 ∧ s.readable (s.intbase + BitVec.ofNat 32 (4 * 0x1F)) 4 ∧
      Apart (s.intbase + BitVec.ofNat 32 (4 * 0x1F)) 4 (s.sp0 - 2) 2) ∧
    (∃ s : State, s.psr.i = true ∧ s.irqRequest = true ∧ s.cfg.i = false ∧ s.irqLevel = 1 ∧ s.cfg.de = true ∧ s.mem.wf ∧
      s.writable (s.sp0 - 8) 8 ∧ s.readable s.intbase 4 ∧ Apart s.intbase 4 (s.sp0 - 2) 2) ∧
    (({ Psr.zero with p := true } : Psr).p = true ∧ DirectReady 9 { Tests.direct with psr := { Psr.zero with p := true } } ∧
      ModularReady 9 { Tests.modular 9 with psr := { Psr.zero with p := true } }) ∧
    ModularReady 1 { Tests.modular 1 with psr := Psr.zero } ∧ ModularReady 0x1F { Tests.modular 0x1F with psr := Psr.zero } :=
  ⟨⟨{ Tests.direct with nmiLatch := true }, by decide⟩,
    ⟨{ Tests.direct with cfg := { Tests.direct.cfg with i := true }, psr := { Psr.zero with i := true }, irPins := 0 }, by decide⟩,
    ⟨{ Tests.direct with psr := { Psr.zero with i := true }, irPins := 14 }, by decide⟩,
    ⟨rfl, Tests.directReady 9 (by decide) _, Tests.modularReady _ 9 (by decide)⟩,
    Tests.modularReady _ 1 (by decide), Tests.modularReady _ 0x1F (by decide)⟩

theorem witness_InterruptLevels :
    let s := { Tests.blank with irPins := 0, isrv := 0x4000 }
    s.irqLevel = 15 ∧ s.irqRequest = true ∧ s.isrv.getLsbD 14 = true := by decide

theorem witness_LoadDedicatedRegister :
    (∃ v t, rd (.imm (.b 0xFF)) Size.b.bytes Tests.blank = .ok (v, t) ∧ LowReplaced Tests.blank.fp v 0xFF ∧
      LowReplaced t.sp v 0x80FF ∧ LowReplaced Tests.blank.mod v 0xFF ∧
      LowReplaced Tests.blank.psr.toBits (v.setWidth 8) 0xFF) ∧
    (∃ v t, rd (.imm (.d 0xFFFF1FFF)) Size.d.bytes Tests.blank = .ok (v, t) ∧ Tests.blank.psr.u = false ∧
      LowReplaced Tests.blank.psr.toBits v 0x1FFF ∧ LowReplaced Tests.blank.intbase v 0xFFFF1FFF) :=
  ⟨⟨_, _, rfl, by unfold LowReplaced; decide, by unfold LowReplaced; decide, by unfold LowReplaced; decide, by unfold LowReplaced; decide⟩,
    ⟨_, _, rfl, rfl, by unfold LowReplaced; decide, by unfold LowReplaced; decide⟩⟩

theorem witness_StoreDedicatedRegister :
    Tests.blank.psr.u = false ∧ (∃ d s1, dstWrite (.mode .tos) Tests.blank = .ok (d, s1) ∧
      ∀ v, ∃ s2, putDest d 1 v s1 = .ok ((), s2)) := ⟨rfl, _, _, rfl, fun _ => ⟨_, rfl⟩⟩

theorem witness_PsrStackAndConfig :
    (∃ v t, rd (.imm (.b 0xFF)) 1 (Tests.psr 0x0100 Tests.blank) = .ok (v, t)) ∧
    ((Size.w = .b ∨ (Size.w = .w ∧ Tests.blank.psr.u = false)) ∧
      ∃ v t, rd (.imm (.w 0xFFFF)) 2 Tests.blank = .ok (v, t)) ∧
    (∃ v t, rd (.imm (.d 0x80000000)) 4 Tests.blank = .ok (v, t)) :=
  ⟨⟨_, _, rfl⟩, ⟨by decide, _, _, rfl⟩, ⟨_, _, rfl⟩⟩

/-- Two strings of two bytes, 1 2 and 1 3, R4 = 2. -/
def Tests.strings : State :=
  { Tests.blank with regs := ⟨2, 0x3000, 0x4000, 0x5000, 2, 0, 0, 0⟩ } |> Tests.mem 0x3000 2 0x0201 |>
    Tests.mem 0x4000 2 0x0301 |> Tests.mem 0x5000 3 0x020100

theorem witness_StringsComplete :
    let o : StrOpts := { back := false, uw := .none }
    let m : StrOpts := { back := false, uw := .untilMatch }
    (Tests.strings.quiet ∧ StringReady .compare o 1 true Tests.strings) ∧
    StringReady .move o 1 false Tests.strings ∧
    (StringGoesOn .move o 1 false Tests.strings 0 ∧ StringGoesOn .move o 1 false Tests.strings 1 ∧
      2 = Tests.strings.regs.r0.toNat) ∧
    (StringGoesOn .skip m 1 false Tests.strings 0 ∧
      strStops m (Tests.strings.strX .skip m 1 false 1) (Tests.strings.strR4 1) = true) ∧
    (StringGoesOn .compare o 1 false Tests.strings 0 ∧
      strStops o (Tests.strings.strX .compare o 1 false 1) (Tests.strings.strR4 1) = false ∧
      Tests.strings.strX .compare o 1 false 1 ≠ Tests.strings.strY o 1 1) := by
  refine ⟨⟨by decide, ?_, ?_, ?_, ?_⟩, ⟨?_, ?_, ?_, ?_⟩, ⟨⟨?_, ?_⟩, ⟨?_, ?_⟩, ?_⟩, ⟨⟨?_, ?_⟩, ?_⟩, ⟨?_, ?_⟩, ?_, ?_⟩ <;> decide

theorem Tests.goesOn_ok {r : Except Stop (Unit × State)} (h : Tests.goesOn r = true) : ∃ t, r = .ok ((), t) := by
  cases r with
  | ok x => exact ⟨x.2, rfl⟩
  | error e => cases h

theorem witness_StringsInterrupted :
    let o : StrOpts := { back := false, uw := .none }
    let s := { Tests.cfgde Tests.strings with nmiLatch := true }
    (s.calm ∧ s.interruptPending = true ∧ StringReady .move o 1 false s ∧ 2 ≤ s.regs.r0.toNat ∧
      StringGoesOn .move o 1 false s 0 ∧
      ∃ t, interruptSequence s.pc { s.strRun .move o 1 false 1 with
        regs := s.strRegs .move o 1 1, psr := { s.psr.strStart .move with p := false }, psrTouched := true } = .ok ((), t)) ∧
    (Tests.strings.quiet ∧ StringReady .compare o 1 true Tests.strings ∧ 1 < Tests.strings.regs.r0.toNat ∧
      StringGoesOn .compare o 1 false Tests.strings 0 ∧ 0 < Tests.strings.regs.r0.toNat) := by
  refine ⟨⟨rfl, rfl, ⟨?_, ?_, ?_, ?_⟩, by decide, ⟨?_, ?_⟩, Tests.goesOn_ok (by decide +kernel)⟩,
    by decide, ⟨?_, ?_, ?_, ?_⟩, ?_, ⟨?_, ?_⟩, ?_⟩ <;> decide

/-- Interrupted after its first element and executed again in the state it left, a string move ends as the uninterrupted one. -/
theorem test_movsb_resumed :
    let o : StrOpts := { back := false, uw := .none }
    let run := fun s => match exec (.movsi .b o) s with
      | .next t => (t.regs, t.mem, t.pc, t.psr)
      | _ => (Regs.zero, ⟨[]⟩, 0, Psr.zero)
    run Tests.strings = run (Tests.strings.strResumed .move o 1 false 1) ∧ (run Tests.strings).1.r0 = 0 := by
  decide +kernel

/-- A unit declared and attached, its next reply laid down. -/
def Tests.unit (status : Half) : State :=
  { Tests.blank with
    cfg := { Tests.blank.cfg with f := true }, plat := { Platform.standard with hasFpu := true },
    fpu := { Fpu.reset with replies := [{ state := Fpu.reset.st, status := status, result := 0x3F800000 }] } }

theorem witness_FloatsComplete :
    let i := Instr.addf .std (.mode .tos) (.mode (.abs (.d30 0xFFFFFC)))
    ∃ t q d u, FloatIssues i (Tests.unit 0) t q (some d) 4 ∧ (Tests.unit 0).cfg.f = true ∧
      (Tests.unit 0).plat.hasFpu = true ∧ (t.fpu.reply q).status.getLsbD 0 = false ∧
      putDest d 4 ((t.fpu.reply q).result.setWidth (8 * 4)) (t.sent q) = .ok ((), u) :=
  ⟨_, _, _, _, ⟨rfl, _, _, _, rfl, rfl, rfl⟩, rfl, rfl, rfl, rfl⟩

theorem witness_FloatsTrap :
    (isFloat (.logbf .long (.mode (.reg .r0)) (.mode (.reg .r1))) = true ∧ Tests.blank.cfg.f = false) ∧
    (∃ t q, FloatIssues (.cmpf .long (.mode (.reg .r0)) (.mode (.reg .r1))) (Tests.unit 1) t q none 0 ∧
      (Tests.unit 1).cfg.f = true ∧ (Tests.unit 1).plat.hasFpu = true ∧ (t.fpu.reply q).status.getLsbD 0 = true ∧ t.calm) ∧
    (let s := { Tests.unit 0 with plat := Platform.standard };
      ∃ t q, FloatIssues (.lfsr ⟨0, 0⟩ (.imm (.d 1))) s t q none 0 ∧ s.cfg.f = true ∧ s.plat.hasFpu = false) :=
  ⟨⟨rfl, rfl⟩, ⟨_, _, ⟨rfl, _, _, _, rfl, rfl, rfl⟩, rfl, rfl, rfl, rfl⟩, ⟨_, _, ⟨rfl, _, rfl, rfl⟩, rfl, rfl⟩⟩

theorem witness_FloatOperandsIssued :
    (∀ r, Gen.mode .tos ≠ .mode (.reg r)) ∧ (∃ v t, rd (.mode .tos) 8 Tests.blank = .ok (v, t)) ∧
    (∃ x t v u, dstModify (.mode .tos) Tests.blank = .ok (x, t) ∧ getDest x 8 t = .ok (v, u)) :=
  ⟨fun r h => (by cases r <;> cases h), ⟨_, _, rfl⟩, ⟨_, _, _, _, rfl, rfl⟩⟩

/-- A block of one word in one line, shift 15. -/
def Tests.block : State :=
  { Tests.blank with regs := ⟨0x3000, 0x4000, 15, 1, 0xFFFF, 0xFFFF, 0, 0⟩ } |> Tests.mem 0x8000 4 1

theorem witness_BitBltsComplete : BBReady { da := true, negS := true } Tests.block := by
  refine ⟨?_, ?_, ?_, ?_, ?_⟩ <;> decide

/-- Where the masks let bit k of word w be combined (R685). -/
def Tests.bpuEnabled (b : Bpu) (w k : Nat) : Bool :=
  (w != 0 || ((!b.brme || decide (k ≤ b.rm.toNat)) && (!b.blme || decide (b.lm.toNat ≤ k)))) &&
    (w + 1 != 256 - b.wcnt.toNat || ((!b.erme || decide (k ≤ b.rm.toNat)) && (!b.elme || decide (b.lm.toNat ≤ k))))

/-- Bits below and above the shift, under the masks of a one-word line and of a word behind it: each clause is met. -/
theorem witness_BpuResultBits :
    let b := { Bpu.reset with sn := 12, rm := 11, lm := 2, blme := true, erme := true, wcnt := 0xFF }
    (Tests.bpuEnabled b 0 2 = true ∧ 2 + b.sn.toNat < 16) ∧ (Tests.bpuEnabled b 0 11 = true ∧ 16 ≤ 11 + b.sn.toNat) ∧
      (Tests.bpuEnabled b 0 1 = false ∧ Tests.bpuEnabled b 0 12 = false) ∧
      (Tests.bpuEnabled b 1 0 = true ∧ Tests.bpuEnabled b 1 15 = true) := by decide

/-- A block of one word in one line, the BPU set for it (R564). -/
def Tests.extblt : State :=
  { Tests.blank with
    regs := ⟨0x3000, 0x4000, 2, 1, 2, 0xFFFF, 0, 0⟩, bpu := { Bpu.reset with ebpu := true, sprd := true, wcnt := 0xFF } }

theorem witness_ExtbltCompletes : ExtReady Tests.extblt := by
  have a : ∀ l, l < 1 → ∀ w, w < 2 → Tests.extblt.readable (blockAddr 0x3000 2 0 2 l w) 2 := by decide
  have b : ∀ l, l < 1 → ∀ w, w < 1 → Tests.extblt.writable (blockAddr 0x4000 2 0 1 l w) 2 := by decide
  exact ⟨by decide, by decide, fun l w h k => a l h w k, fun l w h k => b l h w k⟩

theorem witness_PatternAndBitStrings :
    (let s := Tests.block;
      s.calm ∧ s.regs.r2.toNat ≤ 15 ∧ s.readable s.regs.r0 2 ∧ s.writable s.regs.r1 4) ∧
    25 < (Tests.reg .r2 26 Tests.blank).regs.r2.toNat ∧
    (let s := { Tests.blank with regs := ⟨0x3000, 0xFFFFFFFF, 25, 0x5000, 0, 0, 0, 0⟩ };
      s.calm ∧ s.regs.r2.toNat ≤ 25 ∧
      s.readable (s.regs.r3 + BitVec.ofNat 32 (4 * (((s.regs.r1.toInt % 8).toNat) * 32 + s.regs.r2.toNat))) 4 ∧
      s.writable (bitByte s.regs.r0 s.regs.r1) 4) ∧
    (let s := { Tests.blank with regs := ⟨0x3000, 0xFFFFFFFC, 2, 0x1234, 0, 0, 0, 0⟩ };
      s.quiet ∧ ∀ j, j < s.regs.r2.toNat → s.writable (s.regs.r0 + BitVec.ofNat 32 j * s.regs.r1) 4) ∧
    (let s := { Tests.blank with regs := ⟨0x3000, 7, 2, 0xFFFFFFF8, 0, 0, 0, 0⟩ };
      s.quiet ∧ ∀ j, j < s.regs.r2.toNat →
        s.writable (bitByte s.regs.r0 (s.regs.r1 + BitVec.ofNat 32 j * s.regs.r3)) 1) := by decide

/-- Bits 0 0 1 from 0x3000: with the option 0 the run ends at a bit that differs, the run limit or the offset limit. -/
theorem witness_BitStringCount :
    let s := fun r3 r4 : Word => Tests.mem 0x3000 1 4 { Tests.blank with regs := ⟨0x3000, 0, 0, r3, r4, 0, 0, 0⟩ }
    let bit := fun (u : State) (l : Nat) =>
      (u.valueAt (u.regs.r0 + BitVec.ofNat 32 ((u.regs.r1.toNat + l) / 8)) 1).getLsbD ((u.regs.r1.toNat + l) % 8)
    ((s 2 8).calm ∧ (s 8 2).calm ∧ (s 8 8).calm) ∧ (∀ l, l < 8 → (s 8 8).readable ((s 8 8).regs.r0 + BitVec.ofNat 32 (((s 8 8).regs.r1.toNat + l) / 8)) 1) ∧
    (∀ l, l < 2 → bit (s 2 8) l = false ∧ bit (s 8 2) l = false ∧ bit (s 8 8) l = false) ∧ bit (s 8 8) 2 = !false ∧
    (2 = (s 2 8).regs.r3.toNat ∧ 2 ≤ (s 2 8).regs.r4.toNat - (s 2 8).regs.r1.toNat) ∧
    (2 < (s 8 2).regs.r3.toNat ∧ 2 = (s 8 2).regs.r4.toNat - (s 8 2).regs.r1.toNat) := by decide

/-- A channel about to move its last word. -/
def Tests.channel (dir ot vld : Bool) : DmaChan :=
  { DmaChan.reset with adc := 0xFFFFFE, bltc := 2, bwWord := true, dir := dir, ot := ot, vld := vld, chen := true }

theorem witness_DmaCycles :
    (Tests.blank.dma.chan .ch0).active = false ∧
    (let s := { Tests.blank with dma := Dma.reset.setChan .ch1 (Tests.channel false true false) }
      let c := s.dma.chan .ch1
      c.active = true ∧ DmaEven c ∧ c.dir = false ∧ s.readable c.adc 2) ∧
    (let s := { Tests.blank with dma := Dma.reset.setChan .ch1 (Tests.channel true false true) }
      let c := s.dma.chan .ch1
      c.active = true ∧ DmaEven c ∧ c.dir = true ∧ s.writable c.adc 2) ∧
    (let c := Tests.channel true false false;
      c.bltc = 2 ∧ c.ot = false ∧ c.vld = false ∧ c.eot = false) ∧
    ((Tests.channel true false false).active = true ∧ ¬DmaEven { Tests.channel true false false with adrSet := true, adr := 1 }) ∧
    ((Tests.channel true true true).ot = true ∧ DmaChan.reset.bltc ≠ 1) ∧
    (let s := { Tests.blank with dma := { ch0 := Tests.channel true true true, ch1 := Tests.channel false true false } };
      Tests.goesOn (event (.drq .ch0 0xABCD false) (s.busWrite 0xFFFFFE 1)) = true ∧
        Tests.goesOn (events [.drq .ch0 0xABCD false, .drq .ch1 0 true] (s.busWrite 0xFFFFFE 1)) = true) :=
  ⟨by decide, by decide +kernel, by decide +kernel, by decide, by decide, by decide, by decide +kernel⟩

/-- Timer 0 in a mode, counting, one before its underflow. -/
def Tests.timer (m : TimerMode) (tc : Half) (tcs nextB : Bool) : State :=
  { Tests.blank with timer0 := { Timer.reset with tmc := m, tc := tc, tcs := tcs, nextB := nextB } }

theorem witness_TimerCounts :
    (let t := (Tests.timer .mode1 1 false false).timer .t0;
      t.tmc = .mode1 ∧ t.tcs = false) ∧
    (let t := (Tests.timer .mode1 0 true false).timer .t0;
      t.tmc = .mode1 ∧ t.tcs = true ∧ t.tc ≠ 1) ∧
    (let t := (Tests.timer .mode1 1 true false).timer .t0;
      t.tmc = .mode1 ∧ t.tcs = true ∧ t.tc = 1 ∧ t.nextB = false) ∧
    (let t := (Tests.timer .mode1 1 true true).timer .t0;
      t.tmc = .mode1 ∧ t.tcs = true ∧ t.tc = 1 ∧ t.nextB = true) ∧
    ((Tests.timer .mode3 0 false false).timer .t0).tmc = .mode3 ∧
    (let t := (Tests.timer .mode2 2 true false).timer .t0;
      t.tmc = .mode2 ∧ t.tcs = true ∧ t.tc ≠ 1) ∧ (Tests.blank.timer .t2).tmc = .idle := by decide

/-- CMPF F0,@0x3000 of section 3.11: N and Z from the Status Word, L cleared (R527), C and F kept. -/
theorem test_cmpf :
    let t := Tests.run [0xBE, 0x49, 0x05, 0xC0, 0x00, 0x30, 0x00]
      (Tests.unit 0x0040 |> Tests.psr 0xE5 |> Tests.mem 0x3000 4 0x3F800000)
    (t.psr.toBits, t.fpu.last) = (0x61, some ⟨0xBE, 0x0549, none, some 0x3F800000⟩) := by decide

/-- MOVF F1,TOS of section 3.11, the result as `Tests.unit` gives it. -/
theorem test_movf_push :
    let t := Tests.run [0xBE, 0xC5, 0x0D] (Tests.unit 0)
    (t.sp0, Tests.num t 0x7FFC 4) = (0x7FFC, 0x3F800000) := by decide

/-- DIVF F1,F0 of section 3.11: the Q bit raises Trap (SLAVE). -/
theorem test_divf_slave_trap :
    let t := Tests.run [0xBE, 0x21, 0x08]
      (Tests.unit 1 |> Tests.psr 0x300 |> Tests.cfgde |> Tests.intbase 0x400 |> Tests.mem 0x40C 4 0x01016701)
    (t.pc, t.psr.toBits, t.sp0) = (0x01016701, 0, 0x7FF8) := by decide +kernel

/-- LFSR R0, then SFSR R1: the FSR the unit holds is stored, whatever the reply's result (R534, R535). -/
theorem test_sfsr :
    let s := Tests.unit 0 |> Tests.reg .r0 0x12345678
    let t := Tests.run [0x3E, 0x37, 0x00] { s with fpu := { s.fpu with st := { s.fpu.st with fsr := 0x13F } } }
    (t.regs.r0, (Tests.run [0x3E, 0x0F, 0x00] s).fpu.st.fsr) = (0x13F, 0x12345678) := by decide
end

section
/-! PROOFS. The machine held in reset: what RSTI low leaves, and that execution begins at 0 when RSTI rises. -/

namespace Sys2Proof.Machine

open Sys2Proof

/-! ### The reset values as the CPU reads them -/

/-- Four items that are 0 read as 0 wherever the layout places them. -/
theorem ChanBits.word_false (l : ChanBits) : l.word false false false false = 0 := by
  simp [ChanBits.word, bitAt]

/-- A channel's bits of STAT read 0 after reset wherever the platform's layout places them (R77). -/
theorem DmaChan.stat_reset (l : ChanBits) : DmaChan.reset.stat l = 0 := ChanBits.word_false l

/-- A channel's bits of IMSK read 0 after reset wherever the platform's layout places them (R77). -/
theorem DmaChan.imsk_reset (l : ChanBits) : DmaChan.reset.imsk l = 0 := ChanBits.word_false l

theorem Dma.stat_reset (l : DmaLayout) : Dma.reset.stat l = 0 := by
  simp [Dma.stat, Dma.reset, DmaChan.stat_reset]

theorem Dma.imsk_reset (l : DmaLayout) : Dma.reset.imsk l = 0 := by
  simp [Dma.imsk, Dma.reset, DmaChan.imsk_reset]

theorem Dma.chan_reset (ch : Chan) : Dma.reset.chan ch = DmaChan.reset := by
  cases ch <;> rfl

theorem DmaChan.modeBits_reset : DmaChan.reset.modeBits = 0 := by decide

/-- The PSR reads 0 after reset (R61). -/
theorem Psr.toBits_zero : Psr.zero.toBits = 0 := by decide

/-! ### RSTI -/

@[simp] theorem State.resetLow_op (s : State) : s.resetLow.op = .reset := rfl
@[simp] theorem State.resetLow_dma (s : State) : s.resetLow.dma = Dma.reset := rfl

/-- RSTI low leaves the values of R99, whatever the state before. -/
theorem inReset_resetLow (s : State) : InReset s.resetLow where
  cpu := ⟨rfl, Psr.toBits_zero, rfl, rfl, rfl, rfl, rfl⟩
  bpu := ⟨rfl, rfl, rfl, rfl, rfl, rfl⟩
  dma l := ⟨Dma.stat_reset l, Dma.imsk_reset l⟩
  chan ch := by
    rw [State.resetLow_dma, Dma.chan_reset]
    exact ⟨rfl, rfl, DmaChan.modeBits_reset, rfl, rfl⟩
  icu := rfl

theorem run_event_rstiLow (s : State) : event .rstiLow s = .ok ((), s.resetLow) := rfl

/-- RSTI rising starts a machine held in reset and changes nothing else (R37, R600). -/
theorem run_event_rstiHigh_of_reset {s : State} (h : s.op = .reset) :
    event .rstiHigh s = .ok ((), { s with op := .executing }) := by
  show upd _ s = _
  rw [run_upd, if_pos h]

/-- Settles O7: the state RSTI low leaves is `State.resetLow`, which RSTI high then sets running. -/
theorem resetValues : Obligations.ResetValues := fun s =>
  ⟨s.resetLow, run_event_rstiLow s, inReset_resetLow s,
    _, run_event_rstiHigh_of_reset s.resetLow_op, rfl⟩

end Sys2Proof.Machine
end

section
/-! PROOFS. What the CPU's accesses answer in external memory, and what a store leaves there. -/

namespace Sys2Proof.Machine

open Sys2Proof

/-! ### External memory as the statements name it -/

theorem mem_bytesOf_of_mem {a x : Word} {n : Nat} (h : x ∈ byteAddrs a n) : x.toNat ∈ bytesOf a n :=
  List.mem_map_of_mem h

/-- Memory that can be written can be read. -/
theorem State.writable.readable {s : State} {a : Word} {n : Nat} (h : s.writable a n) : s.readable a n := fun x hx =>
  have ⟨hlt, hram⟩ := h x hx
  ⟨hlt, by rw [hram]; rfl⟩

/-- The CPU may read a byte where there is external memory (R131). -/
theorem byteStop_read_eq_none {p : Platform} {x : Word} (hlt : x.toNat < Config.externalEnd)
    (hmem : (p.memAt x.toNat).isSome = true) : p.byteStop false x = none := by
  obtain ⟨k, hk⟩ := Option.isSome_iff_exists.1 hmem
  cases k <;> simp [Platform.byteStop, hlt, hk]

/-- The CPU may write a byte where there is RAM (R131). -/
theorem byteStop_write_eq_none {p : Platform} {x : Word} (hlt : x.toNat < Config.externalEnd)
    (hram : p.memAt x.toNat = some .ram) : p.byteStop true x = none := by
  simp [Platform.byteStop, hlt, hram]

/-- No on-chip register stands where external memory begins (R131). -/
theorem State.readable.regAt_eq_none {s : State} {a : Word} {n : Nat} (hn : 0 < n) (h : s.readable a n) :
    s.plat.regAt a = none := by
  have ha : a ∈ byteAddrs a n := mem_byteAddrs.2 ⟨0, hn, by simp⟩
  exact regAt_none_of_external (h a.toNat (mem_bytesOf_of_mem ha)).1

/-! ### The CPU's accesses of external memory -/

/-- With nothing laid down a read of external memory answers the number its bytes hold (R135, R137). -/
theorem run_memRead_of_readable {s : State} {a : Word} {n : Nat} (hs : s.calm) (hn : 0 < n) (h : s.readable a n) :
    memRead a n s = .ok (s.valueAt a n, s) :=
  run_memRead_external hs (State.readable.regAt_eq_none hn h) (fun x hx =>
    have ⟨hlt, hmem⟩ := h x.toNat (mem_bytesOf_of_mem hx)
    byteStop_read_eq_none hlt hmem)

/-- With nothing laid down a write of external memory is one store (R135, R137). -/
theorem run_memWrite_of_writable {s : State} {a : Word} {n : Nat} (v : BitVec (8 * n)) (hs : s.calm) (hn : 0 < n)
    (h : s.writable a n) : memWrite a n v s = .ok ((), s.poke a n v) :=
  run_memWrite_external hs (State.readable.regAt_eq_none hn (State.writable.readable h)) (fun x hx =>
    have ⟨hlt, hram⟩ := h x.toNat (mem_bytesOf_of_mem hx)
    byteStop_write_eq_none hlt hram)

/-! ### The bytes of an access, one by one -/

/-- Byte k of an access stands k addresses on (R137). -/
theorem byteAddrs_getElem? (a : Word) {k n : Nat} (hk : k < n) :
    (byteAddrs a n)[k]? = some (a + BitVec.ofNat 32 k) := by
  obtain ⟨m, rfl⟩ := Nat.exists_eq_add_of_lt hk
  rw [Nat.add_assoc, byteAddrs_append, List.getElem?_append_right (by simp)]
  simp [byteAddrs]

/-- Byte k of a number is its digit of weight 256^k: the least significant comes first (R135). -/
theorem leBytes_getElem? {n k : Nat} (v : Nat) (hk : k < n) :
    (leBytes n v)[k]? = some (BitVec.ofNat 8 (v / 2 ^ (8 * k))) := by
  obtain ⟨m, rfl⟩ := Nat.exists_eq_add_of_lt hk
  rw [Nat.add_assoc, leBytes_append, List.getElem?_append_right (by simp)]
  simp [leBytes]

/-! ### What a store leaves -/

theorem State.poke_mem_wf {s : State} (hm : s.mem.wf) (a : Word) (n : Nat) (v : BitVec (8 * n)) :
    (s.poke a n v).mem.wf := Memory.wf_writeAll _ hm

theorem State.bytesAt_poke {s : State} (hm : s.mem.wf) (a : Word) {n : Nat} (hn : n ≤ 8) (v : BitVec (8 * n)) :
    (s.poke a n v).bytesAt (byteAddrs a n) = leBytes n v.toNat := bytesAt_store hm a hn v.toNat

/-- A number stored is the number there. -/
theorem State.valueAt_poke {s : State} (hm : s.mem.wf) (a : Word) {n : Nat} (hn : n ≤ 8) (v : BitVec (8 * n)) :
    (s.poke a n v).valueAt a n = v := by
  rw [State.valueAt, State.bytesAt_poke hm a hn, leNat_leBytes, Nat.mod_eq_of_lt v.isLt, BitVec.ofNat_toNat,
    BitVec.setWidth_eq]

/-- Each byte stored reads back, the least significant at the lowest address (R135). -/
theorem State.read_poke {s : State} (hm : s.mem.wf) (a : Word) {n k : Nat} (hn : n ≤ 8) (v : BitVec (8 * n))
    (hk : k < n) : (s.poke a n v).mem.read (a + BitVec.ofNat 32 k).toNat = v.extractLsb' (8 * k) 8 := by
  have hbyte := congrArg (·[k]?) (State.bytesAt_poke hm a hn v)
  rw [BitVec.extractLsb', Nat.shiftRight_eq_div_pow]
  simpa [State.bytesAt, byteAddrs_getElem? a hk, leBytes_getElem? v.toNat hk] using hbyte

/-- A store changes no byte but its own. -/
theorem State.read_poke_other (s : State) {a : Word} {n x : Nat} (v : BitVec (8 * n)) (hx : x ∉ bytesOf a n) :
    (s.poke a n v).mem.read x = s.mem.read x :=
  Memory.read_writeAll_other (fun _ hc he => hx (he ▸ (List.of_mem_zip hc).1))

/-- Settles O11: the store is `State.poke`, which leaves RAM where it was, so that the read answers the number stored. -/
theorem memoryStoreThenLoad : Obligations.MemoryStoreThenLoad := by
  intro s a n v hpos hn hs hm hw
  have hread := run_memRead_of_readable (s := s.poke a n v) hs hpos (State.writable.readable hw)
  rw [State.valueAt_poke hm a hn v] at hread
  exact ⟨run_memWrite_of_writable v hs hpos hw, hread, fun _ hk => State.read_poke hm a hn v hk,
    fun _ hx => State.read_poke_other s v hx, State.poke_mem_wf hm a n v⟩

end Sys2Proof.Machine
end

section
/-! PROOFS. Trap (ILL) of the privileged instructions in User mode, and Trap (DVZ) of a zero divisor. -/

namespace Sys2Proof.Machine

open Sys2Proof

/-! ### A trap ends the instruction as TrapSequence -/

/-- An instruction that traps has TrapSequence's outcome, whatever is laid down inside it: RSTI low cuts the sequence as an
exception sequence, so nothing of the instruction is due (R602, R620, R760). -/
theorem finish_of_trap {i : Instr} {m : M Next} {s u : State} {x : Trap} (h : m s = .error (.trap x u)) :
    finish i m s = settled (trapSequence x s) u := by
  unfold finish settled
  rw [complete_trap h]
  cases hseq : trapSequence x s u with
  | ok y => rfl
  | error e =>
    cases e with
    | cut post d c =>
      have hentry : d = .entry := asEntry_cut hseq
      rw [hentry]
    | trap y v => rfl
    | fault f => rfl
    | refuse r => rfl

/-! ### Privileged instructions -/

/-- What a privileged check does in User mode (R480, R670). -/
theorem run_privileged_user {s : State} (hu : s.psr.u = true) : privileged s = .error (.trap .ill s) := by
  rw [run_privileged, if_pos hu]

/-- An instruction that begins with the privileged check traps in User mode in the state it started in (R613). -/
theorem finish_privileged_user {i : Instr} {k : Unit → M Next} {s : State} (hu : s.psr.u = true) :
    finish i (privileged >>= k) s = settled (trapSequence .ill s) s :=
  finish_of_trap (run_bind_of_error (run_privileged_user hu))

/-- PSR and INTBASE are the dedicated registers whose access is privileged (R480). -/
theorem aregPrivilege_of_privileged {a : AReg} (ha : a = .psr ∨ a = .intbase) : aregPrivilege a = privileged := by
  obtain rfl | rfl := ha
  · rfl
  · rfl

/-- BISPSRW and BICPSRW: Word is an encoded length (R204), and a privileged one (R484, R485). -/
theorem run_wordPrivilege_user {k : Unit → M Next} {s : State} (hu : s.psr.u = true) :
    (require (.encoding .sizeField) (Size.w != Size.d) >>= fun _ => psrLengthPrivilege .w >>= k) s = .error (.trap .ill s) :=
  (run_bind_of_ok (run_require_true _ s)).trans (run_bind_of_error (run_privileged_user hu))

/-- Settles O43: every privileged form runs the privileged check before it touches an operand, so that in User mode it traps
in the state it started in. -/
theorem privilegedInstructionsTrap : Obligations.PrivilegedInstructionsTrap := by
  refine ⟨rfl, fun i s hu hi => ?_⟩
  cases i with
  | rett d => exact finish_privileged_user hu
  | reti => exact finish_privileged_user hu
  | setcfg o => exact finish_privileged_user hu
  | lpri z a src =>
    show execLpri z a src s = _
    unfold execLpri
    rw [aregPrivilege_of_privileged hi]
    exact finish_privileged_user hu
  | spri z a dst =>
    show execSpri z a dst s = _
    unfold execSpri
    rw [aregPrivilege_of_privileged hi]
    exact finish_privileged_user hu
  | bispsri z src =>
    obtain rfl : z = .w := hi
    exact finish_of_trap (run_wordPrivilege_user hu)
  | bicpsri z src =>
    obtain rfl : z = .w := hi
    exact finish_of_trap (run_wordPrivilege_user hu)
  | _ => exact False.elim hi

/-! ### A divisor of zero -/

/-- A divisor of zero is found without any change of the state (R330). -/
theorem run_divisor_zero {w : Nat} (s : State) : divisor (0 : BitVec w) s = .error (.trap .dvz s) := by
  unfold divisor
  rw [if_pos rfl, run_raise]

/-- An instruction of classes read and rmw stops where the combination of its operands does: nothing is written. -/
theorem run_modifyOp_of_error {src dst : Gen} {m n : Nat} {f : BitVec (8 * m) → BitVec (8 * n) → M (Result (8 * n))}
    {s s1 s2 s3 : State} {a : BitVec (8 * m)} {d : Dest} {b : BitVec (8 * n)} {e : Stop}
    (ha : rd src m s = .ok (a, s1)) (hd : dstModify dst s1 = .ok (d, s2)) (hb : getDest d n s2 = .ok (b, s3))
    (hf : f a b s3 = .error e) : modifyOp src dst m n f s = .error e := by
  unfold modifyOp
  rw [run_bind_of_ok ha, run_bind_of_ok hd, run_bind_of_ok hb, run_bind_of_error hf]

/-- A division of classes read and rmw by zero, whatever `res` it computes for another divisor, stops with Trap (DVZ) in the
state its operand reads left (R330, R614). -/
theorem run_divide_by_zero {src dst : Gen} {n : Nat} {res : BitVec (8 * n) → BitVec (8 * n) → BitVec (8 * n)}
    {s s1 s2 s3 : State} {d : Dest} {b : BitVec (8 * n)} (ha : rd src n s = .ok (0, s1))
    (hd : dstModify dst s1 = .ok (d, s2)) (hb : getDest d n s2 = .ok (b, s3)) :
    modifyOp src dst n n (fun a b => do
      divisor a
      pure (plain (res a b))) s = .error (.trap .dvz s3) :=
  run_modifyOp_of_error ha hd hb (run_bind_of_error (run_divisor_zero s3))

/-- DEI by zero: both operands are read before the divisor is tested, and nothing is written (R335, R614, log 53). -/
theorem execDeii_by_zero {i : Size} {src dst : Gen} {s s1 s2 s3 : State} {d : Dest} {b : BitVec (8 * (2 * i.bytes))}
    (ha : rd src i.bytes s = .ok (0, s1)) (hd : dstDouble dst i s1 = .ok (d, s2))
    (hb : getDest d (2 * i.bytes) s2 = .ok (b, s3)) :
    execDeii i src dst s = settled (trapSequence .dvz s) s3 := by
  unfold execDeii
  refine finish_of_trap ?_
  rw [run_bind_of_ok ha, run_bind_of_ok hd, run_bind_of_ok hb, run_bind_of_error (run_divisor_zero s3)]

/-- Settles O23: QUO, REM, DIV and MOD share the division of classes read and rmw, which tests the divisor before it writes;
DEI tests it after reading its double-length destination. -/
theorem zeroDivisorTraps : Obligations.ZeroDivisorTraps := by
  refine ⟨rfl, fun i src dst s s1 d s2 b s3 ha hd hb _ => ⟨?quo, ?rem, ?div, ?mod⟩,
    fun i src dst s s1 d s2 b s3 ha hd hb _ => execDeii_by_zero ha hd hb⟩
  case quo => exact finish_of_trap (run_divide_by_zero (res := quoResult) ha hd hb)
  case rem => exact finish_of_trap (run_divide_by_zero (res := remResult) ha hd hb)
  case div => exact finish_of_trap (run_divide_by_zero (res := divResult) ha hd hb)
  case mod => exact finish_of_trap (run_divide_by_zero (res := modResult) ha hd hb)

end Sys2Proof.Machine
end

section
/-! PROOFS. What every instruction keeps: a family of relations that the instructions without privilege keep, its two members
that are of interest, and the step as a whole. -/

namespace Sys2Proof.Machine

open Sys2Proof

variable {α β : Type} {R : State → State → Prop}

/-! ### Relations an instruction without privilege keeps -/

/-- A change of the PSR that leaves the mode, the stack select and the interrupt enable (R53). -/
def KeepsMode (f : Psr → Psr) : Prop := ∀ p, (f p).u = p.u ∧ (f p).s = p.s ∧ (f p).i = p.i

/-- What a relation must keep for every instruction without privilege to keep it: of the PSR it need keep changes of the flags
alone, and neither CFG nor INTBASE changes. -/
structure Mild (R : State → State → Prop) : Prop extends Operable R where
  flags : ∀ (s : State) f, KeepsMode f → R s { s with psr := f s.psr, psrTouched := true }
  part : ∀ (s : State) fp sb m bpu fpu op, R s { s with fp := fp, sb := sb, mod := m, bpu := bpu, fpu := fpu, op := op }
  purged : ∀ (s : State), R s { s with dirty := [] }
  interrupt : ∀ ret, Rel R (interruptSequence ret)

/-- What a computation does after one that answers may use what it answered. -/
theorem Rel.bind_of_ok (hF : Frameable R) {m : M α} {f : α → M β} (hm : Rel R m)
    (hf : ∀ a s t, m s = .ok (a, t) → Rel R (f a)) : Rel R (m >>= f) := by
  intro s
  rw [run_bind]
  cases h : m s with
  | ok x => exact RelAt.after hF ((hm s).ok x.1 x.2 h) (hf x.1 s x.2 h x.2)
  | error e => exact RelAt.error (h ▸ hm s)

/-- The low byte of the PSR holds neither U nor S nor I (R45). -/
theorem keepsMode_lowByte (v : BitVec 8) : KeepsMode (fun p => Psr.ofBits (mergeHalf p.toBits v)) := by
  have high : ∀ (p : Psr) k, 8 ≤ k → k < 16 → (mergeHalf p.toBits v).getLsbD k = p.toBits.getLsbD k := fun p k h1 h2 => by
    rw [mergeHalf, BitVec.getLsbD_setWidth, mergeLow_getLsbD _ _ (by omega), if_neg (by omega), BitVec.getLsbD_setWidth]
    simp [h2, show k < 32 by omega]
  intro p
  have hp := Psr.ofBits_toBits p
  refine ⟨?_, ?_, ?_⟩
  · exact (high p 8 (by omega) (by omega)).trans (congrArg Psr.u hp)
  · exact (high p 9 (by omega) (by omega)).trans (congrArg Psr.s hp)
  · exact (high p 11 (by omega) (by omega)).trans (congrArg Psr.i hp)

/-- A floating operand in Register mode is the unit's; any other is a CPU operand (R514). -/
theorem fread_cases (g : Gen) (n : Nat) :
    fread g n = pure none ∨ fread g n = (rd g n >>= fun v => pure (some (v.setWidth 64))) := by
  cases g with
  | mode m => cases m <;> first | exact .inl rfl | exact .inr rfl
  | imm v => exact .inr rfl
  | scaled k b x => exact .inr rfl

theorem fwrite_cases (g : Gen) : fwrite g = pure none ∨ fwrite g = (dstWrite g >>= fun d => pure (some d)) := by
  cases g with
  | mode m => cases m <;> first | exact .inl rfl | exact .inr rfl
  | imm v => exact .inr rfl
  | scaled k b x => exact .inr rfl

theorem fmodify_cases (g : Gen) (n : Nat) : fmodify g n = pure (none, none) ∨
    fmodify g n = (dstModify g >>= fun d => getDest d n >>= fun v => pure (some d, some (v.setWidth 64))) := by
  cases g with
  | mode m => cases m <;> first | exact .inl rfl | exact .inr rfl
  | imm v => exact .inr rfl
  | scaled k b x => exact .inr rfl

section
variable (hR : Mild R)
include hR

theorem Mild.frame : Frameable R := hR.toFrameable

theorem Mild.pure (a : α) : Rel R (Pure.pure a : M α) := Rel.pure hR.frame a

theorem Mild.bind {m : M α} {f : α → M β} (hm : Rel R m) (hf : ∀ a, Rel R (f a)) : Rel R (m >>= f) := Rel.bind hR.frame hm hf

theorem Mild.peekBind (g : State → α) {f : α → M β} (hf : ∀ a, Rel R (f a)) : Rel R (peek g >>= f) :=
  hR.bind (Rel.peek hR.frame g) hf

theorem Mild.regBind (r : Reg) {f : Word → M β} (hf : ∀ a, Rel R (f a)) : Rel R (getReg r >>= f) := hR.peekBind _ hf

theorem Mild.setReg (r : Reg) (v : Word) : Rel R (Machine.setReg r v) := Rel.upd (fun s => hR.reg s r v)

theorem Mild.setRegBind (r : Reg) (v : Word) {f : Unit → M β} (hf : ∀ u, Rel R (f u)) : Rel R (Machine.setReg r v >>= f) :=
  hR.bind (hR.setReg r v) hf

theorem Mild.setSp (v : Word) : Rel R (Machine.setSp v) := Rel.upd (fun s => hR.stack s v)

theorem Mild.read (a : Word) (n : Nat) : Rel R (memRead a n) := Rel.memRead hR.toShared a n

theorem Mild.readBind (a : Word) (n : Nat) {f : BitVec (8 * n) → M β} (hf : ∀ v, Rel R (f v)) : Rel R (memRead a n >>= f) :=
  hR.bind (hR.read a n) hf

theorem Mild.write (a : Word) (n : Nat) (v : BitVec (8 * n)) : Rel R (memWrite a n v) := Rel.memWrite hR.toStorable a n v

theorem Mild.writeBind (a : Word) (n : Nat) (v : BitVec (8 * n)) {f : Unit → M β} (hf : ∀ u, Rel R (f u)) :
    Rel R (memWrite a n v >>= f) := hR.bind (hR.write a n v) hf

theorem Mild.rdBind (g : Gen) (n : Nat) {f : BitVec (8 * n) → M β} (hf : ∀ v, Rel R (f v)) : Rel R (rd g n >>= f) :=
  hR.bind (Rel.rd hR.toShared hR.stack g n) hf

theorem Mild.eaBind (g : Gen) {f : Word → M β} (hf : ∀ v, Rel R (f v)) : Rel R (ea g >>= f) := hR.bind (Rel.ea hR.toShared g) hf

theorem Mild.writePlaceBind (g : Gen) {f : Dest → M β} (hf : ∀ d, Rel R (f d)) : Rel R (dstWrite g >>= f) :=
  hR.bind (Rel.dstWrite hR.toShared g) hf

theorem Mild.modifyPlaceBind (g : Gen) {f : Dest → M β} (hf : ∀ d, Rel R (f d)) : Rel R (dstModify g >>= f) :=
  hR.bind (Rel.dstModify hR.toShared g) hf

theorem Mild.getBind (d : Dest) (n : Nat) {f : BitVec (8 * n) → M β} (hf : ∀ v, Rel R (f v)) : Rel R (getDest d n >>= f) :=
  hR.bind (Rel.getDest hR.toShared d n) hf

theorem Mild.put (d : Dest) (n : Nat) (v : BitVec (8 * n)) : Rel R (putDest d n v) := Rel.putDest hR.toOperable d n v

theorem Mild.putBind (d : Dest) (n : Nat) (v : BitVec (8 * n)) {f : Unit → M β} (hf : ∀ u, Rel R (f u)) :
    Rel R (putDest d n v >>= f) := hR.bind (hR.put d n v) hf

theorem Mild.push (n : Nat) (v : BitVec (8 * n)) : Rel R (Machine.push n v) := Rel.push hR.toStorable hR.stack n v

theorem Mild.pop (n : Nat) : Rel R (Machine.pop n) := Rel.pop hR.toShared hR.stack n

theorem Mild.updPsr {f : Psr → Psr} (h : KeepsMode f) : Rel R (Machine.updPsr f) := Rel.upd (fun s => hR.flags s f h)

theorem Mild.fresh (n : Nat) : Rel R (Machine.fresh n) := Rel.fresh hR.frame n

theorem Mild.setMod (s : State) (m : Half) : R s { s with mod := m } := hR.part s s.fp s.sb m s.bpu s.fpu s.op
theorem Mild.setSb (s : State) (v : Word) : R s { s with sb := v } := hR.part s s.fp v s.mod s.bpu s.fpu s.op
theorem Mild.setFp (s : State) (v : Word) : R s { s with fp := v } := hR.part s v s.sb s.mod s.bpu s.fpu s.op
theorem Mild.setBpu (s : State) (b : Bpu) : R s { s with bpu := b } := hR.part s s.fp s.sb s.mod b s.fpu s.op
theorem Mild.setFpu (s : State) (x : Fpu) (op : OpState) : R s { s with fpu := x, op := op } :=
  hR.part s s.fp s.sb s.mod s.bpu x op

/-! ### The shapes of instructions -/

theorem Mild.modify (src dst : Gen) (m n : Nat) {f : BitVec (8 * m) → BitVec (8 * n) → M (Result (8 * n))}
    (hf : ∀ a b, Rel R (f a b)) (hr : ∀ a b s r t, f a b s = .ok (r, t) → KeepsMode r.flags) :
    Rel R (modifyOp src dst m n f) :=
  hR.rdBind _ _ fun a => hR.modifyPlaceBind _ fun _ => hR.getBind _ _ fun b => Rel.bind_of_ok hR.frame (hf a b)
    fun r s t h => hR.putBind _ _ _ fun _ => hR.bind (hR.updPsr (hr a b s r t h)) fun _ => hR.pure _

/-- A modifying instruction whose result is a function of the operands. -/
theorem Mild.modifyPure (src dst : Gen) (m n : Nat) {f : BitVec (8 * m) → BitVec (8 * n) → Result (8 * n)}
    (h : ∀ a b, KeepsMode (f a b).flags) : Rel R (modifyOp src dst m n (fun a b => Pure.pure (f a b))) :=
  hR.modify src dst m n (fun _ _ => hR.pure _) (fun a b _ _ _ e => by cases e; exact h a b)

/-- A modifying instruction whose result depends on the carry too. -/
theorem Mild.modifyCarry (src dst : Gen) (n : Nat) {f : BitVec (8 * n) → BitVec (8 * n) → Bool → Result (8 * n)}
    (h : ∀ a b c, KeepsMode (f a b c).flags) :
    Rel R (modifyOp src dst n n (fun a b => carry >>= fun c => Pure.pure (f a b c))) :=
  hR.modify src dst n n (fun _ _ => hR.peekBind _ fun _ => hR.pure _) (fun a b _ _ _ e => by cases e; exact h a b _)

theorem Mild.divisor {w : Nat} (a : BitVec w) : Rel R (Machine.divisor a) :=
  Rel.ite (fun _ => Rel.raise hR.frame _) (fun _ => hR.pure _)

/-- A dividing instruction writes no flag. -/
theorem Mild.divide (src dst : Gen) (n : Nat) (f : BitVec (8 * n) → BitVec (8 * n) → BitVec (8 * n)) :
    Rel R (modifyOp src dst n n (fun a b => Machine.divisor a >>= fun _ => Pure.pure (plain (f a b)))) :=
  hR.modify src dst n n (fun a _ => hR.bind (hR.divisor a) fun _ => hR.pure _) (fun a b s r t e => by
    obtain ⟨_, u, -, h⟩ := bind_eq_ok.1 e
    cases h
    exact fun _ => ⟨rfl, rfl, rfl⟩)

/-- A packed decimal result writes C and F alone. -/
theorem Mild.decimal (src dst : Gen) (n : Nat) {f : BitVec (8 * n) → BitVec (8 * n) → Bool → Result (8 * n)}
    (h : ∀ a b c, KeepsMode (f a b c).flags) :
    Rel R (modifyOp src dst n n (fun a b => carry >>= fun c => packed a b (f a b c))) := by
  refine hR.modify src dst n n (fun a b => hR.peekBind _ fun _ => Rel.ite (fun _ => hR.pure _) (fun _ =>
    hR.bind (hR.fresh _) fun _ => hR.bind (hR.fresh _) fun _ => hR.pure _)) (fun a b s r t e => ?_)
  obtain ⟨c, u, -, hp⟩ := bind_eq_ok.1 e
  unfold packed at hp
  split at hp
  · cases hp; exact h a b c
  · cases hp; exact fun _ => ⟨rfl, rfl, rfl⟩

theorem Mild.move (src dst : Gen) (m n : Nat) {f : BitVec (8 * m) → Result (8 * n)} (h : ∀ a, KeepsMode (f a).flags) :
    Rel R (moveOp src dst m n (fun a => Pure.pure (f a))) :=
  hR.rdBind _ _ fun a => hR.writePlaceBind _ fun _ => Rel.bind_of_ok hR.frame (hR.pure _)
    fun r s t e => hR.putBind _ _ _ fun _ => hR.bind (hR.updPsr (by cases e; exact h a)) fun _ => hR.pure _

theorem Mild.storeOp (dst : Gen) (n : Nat) (v : BitVec (8 * n)) : Rel R (Machine.storeOp dst n v) := Rel.storeOp hR.toOperable dst n v

theorem Mild.copyBlock (z n : Nat) (a b : Word) : Rel R (Machine.copyBlock z n a b) := by
  induction n generalizing a b with
  | zero => exact hR.pure _
  | succ n ih => exact hR.readBind _ _ fun _ => hR.writeBind _ _ _ fun _ => ih _ _

theorem Mild.compareBlock (z n : Nat) (a b : Word) : Rel R (Machine.compareBlock z n a b) := by
  induction n generalizing a b with
  | zero => exact hR.updPsr (fun _ => ⟨rfl, rfl, rfl⟩)
  | succ n ih =>
    exact hR.readBind _ _ fun _ => hR.readBind _ _ fun _ => Rel.ite (fun _ => ih _ _)
      (fun _ => hR.updPsr (fun _ => ⟨rfl, rfl, rfl⟩))

theorem Mild.blockCountBind (i : Size) (d : Disp) {f : Nat → M β} (hf : ∀ n, Rel R (f n)) : Rel R (blockCount i d >>= f) :=
  hR.bind (Rel.ite (fun _ => Rel.refuse _) (fun _ => hR.pure _)) hf

theorem Mild.bitOp (i : Size) (off base : Gen) (f : Option (Bool → Bool)) : Rel R (Machine.bitOp i off base f) := by
  refine hR.rdBind _ _ fun v => hR.modifyPlaceBind _ fun d => hR.getBind _ _ fun x => hR.bind ?_ fun _ =>
    hR.bind (hR.updPsr (fun _ => ⟨rfl, rfl, rfl⟩)) fun _ => hR.pure _
  cases f with
  | none => exact hR.pure _
  | some g => exact hR.put _ _ _

theorem Mild.fieldPlace (d : Dest) (o : Word) : Rel R (Machine.fieldPlace d o) := by
  cases d with
  | mem a => exact hR.pure _
  | reg r => exact hR.bind (Rel.require hR.frame _ _) fun _ => hR.pure _
  | pair r => exact hR.bind (Rel.require hR.frame _ _) fun _ => hR.pure _
  | push => exact hR.bind (Rel.require hR.frame _ _) fun _ => hR.pure _

theorem Mild.locateBind (d : Dest) (o len : Word) {f : Field → M β} (hf : ∀ x, Rel R (f x)) : Rel R (locate d o len >>= f) :=
  hR.bind (hR.bind (Rel.require hR.frame _ _) fun _ => hR.bind (hR.fieldPlace d o) fun _ =>
    hR.bind (Rel.require hR.frame _ _) fun _ => hR.pure _) hf

theorem Mild.extractOp (i : Size) (o len : Word) (base dst : Gen) : Rel R (Machine.extractOp i o len base dst) :=
  hR.modifyPlaceBind _ fun _ => hR.locateBind _ _ _ fun _ => hR.getBind _ _ fun _ => hR.writePlaceBind _ fun _ =>
    hR.putBind _ _ _ fun _ => hR.pure _

theorem Mild.insertOp (i : Size) (o len : Word) (src base : Gen) : Rel R (Machine.insertOp i o len src base) :=
  hR.rdBind _ _ fun _ => hR.modifyPlaceBind _ fun _ => hR.locateBind _ _ _ fun _ => hR.getBind _ _ fun _ =>
    hR.putBind _ _ _ fun _ => hR.pure _

/-! ### Interruptible instructions -/

/-- A loop whose iterations keep the relation, then its end, which may be the interrupt. -/
theorem Mild.endLoop (clearP : Bool) (e : Ended) : Rel R (Machine.endLoop clearP e) := by
  cases e with
  | done => exact hR.pure _
  | interrupted =>
    exact hR.bind (Rel.onlyIf hR.frame _ (fun _ => hR.updPsr (fun _ => ⟨rfl, rfl, rfl⟩))) fun _ => hR.peekBind _ fun _ =>
      hR.bind (hR.interrupt _) fun _ => hR.pure _

theorem Mild.loopBind {body : M Bool} (hb : Rel R body) (n : Nat) {f : Ended → M β} (hf : ∀ e, Rel R (f e)) :
    Rel R (Machine.loop body n >>= f) := hR.bind (Rel.loop hR.toShared hb n) hf

theorem Mild.strElement (n : Nat) (t : Bool) : Rel R (Machine.strElement n t) :=
  hR.regBind _ fun _ => hR.readBind _ _ fun _ => Rel.ite (fun _ => hR.regBind _ fun _ => hR.readBind _ _ fun _ => hR.pure _)
    (fun _ => hR.pure _)

theorem Mild.strBody (k : StrKind) (n : Nat) (x : BitVec (8 * n)) : Rel R (Machine.strBody k n x) := by
  cases k with
  | move => exact hR.regBind _ fun _ => hR.writeBind _ _ _ fun _ => hR.pure _
  | compare =>
    exact hR.regBind _ fun _ => hR.readBind _ _ fun _ => Rel.ite (fun _ => hR.pure _)
      (fun _ => hR.bind (hR.updPsr (fun _ => ⟨rfl, rfl, rfl⟩)) fun _ => hR.pure _)
  | skip => exact hR.pure _

theorem Mild.strAdvance (k : StrKind) (o : StrOpts) (n : Nat) : Rel R (Machine.strAdvance k o n) :=
  hR.regBind _ fun _ => hR.setRegBind _ _ fun _ =>
    hR.bind (Rel.onlyIf hR.frame _ (fun _ => hR.regBind _ fun _ => hR.setReg _ _)) fun _ =>
    hR.regBind _ fun _ => hR.setRegBind _ _ fun _ => hR.pure _

theorem Mild.strIteration (k : StrKind) (o : StrOpts) (n : Nat) (t : Bool) : Rel R (Machine.strIteration k o n t) :=
  hR.bind (hR.strElement n t) fun _ => hR.regBind _ fun _ => Rel.ite
    (fun _ => hR.bind (hR.updPsr (fun _ => ⟨rfl, rfl, rfl⟩)) fun _ => hR.pure _)
    (fun _ => hR.bind (hR.strBody k n _) fun _ => Rel.ite (fun _ => hR.strAdvance k o n) (fun _ => hR.pure _))

theorem Mild.stringOp (k : StrKind) (o : StrOpts) (n : Nat) (t : Bool) : Rel R (Machine.stringOp k o n t) :=
  hR.bind (hR.updPsr (by cases k <;> exact fun _ => ⟨rfl, rfl, rfl⟩)) fun _ => hR.regBind _ fun _ =>
    hR.loopBind (hR.strIteration k o n t) _ fun _ => hR.endLoop _ _

theorem Mild.bbWord (fn : BBFn) (o : BBOpts) (w width : Nat) : Rel R (Machine.bbWord fn o w width) :=
  hR.regBind _ fun _ => hR.regBind _ fun _ => hR.regBind _ fun _ => hR.regBind _ fun _ => hR.regBind _ fun _ =>
    hR.readBind _ _ fun _ => hR.readBind _ _ fun _ => hR.writeBind _ _ _ fun _ => hR.setRegBind _ _ fun _ => hR.setReg _ _

theorem Mild.bbWords (fn : BBFn) (o : BBOpts) (width n : Nat) : Rel R (Machine.bbWords fn o width n) := by
  induction n with
  | zero => exact hR.pure _
  | succ n ih => exact hR.bind (hR.bbWord _ _ _ _) fun _ => ih

/-- The end of a scan line: the warps added, one line less to go (R554, R564). -/
theorem Mild.lineEnd {f : Word → Bool} : Rel R (do
    let r0 ← getReg .r0
    let r1 ← getReg .r1
    let r3 ← getReg .r3
    let r6 ← getReg .r6
    let r7 ← getReg .r7
    Machine.setReg .r0 (r0 + r6)
    Machine.setReg .r1 (r1 + r7)
    Machine.setReg .r3 (r3 - 1)
    Pure.pure (f r3) : M Bool) :=
  hR.regBind _ fun _ => hR.regBind _ fun _ => hR.regBind _ fun _ => hR.regBind _ fun _ => hR.regBind _ fun _ =>
    hR.setRegBind _ _ fun _ => hR.setRegBind _ _ fun _ => hR.setRegBind _ _ fun _ => hR.pure _

theorem Mild.bbShiftBind {f : Unit → M β} (hf : ∀ u, Rel R (f u)) : Rel R (bbShift >>= f) :=
  hR.bind (hR.regBind _ fun _ => Rel.require hR.frame _ _) hf

theorem Mild.bbOp (fn : BBFn) (o : BBOpts) : Rel R (Machine.bbOp fn o) :=
  hR.bbShiftBind fun _ => hR.peekBind _ fun _ => hR.readBind _ _ fun w => hR.regBind _ fun _ =>
    hR.loopBind (body := bbLine fn o w.toNat) (hR.bind (hR.bbWords _ _ _ _) fun _ => hR.lineEnd) _ fun _ => hR.endLoop _ _

theorem Mild.extbltSource : Rel R Machine.extbltSource :=
  hR.regBind _ fun _ => hR.regBind _ fun _ => hR.readBind _ _ fun _ => hR.bind (Rel.upd (fun s => hR.setBpu s _)) fun _ =>
    hR.setReg _ _

theorem Mild.latch (v : Option Half) : Rel R (Machine.latch v) := by
  cases v with
  | none => exact hR.fresh _
  | some x => exact hR.pure _

theorem Mild.bpuResult (w : Nat) : Rel R (Machine.bpuResult w) :=
  hR.peekBind _ fun _ => hR.bind (hR.latch _) fun _ => hR.bind (hR.latch _) fun _ => hR.bind (hR.latch _) fun _ => hR.pure _

theorem Mild.extbltWords (total n : Nat) : Rel R (Machine.extbltWords total n) := by
  induction n with
  | zero => exact hR.pure _
  | succ n ih =>
    exact hR.bind hR.extbltSource fun _ => hR.regBind _ fun _ => hR.regBind _ fun _ => hR.readBind _ _ fun _ =>
      hR.bind (Rel.upd (fun s => hR.setBpu s _)) fun _ => hR.bind (hR.bpuResult _) fun _ => hR.writeBind _ _ _ fun _ =>
      hR.setRegBind _ _ fun _ => hR.regBind _ fun _ => hR.setRegBind _ _ fun _ => ih

theorem Mild.extbltLine : Rel R Machine.extbltLine :=
  hR.regBind _ fun _ => hR.setRegBind _ _ fun _ => hR.peekBind _ fun _ =>
    hR.bind (Rel.onlyIf hR.frame _ (fun _ => hR.extbltSource)) fun _ => hR.bind (hR.extbltWords _ _) fun _ => hR.lineEnd

theorem Mild.finalStepBind (e : Ended) (ran : Bool) (r step : Reg) {f : Unit → M β} (hf : ∀ u, Rel R (f u)) :
    Rel R (finalStep e ran r step >>= f) :=
  hR.bind (hR.peekBind _ fun _ => Rel.onlyIf hR.frame _ (fun _ => hR.regBind _ fun _ => hR.regBind _ fun _ => hR.setReg _ _)) hf

theorem Mild.movmpIteration (n : Nat) : Rel R (Machine.movmpIteration n) :=
  hR.regBind _ fun _ => hR.regBind _ fun _ => hR.regBind _ fun _ => hR.regBind _ fun _ => hR.writeBind _ _ _ fun _ =>
    hR.setRegBind _ _ fun _ => hR.setRegBind _ _ fun _ => hR.pure _

theorem Mild.sbitpsIteration : Rel R Machine.sbitpsIteration :=
  hR.regBind _ fun _ => hR.regBind _ fun _ => hR.regBind _ fun _ => hR.regBind _ fun _ => hR.readBind _ _ fun _ =>
    hR.writeBind _ _ _ fun _ => hR.setRegBind _ _ fun _ => hR.setRegBind _ _ fun _ => hR.pure _

theorem Mild.tbitsLoop (opt : Bool) (n m count : Nat) : Rel R (Machine.tbitsLoop opt n m count) := by
  induction n generalizing m count with
  | zero => unfold Machine.tbitsLoop; exact hR.pure _
  | succ n ih =>
    cases m with
    | zero => exact hR.pure _
    | succ m =>
      exact hR.regBind _ fun _ => hR.regBind _ fun _ => hR.readBind _ _ fun _ => hR.setRegBind _ _ fun _ =>
        Rel.ite (fun _ => ih _ _) (fun _ => hR.pure _)

/-! ### Calls and stack frames -/

theorem Mild.readDescriptorBind (a : Word) {f : Word → M β} (hf : ∀ v, Rel R (f v)) : Rel R (readDescriptor a >>= f) :=
  hR.bind (hR.readBind _ _ fun _ => hR.readBind _ _ fun _ => hR.pure _) hf

theorem Mild.callDescriptor (desc ret : Word) : Rel R (Machine.callDescriptor desc ret) :=
  hR.peekBind _ fun _ => hR.peekBind _ fun _ => hR.writeBind _ _ _ fun _ => hR.bind (hR.setSp _) fun _ =>
    hR.bind (hR.push _ _) fun _ => hR.bind (Rel.upd (fun s => hR.setMod s _)) fun _ => hR.readBind _ _ fun _ =>
    hR.bind (Rel.upd (fun s => hR.setSb s _)) fun _ => hR.readBind _ _ fun _ => hR.pure _

theorem Mild.discardBind (n : Word) {f : Unit → M β} (hf : ∀ u, Rel R (f u)) : Rel R (discard n >>= f) :=
  hR.bind (hR.peekBind _ fun _ => hR.setSp _) hf

theorem Mild.pushRegs (l : List Reg) : Rel R (Machine.pushRegs l) := by
  induction l with
  | nil => exact hR.pure _
  | cons r t ih => exact hR.regBind _ fun _ => hR.bind (hR.push _ _) fun _ => ih

theorem Mild.popRegs (l : List Reg) : Rel R (Machine.popRegs l) := by
  induction l with
  | nil => exact hR.pure _
  | cons r t ih => exact hR.bind (hR.pop _) fun _ => hR.setRegBind _ _ fun _ => ih

theorem Mild.branch (c : Cond) (d : Disp) : Rel R (Machine.branch c d) :=
  hR.peekBind _ fun _ => hR.peekBind _ fun _ => Rel.ite (fun _ => hR.pure _) (fun _ => hR.pure _)

/-! ### Dedicated registers -/

theorem Mild.aregPrivilege (a : AReg) : Rel R (Machine.aregPrivilege a) := by
  cases a with
  | psr => exact Rel.privileged hR.frame
  | intbase => exact Rel.privileged hR.frame
  | _ => exact hR.pure _

theorem Mild.readAreg (a : AReg) : Rel R (Machine.readAreg a) := by
  cases a with
  | psr => exact hR.bind (Rel.readPsr hR.frame) fun _ => hR.pure _
  | _ => exact Rel.peek hR.frame _

theorem Mild.setPsrByte (v : BitVec 8) : Rel R (setPsrLow v) := Rel.upd (fun s => hR.flags s _ (keepsMode_lowByte v))

theorem Mild.writeAreg {w : Nat} (a : AReg) (v : BitVec w) (h : a ≠ .psr ∧ a ≠ .intbase) : Rel R (Machine.writeAreg a v) := by
  cases a with
  | us => exact hR.setPsrByte _
  | fp => exact Rel.upd (fun s => hR.setFp s _)
  | sp => exact Rel.upd (fun s => hR.stack s _)
  | sb => exact Rel.upd (fun s => hR.setSb s _)
  | mod => exact Rel.upd (fun s => hR.setMod s _)
  | psr => exact absurd rfl h.1
  | intbase => exact absurd rfl h.2

/-! ### Floating point -/

theorem Mild.needFpuBind {f : Unit → M β} (hf : ∀ u, Rel R (f u)) : Rel R (needFpu >>= f) :=
  hR.bind (hR.peekBind _ fun _ => Rel.ite (fun _ => hR.pure _) (fun _ => Rel.raise hR.frame _)) hf

theorem Mild.freadBind (g : Gen) (n : Nat) {f : Option (BitVec 64) → M β} (hf : ∀ v, Rel R (f v)) : Rel R (fread g n >>= f) := by
  rcases fread_cases g n with h | h <;> rw [h]
  · exact hR.bind (hR.pure _) hf
  · exact hR.bind (hR.rdBind _ _ fun _ => hR.pure _) hf

theorem Mild.fwriteBind (g : Gen) {f : Option Dest → M β} (hf : ∀ v, Rel R (f v)) : Rel R (fwrite g >>= f) := by
  rcases fwrite_cases g with h | h <;> rw [h]
  · exact hR.bind (hR.pure _) hf
  · exact hR.bind (hR.writePlaceBind _ fun _ => hR.pure _) hf

theorem Mild.fmodifyBind (g : Gen) (n : Nat) {f : Option Dest × Option (BitVec 64) → M β} (hf : ∀ v, Rel R (f v)) :
    Rel R (fmodify g n >>= f) := by
  rcases fmodify_cases g n with h | h <;> rw [h]
  · exact hR.bind (hR.pure _) hf
  · exact hR.bind (hR.modifyPlaceBind _ fun _ => hR.getBind _ _ fun _ => hR.pure _) hf

theorem Mild.protocol (i : Instr) (a b : Option (BitVec 64)) {k : FpuReply → M Unit} (hk : ∀ r, Rel R (k r)) :
    Rel R (Machine.protocol i a b k) :=
  hR.peekBind _ fun _ => hR.peekBind _ fun _ => Rel.ite
    (fun _ => hR.bind (Rel.upd (fun s => hR.setFpu s _ s.op)) fun _ =>
      hR.bind (Rel.onlyIf hR.frame _ (fun _ => Rel.raise hR.frame _)) fun _ => hR.bind (hk _) fun _ => hR.pure _)
    (fun _ => hR.bind (Rel.upd (fun s => hR.setFpu s _ _)) fun _ => hR.pure _)

theorem Mild.fresult (d : Option Dest) (n : Nat) (r : FpuReply) : Rel R (Machine.fresult d n r) := by
  cases d with
  | none => exact hR.pure _
  | some d => exact hR.put _ _ _

theorem Mild.floatModify (i : Instr) (f : FSize) (src dst : Gen) : Rel R (Machine.floatModify i f src dst) :=
  hR.needFpuBind fun _ => hR.freadBind _ _ fun _ => hR.fmodifyBind _ _ fun _ => hR.protocol _ _ _ (hR.fresult _ _)

theorem Mild.floatMove (i : Instr) (m n : Nat) (src dst : Gen) : Rel R (Machine.floatMove i m n src dst) :=
  hR.needFpuBind fun _ => hR.freadBind _ _ fun _ => hR.fwriteBind _ fun _ => hR.protocol _ _ _ (hR.fresult _ _)

theorem Mild.floatRead (i : Instr) (f : FSize) (a b : Gen) {k : FpuReply → M Unit} (hk : ∀ r, Rel R (k r)) :
    Rel R (Machine.floatRead i f a b k) :=
  hR.needFpuBind fun _ => hR.freadBind _ _ fun _ => hR.freadBind _ _ fun _ => hR.protocol _ _ _ hk

theorem Mild.floatToInt (i : Instr) (f : FSize) (z : Size) (src dst : Gen) : Rel R (Machine.floatToInt i f z src dst) :=
  hR.needFpuBind fun _ => hR.freadBind _ _ fun _ => hR.writePlaceBind _ fun _ => hR.protocol _ _ _ (hR.fresult _ _)

end

/-! ### Every instruction without privilege -/

/-- The forms that trap in User mode (R480, R670). -/
def PrivilegedForm : Instr → Prop
  | .rett _ | .reti | .setcfg _ => True
  | .lpri _ a _ | .spri _ a _ => a = .psr ∨ a = .intbase
  | .bispsri z _ | .bicpsri z _ => z = .w
  | _ => False

/-- BISPSR and BICPSR of a length that needs no privilege: Byte, or Double-word, which is no encoding (R204, R484). -/
theorem Mild.psrBits {R : State → State → Prop} (hR : Mild R) (i : Size) (src : Gen) (f : Half → BitVec (8 * i.bytes) → BitVec (8 * i.bytes))
    (hi : i ≠ .w) : Rel R (do
      require (.encoding .sizeField) (i != .d)
      psrLengthPrivilege i
      let v ← rd src i.bytes
      let old ← peek (fun s => s.psr.toBits)
      setPsrLow (f old v)
      purge
      Pure.pure Next.seq : M Next) := by
  cases i with
  | b =>
    exact hR.bind (Rel.require hR.frame _ _) fun _ => hR.bind (hR.pure _) fun _ => hR.rdBind _ _ fun _ => hR.peekBind _ fun _ =>
      hR.bind (hR.setPsrByte _) fun _ => hR.bind (Rel.upd hR.purged) fun _ => hR.pure _
  | w => exact absurd rfl hi
  | d => exact fun s => RelAt.of_refuse _

/-- FFS writes F alone, whatever the first set bit is (R388). -/
theorem Mild.ffs {R : State → State → Prop} (hR : Mild R) (i : Size) (base off : Gen) :
    Rel R (modifyOp base off i.bytes 1 (fun b o => match firstSet b (8 * i.bytes - o.toNat) o.toNat with
      | some k => Pure.pure { val := BitVec.ofNat 8 k, flags := fun p => { p with f := false } }
      | none => Pure.pure { val := 0, flags := fun p => { p with f := true } })) := by
  refine hR.modify _ _ _ _ (fun b o => ?_) (fun b o s r t e => ?_)
  · cases firstSet b (8 * i.bytes - o.toNat) o.toNat <;> exact hR.pure _
  · cases h : firstSet b (8 * i.bytes - o.toNat) o.toNat <;> rw [h] at e <;> cases e <;> exact fun _ => ⟨rfl, rfl, rfl⟩

/-- The meaning of every instruction, the privileged forms apart, keeps every mild relation. -/
theorem exec_mild (i : Instr) (h : ¬ PrivilegedForm i) :
    ∃ m, (∀ s, exec i s = finish i m s) ∧ ∀ R, Mild R → Rel R m := by
  cases i with
  | beq | bne | bcs | bcc | bhi | bls | bgt | ble | bfs | bfc | blo | bhs | blt | bge =>
    exact ⟨_, fun _ => rfl, fun R hR => hR.branch _ _⟩
  | br d => exact ⟨branch .always d, fun _ => rfl, fun R hR => hR.branch _ _⟩
  | bnever d => exact ⟨branch .never d, fun _ => rfl, fun R hR => hR.branch _ _⟩
  | bsr d => exact ⟨_, fun _ => rfl, fun R hR => hR.bind (hR.peekBind _ fun _ => hR.pure _) fun _ => hR.bind (hR.push _ _) fun _ =>
      hR.peekBind _ fun _ => hR.pure _⟩
  | jsr g => exact ⟨_, fun _ => rfl, fun R hR => hR.eaBind _ fun _ => hR.bind (hR.peekBind _ fun _ => hR.pure _) fun _ =>
      hR.bind (hR.push _ _) fun _ => hR.pure _⟩
  | ret d => exact ⟨_, fun _ => rfl, fun R hR => hR.bind (hR.pop _) fun _ => hR.discardBind _ fun _ => hR.pure _⟩
  | cxp d => exact ⟨_, fun _ => rfl, fun R hR => hR.peekBind _ fun _ => hR.readBind _ _ fun _ => hR.readDescriptorBind _ fun _ =>
      hR.bind (hR.peekBind _ fun _ => hR.pure _) fun _ => hR.callDescriptor _ _⟩
  | cxpd g => exact ⟨_, fun _ => rfl, fun R hR => hR.eaBind _ fun _ => hR.readDescriptorBind _ fun _ =>
      hR.bind (hR.peekBind _ fun _ => hR.pure _) fun _ => hR.callDescriptor _ _⟩
  | rxp d => exact ⟨_, fun _ => rfl, fun R hR => hR.bind (hR.pop _) fun _ => hR.peekBind _ fun _ => hR.readBind _ _ fun _ =>
      hR.bind (Rel.upd (fun s => hR.setMod s _)) fun _ => hR.bind (hR.setSp _) fun _ => hR.readBind _ _ fun _ =>
      hR.bind (Rel.upd (fun s => hR.setSb s _)) fun _ => hR.discardBind _ fun _ => hR.pure _⟩
  | save l => exact ⟨_, fun _ => rfl, fun R hR => hR.bind (hR.pushRegs _) fun _ => hR.pure _⟩
  | restore l => exact ⟨_, fun _ => rfl, fun R hR => hR.bind (hR.popRegs _) fun _ => hR.pure _⟩
  | enter l d => exact ⟨_, fun _ => rfl, fun R hR => hR.peekBind _ fun _ => hR.bind (hR.push _ _) fun _ => hR.peekBind _ fun _ =>
      hR.bind (Rel.upd (fun s => hR.setFp s _)) fun _ => hR.bind (hR.setSp _) fun _ => hR.bind (hR.pushRegs _) fun _ => hR.pure _⟩
  | exit l => exact ⟨_, fun _ => rfl, fun R hR => hR.bind (hR.popRegs _) fun _ => hR.peekBind _ fun _ => hR.bind (hR.setSp _) fun _ =>
      hR.bind (hR.pop _) fun _ => hR.bind (Rel.upd (fun s => hR.setFp s _)) fun _ => hR.pure _⟩
  | nop => exact ⟨pure .seq, fun _ => rfl, fun R hR => hR.pure _⟩
  | wait => exact ⟨upd (fun s => { s with op := .waiting }) >>= fun _ => pure .seq, fun _ => rfl, fun R hR =>
      hR.bind (Rel.upd (fun s => hR.part s s.fp s.sb s.mod s.bpu s.fpu .waiting)) fun _ => hR.pure _⟩
  | dia => exact ⟨peek (·.pc) >>= fun pc => pure (.jump pc), fun _ => rfl, fun R hR => hR.peekBind _ fun _ => hR.pure _⟩
  | flag => exact ⟨_, fun _ => rfl, fun R hR => hR.peekBind _ fun _ => Rel.ite (fun _ => Rel.raise hR.frame _) (fun _ => hR.pure _)⟩
  | svc => exact ⟨_, fun _ => rfl, fun R hR => Rel.raise hR.frame _⟩
  | bpt => exact ⟨_, fun _ => rfl, fun R hR => Rel.raise hR.frame _⟩
  | addqi z q g => exact ⟨_, fun _ => rfl, fun R hR => hR.modifyPlaceBind _ fun _ => hR.getBind _ _ fun _ => hR.putBind _ _ _ fun _ =>
      hR.bind (hR.updPsr (fun _ => ⟨rfl, rfl, rfl⟩)) fun _ => hR.pure _⟩
  | cmpqi z q g => exact ⟨_, fun _ => rfl, fun R hR => hR.rdBind _ _ fun _ =>
      hR.bind (hR.updPsr (fun _ => ⟨rfl, rfl, rfl⟩)) fun _ => hR.pure _⟩
  | spri z a g => exact ⟨_, fun _ => rfl, fun R hR => hR.bind (hR.aregPrivilege _) fun _ => hR.bind (hR.readAreg _) fun _ => hR.storeOp _ _ _⟩
  | scondi z c g => exact ⟨_, fun _ => rfl, fun R hR => hR.peekBind _ fun _ => hR.storeOp _ _ _⟩
  | acbi z q g d => exact ⟨_, fun _ => rfl, fun R hR => hR.modifyPlaceBind _ fun _ => hR.getBind _ _ fun _ => hR.putBind _ _ _ fun _ =>
      hR.peekBind _ fun _ => Rel.ite (fun _ => hR.pure _) (fun _ => hR.pure _)⟩
  | movqi z q g => exact ⟨_, fun _ => rfl, fun R hR => hR.storeOp _ _ _⟩
  | lpri z a g => exact ⟨_, fun _ => rfl, fun R hR => hR.bind (hR.aregPrivilege _) fun _ => hR.rdBind _ _ fun _ =>
      hR.bind (hR.writeAreg _ _ (not_or.1 h)) fun _ => hR.pure _⟩
  | bicpsri z g => exact ⟨_, fun _ => rfl, fun R hR => hR.psrBits z g (fun old v => old.setWidth (8 * z.bytes) &&& ~~~v) h⟩
  | bispsri z g => exact ⟨_, fun _ => rfl, fun R hR => hR.psrBits z g (fun old v => old.setWidth (8 * z.bytes) ||| v) h⟩
  | jump g => exact ⟨_, fun _ => rfl, fun R hR => hR.eaBind _ fun _ => hR.pure _⟩
  | adjspi z g => exact ⟨_, fun _ => rfl, fun R hR => hR.rdBind _ _ fun _ => hR.peekBind _ fun _ => hR.bind (hR.setSp _) fun _ => hR.pure _⟩
  | casei z g => exact ⟨_, fun _ => rfl, fun R hR => hR.rdBind _ _ fun _ => hR.peekBind _ fun _ => hR.pure _⟩
  | addi | subi | bici | ori | andi | xori | lshi | ashi | roti | muli =>
    exact ⟨_, fun _ => rfl, fun R hR => hR.modifyPure _ _ _ _ (fun _ _ _ => ⟨rfl, rfl, rfl⟩)⟩
  | ffsi z g off => exact ⟨_, fun _ => rfl, fun R hR => hR.ffs z g off⟩
  | addci | subci => exact ⟨_, fun _ => rfl, fun R hR => hR.modifyCarry _ _ _ (fun _ _ _ _ => ⟨rfl, rfl, rfl⟩)⟩
  | quoi => exact ⟨_, fun _ => rfl, fun R hR => hR.divide _ _ _ quoResult⟩
  | remi => exact ⟨_, fun _ => rfl, fun R hR => hR.divide _ _ _ remResult⟩
  | divi => exact ⟨_, fun _ => rfl, fun R hR => hR.divide _ _ _ divResult⟩
  | modi => exact ⟨_, fun _ => rfl, fun R hR => hR.divide _ _ _ modResult⟩
  | addpi => exact ⟨_, fun _ => rfl, fun R hR => hR.decimal _ _ _ (f := addpResult) (fun _ _ _ _ => ⟨rfl, rfl, rfl⟩)⟩
  | subpi => exact ⟨_, fun _ => rfl, fun R hR => hR.decimal _ _ _ (f := subpResult) (fun _ _ _ _ => ⟨rfl, rfl, rfl⟩)⟩
  | meii z a b => exact ⟨_, fun _ => rfl, fun R hR => hR.rdBind _ _ fun _ => hR.bind (Rel.dstDouble hR.toShared _ _) fun _ =>
      hR.getBind _ _ fun _ => hR.putBind _ _ _ fun _ => hR.pure _⟩
  | deii z a b => exact ⟨_, fun _ => rfl, fun R hR => hR.rdBind _ _ fun _ => hR.bind (Rel.dstDouble hR.toShared _ _) fun _ =>
      hR.getBind _ _ fun _ => hR.bind (hR.divisor _) fun _ => hR.putBind _ _ _ fun _ => hR.pure _⟩
  | cmpi z a b => exact ⟨_, fun _ => rfl, fun R hR => hR.rdBind _ _ fun _ => hR.rdBind _ _ fun _ =>
      hR.bind (hR.updPsr (fun _ => ⟨rfl, rfl, rfl⟩)) fun _ => hR.pure _⟩
  | movi | negi | absi | comi | noti | movxbw | movzbw | movzid | movxid =>
    exact ⟨_, fun _ => rfl, fun R hR => hR.move _ _ _ _ (fun _ _ => ⟨rfl, rfl, rfl⟩)⟩
  | addr a b => exact ⟨_, fun _ => rfl, fun R hR => hR.eaBind _ fun _ => hR.storeOp _ _ _⟩
  | tbiti | sbiti | sbitii | cbiti | cbitii | ibiti => exact ⟨_, fun _ => rfl, fun R hR => hR.bitOp _ _ _ _⟩
  | movsi | movst | cmpsi | cmpst | skpsi | skpst => exact ⟨_, fun _ => rfl, fun R hR => hR.stringOp _ _ _ _⟩
  | bband | bbor | bbxor | bbstod | bbfor => exact ⟨_, fun _ => rfl, fun R hR => hR.bbOp _ _⟩
  | bitwt => exact ⟨_, fun _ => rfl, fun R hR => hR.bbShiftBind fun _ => hR.regBind _ fun _ => hR.regBind _ fun _ => hR.regBind _ fun _ =>
      hR.readBind _ _ fun _ => hR.readBind _ _ fun _ => hR.writeBind _ _ _ fun _ => hR.setRegBind _ _ fun _ => hR.setRegBind _ _ fun _ =>
      hR.pure _⟩
  | extblt => exact ⟨_, fun _ => rfl, fun R hR => hR.peekBind _ fun _ => hR.bind (Rel.require hR.frame _ _) fun _ =>
      hR.bind (hR.updPsr (fun _ => ⟨rfl, rfl, rfl⟩)) fun _ => hR.regBind _ fun _ => hR.loopBind hR.extbltLine _ fun _ =>
      hR.bind (Rel.onlyIf hR.frame _ (fun _ => hR.bind (hR.updPsr (fun _ => ⟨rfl, rfl, rfl⟩)) fun _ => hR.bind (hR.fresh _) fun _ =>
        hR.setReg _ _)) fun _ => hR.endLoop _ _⟩
  | sbits => exact ⟨_, fun _ => rfl, fun R hR => hR.regBind _ fun _ => hR.regBind _ fun _ => hR.regBind _ fun _ => hR.regBind _ fun _ =>
      hR.peekBind _ fun _ => hR.bind (hR.updPsr (fun _ => ⟨rfl, rfl, rfl⟩)) fun _ =>
      hR.bind (Rel.onlyIf hR.frame _ (fun _ => hR.readBind _ _ fun _ => hR.readBind _ _ fun _ => hR.write _ _ _)) fun _ => hR.pure _⟩
  | sbitps => exact ⟨_, fun _ => rfl, fun R hR => hR.regBind _ fun _ => hR.loopBind hR.sbitpsIteration _ fun _ =>
      hR.finalStepBind _ _ _ _ fun _ => hR.endLoop _ _⟩
  | movmpi z => exact ⟨_, fun _ => rfl, fun R hR => hR.regBind _ fun _ => hR.loopBind (hR.movmpIteration _) _ fun _ =>
      hR.finalStepBind _ _ _ _ fun _ => hR.endLoop _ _⟩
  | tbits o => exact ⟨_, fun _ => rfl, fun R hR => hR.regBind _ fun _ => hR.regBind _ fun _ => hR.regBind _ fun _ =>
      hR.bind (hR.tbitsLoop _ _ _ _) fun _ => hR.setRegBind _ _ fun _ => hR.bind (hR.updPsr (fun _ => ⟨rfl, rfl, rfl⟩)) fun _ => hR.pure _⟩
  | movmi z a b d => exact ⟨_, fun _ => rfl, fun R hR => hR.eaBind _ fun _ => hR.eaBind _ fun _ => hR.blockCountBind _ _ fun _ =>
      hR.bind (hR.copyBlock _ _ _ _) fun _ => hR.pure _⟩
  | cmpmi z a b d => exact ⟨_, fun _ => rfl, fun R hR => hR.eaBind _ fun _ => hR.eaBind _ fun _ => hR.blockCountBind _ _ fun _ =>
      hR.bind (hR.compareBlock _ _ _ _) fun _ => hR.pure _⟩
  | inssi => exact ⟨_, fun _ => rfl, fun R hR => hR.insertOp _ _ _ _ _⟩
  | extsi => exact ⟨_, fun _ => rfl, fun R hR => hR.extractOp _ _ _ _ _⟩
  | exti => exact ⟨_, fun _ => rfl, fun R hR => hR.regBind _ fun _ => hR.extractOp _ _ _ _ _⟩
  | insi => exact ⟨_, fun _ => rfl, fun R hR => hR.regBind _ fun _ => hR.insertOp _ _ _ _ _⟩
  | cvtp r a b => exact ⟨_, fun _ => rfl, fun R hR => hR.regBind _ fun _ => hR.eaBind _ fun _ => hR.storeOp _ _ _⟩
  | checki z r a b => exact ⟨_, fun _ => rfl, fun R hR => hR.eaBind _ fun _ => hR.readBind _ _ fun _ => hR.readBind _ _ fun _ =>
      hR.rdBind _ _ fun _ => Rel.ite
        (fun _ => hR.setRegBind _ _ fun _ => hR.bind (hR.updPsr (fun _ => ⟨rfl, rfl, rfl⟩)) fun _ => hR.pure _)
        (fun _ => hR.bind (hR.bind (hR.fresh _) fun _ => hR.setReg _ _) fun _ => hR.bind (hR.updPsr (fun _ => ⟨rfl, rfl, rfl⟩)) fun _ => hR.pure _)⟩
  | indexi z r a b => exact ⟨_, fun _ => rfl, fun R hR => hR.rdBind _ _ fun _ => hR.rdBind _ _ fun _ => hR.regBind _ fun _ =>
      hR.setRegBind _ _ fun _ => hR.pure _⟩
  | movif f z a b => exact ⟨_, fun _ => rfl, fun R hR => hR.needFpuBind fun _ => hR.rdBind _ _ fun _ => hR.fwriteBind _ fun _ =>
      hR.protocol _ _ _ (hR.fresult _ _)⟩
  | lfsr x a => exact ⟨_, fun _ => rfl, fun R hR => hR.needFpuBind fun _ => hR.rdBind _ _ fun _ =>
      hR.protocol _ _ _ fun _ => Rel.upd (fun s => hR.setFpu s _ s.op)⟩
  | sfsr x a => exact ⟨_, fun _ => rfl, fun R hR => hR.needFpuBind fun _ => hR.writePlaceBind _ fun _ => hR.peekBind _ fun _ =>
      hR.protocol _ _ _ fun _ => hR.put _ _ _⟩
  | movlf | movfl | movf | absf | negf | logbf => exact ⟨_, fun _ => rfl, fun R hR => hR.floatMove _ _ _ _ _⟩
  | roundfi | truncfi | floorfi => exact ⟨_, fun _ => rfl, fun R hR => hR.floatToInt _ _ _ _ _⟩
  | addf | subf | mulf | divf | scalbf => exact ⟨_, fun _ => rfl, fun R hR => hR.floatModify _ _ _ _⟩
  | cmpf => exact ⟨_, fun _ => rfl, fun R hR => hR.floatRead _ _ _ _ fun _ => hR.updPsr (fun _ => ⟨rfl, rfl, rfl⟩)⟩
  | polyf | dotf => exact ⟨_, fun _ => rfl, fun R hR => hR.floatRead _ _ _ _ fun _ => hR.pure _⟩
  | rett | reti | setcfg => exact absurd trivial h

/-! ### The invariant -/

theorem Lively.mild {R : State → State → Prop} (hR : Lively R) : Mild R where
  toOperable := hR.operable
  flags s f _ := hR.control s s.pc s.sp0 s.sp1 s.sb s.mod (f s.psr) true s.isrv s.nmiLatch s.op (.inl rfl)
  part s fp sb m bpu fpu op := hR.trans (hR.cpu s fp s.intbase s.cfg bpu fpu)
    (hR.control _ s.pc s.sp0 s.sp1 sb m s.psr s.psrTouched s.isrv s.nmiLatch op (.inl rfl))
  purged := hR.purged
  interrupt := Rel.interruptSequence hR.toEnterable

/-- The meaning of every instruction keeps the relations that the privileged operations keep too. -/
theorem exec_lively (i : Instr) : ∃ m, (∀ s, exec i s = finish i m s) ∧ ∀ R, Lively R → Rel R m := by
  by_cases h : PrivilegedForm i
  · cases i with
    | rett d =>
      exact ⟨_, fun _ => rfl, fun R hR => hR.mild.bind (Rel.privileged hR.toFrameable) fun _ =>
        hR.mild.bind (Rel.returnFromException hR.toEnterable _) fun _ => hR.mild.pure _⟩
    | reti =>
      refine ⟨_, fun _ => rfl, fun R hR => hR.mild.bind (Rel.privileged hR.toFrameable) fun _ => hR.mild.bind hR.gap fun _ =>
        hR.mild.bind (Rel.upd fun s => ?_) fun _ => hR.mild.bind (Rel.returnFromException hR.toEnterable _) fun _ => hR.mild.pure _⟩
      exact hR.control s s.pc s.sp0 s.sp1 s.sb s.mod s.psr s.psrTouched _ s.nmiLatch s.op (.inr (.inr rfl))
    | setcfg o =>
      exact ⟨_, fun _ => rfl, fun R hR => hR.mild.bind (Rel.privileged hR.toFrameable) fun _ =>
        hR.mild.bind (Rel.upd fun s => hR.cpu s s.fp s.intbase _ s.bpu s.fpu) fun _ => hR.mild.pure _⟩
    | lpri z a g =>
      exact ⟨_, fun _ => rfl, fun R hR => hR.mild.bind (hR.aregPrivilege a) fun _ => hR.mild.rdBind _ _ fun _ =>
        hR.mild.bind (hR.writeAreg a _) fun _ => hR.mild.pure _⟩
    | spri z a g =>
      exact ⟨_, fun _ => rfl, fun R hR => hR.mild.bind (hR.aregPrivilege a) fun _ => hR.mild.bind (hR.readAreg a) fun _ =>
        hR.storeR _ _ _⟩
    | bispsri z g | bicpsri z g =>
      exact ⟨_, fun _ => rfl, fun R hR => hR.mild.bind (Rel.require hR.toFrameable _ _) fun _ => hR.mild.bind (hR.psrLengthPrivilege z) fun _ =>
        hR.mild.rdBind _ _ fun _ => hR.mild.peekBind _ fun _ => hR.mild.bind (hR.setPsrLow _) fun _ => hR.mild.bind hR.purgeR fun _ =>
        hR.mild.pure _⟩
    | _ => exact False.elim h
  · obtain ⟨m, he, hm⟩ := exec_mild i h
    exact ⟨m, he, fun R hR => hm R hR.mild⟩

theorem exec_inv {i : Instr} {s t : State} (hs : s.Inv) (e : exec i s = .next t) : t.Inv := by
  obtain ⟨m, he, hm⟩ := exec_lively i
  exact finish_inv (hm _ keepsInv_lively) hs ((he s).symm.trans e)

theorem runInstruction_inv {s t : State} (hs : s.Inv) (e : runInstruction exec s = .next t) : t.Inv := by
  have hund : undefinedTrap s = .next t → t.Inv := settled_inv (Rel.trapSequence keepsInv_lively.toEnterable _ _) hs
  unfold runInstruction at e
  split at e
  · exact exec_inv (s := s.traced) hs e
  · split at e
    · exact hund e
    · rename_i why _ _
      cases why with
      | undefined => exact hund e
      | _ => cases e

/-- The checks of a step keep the invariant: an exception is entered, an instruction run, or nothing happens. -/
theorem stepChecks_inv {s t : State} (hs : s.Inv) (e : stepChecks s = .next t) : t.Inv := by
  have hint : settled (interruptSequence s.pc) s = .next t → t.Inv :=
    settled_inv (Rel.interruptSequence keepsInv_lively.toEnterable _) hs
  unfold stepChecks at e
  split at e
  · cases e; exact hs
  · cases e; exact hs
  · split at e
    · exact hint e
    · cases e; exact hs
  · split at e
    · exact hint e
    · split at e
      · exact settled_inv (Rel.traceSequence keepsInv_lively.toEnterable) hs e
      · exact runInstruction_inv hs e

/-- Settles O9: the events before the step keep the invariant, and so do the checks and what they lead to. -/
theorem stepKeepsInvariant : Obligations.StepKeepsInvariant := by
  intro s t hs e
  obtain ⟨u, hu, hrel⟩ := arrive_inv hs
  unfold step at e
  cases h : arrive s with
  | ok x =>
    rw [h] at e hrel
    exact stepChecks_inv ((hrel.ok _ _ rfl).1 hu) e
  | error y =>
    rw [h] at e hrel
    exact outcomeOf_inv hu hrel e

/-- Settles O8: the memory is empty, ISRV is 0, and no channel is enabled. -/
theorem resetSatisfiesInvariant : Obligations.ResetSatisfiesInvariant :=
  ⟨Memory.reset_wf.1, Memory.reset_wf.2, (by decide : (0 : Half).getLsbD 0 = false), fun _ => rfl, fun _ => rfl,
    fun _ ha => nomatch ha⟩

/-! ### User mode -/

/-- CFG and INTBASE stay, and a state in User mode comes from one in User mode with the same stack select and interrupt
enable. -/
def KeepsControl (s t : State) : Prop :=
  t.cfg = s.cfg ∧ t.intbase = s.intbase ∧
    (t.psr.u = true → s.psr.u = true ∧ t.psr.s = s.psr.s ∧ t.psr.i = s.psr.i) ∧ Spends s t

theorem KeepsControl.of_same {s t : State} (hc : t.cfg = s.cfg) (hi : t.intbase = s.intbase)
    (hp : t.psr.u = s.psr.u ∧ t.psr.s = s.psr.s ∧ t.psr.i = s.psr.i) (hw : t.within = s.within) : KeepsControl s t :=
  ⟨hc, hi, fun hu => ⟨hp.1 ▸ hu, hp.2⟩, Spends.of_eq hw⟩

/-- A state in Supervisor mode. -/
theorem KeepsControl.of_supervisor {s t : State} (hc : t.cfg = s.cfg) (hi : t.intbase = s.intbase) (hu : t.psr.u = false)
    (hw : Spends s t) : KeepsControl s t := ⟨hc, hi, fun h => absurd (hu ▸ h) Bool.false_ne_true, hw⟩

theorem keepsControl_frameable : Frameable KeepsControl where
  refl s := .of_same rfl rfl ⟨rfl, rfl, rfl⟩ rfl
  trans := by
    rintro s t u ⟨hc, hi, hp, hw⟩ ⟨hc', hi', hp', hw'⟩
    refine ⟨hc'.trans hc, hi'.trans hi, fun hu => ?_, spends_frameable.trans hw hw'⟩
    obtain ⟨htu, hs, hie⟩ := hp' hu
    obtain ⟨hsu, hs', hie'⟩ := hp htu
    exact ⟨hsu, hs.trans hs', hie.trans hie'⟩
  free _ _ := .of_same rfl rfl ⟨rfl, rfl, rfl⟩ rfl
  spends h := h.2.2.2

theorem keepsControl_setTimer (s : State) (k : TimerId) (x : Timer) : KeepsControl s (s.setTimer k x) := by
  cases k <;> exact .of_same rfl rfl ⟨rfl, rfl, rfl⟩ rfl

theorem keepsControl_chip (r : PReg) (v : Word) : Rel KeepsControl (regWrite r v) :=
  Rel.regWrite_of keepsControl_frameable (fun _ _ => .of_same rfl rfl ⟨rfl, rfl, rfl⟩ rfl) keepsControl_setTimer
    (fun _ _ => .of_same rfl rfl ⟨rfl, rfl, rfl⟩ rfl) (fun _ _ _ _ => .of_same rfl rfl ⟨rfl, rfl, rfl⟩ rfl) r v

theorem keepsControl_eventful : Eventful KeepsControl where
  toFrameable := keepsControl_frameable
  deposit _ _ _ _ := .of_same rfl rfl ⟨rfl, rfl, rfl⟩ rfl
  chip := keepsControl_chip
  bus s a v := by unfold State.busWrite; split <;> exact .of_same rfl rfl ⟨rfl, rfl, rfl⟩ rfl
  cycle _ _ _ := .of_same rfl rfl ⟨rfl, rfl, rfl⟩ rfl
  timer := keepsControl_setTimer
  pins _ _ := .of_same rfl rfl ⟨rfl, rfl, rfl⟩ rfl
  latch _ _ := .of_same rfl rfl ⟨rfl, rfl, rfl⟩ rfl
  mode _ _ := .of_same rfl rfl ⟨rfl, rfl, rfl⟩ rfl
  out _ _ := .of_same rfl rfl ⟨rfl, rfl, rfl⟩ rfl

theorem keepsControl_storable : Storable KeepsControl where
  toFrameable := keepsControl_frameable
  gap := Rel.gap_of keepsControl_frameable (fun _ he => Rel.event keepsControl_eventful he)
    (fun _ => ⟨rfl, rfl, fun h => ⟨h, rfl, rfl⟩, fun _ hl => List.mem_of_mem_tail hl⟩)
  store _ _ _ _ := .of_same rfl rfl ⟨rfl, rfl, rfl⟩ rfl
  chip := keepsControl_chip

/-- A push on the interrupt stack. -/
theorem keepsControl_push (n : Nat) (v : BitVec (8 * n)) : Rel KeepsControl (pushInterrupt n v) :=
  Rel.pushInterrupt keepsControl_storable (fun _ _ => .of_same rfl rfl ⟨rfl, rfl, rfl⟩ rfl) n v

/-- An update of other parts of the state than the control state. -/
theorem keepsControl_upd {f : State → State} (h : ∀ s, (f s).cfg = s.cfg ∧ (f s).intbase = s.intbase ∧ (f s).psr = s.psr ∧
    (f s).within = s.within) : Rel KeepsControl (upd f) := Rel.upd fun s => by
  obtain ⟨hc, hi, hp, hw⟩ := h s
  exact .of_same hc hi (by rw [hp]; exact ⟨rfl, rfl, rfl⟩) hw

theorem keepsControl_service (vector : Nat) (copy : Half) (ret : Word) : Rel KeepsControl (service vector copy ret) := by
  have hF := keepsControl_frameable
  have read := Rel.memRead keepsControl_storable.toShared
  have purged : Rel KeepsControl purge := keepsControl_upd fun _ => ⟨rfl, rfl, rfl, rfl⟩
  unfold service
  refine Rel.bind hF (keepsControl_push _ _) fun _ => Rel.bind hF (Rel.peek hF _) fun _ => Rel.bind hF (read _ _) fun _ =>
    Rel.bind hF (Rel.peek hF _) fun _ => ?_
  split
  · exact Rel.bind hF (keepsControl_upd fun _ => ⟨rfl, rfl, rfl, rfl⟩) fun _ => Rel.bind hF (keepsControl_push _ _) fun _ => purged
  · exact Rel.bind hF (read _ _) fun _ => Rel.bind hF (read _ _) fun _ =>
      Rel.bind hF (keepsControl_upd fun _ => ⟨rfl, rfl, rfl, rfl⟩) fun _ => Rel.bind hF (Rel.peek hF _) fun _ =>
      Rel.bind hF (keepsControl_push _ _) fun _ => Rel.bind hF (keepsControl_upd fun _ => ⟨rfl, rfl, rfl, rfl⟩) fun _ =>
      Rel.bind hF (keepsControl_push _ _) fun _ => purged

/-- An exception sequence keeps what its steps keep. -/
theorem keepsControl_asEntry {m : M Unit} {s u : State} (h : RelAt KeepsControl (m u) s) : RelAt KeepsControl (asEntry m u) s := by
  unfold asEntry
  cases e : m u with
  | ok x =>
    have hx : KeepsControl s x.2 := h.ok x.1 x.2 e
    exact RelAt.of_ok hx
  | error y =>
    rw [e] at h
    cases y with
    | cut p d t =>
      exact ⟨fun _ _ q => (by cases q), fun _ _ q => (by cases q), fun _ _ _ q => (by cases q; exact h.cut p d t rfl)⟩
    | trap x t => exact h
    | fault f => exact h
    | refuse f => exact h

theorem keepsControl_entry {m : M Unit} (h : Rel KeepsControl m) : Rel KeepsControl (asEntry m) :=
  fun s => keepsControl_asEntry (h s)

/-- A change of the PSR that enters Supervisor mode. -/
theorem keepsControl_enter {f : Psr → Psr} (h : ∀ p, (f p).u = false) : Rel KeepsControl (updPsr f) :=
  Rel.upd fun s => .of_supervisor rfl rfl (h s.psr) (Spends.of_eq rfl)

theorem keepsControl_nmi (ret : Word) : Rel KeepsControl (nmiSequence ret) := by
  have hF := keepsControl_frameable
  refine keepsControl_entry ?_
  exact Rel.bind hF (Rel.readPsr hF) (fun _ => Rel.bind hF (keepsControl_enter fun _ => rfl) fun _ =>
    Rel.bind hF keepsControl_storable.gap fun _ => Rel.bind hF (keepsControl_upd fun _ => ⟨rfl, rfl, rfl, rfl⟩) fun _ =>
    keepsControl_service _ _ _)

theorem keepsControl_maskable (ret : Word) : Rel KeepsControl (maskableSequence ret) := by
  have hF := keepsControl_frameable
  refine keepsControl_entry ?_
  exact Rel.bind hF (Rel.readPsr hF) (fun _ => Rel.bind hF (keepsControl_enter fun _ => rfl) fun _ =>
    Rel.bind hF keepsControl_storable.gap fun _ => Rel.bind hF (Rel.peek hF _) fun _ => Rel.bind hF (Rel.peek hF _) fun _ =>
    Rel.bind hF (keepsControl_upd fun _ => ⟨rfl, rfl, rfl, rfl⟩) fun _ => keepsControl_service _ _ _)

/-- An interrupt enters Supervisor mode (R630). -/
theorem keepsControl_interrupt (ret : Word) : Rel KeepsControl (interruptSequence ret) :=
  Rel.bind keepsControl_frameable (Rel.peek keepsControl_frameable _) fun _ =>
    Rel.ite (fun _ => keepsControl_nmi ret) fun _ => keepsControl_maskable ret

theorem keepsControl_mild : Mild KeepsControl where
  toStorable := keepsControl_storable
  reg _ _ _ := .of_same rfl rfl ⟨rfl, rfl, rfl⟩ rfl
  stack s v := .of_same (State.setSp_cfg s v) (State.setSp_intbase s v) (by rw [State.setSp_psr]; exact ⟨rfl, rfl, rfl⟩)
    (State.setSp_within s v)
  flags s f h := .of_same rfl rfl (h s.psr) rfl
  part _ _ _ _ _ _ _ := .of_same rfl rfl ⟨rfl, rfl, rfl⟩ rfl
  purged _ := .of_same rfl rfl ⟨rfl, rfl, rfl⟩ rfl
  interrupt := keepsControl_interrupt

/-- A trap of an instruction that started in `s` enters Supervisor mode (R620). -/
theorem keepsControl_trap (x : Trap) {s u : State} (h : KeepsControl s u) : RelAt KeepsControl (trapSequence x s u) s := by
  have hF := keepsControl_frameable
  have enter : Rel KeepsControl (onlyIf (x == .und) clearPending >>= fun _ => readPsr >>= fun copy =>
      updPsr Psr.afterTrap >>= fun _ => service x.vector copy s.pc) :=
    Rel.bind hF (Rel.onlyIf hF _ fun _ => Rel.upd fun _ => .of_same rfl rfl ⟨rfl, rfl, rfl⟩ rfl) fun _ =>
      Rel.bind hF (Rel.readPsr hF) fun _ => Rel.bind hF (keepsControl_enter fun _ => rfl) fun _ => keepsControl_service _ _ _
  have start : KeepsControl s { u with sp0 := s.sp0, sp1 := s.sp1, psr := s.psr, psrTouched := true } :=
    ⟨h.1, h.2.1, fun hu => ⟨hu, rfl, rfl⟩, h.2.2.2⟩
  refine keepsControl_asEntry ?_
  rw [run_upd_bind]
  exact RelAt.after hF start (enter _)

theorem keepsControl_complete {m : M Next} (hm : Rel KeepsControl m) (i : Instr) : Rel KeepsControl (complete i m) := by
  intro s
  have h := hm s
  cases e : m s with
  | ok x =>
    obtain ⟨n, u⟩ := x
    have hu := h.ok n u e
    cases n with
    | seq => rw [complete_seq e]; exact RelAt.of_ok hu
    | jump a => rw [complete_jump e]; exact RelAt.of_ok hu
    | stay => rw [complete_stay e]; exact RelAt.of_ok hu
  | error y =>
    rw [e] at h
    cases y with
    | trap x u => rw [complete_trap e]; exact keepsControl_trap x (h.trap x u rfl)
    | cut p d u => unfold complete; rw [e]; exact h.error
    | fault f => unfold complete; rw [e]; exact RelAt.of_fault f
    | refuse f => unfold complete; rw [e]; exact RelAt.of_refuse f

/-- A whole computation that no RSTI low is laid down inside is not cut short: its next state is the one it leaves. -/
theorem RelAt.settled_unreset {R : State → State → Prop} {m : M α} {s t : State} (h : RelAt R (m s) s)
    (hs : ∀ l ∈ s.within, Event.rstiLow ∉ l) (e : settled m s = .next t) : ∃ u, R s u ∧ t = u.ended := by
  unfold settled outcomeOf at e
  cases hm : m s with
  | ok x =>
    rw [hm] at e h
    cases e
    exact ⟨x.2, h.ok x.1 x.2 rfl, rfl⟩
  | error y =>
    rw [hm] at e h
    cases y with
    | trap x u => cases e; exact ⟨u, h.trap x u rfl, rfl⟩
    | cut p d u =>
      obtain ⟨-, l, hl, hr⟩ := h.cut p d u rfl
      exact absurd hr (hs l hl)
    | fault f => cases e
    | refuse f => cases e

/-- Settles O10: a privileged form traps at once, every other instruction keeps the control state. -/
theorem userModeCannotChangeControl : Obligations.UserModeCannotChangeControl := by
  intro i s t hu hs e
  suffices h : ∃ u, KeepsControl s u ∧ t = u.ended by
    obtain ⟨u, ⟨hc, hi, hp, -⟩, rfl⟩ := h
    exact ⟨hc, hi, fun h => (hp h).2⟩
  by_cases h : PrivilegedForm i
  · rw [privilegedInstructionsTrap.2 i s hu (by cases i <;> exact h)] at e
    exact RelAt.settled_unreset (keepsControl_trap .ill (keepsControl_frameable.refl s)) hs e
  · obtain ⟨m, he, hm⟩ := exec_mild i h
    rw [he] at e
    exact RelAt.settled_unreset (keepsControl_complete (hm _ keepsControl_mild) i s) hs e

end Sys2Proof.Machine
end

section
/-! PROOFS. What operands leave of the CPU, and operands as the statements describe them: addresses, sources, destinations. -/

namespace Sys2Proof.Machine

open Sys2Proof

variable {α β : Type} {R : State → State → Prop}

/-! ### The CPU's registers beside the stack pointers -/

/-- The registers an operand cannot change, whatever the other agents do meanwhile: PC, PSR, CFG, the address registers but
the stack pointers; nor does the platform change. -/
structure SameCpu (s t : State) : Prop where
  pc : t.pc = s.pc
  psr : t.psr = s.psr
  cfg : t.cfg = s.cfg
  fp : t.fp = s.fp
  sb : t.sb = s.sb
  intbase : t.intbase = s.intbase
  mod : t.mod = s.mod
  plat : t.plat = s.plat
  spends : Spends s t

theorem SameCpu.trans {s t u : State} (h : SameCpu s t) (k : SameCpu t u) : SameCpu s u :=
  ⟨k.pc.trans h.pc, k.psr.trans h.psr, k.cfg.trans h.cfg, k.fp.trans h.fp, k.sb.trans h.sb, k.intbase.trans h.intbase,
    k.mod.trans h.mod, k.plat.trans h.plat, spends_frameable.trans h.spends k.spends⟩

/-- As `SameCpu`, and the general registers stay too. -/
structure SameRegs (s t : State) : Prop extends SameCpu s t where
  regs : t.regs = s.regs

theorem SameRegs.trans {s t u : State} (h : SameRegs s t) (k : SameRegs t u) : SameRegs s u :=
  ⟨h.toSameCpu.trans k.toSameCpu, k.regs.trans h.regs⟩

/-- An update of other parts of the state. -/
theorem SameRegs.of_eq {s t : State}
    (h : (t.pc, t.psr, t.cfg, t.fp, t.sb, t.intbase, t.mod, t.plat, t.within, t.regs) =
      (s.pc, s.psr, s.cfg, s.fp, s.sb, s.intbase, s.mod, s.plat, s.within, s.regs)) : SameRegs s t := by
  simp only [Prod.mk.injEq] at h
  obtain ⟨h1, h2, h3, h4, h5, h6, h7, h8, h9, h10⟩ := h
  exact ⟨⟨h1, h2, h3, h4, h5, h6, h7, h8, Spends.of_eq h9⟩, h10⟩

theorem sameRegs_frameable : Frameable SameRegs where
  refl _ := .of_eq rfl
  trans := SameRegs.trans
  free _ _ := .of_eq rfl
  spends h := h.spends

theorem sameRegs_setTimer (s : State) (k : TimerId) (x : Timer) : SameRegs s (s.setTimer k x) := by
  cases k <;> exact .of_eq rfl

theorem sameRegs_chip (r : PReg) (v : Word) : Rel SameRegs (regWrite r v) :=
  Rel.regWrite_of sameRegs_frameable (fun _ _ => .of_eq rfl) sameRegs_setTimer (fun _ _ => .of_eq rfl)
    (fun _ _ _ _ => .of_eq rfl) r v

theorem sameRegs_eventful : Eventful SameRegs where
  toFrameable := sameRegs_frameable
  deposit _ _ _ _ := .of_eq rfl
  chip := sameRegs_chip
  bus s a v := by unfold State.busWrite; split <;> exact .of_eq rfl
  cycle _ _ _ := .of_eq rfl
  timer := sameRegs_setTimer
  pins _ _ := .of_eq rfl
  latch _ _ := .of_eq rfl
  mode _ _ := .of_eq rfl
  out _ _ := .of_eq rfl

theorem sameRegs_storable : Storable SameRegs where
  toFrameable := sameRegs_frameable
  gap := Rel.gap_of sameRegs_frameable (fun _ he => Rel.event sameRegs_eventful he) (fun _ =>
    ⟨⟨rfl, rfl, rfl, rfl, rfl, rfl, rfl, rfl, fun _ hl => List.mem_of_mem_tail hl⟩, rfl⟩)
  store _ _ _ _ := .of_eq rfl
  chip := sameRegs_chip

theorem sameRegs_setSp (s : State) (v : Word) : SameRegs s (s.setSp v) := .of_eq (by simp)

theorem sameCpu_frameable : Frameable SameCpu where
  refl s := (sameRegs_frameable.refl s).toSameCpu
  trans := SameCpu.trans
  free s k := (sameRegs_frameable.free s k).toSameCpu
  spends h := h.spends

/-- What keeps the CPU with its general registers keeps it without them. -/
theorem Rel.sameCpu {m : M α} (h : Rel SameRegs m) : Rel SameCpu m := fun s =>
  ⟨fun a t e => ((h s).ok a t e).toSameCpu, fun x t e => ((h s).trap x t e).toSameCpu,
    fun p d t e => ⟨((h s).cut p d t e).1.toSameCpu, ((h s).cut p d t e).2⟩⟩

theorem sameCpu_operable : Operable SameCpu where
  toFrameable := sameCpu_frameable
  gap := sameRegs_storable.gap.sameCpu
  store s as bs h := (sameRegs_storable.store s as bs h).toSameCpu
  chip r v := (sameRegs_chip r v).sameCpu
  reg _ _ _ := ⟨rfl, rfl, rfl, rfl, rfl, rfl, rfl, rfl, Spends.of_eq rfl⟩
  stack s v := (sameRegs_setSp s v).toSameCpu

/-! ### Operands leave the CPU as it is -/

section
variable {g : Gen} {n : Nat} {s t : State} {d : Dest}

theorem SameRegs.of_rd {v : BitVec (8 * n)} (h : rd g n s = .ok (v, t)) : SameRegs s t :=
  (Rel.rd sameRegs_storable.toShared sameRegs_setSp g n s).ok v t h

theorem SameRegs.of_ea {a : Word} (h : ea g s = .ok (a, t)) : SameRegs s t :=
  (Rel.ea sameRegs_storable.toShared g s).ok a t h

theorem SameRegs.of_memRead {a : Word} {v : BitVec (8 * n)} (h : memRead a n s = .ok (v, t)) : SameRegs s t :=
  (Rel.memRead sameRegs_storable.toShared a n s).ok v t h

theorem SameRegs.of_memWrite {a : Word} {v : BitVec (8 * n)} (h : memWrite a n v s = .ok ((), t)) : SameRegs s t :=
  (Rel.memWrite sameRegs_storable a n v s).ok () t h

theorem SameRegs.of_dstModify (h : dstModify g s = .ok (d, t)) : SameRegs s t :=
  (Rel.dstModify sameRegs_storable.toShared g s).ok d t h

theorem SameRegs.of_dstWrite (h : dstWrite g s = .ok (d, t)) : SameRegs s t :=
  (Rel.dstWrite sameRegs_storable.toShared g s).ok d t h

theorem SameRegs.of_getDest {v : BitVec (8 * n)} (h : getDest d n s = .ok (v, t)) : SameRegs s t :=
  (Rel.getDest sameRegs_storable.toShared d n s).ok v t h

theorem SameCpu.of_putDest {v : BitVec (8 * n)} (h : putDest d n v s = .ok ((), t)) : SameCpu s t :=
  (Rel.putDest sameCpu_operable d n v s).ok () t h

end

/-! ### Effective addresses -/

theorem run_modeAddr_memRel {s : State} (hs : s.calm) (a : Area) (d1 d2 : Disp) (h : s.readable (s.area a + d1.value) 4) :
    modeAddr (.memRel a d1 d2) s = .ok (s.valueAt (s.area a + d1.value) 4 + d2.value, s) := by
  exact run_bind_of_ok (f := fun p => pure (p + d2.value)) (run_memRead_of_readable hs (by decide) h)

theorem run_modeAddr_ext {s : State} (hs : s.calm) (d1 d2 : Disp) (h : s.readable (s.mod.setWidth 32 + 4) 4)
    (h' : s.readable (s.valueAt (s.mod.setWidth 32 + 4) 4 + 4 * d1.value) 4) :
    modeAddr (.ext d1 d2) s = .ok (s.valueAt (s.valueAt (s.mod.setWidth 32 + 4) 4 + 4 * d1.value) 4 + d2.value, s) := by
  have hlink := run_memRead_of_readable hs (by decide) h
  have hitem := run_memRead_of_readable hs (by decide) h'
  exact (run_bind_of_ok (f := fun link => memRead (link + 4 * d1.value) 4 >>= fun p => pure (p + d2.value)) hlink).trans
    (run_bind_of_ok hitem)

/-- A scaled index adds the scaled register to the base's address (R265). -/
theorem run_scaledAddr {k : Scale} {b : Mode} {x : Reg} {s t : State} {y : Word} (h : modeAddr b s = .ok (y, t)) :
    scaledAddr k b x s = .ok (y + BitVec.ofNat 32 k.factor * t.regs.get x, t) := by
  unfold scaledAddr
  rw [run_bind_of_ok h]
  rfl

/-- Settles O15, one addressing mode at a time. -/
theorem effectiveAddresses : Obligations.EffectiveAddresses := by
  intro s hs
  refine ⟨fun _ _ => rfl, fun d1 d2 h => run_modeAddr_memRel hs .fp d1 d2 h, fun d1 d2 h => run_modeAddr_memRel hs .sp d1 d2 h,
    fun d1 d2 h => run_modeAddr_memRel hs .sb d1 d2 h, fun _ => rfl, fun d1 d2 h h' => run_modeAddr_ext hs d1 d2 h h', rfl,
    fun _ => ⟨rfl, rfl, rfl⟩, fun _ => rfl, fun k b x y t h => ?_, fun _ _ _ => rfl, fun _ => rfl, fun _ => rfl⟩
  have hb : modeAddr b s = .ok (y, t) := by
    cases b with
    | reg r => cases h
    | _ => exact h
  rw [← (SameRegs.of_ea h).regs]
  exact run_scaledAddr hb

/-! ### Sources -/

/-- A source that is neither Immediate nor Register nor Top of Stack is read at its effective address (R251). -/
theorem rd_of_ea {g : Gen} {n : Nat} {s t : State} {a : Word} (hg : g ≠ .mode .tos) (h : ea g s = .ok (a, t)) :
    rd g n s = memRead a n t := by
  have hm : (ea g >>= fun a => memRead a n) s = memRead a n t := run_bind_of_ok h
  cases g with
  | imm v => cases h
  | scaled k b x => exact hm
  | mode m =>
    cases m with
    | reg r => cases h
    | tos => exact absurd rfl hg
    | _ => exact hm

/-- A pop of external memory (R39). -/
theorem run_pop_of_readable {s : State} {n : Nat} (hs : s.calm) (hn : 0 < n) (h : s.readable s.sp n) :
    pop n s = .ok (s.valueAt s.sp n, s.setSp (s.sp + BitVec.ofNat 32 n)) := by
  unfold pop
  rw [run_bind_of_ok (run_getSp s), run_bind_of_ok (run_memRead_of_readable hs hn h)]
  rfl

/-- A push on external memory (R39). -/
theorem run_push_of_writable {s : State} {n : Nat} (v : BitVec (8 * n)) (hs : s.calm) (hn : 0 < n)
    (h : s.writable (s.sp - BitVec.ofNat 32 n) n) :
    push n v s = .ok ((), (s.poke (s.sp - BitVec.ofNat 32 n) n v).setSp (s.sp - BitVec.ofNat 32 n)) := by
  unfold push
  rw [run_bind_of_ok (run_getSp s), run_bind_of_ok (run_memWrite_of_writable v hs hn h)]
  rfl

/-- What may be read depends on the platform alone. -/
theorem State.readable.of_plat {s t : State} {a : Word} {n : Nat} (h : s.readable a n) (ht : t.plat = s.plat) : t.readable a n := by
  intro x hx
  rw [ht]
  exact h x hx

theorem State.writable.of_plat {s t : State} {a : Word} {n : Nat} (h : s.writable a n) (ht : t.plat = s.plat) : t.writable a n := by
  intro x hx
  rw [ht]
  exact h x hx

theorem Spends.calm {s t : State} (h : Spends s t) (hs : s.calm) : t.calm :=
  List.eq_nil_iff_forall_not_mem.2 fun l hl => by
    have := h l hl
    rw [show s.within = [] from hs] at this
    cases this

/-- Settles O16, one form of operand at a time. -/
theorem sourceOperandForms : Obligations.SourceOperandForms := by
  intro s n hs hn
  refine ⟨fun _ => rfl, fun _ => rfl, fun h => run_pop_of_readable hs hn h, fun g a t hg ha h => ?_⟩
  have ht := SameRegs.of_ea ha
  rw [rd_of_ea hg ha]
  exact run_memRead_of_readable (ht.spends.calm hs) hn (h.of_plat ht.plat)

/-! ### Destinations -/

theorem dstWrite_of_ea {g : Gen} {s t : State} {a : Word} (hg : g ≠ .mode .tos) (h : ea g s = .ok (a, t)) :
    dstWrite g s = .ok (.mem a, t) := by
  have hm : (ea g >>= fun a => pure (Dest.mem a)) s = .ok (.mem a, t) := run_bind_of_ok h
  cases g with
  | imm v => cases h
  | scaled k b x => exact hm
  | mode m =>
    cases m with
    | reg r => cases h
    | tos => exact absurd rfl hg
    | _ => exact hm

theorem dstModify_of_ea {g : Gen} {s t : State} {a : Word} (h : ea g s = .ok (a, t)) : dstModify g s = .ok (.mem a, t) := by
  have hm : (ea g >>= fun a => pure (Dest.mem a)) s = .ok (.mem a, t) := run_bind_of_ok h
  cases g with
  | imm v => cases h
  | scaled k b x => exact hm
  | mode m =>
    cases m with
    | reg r => cases h
    | _ => exact hm

/-- The low bits replaced are the low bits merged (R32, R255). -/
theorem LowReplaced.eq_mergeLow {m : Nat} {old x : Word} {v : BitVec m} (h : LowReplaced old v x) : x = mergeLow old v := by
  apply BitVec.eq_of_getLsbD_eq
  intro k hk
  rw [h k hk, mergeLow_getLsbD old v hk]

/-- Settles O17, one form of destination at a time. -/
theorem destinationOperandForms : Obligations.DestinationOperandForms := by
  intro s hs
  refine ⟨fun _ => ⟨rfl, rfl⟩, ⟨rfl, rfl⟩, fun g a t hg ha => ⟨dstWrite_of_ea hg ha, dstModify_of_ea ha⟩, fun _ => ⟨rfl, rfl⟩,
    fun r => ?_, fun r n v x hx => ?_, fun r v => ?_, fun a n v hn h => run_memWrite_of_writable v hs hn h,
    fun n v hn h => run_push_of_writable v hs hn h⟩
  · cases r <;> rfl
  · rw [hx.eq_mergeLow]
    rfl
  · have hlow : v.extractLsb' 0 32 = v.setWidth 32 := by
      apply BitVec.eq_of_getLsbD_eq
      intro k hk
      simp [hk]
    rw [hlow]
    rfl

end Sys2Proof.Machine
end

section
/-! PROOFS. The results and flags of the instructions of two general operands: moves, integer arithmetic, logic, shifts. -/

namespace Sys2Proof.Machine

open Sys2Proof

/-! ### The shapes complete -/

/-- An instruction in sequence with a state that differs from `u` in the PSR alone. -/
theorem finish_seq_after {i : Instr} {m : M Next} {s u : State} (h : m s = .ok (.seq, u)) : finish i m s = .next (s.after i u) :=
  finish_seq h

/-- An instruction of classes read and rmw completes if the combination of its operands always answers. -/
theorem modifyCompletes_of {i : Instr} {src dst : Gen} {m n : Nat}
    {f : BitVec (8 * m) → BitVec (8 * n) → M (Result (8 * n))}
    {res : BitVec (8 * m) → BitVec (8 * n) → Psr → BitVec (8 * n)} {flags : BitVec (8 * m) → BitVec (8 * n) → Psr → Psr}
    (hexec : ∀ s, exec i s = finish i (modifyOp src dst m n f) s)
    (hf : ∀ a b t, ∃ r, f a b t = .ok (r, t) ∧ r.val = res a b t.psr ∧ r.flags t.psr = flags a b t.psr) :
    ModifyCompletes i src dst m n res flags := by
  intro s a s1 d s2 b s3 s4 ha hd hb hp
  have h3 : s3.psr = s.psr := ((SameRegs.of_rd ha).trans ((SameRegs.of_dstModify hd).trans (SameRegs.of_getDest hb))).psr
  have h4 : s4.psr = s3.psr := (SameCpu.of_putDest hp).psr
  obtain ⟨r, hr, hval, hflags⟩ := hf a b s3
  rw [h3] at hval hflags
  rw [hexec, finish_seq (run_modifyOp ha hd hb hr (hval ▸ hp)), h4, h3, hflags]
  rfl

/-- An instruction of classes read and rmw whose result is a function of its operands. -/
theorem modifyCompletes_of_pure {i : Instr} {src dst : Gen} {m n : Nat} {f : BitVec (8 * m) → BitVec (8 * n) → Result (8 * n)}
    {res : BitVec (8 * m) → BitVec (8 * n) → Psr → BitVec (8 * n)} {flags : BitVec (8 * m) → BitVec (8 * n) → Psr → Psr}
    (hexec : ∀ s, exec i s = finish i (modifyOp src dst m n (fun a b => pure (f a b))) s)
    (hval : ∀ a b p, (f a b).val = res a b p) (hflags : ∀ a b p, (f a b).flags p = flags a b p) :
    ModifyCompletes i src dst m n res flags :=
  modifyCompletes_of hexec fun a b t => ⟨f a b, rfl, hval a b t.psr, hflags a b t.psr⟩

/-- An instruction of classes read and rmw whose result depends on the carry too. -/
theorem modifyCompletes_of_carry {i : Instr} {src dst : Gen} {n : Nat}
    {f : BitVec (8 * n) → BitVec (8 * n) → Bool → Result (8 * n)}
    {res : BitVec (8 * n) → BitVec (8 * n) → Psr → BitVec (8 * n)} {flags : BitVec (8 * n) → BitVec (8 * n) → Psr → Psr}
    (hexec : ∀ s, exec i s = finish i (modifyOp src dst n n (fun a b => carry >>= fun c => pure (f a b c))) s)
    (hval : ∀ a b p, (f a b p.c).val = res a b p) (hflags : ∀ a b p, (f a b p.c).flags p = flags a b p) :
    ModifyCompletes i src dst n n res flags :=
  modifyCompletes_of hexec fun a b t => ⟨f a b t.psr.c, rfl, hval a b t.psr, hflags a b t.psr⟩

/-- An instruction of classes read and write whose result is a function of its operand. -/
theorem moveCompletes_of {i : Instr} {src dst : Gen} {m n : Nat} {f : BitVec (8 * m) → Result (8 * n)}
    {res : BitVec (8 * m) → BitVec (8 * n)} {flags : BitVec (8 * m) → Psr → Psr}
    (hexec : ∀ s, exec i s = finish i (moveOp src dst m n (fun a => pure (f a))) s)
    (hval : ∀ a, (f a).val = res a) (hflags : ∀ a p, (f a).flags p = flags a p) : MoveCompletes i src dst m n res flags := by
  intro s a s1 d s2 s3 ha hd hp
  have h2 : s2.psr = s.psr := ((SameRegs.of_rd ha).trans (SameRegs.of_dstWrite hd)).psr
  have h3 : s3.psr = s2.psr := (SameCpu.of_putDest hp).psr
  rw [hexec, finish_seq (run_moveOp ha hd rfl (hval a ▸ hp)), h3, h2, hflags]
  rfl

/-- A dividing instruction completes for a divisor that is not zero. -/
theorem divideCompletes_of {i : Instr} {src dst : Gen} {n : Nat} {f res : BitVec (8 * n) → BitVec (8 * n) → BitVec (8 * n)}
    (hexec : ∀ s, exec i s = finish i (modifyOp src dst n n (fun a b => divisor a >>= fun _ => pure (plain (f a b)))) s)
    (hval : ∀ a b, f a b = res a b) : DivideCompletes i src dst n res := by
  intro s a s1 d s2 b s3 s4 ha hne hd hb hp
  have hf : (divisor a >>= fun _ => pure (plain (f a b)) : M _) s3 = .ok (plain (res a b), s3) := by
    unfold divisor
    rw [if_neg hne, hval]
    rfl
  rw [hexec, finish_seq (run_modifyOp ha hd hb hf hp)]
  rfl

/-! ### Signed overflow -/

theorem fitsSigned_iff {w : Nat} {x : Int} : fitsSigned w x = true ↔ -(2 : Int) ^ (w - 1) ≤ x ∧ x < (2 : Int) ^ (w - 1) := by
  simp [fitsSigned]

/-- The sign of a truncated integer, where the integer misses the signed range by less than one turn. -/
theorem msb_ofInt {w : Nat} (hw : 0 < w) {x : Int} (hlo : -(2 : Int) ^ w ≤ x) (hhi : x < (2 : Int) ^ w) :
    (BitVec.ofInt w x).msb = if fitsSigned w x then decide (x < 0) else decide (0 ≤ x) := by
  obtain ⟨k, rfl⟩ : ∃ k, w = k + 1 := ⟨w - 1, by omega⟩
  have hpow : (2 : Int) ^ (k + 1) = 2 * 2 ^ k := by rw [pow_succ]; ring
  have hpos : (0 : Int) < 2 ^ k := by positivity
  rw [BitVec.msb_eq_toInt, BitVec.toInt_ofInt]
  have hb : (x.bmod (2 ^ (k + 1)) : Int) = if x < -2 ^ k then x + 2 ^ (k + 1) else if x < 2 ^ k then x else x - 2 ^ (k + 1) := by
    rw [Int.bmod_def]
    push_cast
    have hhalf : ((2 : Int) ^ (k + 1) + 1) / 2 = 2 ^ k := by rw [hpow]; omega
    rw [hhalf]
    by_cases h0 : x < 0
    · have hm : x % 2 ^ (k + 1) = x + 2 ^ (k + 1) := by
        rw [← Int.add_emod_right]
        by_cases he : x + 2 ^ (k + 1) = 2 ^ (k + 1)
        · omega
        · exact Int.emod_eq_of_lt (by omega) (by omega)
      rw [hm]
      split_ifs <;> omega
    · rw [Int.emod_eq_of_lt (by omega) hhi]
      split_ifs <;> omega
  rw [hb]
  by_cases hf : fitsSigned (k + 1) x = true
  · have h := fitsSigned_iff.1 hf
    simp only [Nat.add_sub_cancel] at h
    rw [if_pos hf, if_neg (by omega), if_pos h.2]
  · have h := fun e => hf (fitsSigned_iff.2 e)
    simp only [Nat.add_sub_cancel] at h
    rw [if_neg hf]
    split_ifs with h1 h2
    · simp; omega
    · exact absurd ⟨by omega, h2⟩ h
    · simp; omega

/-- A carry or borrow as an integer. -/
theorem carryNat_eq (c : Bool) : carryNat c = c.toNat := by cases c <;> rfl

/-- F of an addition tells whether the exact sum fits (R321, R323). -/
theorem addOverflow {w : Nat} (hw : 0 < w) (a b : BitVec w) (c : Bool) :
    (a.msb == b.msb && (BitVec.ofInt w (a.toInt + b.toInt + c.toNat)).msb != a.msb) =
      !fitsSigned w (a.toInt + b.toInt + c.toNat) := by
  have ha := a.le_toInt
  have ha' := @BitVec.toInt_lt w a
  have hb := b.le_toInt
  have hb' := @BitVec.toInt_lt w b
  have hpow : (2 : Int) ^ w = 2 * 2 ^ (w - 1) := by rw [← pow_succ', Nat.sub_add_cancel hw]
  have hc : (c.toNat : Int) = 0 ∨ (c.toNat : Int) = 1 := by cases c <;> simp
  rw [msb_ofInt hw (by omega) (by omega), BitVec.msb_eq_toInt, BitVec.msb_eq_toInt]
  by_cases hf : fitsSigned w (a.toInt + b.toInt + c.toNat) = true
  · have h := fitsSigned_iff.1 hf
    rw [if_pos hf, hf]
    by_cases h1 : a.toInt < 0 <;> by_cases h2 : b.toInt < 0 <;> simp [h1, h2] <;> omega
  · have h := mt fitsSigned_iff.2 hf
    rw [if_neg hf, Bool.eq_false_of_not_eq_true hf]
    by_cases h1 : a.toInt < 0 <;> by_cases h2 : b.toInt < 0 <;> simp [h1, h2] <;> omega

/-- F of a subtraction tells whether the exact difference fits (R324, R325). -/
theorem subOverflow {w : Nat} (hw : 0 < w) (a b : BitVec w) (c : Bool) :
    (a.msb != b.msb && (BitVec.ofInt w (b.toInt - a.toInt - c.toNat)).msb != b.msb) =
      !fitsSigned w (b.toInt - a.toInt - c.toNat) := by
  have ha := a.le_toInt
  have ha' := @BitVec.toInt_lt w a
  have hb := b.le_toInt
  have hb' := @BitVec.toInt_lt w b
  have hpow : (2 : Int) ^ w = 2 * 2 ^ (w - 1) := by rw [← pow_succ', Nat.sub_add_cancel hw]
  have hc : (c.toNat : Int) = 0 ∨ (c.toNat : Int) = 1 := by cases c <;> simp
  rw [msb_ofInt hw (by omega) (by omega), BitVec.msb_eq_toInt, BitVec.msb_eq_toInt]
  by_cases hf : fitsSigned w (b.toInt - a.toInt - c.toNat) = true
  · have h := fitsSigned_iff.1 hf
    rw [if_pos hf, hf]
    by_cases h1 : a.toInt < 0 <;> by_cases h2 : b.toInt < 0 <;> simp [h1, h2] <;> omega
  · have h := mt fitsSigned_iff.2 hf
    rw [if_neg hf, Bool.eq_false_of_not_eq_true hf]
    by_cases h1 : a.toInt < 0 <;> by_cases h2 : b.toInt < 0 <;> simp [h1, h2] <;> omega

/-! ### Add and subtract -/

theorem size_bits_pos (i : Size) : 0 < 8 * i.bytes := by cases i <;> decide

theorem addResult_val {w : Nat} (a b : BitVec w) (c : Bool) :
    (addResult a b c).val = BitVec.ofInt w (a.toInt + b.toInt + c.toNat) := by
  have h : (addResult a b c).val = BitVec.ofNat w (a.toNat + b.toNat + c.toNat) := by rw [← carryNat_eq]; rfl
  rw [h, BitVec.ofInt_add, BitVec.ofInt_add, BitVec.ofInt_toInt, BitVec.ofInt_toInt, BitVec.ofInt_natCast]
  simp [← BitVec.ofNat_add_ofNat]

theorem addResult_flags {w : Nat} (hw : 0 < w) (a b : BitVec w) (c : Bool) (p : Psr) : (addResult a b c).flags p = { p with
    c := decide (2 ^ w ≤ a.toNat + b.toNat + c.toNat)
    f := !fitsSigned w (a.toInt + b.toInt + c.toNat) } := by
  rw [← addOverflow hw, ← addResult_val, ← carryNat_eq]
  rfl

theorem subResult_val {w : Nat} (a b : BitVec w) (c : Bool) :
    (subResult a b c).val = BitVec.ofInt w (b.toInt - a.toInt - c.toNat) := by
  have h : (subResult a b c).val = b - a - BitVec.ofNat w c.toNat := by rw [← carryNat_eq]; rfl
  rw [h, Int.sub_eq_add_neg, Int.sub_eq_add_neg, BitVec.ofInt_add, BitVec.ofInt_add, BitVec.ofInt_neg, BitVec.ofInt_neg,
    BitVec.ofInt_toInt, BitVec.ofInt_toInt, BitVec.ofInt_natCast]
  simp [BitVec.sub_eq_add_neg]

theorem subResult_flags {w : Nat} (hw : 0 < w) (a b : BitVec w) (c : Bool) (p : Psr) : (subResult a b c).flags p = { p with
    c := decide (b.toNat < a.toNat + c.toNat)
    f := !fitsSigned w (b.toInt - a.toInt - c.toNat) } := by
  rw [← subOverflow hw, ← subResult_val, ← carryNat_eq]
  rfl

/-- The truncated difference does not depend on whether the operands are taken signed or not. -/
theorem ofInt_sub_toNat {w : Nat} (a b : BitVec w) (c : Nat) :
    BitVec.ofInt w ((b.toNat : Int) - a.toNat - c) = BitVec.ofInt w (b.toInt - a.toInt - c) := by
  simp only [Int.sub_eq_add_neg, BitVec.ofInt_add, BitVec.ofInt_neg, BitVec.ofInt_toInt, BitVec.ofInt_natCast,
    BitVec.ofNat_toNat, BitVec.setWidth_eq]

/-- A signed 4-bit constant keeps its value at the operand's length (R214). -/
theorem quick_toInt (q : BitVec 4) (i : Size) : (quick q i.bytes).toInt = q.toInt :=
  BitVec.toInt_signExtend_of_le (by cases i <;> decide)

/-- Settles O18: the five instructions share `addResult` and `subResult`, with a carry of 0 where none is read. -/
theorem addAndSubtract : Obligations.AddAndSubtract := by
  refine ⟨fun i src dst => ?add, fun i src dst => ?addc, fun i src dst => ?sub, fun i src dst => ?subc, ?addq⟩
  case add =>
    refine modifyCompletes_of_pure (fun _ => rfl) (fun a b p => rfl) (fun a b p => ?_)
    rw [addResult_flags (size_bits_pos i)]
    simp
  case addc =>
    refine modifyCompletes_of_carry (fun _ => rfl) (fun a b p => ?_) (fun a b p => addResult_flags (size_bits_pos i) a b p.c p)
    rw [← carryNat_eq]
    rfl
  case sub =>
    refine modifyCompletes_of_pure (fun _ => rfl) (fun a b p => ?_) (fun a b p => ?_)
    · rw [subResult_val, Bool.toNat_false, ← ofInt_sub_toNat]
      simp
    · rw [subResult_flags (size_bits_pos i)]
      simp
  case subc =>
    refine modifyCompletes_of_carry (fun _ => rfl) (fun a b p => ?_) (fun a b p => subResult_flags (size_bits_pos i) a b p.c p)
    rw [subResult_val, ← ofInt_sub_toNat]
  case addq =>
    intro i q dst s d s1 b s2 s3 hd hb a hp
    have h2 : s2.psr = s.psr := ((SameRegs.of_dstModify hd).trans (SameRegs.of_getDest hb)).psr
    have h3 : s3.psr = s2.psr := (SameCpu.of_putDest hp).psr
    have hput : putDest d i.bytes (addResult (quick q i.bytes) b false).val s2 = .ok ((), s3) := hp
    have hrun : (dstModify dst >>= fun d => getDest d i.bytes >>= fun b =>
        putDest d i.bytes (addResult (quick q i.bytes) b false).val >>= fun _ =>
        updPsr (addResult (quick q i.bytes) b false).flags >>= fun _ => pure Next.seq : M Next) s =
        .ok (.seq, { s3 with psr := (addResult (quick q i.bytes) b false).flags s3.psr, psrTouched := true }) := by
      rw [run_bind_of_ok hd, run_bind_of_ok hb, run_bind_of_ok hput]
      rfl
    refine (finish_seq hrun).trans ?_
    rw [h3, h2, addResult_flags (size_bits_pos i), quick_toInt]
    simp only [Bool.toNat_false, Nat.add_zero, Nat.cast_zero, Int.add_zero]
    rfl

/-! ### Moves and unary results -/

theorem toInt_twoPow_top {w : Nat} (hw : 0 < w) : (BitVec.twoPow w (w - 1)).toInt = -2 ^ (w - 1) := by
  rw [BitVec.toInt_twoPow, if_neg (by omega), if_pos (by omega)]
  push_cast
  rfl

/-- F of NEG and ABS: the most negative number alone has no negative (R326, R327). -/
theorem isTop_eq {w : Nat} (hw : 0 < w) (a : BitVec w) : (a == BitVec.twoPow w (w - 1)) = decide (a.toInt = -2 ^ (w - 1)) := by
  rw [← toInt_twoPow_top hw, Bool.eq_iff_iff, beq_iff_eq, decide_eq_true_iff]
  exact ⟨fun h => h ▸ rfl, BitVec.eq_of_toInt_eq⟩

theorem negOverflow {w : Nat} (hw : 0 < w) (a : BitVec w) : (a == BitVec.twoPow w (w - 1)) = !fitsSigned w (-a.toInt) := by
  have ha := a.le_toInt
  have ha' := @BitVec.toInt_lt w a
  rw [isTop_eq hw, fitsSigned, Bool.eq_iff_iff]
  simp
  omega

theorem absOverflow {w : Nat} (hw : 0 < w) (a : BitVec w) :
    (a == BitVec.twoPow w (w - 1)) = !fitsSigned w a.toInt.natAbs := by
  have ha := a.le_toInt
  have ha' := @BitVec.toInt_lt w a
  rw [isTop_eq hw, fitsSigned, Bool.eq_iff_iff]
  rcases abs_cases a.toInt with h | h <;> simp <;> omega

theorem absResult_val {w : Nat} (a : BitVec w) : (absResult a).val = BitVec.ofNat w a.toInt.natAbs := by
  have h : (absResult a).val = if a.msb then 0 - a else a := rfl
  rw [h, ← BitVec.ofInt_natCast, Int.natCast_natAbs, BitVec.msb_eq_toInt]
  by_cases hneg : a.toInt < 0
  · rw [if_pos (by simpa using hneg), abs_of_neg hneg, BitVec.ofInt_neg, BitVec.ofInt_toInt]
    simp
  · rw [if_neg (by simpa using hneg), abs_of_nonneg (by omega), BitVec.ofInt_toInt]

theorem not_eq_ofInt {w : Nat} (a : BitVec w) : ~~~a = BitVec.ofInt w (-1 - a.toInt) := by
  rw [show -1 - a.toInt = -a.toInt + -1 by ring, BitVec.ofInt_add, BitVec.ofInt_neg, BitVec.ofInt_toInt, BitVec.not_eq_neg_add,
    BitVec.ofInt_neg, BitVec.sub_eq_add_neg]
  rfl

theorem getLsbD_putBitAt {w : Nat} (x : BitVec w) (k : Nat) (b : Bool) {j : Nat} (hj : j < w) :
    (putBitAt x k b).getLsbD j = if j = k then b else x.getLsbD j := by
  unfold putBitAt
  by_cases h : j = k
  · subst h
    cases b <;> simp [hj]
  · cases b <;> simp [hj, h]

/-- NOT changes bit 0 alone (R366). -/
theorem xor_one_eq {w : Nat} (a : BitVec w) : a ^^^ 1 = putBitAt a 0 (!a.getLsbD 0) := by
  apply BitVec.eq_of_getLsbD_eq
  intro k hk
  rw [getLsbD_putBitAt _ _ _ hk, BitVec.getLsbD_xor, show (1 : BitVec w) = 1#w from rfl, BitVec.getLsbD_one]
  by_cases h : k = 0 <;> simp [h, show 0 < w by omega]

/-- Settles O19, one instruction at a time. -/
theorem movesAndUnaryResults : Obligations.MovesAndUnaryResults := by
  refine ⟨fun i src dst => ?mov, fun src dst => ?movzbw, fun i src dst => ?movzid, fun src dst => ?movxbw, fun i src dst => ?movxid,
    fun i src dst => ?neg, fun i src dst => ?abs, fun i src dst => ?com, fun i src dst => ?not⟩
  case mov => exact moveCompletes_of (fun _ => rfl) (fun _ => rfl) (fun _ _ => rfl)
  case movzbw => exact moveCompletes_of (fun _ => rfl) (fun a => (BitVec.ofNat_toNat 16 a).symm) (fun _ _ => rfl)
  case movzid => exact moveCompletes_of (fun _ => rfl) (fun a => (BitVec.ofNat_toNat 32 a).symm) (fun _ _ => rfl)
  case movxbw => exact moveCompletes_of (fun _ => rfl) (fun _ => rfl) (fun _ _ => rfl)
  case movxid => exact moveCompletes_of (fun _ => rfl) (fun _ => rfl) (fun _ _ => rfl)
  case neg =>
    refine moveCompletes_of (fun _ => rfl) (fun a => ?_) (fun a p => ?_)
    · rw [BitVec.ofInt_neg, BitVec.ofInt_toInt]
      exact BitVec.zero_sub a
    · rw [← negOverflow (size_bits_pos i)]
      rfl
  case abs =>
    refine moveCompletes_of (fun _ => rfl) absResult_val (fun a p => ?_)
    rw [← absOverflow (size_bits_pos i)]
    rfl
  case com => exact moveCompletes_of (fun _ => rfl) not_eq_ofInt (fun _ _ => rfl)
  case not => exact moveCompletes_of (fun _ => rfl) xor_one_eq (fun _ _ => rfl)

/-- An instruction that stores a value read from the PSR alone completes. -/
theorem storeCompletes_of {i : Instr} {dst : Gen} {n : Nat} {v : State → BitVec (8 * n)} {m : M Next}
    (hexec : ∀ s, exec i s = finish i m s) (hm : ∀ s, m s = storeOp dst n (v s) s) : StoreCompletes i dst n v := by
  intro s d s1 s2 hd hp
  rw [hexec, finish_seq ((hm s).trans (run_storeOp hd hp))]
  rfl

/-- Settles O20: the four instructions store a value known before the destination is located. -/
theorem storedValues : Obligations.StoredValues := by
  refine ⟨fun i q dst => storeCompletes_of (fun _ => rfl) (fun _ => rfl), fun i c dst => ?scond, ?addr, ?cvtp⟩
  case scond =>
    refine storeCompletes_of (fun _ => rfl) (fun s => ?_)
    rw [run_peek_bind]
    have hv : ∀ b : Bool, (if b then 1 else 0 : BitVec (8 * i.bytes)) = BitVec.ofNat _ b.toNat := fun b => by cases b <;> rfl
    rw [hv]
    cases c <;> rfl
  case addr =>
    intro src dst s a s1 d s2 s3 ha hd hp
    exact finish_seq ((run_bind_of_ok ha).trans (run_storeOp hd hp))
  case cvtp =>
    intro off base dst s a s1 d s2 s3 ha hd hp
    have hval : 8 * a + s.regs.get off = BitVec.ofNat 32 (8 * a.toNat + (s.regs.get off).toNat) := by
      apply BitVec.eq_of_toNat_eq
      simp [BitVec.toNat_add, BitVec.toNat_mul]
    refine finish_seq (m := getReg off >>= fun o => ea base >>= fun a => storeOp dst 4 (8 * a + o)) ?_
    rw [run_bind_of_ok (run_getReg off s), run_bind_of_ok ha, hval]
    exact run_storeOp hd hp

/-! ### Multiply and divide -/

/-- Settles O21: truncation commutes with the product, and the quotients are those of the exact integers. -/
theorem multiplyAndDivide : Obligations.MultiplyAndDivide := by
  refine ⟨fun i src dst => ?mul, fun i src dst => ?quo, fun i src dst => ?rem, fun i src dst => ?div, fun i src dst => ?mod⟩
  case mul =>
    refine modifyCompletes_of_pure (fun _ => rfl) (fun a b p => ?_) (fun _ _ _ => rfl)
    rw [BitVec.ofInt_mul, BitVec.ofInt_toInt, BitVec.ofInt_toInt]
    rfl
  case quo => exact divideCompletes_of (fun _ => rfl) (fun _ _ => rfl)
  case rem => exact divideCompletes_of (f := remResult) (fun _ => rfl) (fun a b => by rw [remResult, Int.tmod_def])
  case div => exact divideCompletes_of (fun _ => rfl) (fun _ _ => rfl)
  case mod => exact divideCompletes_of (f := modResult) (fun _ => rfl) (fun a b => by rw [modResult, Int.fmod_def])

/-- The double-length number with a given low half and high half. -/
theorem eq_ofNat_of_halves {w : Nat} {v : BitVec w} {k lo hi : Nat} (hlo : v.toNat % 2 ^ k = lo) (hhi : v.toNat / 2 ^ k = hi) :
    v = BitVec.ofNat w (lo + hi * 2 ^ k) := by
  rw [← hlo, ← hhi, Nat.mul_comm, Nat.mod_add_div, BitVec.ofNat_toNat, BitVec.setWidth_eq]

/-- Settles O22: the double-length value MEI writes is the product, DEI's is the remainder below the quotient. -/
theorem extendedMultiplyAndDivide : Obligations.ExtendedMultiplyAndDivide := by
  refine ⟨fun i src dst s a s1 d s2 b s3 s4 ha hd hb hp => ?mei, fun i src dst s a s1 d s2 b s3 v s4 ha hne hd hb hlo hhi hp => ?dei⟩
  case mei =>
    show execMeii i src dst s = _
    unfold execMeii
    refine finish_seq ?_
    rw [run_bind_of_ok ha, run_bind_of_ok hd, run_bind_of_ok hb, run_bind_of_ok hp, run_pure]
  case dei =>
    rw [eq_ofNat_of_halves hlo hhi] at hp
    show execDeii i src dst s = _
    unfold execDeii
    refine finish_seq ?_
    have hdiv : divisor a s3 = .ok ((), s3) := by rw [divisor, if_neg hne, run_pure]
    rw [run_bind_of_ok ha, run_bind_of_ok hd, run_bind_of_ok hb, run_bind_of_ok hdiv, run_bind_of_ok hp, run_pure]

end Sys2Proof.Machine
end

section
/-! PROOFS. Packed decimal numbers, comparisons, logic and shifts. -/

namespace Sys2Proof.Machine

open Sys2Proof

/-! ### Packed decimal -/

/-- Packing a number and reading it back gives the number, and fits (R336). -/
theorem bcdDigits_spec (k x : Nat) (h : x < 10 ^ k) :
    bcdDigits k x < 16 ^ k ∧ bcdValue k (bcdDigits k x) = x ∧ bcdValid k (bcdDigits k x) = true := by
  induction k generalizing x with
  | zero => simp [bcdDigits, bcdValue, bcdValid]; omega
  | succ k ih =>
    obtain ⟨hlt, hval, hok⟩ := ih (x / 10) (by rw [pow_succ] at h; omega)
    have hmod : (x % 10 + 16 * bcdDigits k (x / 10)) % 16 = x % 10 := by omega
    have hdiv : (x % 10 + 16 * bcdDigits k (x / 10)) / 16 = bcdDigits k (x / 10) := by omega
    simp only [bcdDigits, bcdValue, bcdValid, hmod, hdiv, hval, hok]
    refine ⟨by rw [pow_succ]; omega, by omega, by simp; omega⟩

/-- A packed operand of the length i holds 2 i digits. -/
theorem digits_eq (i : Size) : 8 * i.bytes / 4 = 2 * i.bytes := by omega

/-- A packed number stored in an operand is read as it was packed. -/
theorem toNat_packed (i : Size) {x : Nat} (h : x < 10 ^ (2 * i.bytes)) :
    (BitVec.ofNat (8 * i.bytes) (bcdDigits (2 * i.bytes) x)).toNat = bcdDigits (2 * i.bytes) x := by
  rw [BitVec.toNat_ofNat]
  refine Nat.mod_eq_of_lt (Nat.lt_of_lt_of_eq (bcdDigits_spec _ x h).1 ?_)
  rw [show (16 : Nat) = 2 ^ 4 from rfl, ← pow_mul]
  congr 1
  omega

/-- With valid digits a packed result is the exact one. -/
theorem packed_valid {i : Size} {a b : BitVec (8 * i.bytes)} (r : Result (8 * i.bytes)) (s : State)
    (ha : bcdValid (2 * i.bytes) a.toNat = true) (hb : bcdValid (2 * i.bytes) b.toNat = true) :
    packed a b r s = .ok (r, s) := by
  unfold packed
  rw [digits_eq, ha, hb]
  rfl

/-- With a bad digit it is some value with some carry (U6). -/
theorem packed_free {i : Size} {a b : BitVec (8 * i.bytes)} (r : Result (8 * i.bytes)) (s : State)
    (h : (bcdValid (2 * i.bytes) a.toNat && bcdValid (2 * i.bytes) b.toNat) = false) :
    ∃ v c k, packed a b r s = .ok (⟨v, fun p => { p with c := c, f := false }⟩, { s with freeCount := k }) := by
  unfold packed
  rw [digits_eq, h]
  exact ⟨_, _, _, rfl⟩

/-- ADDP and SUBP, by the result they compute from the two operands and the carry (R336, R337). -/
theorem finish_decimal {i : Instr} {z : Size} {src dst : Gen}
    {f : BitVec (8 * z.bytes) → BitVec (8 * z.bytes) → Bool → Result (8 * z.bytes)}
    {s s1 s2 s3 s4 s5 : State} {a b : BitVec (8 * z.bytes)} {d : Dest} {r : Result (8 * z.bytes)}
    (ha : rd src z.bytes s = .ok (a, s1)) (hd : dstModify dst s1 = .ok (d, s2)) (hb : getDest d z.bytes s2 = .ok (b, s3))
    (hr : packed a b (f a b s.psr.c) s3 = .ok (r, s4)) (h4 : s4.psr = s3.psr) (hp : putDest d z.bytes r.val s4 = .ok ((), s5)) :
    finish i (modifyOp src dst z.bytes z.bytes (fun a b => carry >>= fun c => packed a b (f a b c))) s =
      .next (s.after i { s5 with psr := r.flags s.psr }) := by
  have h3 : s3.psr = s.psr := ((SameRegs.of_rd ha).trans ((SameRegs.of_dstModify hd).trans (SameRegs.of_getDest hb))).psr
  have h5 : s5.psr = s.psr := ((SameCpu.of_putDest hp).psr.trans h4).trans h3
  have hf : (carry >>= fun c => packed a b (f a b c)) s3 = .ok (r, s4) := by
    rw [carry, run_peek_bind, h3]
    exact hr
  rw [finish_seq (run_modifyOp (f := fun a b => carry >>= fun c => packed a b (f a b c)) ha hd hb hf hp), h5]
  rfl

section
variable {i : Size} {src dst : Gen} {x y : Nat} {s s1 s2 s3 s4 : State} {d : Dest}

/-- ADDP on packed numbers (R336). -/
theorem execAddpi_packed (hx : x < 10 ^ (2 * i.bytes)) (hy : y < 10 ^ (2 * i.bytes))
    (ha : rd src i.bytes s = .ok (BitVec.ofNat _ (bcdDigits (2 * i.bytes) x), s1)) (hd : dstModify dst s1 = .ok (d, s2))
    (hb : getDest d i.bytes s2 = .ok (BitVec.ofNat _ (bcdDigits (2 * i.bytes) y), s3))
    (hp : putDest d i.bytes (BitVec.ofNat _ (bcdDigits (2 * i.bytes) ((y + x + s.psr.c.toNat) % 10 ^ (2 * i.bytes)))) s3 = .ok ((), s4)) :
    exec (.addpi i src dst) s = .next (s.after (.addpi i src dst) { s4 with
      psr := { s.psr with c := decide (10 ^ (2 * i.bytes) ≤ y + x + s.psr.c.toNat), f := false } }) := by
  obtain ⟨-, hxv, hxok⟩ := bcdDigits_spec _ x hx
  obtain ⟨-, hyv, hyok⟩ := bcdDigits_spec _ y hy
  have hr := packed_valid (addpResult (BitVec.ofNat _ (bcdDigits (2 * i.bytes) x)) (BitVec.ofNat _ (bcdDigits (2 * i.bytes) y)) s.psr.c) s3
    (by rw [toNat_packed i hx]; exact hxok) (by rw [toNat_packed i hy]; exact hyok)
  have hres : addpResult (BitVec.ofNat (8 * i.bytes) (bcdDigits (2 * i.bytes) x)) (BitVec.ofNat _ (bcdDigits (2 * i.bytes) y)) s.psr.c =
      ⟨BitVec.ofNat _ (bcdDigits (2 * i.bytes) ((y + x + s.psr.c.toNat) % 10 ^ (2 * i.bytes))),
        fun p => { p with c := decide (10 ^ (2 * i.bytes) ≤ y + x + s.psr.c.toNat), f := false }⟩ := by
    simp only [addpResult, digits_eq, toNat_packed i hx, toNat_packed i hy, hxv, hyv, carryNat_eq, Nat.add_comm x y]
  have hfin := finish_decimal (i := .addpi i src dst) (f := addpResult) ha hd hb hr rfl (by rw [hres]; exact hp)
  rw [hres] at hfin
  exact hfin

/-- SUBP on packed numbers (R337). -/
theorem execSubpi_packed (hx : x < 10 ^ (2 * i.bytes)) (hy : y < 10 ^ (2 * i.bytes))
    (ha : rd src i.bytes s = .ok (BitVec.ofNat _ (bcdDigits (2 * i.bytes) x), s1)) (hd : dstModify dst s1 = .ok (d, s2))
    (hb : getDest d i.bytes s2 = .ok (BitVec.ofNat _ (bcdDigits (2 * i.bytes) y), s3))
    (hp : putDest d i.bytes (BitVec.ofNat _
      (bcdDigits (2 * i.bytes) ((y + 10 ^ (2 * i.bytes) - (x + s.psr.c.toNat)) % 10 ^ (2 * i.bytes)))) s3 = .ok ((), s4)) :
    exec (.subpi i src dst) s = .next (s.after (.subpi i src dst) { s4 with
      psr := { s.psr with c := decide (y < x + s.psr.c.toNat), f := false } }) := by
  obtain ⟨-, hxv, hxok⟩ := bcdDigits_spec _ x hx
  obtain ⟨-, hyv, hyok⟩ := bcdDigits_spec _ y hy
  have hr := packed_valid (subpResult (BitVec.ofNat _ (bcdDigits (2 * i.bytes) x)) (BitVec.ofNat _ (bcdDigits (2 * i.bytes) y)) s.psr.c) s3
    (by rw [toNat_packed i hx]; exact hxok) (by rw [toNat_packed i hy]; exact hyok)
  have hres : subpResult (BitVec.ofNat (8 * i.bytes) (bcdDigits (2 * i.bytes) x)) (BitVec.ofNat _ (bcdDigits (2 * i.bytes) y)) s.psr.c =
      ⟨BitVec.ofNat _ (bcdDigits (2 * i.bytes) ((y + 10 ^ (2 * i.bytes) - (x + s.psr.c.toNat)) % 10 ^ (2 * i.bytes))),
        fun p => { p with c := decide (y < x + s.psr.c.toNat), f := false }⟩ := by
    simp only [subpResult, digits_eq, toNat_packed i hx, toNat_packed i hy, hxv, hyv, carryNat_eq]
  have hfin := finish_decimal (i := .subpi i src dst) (f := subpResult) ha hd hb hr rfl (by rw [hres]; exact hp)
  rw [hres] at hfin
  exact hfin

end

/-- A packed instruction on operands with a bad digit completes, with some value and some carry (U6). -/
theorem finish_decimal_free (f : (w : Nat) → BitVec w → BitVec w → Bool → Result w) (j : Instr) {i : Size} {src dst : Gen}
    {s s1 s2 s3 : State} {a b : BitVec (8 * i.bytes)} {d : Dest}
    (ha : rd src i.bytes s = .ok (a, s1)) (hd : dstModify dst s1 = .ok (d, s2)) (hb : getDest d i.bytes s2 = .ok (b, s3))
    (hbad : (bcdValid (2 * i.bytes) a.toNat && bcdValid (2 * i.bytes) b.toNat) = false)
    (hput : ∀ v k, ∃ s4, putDest d i.bytes v { s3 with freeCount := k } = .ok ((), s4)) :
    ∃ v k c s4, putDest d i.bytes v { s3 with freeCount := k } = .ok ((), s4) ∧
      finish j (modifyOp src dst i.bytes i.bytes (fun a b => carry >>= fun c => packed a b (f _ a b c))) s =
        .next (s.after j { s4 with psr := { s.psr with c := c, f := false } }) := by
  obtain ⟨v, c, k, hr⟩ := packed_free (f _ a b s.psr.c) s3 hbad
  obtain ⟨s4, hp⟩ := hput v k
  exact ⟨v, k, c, s4, hp, finish_decimal ha hd hb hr rfl hp⟩

/-- Settles O24: on packed numbers the digits are valid and read back, so that the results are those of the numbers. -/
theorem packedDecimal : Obligations.PackedDecimal := by
  refine ⟨?good, fun i src dst s a s1 d s2 b s3 ha hd hb hbad hput j hj => ?bad⟩
  case good =>
    intro i src dst x y s s1 d s2 s3 s4 k hx hy ha hd hb
    exact ⟨execAddpi_packed hx hy ha hd hb, execSubpi_packed hx hy ha hd hb⟩
  case bad =>
    rcases hj with rfl | rfl
    · exact finish_decimal_free @addpResult _ ha hd hb hbad hput
    · exact finish_decimal_free @subpResult _ ha hd hb hbad hput

/-! ### Comparisons -/

/-- Settles O25: both instructions read their operands, then load Z, N and L by `cmpFlags`. -/
theorem comparisons : Obligations.Comparisons := by
  refine ⟨fun i x y s a s1 b s2 ha hb => ?cmp, fun i q y s b s1 hb => ?cmpq⟩
  case cmp =>
    have h2 : s2.psr = s.psr := ((SameRegs.of_rd ha).trans (SameRegs.of_rd hb)).psr
    show execCmpi i x y s = _
    unfold execCmpi
    refine finish_seq (u := { s2 with psr := cmpFlags a b s.psr, psrTouched := true }) ?_
    rw [run_bind_of_ok ha, run_bind_of_ok hb, ← h2]
    rfl
  case cmpq =>
    have h1 : s1.psr = s.psr := (SameRegs.of_rd hb).psr
    show execCmpqi i q y s = _
    unfold execCmpqi
    have hrun : finish (.cmpqi i q y) (rd y i.bytes >>= fun b => updPsr (cmpFlags (quick q i.bytes) b) >>= fun _ => pure .seq) s =
        .next (s.after (.cmpqi i q y) { s1 with psr := cmpFlags (quick q i.bytes) b s.psr }) := by
      refine finish_seq (u := { s1 with psr := cmpFlags (quick q i.bytes) b s.psr, psrTouched := true }) ?_
      rw [run_bind_of_ok hb, ← h1]
      rfl
    refine hrun.trans ?_
    rw [cmpFlags, quick_toInt]
    rfl

/-! ### Logic and shifts -/

/-- A negative count is the two's complement of its amount (R371). -/
theorem count_cases (c : Byte) : (c.msb = false ∧ 0 ≤ c.toInt ∧ c.toInt.toNat = c.toNat) ∨
    (c.msb = true ∧ c.toInt < 0 ∧ (-c.toInt).toNat = (-c).toNat) := by
  have hlt := c.isLt
  rw [BitVec.msb_eq_decide, BitVec.toInt_eq_toNat_cond, BitVec.toNat_neg]
  by_cases h : 2 * c.toNat < 2 ^ 8
  · left
    rw [if_pos h]
    refine ⟨by simp; omega, by omega, by omega⟩
  · right
    rw [if_neg h]
    refine ⟨by simp; omega, by omega, by omega⟩

theorem shiftLeft_eq_ofNat {w : Nat} (b : BitVec w) (k : Nat) : b <<< k = BitVec.ofNat w (b.toNat * 2 ^ k) := by
  apply BitVec.eq_of_toNat_eq
  simp [Nat.shiftLeft_eq]

theorem ushiftRight_eq_ofNat {w : Nat} (b : BitVec w) (k : Nat) : b >>> k = BitVec.ofNat w (b.toNat / 2 ^ k) := by
  apply BitVec.eq_of_toNat_eq
  rw [BitVec.toNat_ushiftRight, Nat.shiftRight_eq_div_pow, BitVec.toNat_ofNat, Nat.mod_eq_of_lt]
  exact Nat.lt_of_le_of_lt (Nat.div_le_self _ _) b.isLt

theorem sshiftRight_eq_ofInt {w : Nat} (b : BitVec w) (k : Nat) : b.sshiftRight k = BitVec.ofInt w (b.toInt / 2 ^ k) := by
  rw [← BitVec.ofInt_toInt (x := b.sshiftRight k), BitVec.toInt_sshiftRight, Int.shiftRight_eq_div_pow]
  push_cast
  rfl

theorem lshResult_eq {w : Nat} (c : Byte) (b : BitVec w) : lshResult c b =
    if 0 ≤ c.toInt then BitVec.ofNat _ (b.toNat * 2 ^ c.toInt.toNat) else BitVec.ofNat _ (b.toNat / 2 ^ (-c.toInt).toNat) := by
  unfold lshResult
  rcases count_cases c with ⟨hm, h0, hn⟩ | ⟨hm, h0, hn⟩
  · rw [if_neg (by simp [hm]), if_pos h0, hn, ← shiftLeft_eq_ofNat]
  · rw [if_pos hm, if_neg (by omega), hn, ← ushiftRight_eq_ofNat]

theorem ashResult_eq {w : Nat} (c : Byte) (b : BitVec w) : ashResult c b =
    if 0 ≤ c.toInt then BitVec.ofNat _ (b.toNat * 2 ^ c.toInt.toNat) else BitVec.ofInt _ (b.toInt / 2 ^ (-c.toInt).toNat) := by
  unfold ashResult
  rcases count_cases c with ⟨hm, h0, hn⟩ | ⟨hm, h0, hn⟩
  · rw [if_neg (by simp [hm]), if_pos h0, hn, ← shiftLeft_eq_ofNat]
  · rw [if_pos hm, if_neg (by omega), hn, ← sshiftRight_eq_ofInt]

/-- A rotation by the count modulo the width (R373). -/
theorem rotResult_eq {w : Nat} (hw : 0 < w) (c : Byte) (b : BitVec w) :
    rotResult c b = b.rotateLeft (c.toInt % (w : Int)).toNat := by
  have hlt : (c.toInt % (w : Int)).toNat < w := by
    have := Int.emod_lt_of_pos c.toInt (show (0 : Int) < w by omega)
    omega
  unfold rotResult
  simp only
  rw [BitVec.rotateLeft_def, Nat.mod_eq_of_lt hlt]
  split
  · rename_i h
    rw [h]
    apply BitVec.eq_of_getLsbD_eq
    intro k hk
    simp
  · rfl

/-- Settles O29: the logical results bit by bit, the shifts by the two signs of the count. -/
theorem logicalAndShiftResults : Obligations.LogicalAndShiftResults := by
  refine ⟨fun i src dst r => ⟨fun h => ?and, fun h => ?or, fun h => ?bic, fun h => ?xor⟩, fun i src dst => ⟨?lsh, ?ash, ?rot⟩⟩
  case and =>
    refine modifyCompletes_of_pure (fun _ => rfl) (fun a b _ => BitVec.eq_of_getLsbD_eq fun k hk => ?_) (fun _ _ _ => rfl)
    rw [h a b k hk]
    exact BitVec.getLsbD_and
  case or =>
    refine modifyCompletes_of_pure (fun _ => rfl) (fun a b _ => BitVec.eq_of_getLsbD_eq fun k hk => ?_) (fun _ _ _ => rfl)
    rw [h a b k hk]
    exact BitVec.getLsbD_or
  case bic =>
    refine modifyCompletes_of_pure (f := fun a b => plain (b &&& ~~~a)) (fun _ => rfl)
      (fun a b _ => BitVec.eq_of_getLsbD_eq fun k hk => ?_) (fun _ _ _ => rfl)
    rw [h a b k hk, plain, BitVec.getLsbD_and, BitVec.getLsbD_not, decide_eq_true hk, Bool.true_and]
  case xor =>
    refine modifyCompletes_of_pure (fun _ => rfl) (fun a b _ => BitVec.eq_of_getLsbD_eq fun k hk => ?_) (fun _ _ _ => rfl)
    rw [h a b k hk]
    exact BitVec.getLsbD_xor
  case lsh => exact modifyCompletes_of_pure (fun _ => rfl) (fun c b _ => lshResult_eq c b) (fun _ _ _ => rfl)
  case ash => exact modifyCompletes_of_pure (fun _ => rfl) (fun c b _ => ashResult_eq c b) (fun _ _ _ => rfl)
  case rot => exact modifyCompletes_of_pure (fun _ => rfl) (fun c b _ => rotResult_eq (size_bits_pos i) c b) (fun _ _ _ => rfl)

end Sys2Proof.Machine
end

section
/-! PROOFS. Single bits, bit fields, arrays. -/

namespace Sys2Proof.Machine

open Sys2Proof

/-! ### Bit offsets -/

/-- The low bits of a double-word's signed and unsigned reading agree. -/
theorem toNat_mod_eq_toInt (o : Word) {d : Nat} (hd : d = 8 ∨ d = 32) : o.toNat % d = (o.toInt % (d : Int)).toNat := by
  have h := o.isLt
  rw [BitVec.toInt_eq_toNat_cond]
  rcases hd with rfl | rfl <;> split <;> omega

/-- An offset of any length keeps its value in a double-word. -/
theorem toInt_signExtend_word {i : Size} (v : BitVec (8 * i.bytes)) : (v.signExtend 32).toInt = v.toInt :=
  BitVec.toInt_signExtend_of_le (by cases i <;> decide)

/-- The byte of a bit offset (R381). -/
theorem bitCell_eq {n : Nat} (a o : Word) {v : BitVec n} (h : o.toInt = v.toInt) : bitCell a o = bitByte a v := by
  rw [bitCell, bitByte, sshiftRight_eq_ofInt, h]
  rfl

/-! ### Single bits -/

theorem putBit_eq (cell : Dest) (n : Nat) (x : BitVec (8 * n)) (k : Nat) (b : Bool) :
    putBit cell n x k (some b) = putDest cell n (putBitAt x k b) := rfl

/-- A single-bit instruction on the cell and the bit it is found to name (R381-R387). -/
theorem run_bitOp {i : Size} {off base : Gen} {f : Option (Bool → Bool)} {s s1 s2 s3 s4 : State} {v : BitVec (8 * i.bytes)}
    {d cell : Dest} {k : Nat} {x : BitVec (8 * cellBytes cell)} (hv : rd off i.bytes s = .ok (v, s1))
    (hd : dstModify base s1 = .ok (d, s2)) (hcell : bitPlace d (v.signExtend 32) = cell)
    (hk : bitIndex d (v.signExtend 32) = k) (hx : getDest cell (cellBytes cell) s2 = .ok (x, s3))
    (hp : putBit cell _ x k (f.map (fun g => g (x.getLsbD k))) s3 = .ok ((), s4)) :
    bitOp i off base f s = .ok (.seq, { s4 with psr := { s4.psr with f := x.getLsbD k }, psrTouched := true }) := by
  subst hcell hk
  unfold bitOp
  rw [run_bind_of_ok hv]
  simp only
  rw [run_bind_of_ok hd, run_bind_of_ok hx, run_bind_of_ok hp]
  rfl

/-- A write of a whole register (R32). -/
theorem run_putDest_reg (r : Reg) (v : BitVec (8 * 4)) (s : State) : putDest (.reg r) 4 v s = .ok ((), s.setReg r v) := by
  show setRegLow r v s = _
  rw [run_setRegLow, mergeLow_full (s.regs.get r) v]

/-- The single-bit instructions complete: `f` is the change of the bit, if it is written. -/
theorem bitCompletes_of {i : Instr} {z : Size} {off base : Gen} {f : Option (Bool → Bool)} {g : Bool → Option Bool}
    (hexec : ∀ s, exec i s = finish i (bitOp z off base f) s) (hg : ∀ b, g b = f.map (fun h => h b)) :
    BitCompletes i z.bytes off base g := by
  intro s v s1 hv
  have h1 := SameRegs.of_rd hv
  refine ⟨fun r hr => ?_, fun a s2 x s3 s4 hd hx => ?_⟩
  · subst hr
    intro k old
    have hk : bitIndex (.reg r) (v.signExtend 32) = k := by
      show (v.signExtend 32).toNat % 32 = _
      rw [toNat_mod_eq_toInt _ (.inr rfl), toInt_signExtend_word]
      rfl
    have hread : getDest (.reg r) 4 s1 = .ok (s.regs.get r, s1) := by
      show Except.ok ((s1.regs.get r).setWidth 32, s1) = _
      rw [h1.regs, BitVec.setWidth_eq]
    rw [hexec, hg]
    cases f with
    | none =>
      rw [finish_seq (run_bitOp (s4 := s1) hv rfl rfl hk hread rfl), h1.psr]
      rfl
    | some h =>
      have hput : putBit (.reg r) 4 (s.regs.get r) k (some (h old)) s1 = .ok ((), s1.setReg r (putBitAt (s.regs.get r) k (h old))) := by
        rw [putBit_eq, run_putDest_reg]
      rw [finish_seq (run_bitOp (f := some h) hv rfl rfl hk hread hput), State.setReg_psr, h1.psr]
      rfl
  · intro k old hput
    have h3 : s3.psr = s.psr := (h1.trans ((SameRegs.of_dstModify hd).trans (SameRegs.of_memRead hx))).psr
    have hk : bitIndex (.mem a) (v.signExtend 32) = k := by
      show (v.signExtend 32).toNat % 8 = _
      rw [toNat_mod_eq_toInt _ (.inl rfl), toInt_signExtend_word]
      rfl
    have hcell : bitPlace (.mem a) (v.signExtend 32) = .mem (bitByte a v) := by
      rw [bitPlace, bitCell_eq _ _ (toInt_signExtend_word v)]
    rw [hexec]
    rw [hg] at hput
    cases f with
    | none =>
      obtain rfl : s4 = s3 := hput
      rw [finish_seq (run_bitOp (s4 := s4) (cell := .mem (bitByte a v)) hv hd hcell hk hx rfl), h3]
      rfl
    | some h =>
      have hput' : memWrite (bitByte a v) 1 (putBitAt x k (h old)) s3 = .ok ((), s4) := hput
      have h4 : s4.psr = s.psr := (SameRegs.of_memWrite hput').psr.trans h3
      rw [finish_seq (run_bitOp (f := some h) (cell := .mem (bitByte a v)) hv hd hcell hk hx hput'), h4]
      rfl

/-- Settles O30: the six instructions are `bitOp` with the change of the bit each makes. -/
theorem singleBits : Obligations.SingleBits := fun _ _ _ =>
  ⟨bitCompletes_of (fun _ => rfl) (fun _ => rfl), bitCompletes_of (fun _ => rfl) (fun _ => rfl),
    bitCompletes_of (fun _ => rfl) (fun _ => rfl), bitCompletes_of (fun _ => rfl) (fun _ => rfl),
    bitCompletes_of (fun _ => rfl) (fun _ => rfl), bitCompletes_of (fun _ => rfl) (fun _ => rfl)⟩

/-! ### Bit fields -/

/-- A field of 1 to 32 bits inside its double-word is located (R390). -/
theorem run_locate {d : Dest} {o len : Word} (h1 : 1 ≤ len.toNat) (h2 : fieldBit d o + len.toNat ≤ 32) (s : State) :
    locate d o len s = .ok (⟨fieldCell d o, fieldBit d o⟩, s) := by
  have hlen : (decide (1 ≤ len.toNat) && decide (len.toNat ≤ 32)) = true := by simp; omega
  have hplace : fieldPlace d o s = .ok (⟨fieldCell d o, fieldBit d o⟩, s) := by
    cases d with
    | mem a =>
      show Except.ok ((⟨.mem (bitCell a o), o.toNat % 8⟩ : Field), s) = _
      rw [bitCell_eq a o rfl, toNat_mod_eq_toInt o (.inl rfl)]
      rfl
    | reg r | pair r | push =>
      have ho : decide (o.toNat ≤ 31) = true := by
        simp only [fieldBit] at h2
        exact decide_eq_true (by omega)
      unfold fieldPlace
      rw [ho]
      rfl
  have hfit : decide (fieldBit d o + len.toNat ≤ 32) = true := decide_eq_true h2
  unfold locate
  rw [hlen, run_bind_of_ok (run_require_true _ s), run_bind_of_ok hplace]
  simp only
  rw [hfit]
  rfl

theorem onesMask_getLsbD {len k : Nat} (hk : k < 32) : (onesMask len).getLsbD k = decide (k < len) := by
  rw [onesMask, BitVec.getLsbD_ofNat, Nat.testBit_two_pow_sub_one]
  simp [hk]

/-- A field read is the bits from its position on (R390). -/
theorem fieldOf_eq (word : Word) {p len n : Nat} :
    (fieldOf word p len).setWidth n = (word.extractLsb' p len).setWidth n := by
  apply BitVec.eq_of_getLsbD_eq
  intro k hk
  simp only [BitVec.getLsbD_setWidth, hk, decide_true, Bool.true_and, fieldOf, BitVec.getLsbD_and, BitVec.getLsbD_ushiftRight,
    BitVec.getLsbD_extractLsb']
  by_cases h32 : k < 32
  · rw [onesMask_getLsbD h32, Bool.and_comm]
  · rw [BitVec.getLsbD_of_ge word _ (by omega)]
    simp

/-- A field replaced has the given bits in its place and the others of the double-word (R392). -/
theorem FieldReplaced.eq_withField {m : Nat} {old new : Word} {v : BitVec m} {p len : Nat} (h : p + len ≤ 32)
    (hr : FieldReplaced old v p len new) : new = withField old (v.setWidth 32) p len := by
  apply BitVec.eq_of_getLsbD_eq
  intro k hk
  rw [hr k hk]
  simp only [withField, BitVec.getLsbD_or, BitVec.getLsbD_and, BitVec.getLsbD_not, BitVec.getLsbD_shiftLeft,
    BitVec.getLsbD_setWidth, hk, decide_true, Bool.true_and]
  by_cases hp : p ≤ k
  · rw [onesMask_getLsbD (by omega), decide_eq_false (by omega : ¬ k < p)]
    by_cases hin : k < p + len
    · simp [hp, hin, show k - p < len by omega, show k - p < 32 by omega]
    · simp [hp, hin, show ¬ k - p < len by omega]
  · simp [hp, show k < p by omega]

theorem extractCompletes_of {i : Instr} {z : Size} {o len : State → Word} {base dst : Gen}
    (hexec : ∀ s, ∃ m, exec i s = finish i m s ∧ m s = extractOp z (o s) (len s) base dst s) :
    ExtractCompletes i z.bytes o len base dst := by
  intro s b s1 word s2 d s3 s4 hb h1 h2 hw hd hp
  obtain ⟨m, he, hm⟩ := hexec s
  rw [he]
  refine finish_seq (hm.trans ?_)
  unfold extractOp
  rw [run_bind_of_ok hb, run_bind_of_ok (run_locate h1 h2 s1), run_bind_of_ok hw, run_bind_of_ok hd, fieldOf_eq,
    run_bind_of_ok hp, run_pure]

theorem insertCompletes_of {i : Instr} {z : Size} {o len : State → Word} {src base : Gen}
    (hexec : ∀ s, ∃ m, exec i s = finish i m s ∧ m s = insertOp z (o s) (len s) src base s) :
    InsertCompletes i z.bytes o len src base := by
  intro s v s1 b s2 word s3 new s4 hv hb h1 h2 hw hnew hp
  obtain ⟨m, he, hm⟩ := hexec s
  rw [he]
  refine finish_seq (hm.trans ?_)
  unfold insertOp
  rw [run_bind_of_ok hv, run_bind_of_ok hb, run_bind_of_ok (run_locate h1 h2 s2), run_bind_of_ok hw,
    ← hnew.eq_withField h2, run_bind_of_ok hp, run_pure]

theorem shortOffset_eq (imm : Byte) : shortOffset imm = BitVec.ofNat 32 (imm.toNat / 32) := by
  apply BitVec.eq_of_toNat_eq
  have h := imm.isLt
  simp [shortOffset, Nat.shiftRight_eq_div_pow]
  omega

theorem shortLength_eq (imm : Byte) : shortLength imm = BitVec.ofNat 32 (imm.toNat % 32 + 1) := by
  have hand : imm.toNat &&& 31 = imm.toNat % 32 := Nat.and_two_pow_sub_one_eq_mod imm.toNat 5
  apply BitVec.eq_of_toNat_eq
  simp only [shortLength, BitVec.toNat_add, BitVec.toNat_setWidth, BitVec.toNat_and, BitVec.toNat_ofNat]
  rw [show (31 : Byte).toNat = 31 from rfl, hand]
  simp only [show (1 : Word).toNat = 1 from rfl]
  omega

/-- Settles O31: the four instructions are `extractOp` and `insertOp`, with offset and length from a register and a displacement
or from the immediate byte. -/
theorem bitFields : Obligations.BitFields := by
  refine ⟨fun i off base dst len => ⟨extractCompletes_of fun s => ⟨_, rfl, rfl⟩, insertCompletes_of fun s => ⟨_, rfl, rfl⟩⟩,
    fun i base dst imm => ⟨extractCompletes_of fun s => ⟨_, rfl, ?_⟩, insertCompletes_of fun s => ⟨_, rfl, ?_⟩⟩⟩
  · rw [shortOffset_eq, shortLength_eq]
  · rw [shortOffset_eq, shortLength_eq]

/-! ### Arrays -/

/-- The search for the first set bit finds it (R388). -/
theorem firstSet_eq_some {w : Nat} (b : BitVec w) {fuel o k : Nat} (ho : o ≤ k) (hk : k < o + fuel) (hb : b.getLsbD k = true)
    (hfirst : ∀ j, o ≤ j → j < k → b.getLsbD j = false) : firstSet b fuel o = some k := by
  induction fuel generalizing o with
  | zero => omega
  | succ n ih =>
    unfold firstSet
    by_cases he : o = k
    · rw [he, if_pos hb]
    · rw [if_neg (by simp [hfirst o (Nat.le_refl o) (by omega)])]
      exact ih (by omega) (by omega) (fun j h1 h2 => hfirst j (by omega) h2)

theorem firstSet_eq_none {w : Nat} (b : BitVec w) {fuel o : Nat} (h : ∀ k, o ≤ k → k < o + fuel → b.getLsbD k = false) :
    firstSet b fuel o = none := by
  induction fuel generalizing o with
  | zero => rfl
  | succ n ih =>
    unfold firstSet
    rw [if_neg (by simp [h o (Nat.le_refl o) (by omega)])]
    exact ih (fun k h1 h2 => h k (by omega) (by omega))

/-- FFS with what its search finds (R388). -/
theorem execFfsi_of {i : Size} {base off : Gen} {s s1 s2 s3 s4 : State} {b : BitVec (8 * i.bytes)} {d : Dest} {o : BitVec (8 * 1)}
    (hb : rd base i.bytes s = .ok (b, s1)) (hd : dstModify off s1 = .ok (d, s2)) (ho : getDest d 1 s2 = .ok (o, s3)) {x : Option Nat}
    (hx : firstSet b (8 * i.bytes - o.toNat) o.toNat = x) (hp : putDest d 1 (BitVec.ofNat 8 (x.getD 0)) s3 = .ok ((), s4)) :
    exec (.ffsi i base off) s = .next (s.after (.ffsi i base off) { s4 with psr := { s.psr with f := x.isNone } }) := by
  have h4 : s4.psr = s.psr := (SameCpu.of_putDest hp).psr.trans
    ((SameRegs.of_rd hb).trans ((SameRegs.of_dstModify hd).trans (SameRegs.of_getDest ho))).psr
  have hcomb : (match firstSet b (8 * i.bytes - o.toNat) o.toNat with
      | some k => pure ⟨BitVec.ofNat 8 k, fun p => { p with f := false }⟩
      | none => pure ⟨0, fun p => { p with f := true }⟩ : M (Result (8 * 1))) s3 =
      .ok (⟨BitVec.ofNat 8 (x.getD 0), fun p => { p with f := x.isNone }⟩, s3) := by
    rw [hx]
    cases x <;> rfl
  refine (finish_seq (run_modifyOp hb hd ho hcomb hp)).trans ?_
  rw [h4]
  rfl

/-- Settles O32: the search of FFS, the bounds of CHECK, the sum of INDEX. -/
theorem findCheckIndex : Obligations.FindCheckIndex := by
  refine ⟨fun i base off s b s1 d s2 o s3 s4 hb hd ho => ⟨fun k h1 h2 h3 h4 hp => ?some, fun h hp => ?none⟩,
    fun i r bounds src s a s1 upper s2 lower s3 v s4 ha hu hl hv => ⟨fun h1 h2 => ?inside, fun h => ?outside⟩,
    fun i r len idx s l s1 x s2 hl hx => ?index⟩
  case some => exact execFfsi_of hb hd ho (firstSet_eq_some b h1 (by omega) h3 h4) hp
  case none => exact execFfsi_of hb hd ho (firstSet_eq_none b (fun k hk hlt => h k hk (by omega))) hp
  case inside =>
    have h4 : s4.psr = s.psr :=
      ((SameRegs.of_ea ha).trans ((SameRegs.of_memRead hu).trans ((SameRegs.of_memRead hl).trans (SameRegs.of_rd hv)))).psr
    have hok : (decide (lower.toInt ≤ v.toInt) && decide (v.toInt ≤ upper.toInt)) = true := by simp [h1, h2]
    have hsub : v.signExtend 32 - lower.signExtend 32 = BitVec.ofInt 32 (v.toInt - lower.toInt) := by
      rw [Int.sub_eq_add_neg, BitVec.ofInt_add, BitVec.ofInt_neg, BitVec.sub_eq_add_neg]
      rfl
    show execChecki i r bounds src s = _
    unfold execChecki
    refine finish_seq (u := { s4.setReg r (BitVec.ofInt 32 (v.toInt - lower.toInt)) with
      psr := { s.psr with f := false }, psrTouched := true }) ?_
    rw [run_bind_of_ok ha, run_bind_of_ok hu, run_bind_of_ok hl, run_bind_of_ok hv, hok, ← hsub, ← h4]
    rfl
  case outside =>
    have h4 : s4.psr = s.psr :=
      ((SameRegs.of_ea ha).trans ((SameRegs.of_memRead hu).trans ((SameRegs.of_memRead hl).trans (SameRegs.of_rd hv)))).psr
    have hok : (decide (lower.toInt ≤ v.toInt) && decide (v.toInt ≤ upper.toInt)) = false := by
      rcases h with h | h
      · rw [decide_eq_false (by omega), Bool.false_and]
      · rw [decide_eq_false (by omega : ¬ v.toInt ≤ upper.toInt), Bool.and_false]
    refine ⟨(Config.freeWord s4.freeCount).setWidth 32, s4.freeCount + 1, ?_⟩
    show execChecki i r bounds src s = _
    unfold execChecki
    refine finish_seq (u := { s4.setReg r ((Config.freeWord s4.freeCount).setWidth 32) with
      psr := { s.psr with f := true }, psrTouched := true, freeCount := s4.freeCount + 1 }) ?_
    rw [run_bind_of_ok ha, run_bind_of_ok hu, run_bind_of_ok hl, run_bind_of_ok hv, hok, ← h4]
    rfl
  case index =>
    have h2 : s2.regs = s.regs := ((SameRegs.of_rd hl).trans (SameRegs.of_rd hx)).regs
    show execIndexi i r len idx s = _
    unfold execIndexi
    refine finish_seq ?_
    rw [run_bind_of_ok hl, run_bind_of_ok hx, run_bind_of_ok (run_getReg r s2), h2]
    rfl

end Sys2Proof.Machine
end

section
/-! PROOFS. Branches, calls and returns, stack frames. -/

namespace Sys2Proof.Machine

open Sys2Proof

/-! ### Adjacent places in memory -/

theorem bytesOf_append (a : Word) (k n : Nat) : bytesOf a (k + n) = bytesOf a k ++ bytesOf (a + BitVec.ofNat 32 k) n := by
  rw [bytesOf, byteAddrs_append, List.map_append]
  rfl

theorem bytesOf_nodup (a : Word) {n : Nat} (h : n ≤ 2 ^ 32) : (bytesOf a n).Nodup :=
  List.Nodup.map (fun _ _ h => BitVec.eq_of_toNat_eq h) (byteAddrs_nodup a h)

theorem State.readable.left {s : State} {a : Word} {k n : Nat} (h : s.readable a (k + n)) : s.readable a k := fun x hx =>
  h x (by rw [bytesOf_append]; exact List.mem_append_left _ hx)

theorem State.readable.right {s : State} {a : Word} {k n : Nat} (h : s.readable a (k + n)) :
    s.readable (a + BitVec.ofNat 32 k) n := fun x hx => h x (by rw [bytesOf_append]; exact List.mem_append_right _ hx)

theorem State.writable.left {s : State} {a : Word} {k n : Nat} (h : s.writable a (k + n)) : s.writable a k := fun x hx =>
  h x (by rw [bytesOf_append]; exact List.mem_append_left _ hx)

theorem State.writable.right {s : State} {a : Word} {k n : Nat} (h : s.writable a (k + n)) :
    s.writable (a + BitVec.ofNat 32 k) n := fun x hx => h x (by rw [bytesOf_append]; exact List.mem_append_right _ hx)

theorem leNat_lt (l : List Byte) : leNat l < 2 ^ (8 * l.length) := by
  induction l with
  | nil => simp [leNat]
  | cons b t ih =>
    have hb := b.isLt
    rw [leNat, List.length_cons, Nat.mul_add, Nat.pow_add]
    omega

theorem State.toNat_valueAt (s : State) (a : Word) (n : Nat) : (s.valueAt a n).toNat = leNat (s.bytesAt (byteAddrs a n)) := by
  rw [State.valueAt, BitVec.toNat_ofNat, Nat.mod_eq_of_lt]
  simpa [State.bytesAt] using leNat_lt (s.bytesAt (byteAddrs a n))

/-- A number in memory is its low part and, above it, its high part (R135). -/
theorem State.toNat_valueAt_append (s : State) (a : Word) (k n : Nat) : (s.valueAt a (k + n)).toNat =
    (s.valueAt a k).toNat + 2 ^ (8 * k) * (s.valueAt (a + BitVec.ofNat 32 k) n).toNat := by
  rw [State.toNat_valueAt, State.toNat_valueAt, State.toNat_valueAt, byteAddrs_append, bytesAt_append, leNat_append]
  simp [State.bytesAt]

/-- A number in memory is given by its bytes. -/
theorem State.valueAt_congr {s t : State} {a : Word} {n : Nat} (h : ∀ x ∈ bytesOf a n, t.mem.read x = s.mem.read x) :
    t.valueAt a n = s.valueAt a n := by
  have hb : t.bytesAt (byteAddrs a n) = s.bytesAt (byteAddrs a n) :=
    List.map_congr_left fun x hx => h x.toNat (mem_bytesOf_of_mem hx)
  rw [State.valueAt, State.valueAt, hb]

/-- A store elsewhere leaves a number in memory. -/
theorem State.valueAt_poke_apart {s : State} {a b : Word} {n m : Nat} (v : BitVec (8 * m)) (h : Apart a n b m) :
    (s.poke b m v).valueAt a n = s.valueAt a n :=
  State.valueAt_congr fun x hx => State.read_poke_other s v (h x hx)

/-! ### The selected stack pointer -/

/-- A store and a change of the stack pointer commute. -/
theorem State.poke_setSp (s : State) (w a : Word) (n : Nat) (v : BitVec (8 * n)) : (s.setSp w).poke a n v = (s.poke a n v).setSp w := by
  unfold State.setSp
  simp only [show (s.poke a n v).psr = s.psr from rfl]
  split <;> rfl

theorem State.setSp_setSp (s : State) (v w : Word) : (s.setSp v).setSp w = s.setSp w := by
  by_cases h : s.psr.s = true <;> simp [State.setSp, h]

theorem State.setSp_sp (s : State) : s.setSp s.sp = s := by
  unfold State.setSp State.sp
  split <;> rfl

theorem State.valueAt_setSp (s : State) (w a : Word) (n : Nat) : (s.setSp w).valueAt a n = s.valueAt a n :=
  State.valueAt_congr fun _ _ => by rw [State.setSp_mem]

theorem State.calm.setSp {s : State} (h : s.calm) (w : Word) : (s.setSp w).calm := (State.setSp_within s w).trans h

theorem run_discard (n : Word) (s : State) : discard n s = .ok ((), s.setSp (s.sp + n)) := rfl

/-! ### Stack pointers over operands -/

/-- The stack pointers stay; nothing but a push or a pop moves them. -/
def KeepsStacks (s t : State) : Prop := (t.sp0 = s.sp0 ∧ t.sp1 = s.sp1) ∧ Spends s t

theorem KeepsStacks.of_eq {s t : State} (h : (t.sp0, t.sp1, t.within) = (s.sp0, s.sp1, s.within)) : KeepsStacks s t := by
  simp only [Prod.mk.injEq] at h
  obtain ⟨h0, h1, hw⟩ := h
  exact ⟨⟨h0, h1⟩, Spends.of_eq hw⟩

theorem keepsStacks_frameable : Frameable KeepsStacks where
  refl _ := .of_eq rfl
  trans := fun ⟨⟨a0, a1⟩, aw⟩ ⟨⟨b0, b1⟩, bw⟩ => ⟨⟨b0.trans a0, b1.trans a1⟩, spends_frameable.trans aw bw⟩
  free _ _ := .of_eq rfl
  spends h := h.2

theorem keepsStacks_setTimer (s : State) (k : TimerId) (x : Timer) : KeepsStacks s (s.setTimer k x) := by
  cases k <;> exact .of_eq rfl

theorem keepsStacks_chip (r : PReg) (v : Word) : Rel KeepsStacks (regWrite r v) :=
  Rel.regWrite_of keepsStacks_frameable (fun _ _ => .of_eq rfl) keepsStacks_setTimer (fun _ _ => .of_eq rfl)
    (fun _ _ _ _ => .of_eq rfl) r v

theorem keepsStacks_eventful : Eventful KeepsStacks where
  toFrameable := keepsStacks_frameable
  deposit _ _ _ _ := .of_eq rfl
  chip := keepsStacks_chip
  bus s a v := by unfold State.busWrite; split <;> exact .of_eq rfl
  cycle _ _ _ := .of_eq rfl
  timer := keepsStacks_setTimer
  pins _ _ := .of_eq rfl
  latch _ _ := .of_eq rfl
  mode _ _ := .of_eq rfl
  out _ _ := .of_eq rfl

theorem keepsStacks_storable : Storable KeepsStacks where
  toFrameable := keepsStacks_frameable
  gap := Rel.gap_of keepsStacks_frameable (fun _ he => Rel.event keepsStacks_eventful he) (fun _ =>
    ⟨⟨rfl, rfl⟩, fun _ hl => List.mem_of_mem_tail hl⟩)
  store _ _ _ _ := .of_eq rfl
  chip := keepsStacks_chip

/-- The effective address is computed without moving a stack pointer, Top of Stack included (R262). -/
theorem sp_of_ea {g : Gen} {a : Word} {s t : State} (h : ea g s = .ok (a, t)) : t.sp = s.sp := by
  obtain ⟨⟨h0, h1⟩, -⟩ := (Rel.ea keepsStacks_storable.toShared g s).ok a t h
  unfold State.sp
  rw [h0, h1, (SameRegs.of_ea h).psr]

/-! ### Branches and jumps -/

theorem finish_jump_goto {i : Instr} {m : M Next} {s u : State} {a : Word} (h : m s = .ok (.jump a, u)) :
    finish i m s = .next (u.goto a) := finish_jump h

theorem branches_of {i : Disp → Instr} {c : Cond} {taken : Psr → Bool} (hexec : ∀ d s, exec (i d) s = finish (i d) (branch c d) s)
    (hc : ∀ p, condHolds p c = taken p) : Branches i taken := by
  intro d s
  have hrun : branch c d s = .ok (if taken s.psr then .jump (s.pc + d.value) else .seq, s) := by
    unfold branch
    rw [run_peek_bind, run_peek_bind, hc]
    cases taken s.psr <;> rfl
  rw [hexec]
  by_cases h : taken s.psr = true
  · rw [if_pos h] at hrun ⊢
    exact finish_jump_goto hrun
  · rw [if_neg h] at hrun ⊢
    exact finish_seq_after hrun

/-- Settles O33: each branch by its condition, the jumps by the address they compute. -/
theorem branchesAndJumps : Obligations.BranchesAndJumps := by
  refine ⟨?branches, fun g s a t ha => ?jump, fun i g s v t hv => ?case, fun i q g d s x s1 v s2 s3 hx hv hp => ?acb⟩
  case branches =>
    exact ⟨branches_of (c := .eq) (fun _ _ => rfl) (fun _ => rfl), branches_of (c := .ne) (fun _ _ => rfl) (fun _ => rfl),
      branches_of (c := .cs) (fun _ _ => rfl) (fun _ => rfl), branches_of (c := .cc) (fun _ _ => rfl) (fun _ => rfl),
      branches_of (c := .hi) (fun _ _ => rfl) (fun _ => rfl), branches_of (c := .ls) (fun _ _ => rfl) (fun _ => rfl),
      branches_of (c := .gt) (fun _ _ => rfl) (fun _ => rfl), branches_of (c := .le) (fun _ _ => rfl) (fun _ => rfl),
      branches_of (c := .fs) (fun _ _ => rfl) (fun _ => rfl), branches_of (c := .fc) (fun _ _ => rfl) (fun _ => rfl),
      branches_of (c := .lo) (fun _ _ => rfl) (fun _ => rfl), branches_of (c := .hs) (fun _ _ => rfl) (fun _ => rfl),
      branches_of (c := .lt) (fun _ _ => rfl) (fun _ => rfl), branches_of (c := .ge) (fun _ _ => rfl) (fun _ => rfl),
      branches_of (c := .always) (fun _ _ => rfl) (fun _ => rfl), branches_of (c := .never) (fun _ _ => rfl) (fun _ => rfl)⟩
  case jump => exact finish_jump_goto (run_bind_of_ok ha)
  case case =>
    show execCasei i g s = _
    unfold execCasei
    refine finish_jump_goto ?_
    rw [run_bind_of_ok hv, run_peek_bind, (SameRegs.of_rd hv).pc]
    rfl
  case acb =>
    have h3 : s3.pc = s.pc := (SameCpu.of_putDest hp).pc.trans ((SameRegs.of_dstModify hx).trans (SameRegs.of_getDest hv)).pc
    have hr : v + quick q i.bytes = BitVec.ofInt (8 * i.bytes) (v.toInt + q.toInt) := by
      rw [← quick_toInt q i, BitVec.ofInt_add, BitVec.ofInt_toInt, BitVec.ofInt_toInt]
    have hrun : ∀ next, (if BitVec.ofInt (8 * i.bytes) (v.toInt + q.toInt) = 0 then Next.seq else .jump (s.pc + d.value)) = next →
        (do
          let x ← dstModify g
          let v ← getDest x i.bytes
          let r := v + quick q i.bytes
          putDest x i.bytes r
          let pc ← peek (·.pc)
          if r = 0 then pure .seq else pure (.jump (pc + d.value)) : M Next) s = .ok (next, s3) := by
      rintro _ rfl
      rw [run_bind_of_ok hx, run_bind_of_ok hv]
      simp only [hr]
      rw [run_bind_of_ok hp, run_peek_bind, h3]
      split <;> rfl
    show execAcbi i q g d s = _
    unfold execAcbi
    by_cases h0 : BitVec.ofInt (8 * i.bytes) (v.toInt + q.toInt) = 0
    · rw [if_pos h0] at hrun ⊢
      exact finish_seq_after (hrun _ rfl)
    · rw [if_neg h0] at hrun ⊢
      exact finish_jump_goto (hrun _ rfl)

/-! ### Subroutines -/

theorem run_afterInstr (i : Instr) (s : State) : afterInstr i s = .ok (s.pc + BitVec.ofNat 32 (instrLength i), s) := rfl

theorem exec_bsr {d : Disp} {s : State} (hs : s.calm) (hw : s.writable (s.sp - 4) 4) : exec (.bsr d) s =
    .next (((s.poke (s.sp - 4) 4 (s.pc + BitVec.ofNat 32 (instrLength (.bsr d)))).setSp (s.sp - 4)).goto (s.pc + d.value)) := by
  show execBsr d s = _
  unfold execBsr
  refine finish_jump_goto ?_
  rw [run_bind_of_ok (run_afterInstr _ s), run_bind_of_ok (run_push_of_writable _ hs (by decide) hw), run_peek_bind, State.setSp_pc]
  rfl

theorem exec_ret {d : Disp} {s : State} (hs : s.calm) (hr : s.readable s.sp 4) :
    exec (.ret d) s = .next ((s.setSp (s.sp + 4 + d.value)).goto (s.valueAt s.sp 4)) := by
  show execRet d s = _
  unfold execRet
  refine finish_jump_goto ?_
  rw [run_bind_of_ok (run_pop_of_readable hs (by decide) hr), run_bind_of_ok (run_discard _ _), State.setSp_setSp, State.sp_setSp]
  rfl

/-- Settles O34: a push of the address of the next instruction, a pop of it. -/
theorem subroutineCalls : Obligations.SubroutineCalls := by
  refine ⟨fun d s hs hw => exec_bsr hs hw, fun g s a t ha ht hw => ?_, fun d s hs hr => exec_ret hs hr⟩
  have h := SameRegs.of_ea ha
  have hsp := sp_of_ea ha
  show execJsr g s = _
  unfold execJsr
  refine finish_jump_goto ?_
  have hw' : t.writable (t.sp - 4) 4 := by
    rw [hsp]
    exact hw.of_plat h.plat
  rw [run_bind_of_ok ha, run_bind_of_ok (run_afterInstr _ t), run_bind_of_ok (run_push_of_writable _ ht (by decide) hw'), h.pc, hsp]
  rfl

theorem StacksSame.setSp_sp (s : State) : StacksSame s (s.setSp s.sp) := by
  rw [State.setSp_sp]
  exact ⟨rfl, rfl⟩

/-- Settles O35: the return pops what the call pushed. -/
theorem subroutineRoundTrip : Obligations.SubroutineRoundTrip := by
  intro d s hs hm hw
  refine ⟨_, exec_bsr hs hw, rfl, fun pc => ?_⟩
  generalize hret : s.pc + BitVec.ofNat 32 (instrLength (.bsr d)) = ret
  generalize ht : ({ ((s.poke (s.sp - 4) 4 ret).setSp (s.sp - 4)).goto (s.pc + d.value) with pc := pc } : State) = t
  have hsp : t.sp = s.sp - 4 := by
    rw [← ht]
    exact State.sp_setSp (s.poke (s.sp - 4) 4 ret) (s.sp - 4)
  have hcalm : t.calm := by
    rw [← ht]
    exact State.calm.setSp (s := s.poke (s.sp - 4) 4 ret) hs _
  have hread : t.readable t.sp 4 := by
    rw [hsp]
    refine hw.readable.of_plat ?_
    rw [← ht]
    exact State.setSp_plat _ _
  have hvalue : t.valueAt t.sp 4 = ret := by
    rw [hsp, ← State.valueAt_poke hm (s.sp - 4) (by decide : 4 ≤ 8) ret]
    refine State.valueAt_congr fun x _ => ?_
    rw [← ht]
    exact congrArg (Memory.read · x) (State.setSp_mem (s.poke (s.sp - 4) 4 ret) (s.sp - 4))
  have hback : t.sp + 4 + (Disp.d7 0).value = s.sp := by
    rw [hsp]
    show s.sp - 4 + 4 + 0 = s.sp
    bv_omega
  have hstacks : StacksSame s (t.setSp s.sp) := by
    rw [← ht]
    have h := StacksSame.setSp_sp s
    rw [← State.setSp_setSp s (s.sp - 4)] at h
    unfold State.setSp at h ⊢
    split <;> simp_all [StacksSame, State.goto, State.poke]
  refine ⟨_, exec_ret hcalm hread, hvalue, ?_, ?_, ?_⟩
  · rw [hback]
    exact hstacks
  · show (t.setSp _).regs = _
    rw [State.setSp_regs, ← ht]
    exact State.setSp_regs _ _
  · show (t.setSp _).psr = _
    rw [State.setSp_psr, ← ht]
    exact State.setSp_psr _ _

end Sys2Proof.Machine
end

section
/-! PROOFS. Calls between modules, saved registers, the dedicated registers. -/

namespace Sys2Proof.Machine

open Sys2Proof

/-- A read in a state with the memory and the platform of another. -/
theorem run_memRead_of_same {s t : State} {a : Word} {n : Nat} (ht : t.calm) (hn : 0 < n) (h : s.readable a n)
    (hp : t.plat = s.plat) (hm : t.mem = s.mem) : memRead a n t = .ok (s.valueAt a n, t) := by
  rw [run_memRead_of_readable ht hn (h.of_plat hp), State.valueAt_congr (s := s) (t := t) fun x _ => by rw [hm]]

/-! ### Calls between modules -/

/-- A descriptor is the double-word its two words make (R450). -/
theorem run_readDescriptor {a : Word} {s : State} (hs : s.calm) (h : s.readable a 4) : readDescriptor a s = .ok (s.valueAt a 4, s) := by
  have hlow := run_memRead_of_readable hs (by decide) (State.readable.left (k := 2) (n := 2) h)
  have hhigh : memRead (a + 2) 2 s = _ := run_memRead_of_readable hs (by decide) (State.readable.right (k := 2) (n := 2) h)
  unfold readDescriptor
  rw [run_bind_of_ok hlow, run_bind_of_ok hhigh, run_pure]
  congr 2
  apply BitVec.eq_of_toNat_eq
  have hlt := (s.valueAt a 2).isLt
  rw [State.toNat_valueAt_append s a 2 2, BitVec.toNat_append, ← Nat.shiftLeft_add_eq_or_of_lt hlt, Nat.shiftLeft_eq,
    Nat.mul_comm _ (2 ^ (8 * 2)), Nat.add_comm]
  rfl

/-- A call through a descriptor (R450). -/
theorem run_callDescriptor {desc ret : Word} {s : State} (h : CallReady s desc) : ∃ a u,
    callDescriptor desc ret s = .ok (.jump a, u) ∧ u.goto a = s.called desc ret := by
  obtain ⟨hs, hslot, hstack, hstatic, hprogram⟩ := h
  have hm : desc.setWidth 16 = moduleOf desc := by
    apply BitVec.eq_of_toNat_eq
    simp [moduleOf]
  have h8 : s.sp - 4 - BitVec.ofNat 32 4 = s.sp - 8 := by bv_omega
  generalize hu : (s.poke (s.sp - 4) 2 s.mod).poke (s.sp - 8) 4 ret = u
  have hcalm : u.calm := hu ▸ hs
  have hplat : u.plat = s.plat := hu ▸ rfl
  have hpush : push 4 ret ((s.poke (s.sp - 4) 2 s.mod).setSp (s.sp - 4)) = .ok ((), u.setSp (s.sp - 8)) := by
    have h := run_push_of_writable (s := (s.poke (s.sp - 4) 2 s.mod).setSp (s.sp - 4)) (n := 4) ret
      (State.calm.setSp (s := s.poke _ 2 _) hs _) (by decide)
      (by rw [State.sp_setSp, h8]; exact hstack.of_plat (State.setSp_plat _ _))
    rwa [State.sp_setSp, h8, State.poke_setSp, State.setSp_setSp, hu] at h
  have hstatic' : memRead ((moduleOf desc).setWidth 32) 4 { u.setSp (s.sp - 8) with mod := moduleOf desc } =
      .ok (u.valueAt ((moduleOf desc).setWidth 32) 4, { u.setSp (s.sp - 8) with mod := moduleOf desc }) :=
    run_memRead_of_same (State.calm.setSp hcalm (s.sp - 8)) (by decide) (hstatic.of_plat hplat) (State.setSp_plat u _)
      (State.setSp_mem u _)
  have hprogram' : ∀ sb, memRead ((moduleOf desc).setWidth 32 + 8) 4 { u.setSp (s.sp - 8) with mod := moduleOf desc, sb := sb } =
      .ok (u.valueAt ((moduleOf desc).setWidth 32 + 8) 4, { u.setSp (s.sp - 8) with mod := moduleOf desc, sb := sb }) := fun sb =>
    run_memRead_of_same (State.calm.setSp hcalm (s.sp - 8)) (by decide) (hprogram.of_plat hplat) (State.setSp_plat u _)
      (State.setSp_mem u _)
  refine ⟨u.valueAt ((moduleOf desc).setWidth 32 + 8) 4 + offsetOf desc,
    { u.setSp (s.sp - 8) with mod := moduleOf desc, sb := u.valueAt ((moduleOf desc).setWidth 32) 4 }, ?_, ?_⟩
  · unfold callDescriptor
    simp only [hm]
    rw [run_bind_of_ok (run_getSp s), run_peek_bind, run_bind_of_ok (run_memWrite_of_writable _ hs (by decide) hslot),
      run_bind_of_ok (run_setSp _ _), run_bind_of_ok hpush, run_upd_bind, run_bind_of_ok hstatic', run_upd_bind,
      run_bind_of_ok (hprogram' _)]
    rfl
  · rw [← hu]
    rfl

/-- A return between modules (R452). -/
theorem exec_rxp {d : Disp} {s : State} (hs : s.calm) (hpc : s.readable s.sp 4) (hmod : s.readable (s.sp + 4) 2)
    (hsb : s.readable ((s.valueAt (s.sp + 4) 2).setWidth 32) 4) : exec (.rxp d) s =
    .next (({ s with mod := s.valueAt (s.sp + 4) 2, sb := s.valueAt ((s.valueAt (s.sp + 4) 2).setWidth 32) 4 }.setSp
      (s.sp + 8 + d.value)).goto (s.valueAt s.sp 4)) := by
  generalize hm : s.valueAt (s.sp + 4) 2 = m at hsb ⊢
  have h4 : s.sp + BitVec.ofNat 32 4 = s.sp + 4 := rfl
  have hmod' : memRead (s.sp + 4) 2 (s.setSp (s.sp + 4)) = .ok (m, s.setSp (s.sp + 4)) := by
    rw [run_memRead_of_same (State.calm.setSp hs _) (by decide) hmod (State.setSp_plat _ _) (State.setSp_mem _ _), hm]
  have hsb' : memRead (m.setWidth 32) 4 ({ s.setSp (s.sp + 4) with mod := m }.setSp (s.sp + 4 + 4)) =
      .ok (s.valueAt (m.setWidth 32) 4, { s.setSp (s.sp + 4) with mod := m }.setSp (s.sp + 4 + 4)) :=
    run_memRead_of_same ((State.setSp_within _ _).trans (State.calm.setSp hs (s.sp + 4))) (by decide) hsb
      ((State.setSp_plat _ _).trans (State.setSp_plat s _)) ((State.setSp_mem _ _).trans (State.setSp_mem s _))
  have hsp (w sb) : ({ { s.setSp (s.sp + 4) with mod := m }.setSp w with sb := sb } : State).sp = w := State.sp_setSp _ w
  have hend (w v sb) : ({ { s.setSp (s.sp + 4) with mod := m }.setSp w with sb := sb } : State).setSp v =
      ({ s with mod := m, sb := sb } : State).setSp v := by
    by_cases hps : s.psr.s = true <;> simp [State.setSp, hps]
  have h8 : s.sp + 4 + 4 + d.value = s.sp + 8 + d.value := by bv_omega
  show execRxp d s = _
  unfold execRxp
  refine finish_jump_goto ?_
  rw [run_bind_of_ok (run_pop_of_readable hs (by decide) hpc), h4, run_bind_of_ok (run_getSp _), State.sp_setSp,
    run_bind_of_ok hmod', run_upd_bind, run_bind_of_ok (run_setSp _ _), run_bind_of_ok hsb', run_upd_bind,
    run_bind_of_ok (run_discard _ _), hsp, hend, h8]
  rfl

/-- Settles O36: both calls enter through the descriptor they read. -/
theorem moduleCalls : Obligations.ModuleCalls := by
  refine ⟨fun d s hlink hdesc => ?cxp, fun g s a t ha hr hc => ?cxpd, fun d s hs hpc hmod => exec_rxp hs hpc hmod⟩
  case cxp =>
    intro desc hc
    obtain ⟨a, u, hu, hgoto⟩ := run_callDescriptor (ret := s.pc + BitVec.ofNat 32 (instrLength (.cxp d))) hc
    show execCxp d s = _
    unfold execCxp
    rw [← hgoto]
    refine finish_jump_goto ?_
    have hlink' : memRead (s.modAddr + 4) 4 s = .ok (s.valueAt (s.mod.setWidth 32 + 4) 4, s) := run_memRead_of_readable hc.calm (by decide) hlink
    rw [run_peek_bind, run_bind_of_ok hlink',
      run_bind_of_ok (run_readDescriptor hc.calm hdesc), run_bind_of_ok (run_afterInstr _ s)]
    exact hu
  case cxpd =>
    obtain ⟨b, u, hu, hgoto⟩ := run_callDescriptor (ret := s.pc + BitVec.ofNat 32 (instrLength (.cxpd g))) hc
    have h := SameRegs.of_ea ha
    show execCxpd g s = _
    unfold execCxpd
    rw [← hgoto]
    refine finish_jump_goto ?_
    rw [run_bind_of_ok ha, run_bind_of_ok (run_readDescriptor hc.calm (hr.of_plat h.plat)), run_bind_of_ok (run_afterInstr _ t), h.pc]
    exact hu

/-! ### Saved registers -/

/-- Four bytes more. -/
theorem four_mul_succ (k : Nat) : (4 : Word) + BitVec.ofNat 32 (4 * k) = BitVec.ofNat 32 (4 * (k + 1)) := by
  apply BitVec.eq_of_toNat_eq
  simp
  omega

theorem sub_four_mul_succ (sp : Word) (k : Nat) : sp - 4 - BitVec.ofNat 32 (4 * k) = sp - BitVec.ofNat 32 (4 * (k + 1)) := by
  rw [← four_mul_succ]
  bv_omega

theorem add_four_mul_succ (sp : Word) (k : Nat) : sp + 4 + BitVec.ofNat 32 (4 * k) = sp + BitVec.ofNat 32 (4 * (k + 1)) := by
  rw [← four_mul_succ]
  bv_omega

/-- The bytes of k + 1 double-words below an address: the last one pushed first. -/
theorem bytesOf_below (sp : Word) (k : Nat) : bytesOf (sp - BitVec.ofNat 32 (4 * (k + 1))) (4 * (k + 1)) =
    bytesOf (sp - BitVec.ofNat 32 (4 * (k + 1))) (4 * k) ++ bytesOf (sp - 4) 4 := by
  rw [show 4 * (k + 1) = 4 * k + 4 by omega, bytesOf_append]
  congr 2
  rw [show 4 * k + 4 = 4 * (k + 1) by omega, ← four_mul_succ]
  bv_omega

theorem State.pushes_sp (vs : List Word) (s : State) : (s.pushes vs).sp = s.sp - BitVec.ofNat 32 (4 * vs.length) := by
  induction vs generalizing s with
  | nil => simp [State.pushes]
  | cons v t ih => rw [State.pushes, ih, State.sp_setSp, List.length_cons, sub_four_mul_succ]

theorem State.pushes_read_other {vs : List Word} {s : State} {x : Nat}
    (hx : x ∉ bytesOf (s.sp - BitVec.ofNat 32 (4 * vs.length)) (4 * vs.length)) : (s.pushes vs).mem.read x = s.mem.read x := by
  induction vs generalizing s with
  | nil => rfl
  | cons v t ih =>
    rw [List.length_cons, bytesOf_below, List.mem_append, not_or] at hx
    rw [State.pushes, ih (by rw [State.sp_setSp, sub_four_mul_succ]; exact hx.1), State.setSp_mem]
    exact State.read_poke_other s _ hx.2

/-- Each double-word pushed is found in its slot. -/
theorem State.valueAt_pushes {vs : List Word} {s : State} (hm : s.mem.wf) (hn : 4 * vs.length ≤ 2 ^ 32) {k : Nat} {v : Word}
    (hk : vs[k]? = some v) : (s.pushes vs).valueAt (s.sp - BitVec.ofNat 32 (4 * (k + 1))) 4 = v := by
  induction vs generalizing s k with
  | nil => cases hk
  | cons w t ih =>
    have hwf : ((s.poke (s.sp - 4) 4 w).setSp (s.sp - 4)).mem.wf := by
      rw [State.setSp_mem]
      exact State.poke_mem_wf hm _ _ _
    cases k with
    | zero =>
      cases hk
      have hlast : (s.pushes (v :: t)).valueAt (s.sp - 4) 4 = ((s.poke (s.sp - 4) 4 v).setSp (s.sp - 4)).valueAt (s.sp - 4) 4 := by
        refine State.valueAt_congr fun x hx =>
          State.pushes_read_other (vs := t) (s := (s.poke (s.sp - 4) 4 v).setSp (s.sp - 4)) fun hy => ?_
        rw [State.sp_setSp, sub_four_mul_succ] at hy
        have hnd := bytesOf_nodup (s.sp - BitVec.ofNat 32 (4 * (t.length + 1))) hn
        rw [List.length_cons, bytesOf_below] at hnd
        exact (List.nodup_append.1 hnd).2.2 x hy x hx rfl
      show (s.pushes (v :: t)).valueAt (s.sp - 4) 4 = v
      rw [hlast, State.valueAt_setSp, State.valueAt_poke hm _ (by decide)]
    | succ k =>
      have h := ih hwf (by rw [List.length_cons] at hn; omega) hk
      rw [State.sp_setSp, sub_four_mul_succ] at h
      exact h

/-- Registers pushed on external memory (R455, R487). -/
theorem run_pushRegs {l : List Reg} {s : State} (hs : s.calm)
    (hw : s.writable (s.sp - BitVec.ofNat 32 (4 * l.length)) (4 * l.length)) :
    pushRegs l s = .ok ((), s.pushes (l.map s.regs.get)) := by
  induction l generalizing s with
  | nil => rfl
  | cons r t ih =>
    have hfirst : s.writable (s.sp - 4) 4 := fun x hx => hw x (by
      rw [List.length_cons, bytesOf_below]
      exact List.mem_append_right _ hx)
    have hrest : ((s.poke (s.sp - 4) 4 (s.regs.get r)).setSp (s.sp - 4)).writable
        (((s.poke (s.sp - 4) 4 (s.regs.get r)).setSp (s.sp - 4)).sp - BitVec.ofNat 32 (4 * t.length)) (4 * t.length) := by
      rw [State.sp_setSp, sub_four_mul_succ]
      refine State.writable.of_plat (s := s) (fun x hx => hw x ?_) (State.setSp_plat _ _)
      rw [List.length_cons, bytesOf_below]
      exact List.mem_append_left _ hx
    unfold pushRegs
    rw [run_bind_of_ok (run_getReg r s), run_bind_of_ok (run_push_of_writable _ hs (by decide) hfirst)]
    refine (ih (State.calm.setSp (s := s.poke _ 4 _) hs _) hrest).trans ?_
    rw [State.setSp_regs]
    rfl

theorem State.pops_mem (l : List Reg) (s : State) : (s.pops l).mem = s.mem := by
  induction l generalizing s with
  | nil => rfl
  | cons r t ih => exact (ih _).trans (State.setSp_mem _ _)

theorem State.pops_plat (l : List Reg) (s : State) : (s.pops l).plat = s.plat := by
  induction l generalizing s with
  | nil => rfl
  | cons r t ih => exact (ih _).trans (State.setSp_plat _ _)

theorem State.pops_calm (l : List Reg) {s : State} (hs : s.calm) : (s.pops l).calm := by
  induction l generalizing s with
  | nil => exact hs
  | cons r t ih => exact ih (State.calm.setSp (s := s.setReg _ _) hs _)

theorem State.pops_fp (l : List Reg) (s : State) : (s.pops l).fp = s.fp := by
  induction l generalizing s with
  | nil => rfl
  | cons r t ih => exact (ih _).trans (State.setSp_fp _ _)

theorem State.pops_sp (l : List Reg) (s : State) : (s.pops l).sp = s.sp + BitVec.ofNat 32 (4 * l.length) := by
  induction l generalizing s with
  | nil => simp [State.pops]
  | cons r t ih => rw [State.pops, ih, State.sp_setSp, List.length_cons, add_four_mul_succ]

theorem State.pops_get_other {l : List Reg} {s : State} {r : Reg} (h : r ∉ l) : (s.pops l).regs.get r = s.regs.get r := by
  induction l generalizing s with
  | nil => rfl
  | cons q t ih =>
    rw [List.mem_cons, not_or] at h
    rw [State.pops, ih h.2, State.setSp_regs, State.setReg_regs, Regs.get_set_other _ _ h.1]

/-- Each register popped holds what its slot held. -/
theorem State.pops_get {l : List Reg} {s : State} (hl : l.Nodup) {k : Nat} {r : Reg} (hk : l[k]? = some r) :
    (s.pops l).regs.get r = s.valueAt (s.sp + BitVec.ofNat 32 (4 * k)) 4 := by
  induction l generalizing s k with
  | nil => cases hk
  | cons q t ih =>
    obtain ⟨hq, ht⟩ := List.nodup_cons.1 hl
    cases k with
    | zero =>
      cases hk
      rw [State.pops, State.pops_get_other hq, State.setSp_regs, State.setReg_regs, Regs.get_set_same]
      simp
    | succ k =>
      rw [State.pops, ih ht hk, State.sp_setSp, add_four_mul_succ, State.valueAt_setSp]
      rfl

/-- Registers popped from external memory (R456, R488). -/
theorem run_popRegs {l : List Reg} {s : State} (hs : s.calm) (hr : s.readable s.sp (4 * l.length)) :
    popRegs l s = .ok ((), s.pops l) := by
  induction l generalizing s with
  | nil => rfl
  | cons r t ih =>
    rw [List.length_cons, show 4 * (t.length + 1) = 4 + 4 * t.length by omega] at hr
    unfold popRegs
    rw [run_bind_of_ok (run_pop_of_readable hs (by decide) hr.left), run_bind_of_ok (run_setReg _ _ _)]
    have hcomm : (s.setSp (s.sp + BitVec.ofNat 32 4)).setReg r (s.valueAt s.sp 4) = (s.setReg r (s.valueAt s.sp 4)).setSp (s.sp + 4) := by
      by_cases hps : s.psr.s = true <;> simp [State.setSp, State.setReg, hps]
    rw [hcomm]
    exact ih (State.calm.setSp (s := s.setReg _ _) hs _) (by
      rw [State.sp_setSp]
      exact hr.right.of_plat (State.setSp_plat _ _))

theorem regsUp_nodup : regsUp.Nodup := by decide

theorem saved_length_le (l : Byte) : (saved l).length ≤ 8 := List.length_filter_le _ _

theorem restored_nodup (l : Byte) : (restored l).Nodup := (List.nodup_reverse.2 regsUp_nodup).filter _

theorem exec_save {l : Byte} {s : State} (hs : s.calm)
    (hw : s.writable (s.sp - BitVec.ofNat 32 (4 * (saved l).length)) (4 * (saved l).length)) :
    exec (.save l) s = .next (s.after (.save l) (s.pushes ((saved l).map s.regs.get))) :=
  finish_seq_after (run_bind_of_ok (run_pushRegs (l := saved l) hs hw))

theorem exec_restore {l : Byte} {s : State} (hs : s.calm) (hr : s.readable s.sp (4 * (restored l).length)) :
    exec (.restore l) s = .next (s.after (.restore l) (s.pops (restored l))) :=
  finish_seq_after (run_bind_of_ok (run_popRegs (l := restored l) hs hr))

theorem exec_enter {l : Byte} {d : Disp} {s : State} (hs : s.calm) (hfp : s.writable (s.sp - 4) 4)
    (hw : s.writable (s.sp - 4 - d.value - BitVec.ofNat 32 (4 * (saved l).length)) (4 * (saved l).length)) :
    exec (.enter l d) s = .next (s.after (.enter l d)
      ({ (s.poke (s.sp - 4) 4 s.fp).setSp (s.sp - 4 - d.value) with fp := s.sp - 4 }.pushes ((saved l).map s.regs.get))) := by
  generalize hu : ({ (s.poke (s.sp - 4) 4 s.fp).setSp (s.sp - 4 - d.value) with fp := s.sp - 4 } : State) = u
  have hcomm : ({ (s.poke (s.sp - 4) 4 s.fp).setSp (s.sp - 4) with fp := s.sp - 4 } : State).setSp (s.sp - 4 - d.value) = u := by
    rw [← hu]
    by_cases hps : s.psr.s = true <;> simp [State.setSp, State.poke, hps]
  have hcalm : u.calm := by
    rw [← hu]
    exact (State.setSp_within _ _).trans hs
  have hsp : u.sp = s.sp - 4 - d.value := by
    rw [← hu]
    exact State.sp_setSp (s.poke (s.sp - 4) 4 s.fp) _
  have hregs : u.regs = s.regs := by
    rw [← hu]
    exact State.setSp_regs (s.poke (s.sp - 4) 4 s.fp) _
  have hplat : u.plat = s.plat := by
    rw [← hu]
    exact State.setSp_plat (s.poke (s.sp - 4) 4 s.fp) _
  show execEnter l d s = _
  unfold execEnter
  refine finish_seq_after ?_
  rw [run_peek_bind, run_bind_of_ok (run_push_of_writable (n := 4) s.fp hs (by decide) hfp), run_bind_of_ok (run_getSp _),
    State.sp_setSp, run_upd_bind, run_bind_of_ok (run_setSp _ _)]
  have hrun := run_pushRegs (l := saved l) hcalm (by rw [hsp]; exact hw.of_plat hplat)
  rw [hregs] at hrun
  exact (congrArg _ hcomm).trans (run_bind_of_ok hrun)

theorem exec_exit {l : Byte} {s : State} (hs : s.calm) (hr : s.readable s.sp (4 * (restored l).length)) (hfp : s.readable s.fp 4) :
    exec (.exit l) s = .next (s.after (.exit l) { (s.pops (restored l)).setSp (s.fp + 4) with fp := s.valueAt s.fp 4 }) := by
  generalize hu : s.pops (restored l) = u
  have hpop : pop 4 (u.setSp s.fp) = .ok (s.valueAt s.fp 4, u.setSp (s.fp + 4)) := by
    have hcalm : (u.setSp s.fp).calm := State.calm.setSp (hu ▸ State.pops_calm _ hs) _
    have hplat : (u.setSp s.fp).plat = s.plat := (State.setSp_plat _ _).trans (hu ▸ State.pops_plat _ s)
    have hmem : (u.setSp s.fp).mem = s.mem := (State.setSp_mem _ _).trans (hu ▸ State.pops_mem _ s)
    rw [run_pop_of_readable hcalm (by decide) (by rw [State.sp_setSp]; exact hfp.of_plat hplat), State.sp_setSp, State.setSp_setSp,
      State.valueAt_congr (s := s) fun x _ => by rw [hmem]]
    rfl
  have hpops : popRegs (restoreList l) s = .ok ((), u) := hu ▸ run_popRegs (l := restored l) hs hr
  show execExit l s = _
  unfold execExit
  refine finish_seq_after ?_
  rw [run_bind_of_ok hpops, run_peek_bind, show u.fp = s.fp from hu ▸ State.pops_fp _ s,
    run_bind_of_ok (run_setSp _ _), run_bind_of_ok hpop]
  rfl

/-- Settles O37: the lists as they are pushed and popped, and the slots by the sequence of pushes. -/
theorem stackFrames : Obligations.StackFrames := by
  refine ⟨fun l s hs hw => ⟨exec_save hs hw, fun hm k r hk => ?_, ?_⟩,
    fun l s hs hr => ⟨exec_restore hs hr, fun k r hk => State.pops_get (restored_nodup l) hk, fun r h => State.pops_get_other h,
      State.pops_sp _ s⟩,
    fun l d s hs hfp hw => exec_enter hs hfp hw, fun l s hs hr hfp => exec_exit hs hr hfp⟩
  · have hlen := saved_length_le l
    refine State.valueAt_pushes hm (by rw [List.length_map]; omega) ?_
    rw [List.getElem?_map, hk]
    rfl
  · rw [State.pushes_sp, List.length_map]

/-! ### Simple control -/

/-- Settles O38: each by its meaning; FLAG looks at F. -/
theorem simpleControl : Obligations.SimpleControl := by
  intro s
  refine ⟨finish_seq (i := .nop) (m := pure .seq) rfl, ?dia, ?wait, fun hf => ?flag⟩
  case dia =>
    show execDia s = _
    unfold execDia
    exact finish_jump_goto rfl
  case wait =>
    show execWait s = _
    unfold execWait
    exact finish_seq (u := { s with op := .waiting }) rfl
  show execFlag s = _
  unfold execFlag
  refine finish_seq (u := s) ?_
  rw [run_peek_bind, hf]
  rfl

/-! ### The dedicated registers -/

theorem run_privileged_supervisor {s : State} (hu : s.psr.u = false) : privileged s = .ok ((), s) := by
  rw [run_privileged, hu]
  rfl

theorem LowReplaced.eq_mergeHalf {m : Nat} {old x : Half} {v : BitVec m} (h : LowReplaced old v x) : x = mergeHalf old v := by
  apply BitVec.eq_of_getLsbD_eq
  intro k hk
  rw [h k hk, mergeHalf, BitVec.getLsbD_setWidth, mergeLow_getLsbD _ _ (by omega), BitVec.getLsbD_setWidth]
  simp [hk, show k < 32 by omega]

/-- LPR past its privilege check: the operand is read and the register written (R481). -/
theorem execLpri_of {i : Size} {a : AReg} {g : Gen} {s t u : State} {v : BitVec (8 * i.bytes)} (hp : aregPrivilege a s = .ok ((), s))
    (hv : rd g i.bytes s = .ok (v, t)) (hw : writeAreg a v t = .ok ((), u)) : exec (.lpri i a g) s = .next (s.after (.lpri i a g) u) := by
  show execLpri i a g s = _
  unfold execLpri
  refine finish_seq_after ?_
  rw [run_bind_of_ok hp, run_bind_of_ok hv, run_bind_of_ok hw, run_pure]

/-- Settles O46, a register at a time; two of them need Supervisor mode. -/
theorem loadDedicatedRegister : Obligations.LoadDedicatedRegister := by
  intro i g s v t x y hv
  have ht := SameRegs.of_rd hv
  refine ⟨fun h => ?_, fun h => ?_, fun h => ?_, fun hu h => ?_, fun h => ?_, fun h => ?_, fun hu h => ?_⟩
  · exact execLpri_of rfl hv (by rw [h.eq_mergeLow, ← ht.fp]; rfl)
  · exact execLpri_of rfl hv (by rw [h.eq_mergeLow, ← ht.sb]; rfl)
  · exact execLpri_of rfl hv (by rw [h.eq_mergeLow]; rfl)
  · exact execLpri_of (run_privileged_supervisor hu) hv (by rw [h.eq_mergeLow, ← ht.intbase]; rfl)
  · exact execLpri_of rfl hv (by rw [h.eq_mergeHalf, ← ht.mod]; rfl)
  · exact execLpri_of (u := { t with psr := Psr.ofBits y, psrTouched := true }) rfl hv (by rw [h.eq_mergeHalf, ← ht.psr]; rfl)
  · exact execLpri_of (u := { t with psr := Psr.ofBits y, psrTouched := true }) (run_privileged_supervisor hu) hv
      (by rw [h.eq_mergeHalf, ← ht.psr]; rfl)

/-- SPR past its privilege check: the register is read and its value stored (R482). -/
theorem run_spri {i : Size} {a : AReg} {dst : Gen} {s s' s1 s2 : State} {v : Word} {d : Dest} (hp : aregPrivilege a s = .ok ((), s))
    (hv : readAreg a s = .ok (v, s')) (hd : dstWrite dst s' = .ok (d, s1)) (hput : putDest d i.bytes (v.setWidth _) s1 = .ok ((), s2)) :
    exec (.spri i a dst) s = .next (s.after (.spri i a dst) s2) := by
  show execSpri i a dst s = _
  unfold execSpri
  refine finish_seq_after ?_
  rw [run_bind_of_ok hp, run_bind_of_ok hv]
  exact run_storeOp hd hput

theorem setWidth_eq_ofNat {w n : Nat} (v : BitVec w) : v.setWidth n = BitVec.ofNat n v.toNat := (BitVec.ofNat_toNat n v).symm

/-- A register that is read without a check and changes nothing completes its store. -/
theorem spri_storeCompletes {i : Size} {a : AReg} {dst : Gen} {v : State → Word} (hp : ∀ s, aregPrivilege a s = .ok ((), s))
    (hv : ∀ s, readAreg a s = .ok (v s, s)) : StoreCompletes (.spri i a dst) dst i.bytes (fun s => BitVec.ofNat _ (v s).toNat) :=
  fun s _ _ _ hd hput => run_spri (hp s) (hv s) hd (by rw [setWidth_eq_ofNat]; exact hput)

/-- The PSR as it is read: its named bits, and all of them before anything wrote it (R59, R61). -/
theorem readPsr_spec (s : State) : ∃ (w : Half) (k : Nat), readPsr s = .ok (w, { s with freeCount := k }) ∧ Psr.ofBits w = s.psr ∧
    (s.psrTouched = false → w = s.psr.toBits) := by
  obtain ⟨w, k, h⟩ := readPsr_ok (s := s)
  refine ⟨w, k, h, readPsr_named h, fun ht => ?_⟩
  unfold readPsr at h
  rw [run_get_bind, if_neg (by rw [ht]; decide), run_pure] at h
  exact (Prod.mk.inj (Except.ok.inj h)).1.symm

theorem toNat_zeroExtend_half (w : Half) (n : Nat) : BitVec.setWidth n (BitVec.setWidth 32 w) = BitVec.ofNat n w.toNat := by
  rw [setWidth_eq_ofNat, BitVec.toNat_setWidth_of_le (by omega)]

/-- Settles O47: the register is read before the destination is located. -/
theorem storeDedicatedRegister : Obligations.StoreDedicatedRegister := by
  intro i dst
  refine ⟨?us, ?mod, spri_storeCompletes (fun _ => rfl) (fun _ => rfl), spri_storeCompletes (fun _ => rfl) (fun _ => rfl),
    spri_storeCompletes (fun _ => rfl) (fun _ => rfl), fun s d s1 s2 hu hd hput =>
      run_spri (v := s.intbase) (run_privileged_supervisor hu) rfl hd (by rw [setWidth_eq_ofNat]; exact hput), fun s hu => ?psr⟩
  case us =>
    intro s d s1 s2 hd hput
    refine run_spri (v := (s.psr.toBits.setWidth 8).setWidth 32) rfl rfl hd ?_
    rw [setWidth_eq_ofNat, BitVec.toNat_setWidth_of_le (by omega), BitVec.toNat_setWidth]
    exact hput
  case mod =>
    intro s d s1 s2 hd hput
    refine run_spri (v := s.mod.setWidth 32) rfl rfl hd ?_
    rw [toNat_zeroExtend_half]
    exact hput
  case psr =>
    obtain ⟨w, k, hread, hnamed, hfresh⟩ := readPsr_spec s
    refine ⟨w, k, hnamed, hfresh, fun d s1 s2 hd hput => ?_⟩
    refine run_spri (v := w.setWidth 32) (run_privileged_supervisor hu) ?_ hd (by rw [toNat_zeroExtend_half]; exact hput)
    exact run_bind_of_ok hread

/-! ### The PSR's bits, the stack pointer, CFG -/

theorem mergeHalf_getLsbD {n : Nat} (old : Half) (v : BitVec n) {k : Nat} (hk : k < 16) :
    (mergeHalf old v).getLsbD k = if k < n then v.getLsbD k else old.getLsbD k := by
  rw [mergeHalf, BitVec.getLsbD_setWidth, mergeLow_getLsbD _ _ (by omega), BitVec.getLsbD_setWidth]
  simp [hk, show k < 32 by omega]

/-- Bits set in the low part of a word set them in the word, and bits cleared there clear them. -/
theorem mergeHalf_or {n : Nat} (old : Half) (v : BitVec n) :
    mergeHalf old (old.setWidth n ||| v) = old ||| v.setWidth 16 := by
  apply BitVec.eq_of_getLsbD_eq
  intro k hk
  rw [mergeHalf_getLsbD _ _ hk]
  by_cases h : k < n
  · simp [h, hk]
  · simp [h, BitVec.getLsbD_of_ge v k (by omega)]

theorem mergeHalf_andNot {n : Nat} (old : Half) (v : BitVec n) :
    mergeHalf old (old.setWidth n &&& ~~~v) = old &&& ~~~(v.setWidth 16) := by
  apply BitVec.eq_of_getLsbD_eq
  intro k hk
  rw [mergeHalf_getLsbD _ _ hk]
  by_cases h : k < n
  · simp [h, hk]
  · simp [h, hk, BitVec.getLsbD_of_ge v k (by omega)]

/-- The length field and the mode that BISPSR and BICPSR ask for (R484, R485). -/
theorem psrLength_ok {i : Size} {s : State} (h : i = .b ∨ (i = .w ∧ s.psr.u = false)) :
    (i != .d) = true ∧ psrLengthPrivilege i s = .ok ((), s) := by
  rcases h with rfl | ⟨rfl, hu⟩
  · exact ⟨rfl, rfl⟩
  · exact ⟨rfl, run_privileged_supervisor hu⟩

/-- Settles O48. -/
theorem psrStackAndConfig : Obligations.PsrStackAndConfig := by
  refine ⟨fun i g s v t hi hv => ?bits, fun i g s v t hv => ?adjsp, fun o s hu => ?setcfg⟩
  case bits =>
    obtain ⟨hd, hpriv⟩ := psrLength_ok hi
    have hpsr := (SameRegs.of_rd hv).psr
    constructor
    · show execBispsri i g s = _
      unfold execBispsri
      rw [← mergeHalf_or, ← hpsr, hd]
      refine finish_seq (u := { t with psr := _, psrTouched := true, dirty := [] }) ?_
      rw [run_bind_of_ok (run_require_true _ s), run_bind_of_ok hpriv, run_bind_of_ok hv, run_peek_bind]
      rfl
    · show execBicpsri i g s = _
      unfold execBicpsri
      rw [← mergeHalf_andNot, ← hpsr, hd]
      refine finish_seq (u := { t with psr := _, psrTouched := true, dirty := [] }) ?_
      rw [run_bind_of_ok (run_require_true _ s), run_bind_of_ok hpriv, run_bind_of_ok hv, run_peek_bind]
      rfl
  case adjsp =>
    show execAdjspi i g s = _
    unfold execAdjspi
    refine finish_seq_after ?_
    rw [run_bind_of_ok hv, run_bind_of_ok (run_getSp t)]
    rfl
  case setcfg =>
    show execSetcfg o s = _
    unfold execSetcfg
    refine finish_seq_after ?_
    rw [run_bind_of_ok (run_privileged_supervisor hu)]
    rfl

end Sys2Proof.Machine
end

section
/-! PROOFS. The machine's cycle, the timers, the operands a floating-point instruction moves. -/

namespace Sys2Proof.Machine

open Sys2Proof

/-! ### The checks of a step -/

theorem step_of_arrive {s u : State} (h : arrive s = .ok ((), u)) : step s = stepChecks u := by
  unfold step
  rw [h]

/-- With no interrupt and no trace trap the instruction at PC runs. -/
theorem stepChecks_runs {u : State} (hop : u.op = .executing) (hi : u.interruptPending = false) (hp : u.psr.p = false) :
    stepChecks u = runInstruction exec u := by
  unfold stepChecks
  rw [hop, hi, hp]
  rfl

/-- Settles O4: the decoder's answer is run from the traced state. -/
theorem stepRunsDecodedInstruction : Obligations.StepRunsDecodedInstruction := by
  intro s u i rest ha hop hi hp hd
  rw [step_of_arrive ha, stepChecks_runs hop hi hp]
  unfold runInstruction
  rw [hd]
  rfl

theorem interruptPending_of_nmi {u : State} (h : u.nmiLatch = true) : u.interruptPending = true := by
  unfold State.interruptPending
  rw [h]
  rfl

theorem interruptSequence_of_nmi {u : State} {ret : Word} (h : u.nmiLatch = true) : interruptSequence ret u = nmiSequence ret u := by
  unfold interruptSequence
  rw [run_peek_bind, h]
  rfl

theorem interruptSequence_of_maskable {u : State} {ret : Word} (h : u.nmiLatch = false) :
    interruptSequence ret u = maskableSequence ret u := by
  unfold interruptSequence
  rw [run_peek_bind, h]
  rfl

/-- The outcome depends on what a computation does from this state alone. -/
theorem settled_congr {α : Type} {m k : M α} {s : State} (h : m s = k s)
    (hcut : ∀ w, m { s with within := w } = k { s with within := w }) : settled m s = settled k s := by
  unfold settled dueBytes
  rw [h]
  simp only [hcut]

/-- Settles O5: the checks in their order, and which of the two interrupts the sequence takes. -/
theorem stepTakesExceptionsInOrder : Obligations.StepTakesExceptionsInOrder := by
  intro s u ha
  rw [step_of_arrive ha]
  have hquiet : u.nmiLatch = false → (u.psr.i && u.irqRequest) = false → u.interruptPending = false := fun h1 h2 => by
    unfold State.interruptPending
    rw [h1, h2]
    rfl
  have hpending : u.op = .waiting ∨ u.op = .executing → u.interruptPending = true →
      stepChecks u = settled (interruptSequence u.pc) u := fun hop hi => by
    unfold stepChecks
    rcases hop with h | h <;> rw [h, hi] <;> rfl
  refine ⟨fun hop => ?_, fun hop h1 h2 => ?_, fun hop h => ?_, fun hop h1 hi hr => ?_, fun hop h1 h2 hp => ?_⟩
  · unfold stepChecks
    rw [hop]
  · unfold stepChecks
    rw [hop, hquiet h1 h2]
    rfl
  · rw [hpending hop (interruptPending_of_nmi h)]
    exact settled_congr (interruptSequence_of_nmi h) fun _ => interruptSequence_of_nmi h
  · have hi : u.interruptPending = true := by
      unfold State.interruptPending
      rw [hi, hr, Bool.and_self, Bool.or_true]
    rw [hpending hop hi]
    exact settled_congr (interruptSequence_of_maskable h1) fun _ => interruptSequence_of_maskable h1
  · unfold stepChecks
    rw [hop, hquiet h1 h2, hp]
    rfl

/-! ### Code in memory -/

theorem mem_insertAddr {d : List Nat} {a x : Nat} : x ∈ insertAddr d a ↔ x ∈ d ∨ x = a := by
  induction d with
  | nil => simp [insertAddr]
  | cons b t ih =>
    unfold insertAddr
    split
    · simp only [List.mem_cons]
      tauto
    · split
      · next h => simp [h, or_comm]
      · simp only [List.mem_cons, ih]
        tauto

theorem mem_insertAll {l d : List Nat} {x : Nat} : x ∈ insertAll d l ↔ x ∈ d ∨ x ∈ l := by
  induction l generalizing d with
  | nil => simp [insertAll]
  | cons a t ih =>
    rw [insertAll, ih, mem_insertAddr, List.mem_cons]
    tauto

/-- Where the first byte cannot be executed nothing is fetched. -/
theorem codeBytes_of_not_fetchable {s : State} (h : s.fetchable s.pc = false) : s.codeBytes = [] := by
  unfold State.codeBytes
  cases maxLength with
  | zero => rfl
  | succ n =>
    unfold State.fetchFrom
    rw [h]
    rfl

theorem decodeWith_nil (c : Codes) : decodeWith c [] = .bad .truncated := rfl

/-- External memory ends below the top block. -/
theorem externalEnd_le_topBlock : Config.externalEnd ≤ Config.topBlock := by decide

/-- Settles O6: the byte is memory, so that what keeps it from being fetched is the store. -/
theorem storedCodeNeedsPurge : Obligations.StoredCodeNeedsPurge := by
  refine ⟨fun s u ha hop hi hp hr hdirty => ?stale, fun s a n v x => mem_insertAll, fun d s => ?branch⟩
  case stale =>
    obtain ⟨hlt, hmem⟩ := hr u.pc.toNat (mem_bytesOf_of_mem (mem_byteAddrs.2 ⟨0, by decide, by simp⟩))
    have hcode : u.codeBytes = [] := codeBytes_of_not_fetchable (by simp [State.fetchable, hdirty])
    have hfault : u.fetchFault = .staleFetch := by
      obtain ⟨k, hk⟩ := Option.isSome_iff_exists.1 hmem
      have htop := externalEnd_le_topBlock
      simp [State.fetchFault, hcode, hk, Nat.not_le.2 hlt, Nat.not_le.2 (Nat.lt_of_lt_of_le hlt htop)]
    rw [step_of_arrive ha, stepChecks_runs hop hi hp]
    unfold runInstruction
    rw [hcode, decodeWith_nil, ← hfault]
    rfl
  case branch =>
    have h := branchesAndJumps.1
    obtain ⟨-, -, -, -, -, -, -, -, -, -, -, -, -, -, hbr, -⟩ := h
    exact ⟨_, hbr d s, rfl⟩

/-- Settles O2: each word is decoded. -/
theorem specWordsDecode : Obligations.SpecWordsDecode := by
  refine ⟨?_, ?_, ?_, ?_, ?_, ?_, ?_, ?_, ?_⟩ <;> rfl

/-! ### Timers -/

/-- A timer that does not change leaves the state. -/
theorem State.setTimer_timer (s : State) (k : TimerId) : s.setTimer k (s.timer k) = s := by cases k <;> rfl

theorem run_event_tick (k : TimerId) (s : State) : event (.tick k) s = .ok ((), s.setTimer k (s.timer k).tick) := rfl

theorem run_event_txaRise (k : TimerId) (s : State) : event (.txaRise k) s = .ok ((), s.setTimer k (s.timer k).txaRise) := rfl

theorem run_event_txbRise (k : TimerId) (s : State) : event (.txbRise k) s = .ok ((), s.setTimer k (s.timer k).txbRise) := rfl

theorem Timer.countDown_stopped {t : Timer} (h : t.tcs = false) : t.countDown = t := by
  unfold Timer.countDown
  rw [h]
  rfl

theorem Timer.countDown_running {t : Timer} (h : t.tcs = true) (hc : t.tc ≠ 1) : t.countDown = { t with tc := t.tc - 1 } := by
  have h0 : t.tc - 1 ≠ 0 := fun e => hc (by bv_omega)
  unfold Timer.countDown
  rw [if_pos h]
  simp only [if_neg h0]

theorem Timer.countDown_last {t : Timer} (h : t.tcs = true) (hc : t.tc = 1) : t.countDown =
    if t.nextB then { t with tc := t.trcb, ipfb := true, nextB := false, txa := !t.txa }
    else { t with tc := t.trca, ipfa := true, nextB := true, txa := !t.txa } := by
  have h0 : t.tc - 1 = 0 := by bv_omega
  unfold Timer.countDown
  rw [if_pos h]
  simp only [if_pos h0]

/-- Settles O60, by mode. -/
theorem timerCounts : Obligations.TimerCounts := by
  intro s k t
  have tick1 (h : t.tmc = .mode1) : t.tick = t.countDown := by unfold Timer.tick; rw [h]
  have tick3 (h : t.tmc = .mode3) : t.tick = { t with tc := t.tc - 1, tcs := t.tcs || t.tc == 0 } := by unfold Timer.tick; rw [h]
  have rise2 (h : t.tmc = .mode2) : t.txbRise = t.countDown := by unfold Timer.txbRise; rw [h]
  have same : s.setTimer k t = s := State.setTimer_timer s k
  refine ⟨fun h hs => ?_, fun h hs hc => ?_, fun h hs hc hb => ?_, fun h hs hc hb => ?_, fun h => ?_, fun h => ?_, fun h => ?_,
    fun h hs hc => ?_, fun h => ?_, fun h => ⟨?_, ?_, ?_⟩⟩
  · rw [run_event_tick, show (s.timer k).tick = t from (tick1 h).trans (Timer.countDown_stopped hs), same]
  · rw [run_event_tick, show (s.timer k).tick = _ from (tick1 h).trans (Timer.countDown_running hs hc)]
  · rw [run_event_tick, show (s.timer k).tick = _ from (tick1 h).trans (Timer.countDown_last hs hc), hb]
    rfl
  · rw [run_event_tick, show (s.timer k).tick = _ from (tick1 h).trans (Timer.countDown_last hs hc), hb]
    rfl
  · rw [run_event_tick, show (s.timer k).tick = _ from tick3 h]
  · rw [run_event_txaRise, Timer.txaRise, show (s.timer k).tmc = _ from h]
  · rw [run_event_txbRise, Timer.txbRise, show (s.timer k).tmc = _ from h]
  · rw [run_event_txbRise, show (s.timer k).txbRise = _ from (rise2 h).trans (Timer.countDown_running hs hc)]
  · rw [run_event_tick, Timer.tick, show (s.timer k).tmc = _ from h]
    exact congrArg (fun x => Except.ok ((), x)) same
  · rw [run_event_tick, Timer.tick, show (s.timer k).tmc = _ from h]
    exact congrArg (fun x => Except.ok ((), x)) same
  · rw [run_event_txaRise, Timer.txaRise, show (s.timer k).tmc = _ from h]
    exact congrArg (fun x => Except.ok ((), x)) same
  · rw [run_event_txbRise, Timer.txbRise, show (s.timer k).tmc = _ from h]
    exact congrArg (fun x => Except.ok ((), x)) same

/-! ### Operands of floating type -/

/-- An operand that is not a register is read by the CPU. -/
theorem fread_of_cpu {g : Gen} (hg : ∀ r, g ≠ .mode (.reg r)) (n : Nat) :
    fread g n = rd g n >>= fun v => pure (some (v.setWidth 64)) := by
  unfold fread
  split
  · next r => exact absurd rfl (hg r)
  · rfl

theorem fwrite_of_cpu {g : Gen} (hg : ∀ r, g ≠ .mode (.reg r)) : fwrite g = dstWrite g >>= fun d => pure (some d) := by
  unfold fwrite
  split
  · next r => exact absurd rfl (hg r)
  · rfl

theorem fmodify_of_cpu {g : Gen} (hg : ∀ r, g ≠ .mode (.reg r)) (n : Nat) : fmodify g n =
    dstModify g >>= fun d => getDest d n >>= fun v => pure (some d, some (v.setWidth 64)) := by
  unfold fmodify
  split
  · next r => exact absurd rfl (hg r)
  · rfl

/-- Settles O53: a register names one of the unit's; any other form is a CPU operand. -/
theorem floatOperandsIssued : Obligations.FloatOperandsIssued := by
  intro s n
  refine ⟨fun r => ⟨rfl, rfl, rfl⟩, fun g hg => ⟨fun v t hv => ?_, fun x t hx => ?_, fun x t v u hx hv => ?_⟩⟩
  · rw [fread_of_cpu hg, run_bind_of_ok hv]
    rfl
  · rw [fwrite_of_cpu hg, run_bind_of_ok hx]
    rfl
  · rw [fmodify_of_cpu hg, run_bind_of_ok hx, run_bind_of_ok hv]
    rfl

end Sys2Proof.Machine
end

section
/-! PROOFS. The decoder inverts the encoder: operands, then the basic instruction of each format. -/

namespace Sys2Proof

variable {α β : Type}

/-! ### Parsers -/

/-- A parser reads `x` from exactly the bytes `bs`, whatever follows them. -/
def Parses (p : Parse α) (bs : List Byte) (x : α) : Prop := ∀ rest, p (bs ++ rest) = .ok (x, rest)

theorem run_parse_bind {p : Parse α} {f : α → Parse β} {bs rest : List Byte} {x : α} (h : p bs = .ok (x, rest)) :
    (p >>= f) bs = f x rest := by
  show (p bs >>= fun r => f r.1 r.2) = _
  rw [h]
  rfl

theorem Parses.pure (x : α) : Parses (Pure.pure x) [] x := fun _ => rfl

theorem Parses.bind {p : Parse α} {f : α → Parse β} {bs cs : List Byte} {x : α} {y : β} (hp : Parses p bs x)
    (hf : Parses (f x) cs y) : Parses (p >>= f) (bs ++ cs) y := fun rest => by
  rw [List.append_assoc, run_parse_bind (hp (cs ++ rest)), hf rest]

/-- A last computation that reads nothing. -/
theorem Parses.map {p : Parse α} {f : α → β} {bs : List Byte} {x : α} (hp : Parses p bs x) :
    Parses (p >>= fun a => Pure.pure (f a)) bs (f x) := fun rest => by
  rw [run_parse_bind (hp rest)]
  rfl

theorem Parses.assoc {p : Parse α} {as bs cs : List Byte} {x : α} (h : Parses p (as ++ (bs ++ cs)) x) :
    Parses p (as ++ bs ++ cs) x := by
  rwa [List.append_assoc]

theorem Parses.nextByte (b : Byte) : Parses Sys2Proof.nextByte [b] b := fun _ => rfl

/-! ### Numbers -/

theorem littleBytes_succ (n v : Nat) : littleBytes (n + 1) v = BitVec.ofNat 8 v :: littleBytes n (v / 256) := rfl

/-- The most significant byte stands first (R186). -/
theorem bigBytes_succ (n v : Nat) : bigBytes (n + 1) v = BitVec.ofNat 8 (v / 256 ^ n) :: bigBytes n v := by
  induction n generalizing v with
  | zero => simp [bigBytes, littleBytes]
  | succ n ih =>
    have h := ih (v / 256)
    unfold bigBytes at h ⊢
    rw [littleBytes_succ, List.reverse_cons, h, littleBytes_succ n v, List.reverse_cons, List.cons_append, Nat.div_div_eq_div_mul,
      Nat.pow_succ, Nat.mul_comm 256]

/-- Digits read most significant first make the number (R186, R187). -/
theorem Parses.parseBig (n acc v : Nat) : Parses (Sys2Proof.parseBig n acc) (bigBytes n v) (acc * 256 ^ n + v % 256 ^ n) := by
  induction n generalizing acc with
  | zero =>
    simp only [Nat.pow_zero, Nat.mul_one, Nat.mod_one, Nat.add_zero]
    exact Parses.pure acc
  | succ n ih =>
    rw [bigBytes_succ]
    have h := Parses.bind (f := fun b : Byte => Sys2Proof.parseBig n (acc * 256 + b.toNat)) (Parses.nextByte (BitVec.ofNat 8 (v / 256 ^ n)))
      (ih (acc * 256 + (BitVec.ofNat 8 (v / 256 ^ n)).toNat))
    rw [BitVec.toNat_ofNat, Nat.add_mul, Nat.add_assoc, Nat.mul_assoc] at h
    rw [Nat.pow_succ, Nat.mod_mul, Nat.mul_comm (256 ^ n) 256, Nat.add_comm (v % 256 ^ n), Nat.mul_comm (256 ^ n)]
    exact h

/-- What the first byte of a displacement decides (R186). -/
theorem parseDisp_cons (b : Byte) (bs : List Byte) : Sys2Proof.parseDisp (b :: bs) =
    (if b.toNat < 128 then Pure.pure (Disp.d7 (BitVec.ofNat 7 b.toNat))
    else if b.toNat < 192 then Sys2Proof.parseBig 1 (b.toNat - 128) >>= fun v => Pure.pure (Disp.d14 (BitVec.ofNat 14 v))
    else Sys2Proof.parseBig 3 (b.toNat - 192) >>= fun v => Pure.pure (Disp.d30 (BitVec.ofNat 30 v)) : Parse Disp) bs := rfl

theorem Parses.parseDisp (d : Disp) : Parses Sys2Proof.parseDisp d.encode d := by
  intro rest
  cases d with
  | d7 v =>
    have hv := v.isLt
    have hb : (BitVec.ofNat 8 v.toNat).toNat = v.toNat := by simp; omega
    show Sys2Proof.parseDisp (BitVec.ofNat 8 v.toNat :: rest) = _
    rw [parseDisp_cons, hb, if_pos (by omega), BitVec.ofNat_toNat, BitVec.setWidth_eq]
    rfl
  | d14 v =>
    have hv := v.isLt
    have hb : (BitVec.ofNat 8 ((0x8000 + v.toNat) / 256 ^ 1)).toNat = 128 + v.toNat / 256 := by simp; omega
    have hn : (128 + v.toNat / 256 - 128) * 256 ^ 1 + (0x8000 + v.toNat) % 256 ^ 1 = v.toNat := by omega
    show Sys2Proof.parseDisp (bigBytes 2 (0x8000 + v.toNat) ++ rest) = _
    rw [bigBytes_succ, List.cons_append, parseDisp_cons, hb, if_neg (by omega), if_pos (by omega),
      run_parse_bind (Parses.parseBig 1 _ _ rest), hn, BitVec.ofNat_toNat, BitVec.setWidth_eq]
    rfl
  | d30 v =>
    have hv := v.isLt
    have hb : (BitVec.ofNat 8 ((0xC0000000 + v.toNat) / 256 ^ 3)).toNat = 192 + v.toNat / 256 ^ 3 := by simp; omega
    have hn : (192 + v.toNat / 256 ^ 3 - 192) * 256 ^ 3 + (0xC0000000 + v.toNat) % 256 ^ 3 = v.toNat := by omega
    show Sys2Proof.parseDisp (bigBytes 4 (0xC0000000 + v.toNat) ++ rest) = _
    rw [bigBytes_succ, List.cons_append, parseDisp_cons, hb, if_neg (by omega), if_neg (by omega),
      run_parse_bind (Parses.parseBig 3 _ _ rest), hn, BitVec.ofNat_toNat, BitVec.setWidth_eq]
    rfl

theorem Parses.parseImm (v : Imm) : Parses (Sys2Proof.parseImm v.bytes) v.encode v := by
  intro rest
  have h := Parses.parseBig v.bytes 0 v.nat rest
  cases v with
  | b v | w v | d v | q v =>
    have hv := v.isLt
    refine (run_parse_bind h).trans ?_
    simp only [Imm.nat, Imm.bytes, Nat.zero_mul, Nat.zero_add]
    rw [Nat.mod_eq_of_lt (by omega), BitVec.ofNat_toNat, BitVec.setWidth_eq]
    rfl

/-! ### Operands -/

theorem regOf_num (r : Reg) : regOf r.num = r := by cases r <;> rfl

theorem Reg.num_lt (r : Reg) : r.num < 8 := by cases r <;> decide

theorem scaleOf_code (k : Scale) : scaleOf k.code = k := by cases k <;> rfl

theorem Scale.code_ge (k : Scale) : 28 ≤ k.code ∧ k.code < 32 := by cases k <;> decide

theorem Mode.code_lt (m : Mode) : m.code < 28 ∧ m.code ≠ 20 := by
  cases m with
  | reg r | regRel r d =>
    have h := Reg.num_lt r
    simp only [Mode.code]
    omega
  | memRel a d1 d2 | space a d => cases a <;> simp [Mode.code, Area.code]
  | _ => simp [Mode.code]

theorem Gen.code_lt (g : Gen) : g.code < 32 := by
  cases g with
  | mode m => exact Nat.lt_trans (Mode.code_lt m).1 (by decide)
  | imm v => simp [Gen.code]
  | scaled k m x => exact (Scale.code_ge k).2

/-- Codes below 8 are the registers, from 8 to 15 register relative (R195). -/
theorem parseMode_reg (r : Reg) : parseMode r.num = Pure.pure (.reg r) := by cases r <;> rfl

theorem parseMode_regRel (r : Reg) : parseMode (8 + r.num) = Sys2Proof.parseDisp >>= fun d => Pure.pure (.regRel r d) := by
  cases r <;> rfl

theorem Parses.two {f : Disp → Disp → α} (d1 d2 : Disp) :
    Parses (Sys2Proof.parseDisp >>= fun x => Sys2Proof.parseDisp >>= fun y => Pure.pure (f x y)) (d1.encode ++ d2.encode) (f d1 d2) :=
  Parses.bind (Parses.parseDisp d1) (Parses.map (Parses.parseDisp d2))

theorem Parses.parseMode (m : Mode) : Parses (Sys2Proof.parseMode m.code) m.encode m := by
  cases m with
  | reg r =>
    rw [Mode.code, parseMode_reg]
    exact Parses.pure _
  | regRel r d =>
    rw [Mode.code, parseMode_regRel]
    exact Parses.map (Parses.parseDisp d)
  | memRel a d1 d2 => cases a <;> exact Parses.two d1 d2
  | abs d => exact Parses.map (Parses.parseDisp d)
  | ext d1 d2 => exact Parses.two d1 d2
  | tos => exact Parses.pure _
  | space a d => cases a <;> exact Parses.map (Parses.parseDisp d)
  | prog d => exact Parses.map (Parses.parseDisp d)

/-- What the index byte of an operand says (R188). -/
def Gen.indexed : Gen → Option (Nat × Reg)
  | .mode _ => none
  | .imm _ => none
  | .scaled _ m x => some (m.code, x)

theorem Parses.parseIndex (g : Gen) : Parses (Sys2Proof.parseIndex g.code) g.index g.indexed := by
  cases g with
  | mode m =>
    have h := (Mode.code_lt m).1
    unfold Sys2Proof.parseIndex
    rw [Gen.code, if_neg (by omega)]
    exact Parses.pure _
  | imm v => exact Parses.pure _
  | scaled k m x =>
    obtain ⟨hm, h20⟩ := Mode.code_lt m
    have hx := Reg.num_lt x
    have hb : (BitVec.ofNat 8 (m.code * 8 + x.num)).toNat = m.code * 8 + x.num := by simp; omega
    unfold Sys2Proof.parseIndex
    rw [Gen.code, if_pos (Scale.code_ge k).1]
    refine Parses.bind (cs := []) (Parses.nextByte _) ?_
    simp only [hb, show (m.code * 8 + x.num) / 8 = m.code by omega, show (m.code * 8 + x.num) % 8 = x.num by omega, regOf_num]
    rw [if_neg (by omega)]
    exact Parses.pure _

/-- An immediate has the length its place asks for (R187). -/
def Gen.fits (g : Gen) (n : Nat) : Prop := ∀ v, g = .imm v → v.bytes = n

theorem Parses.parseGen {g : Gen} {n : Nat} (h : g.fits n) : Parses (Sys2Proof.parseGen g.code n g.indexed) g.ext g := by
  cases g with
  | mode m =>
    unfold Sys2Proof.parseGen Gen.indexed
    simp only
    rw [Gen.code, if_neg (Mode.code_lt m).2]
    exact Parses.map (Parses.parseMode m)
  | imm v =>
    rw [← h v rfl]
    exact Parses.map (Parses.parseImm v)
  | scaled k m x =>
    have hm : Parses (Sys2Proof.parseMode m.code >>= fun m => Pure.pure (Gen.scaled (scaleOf k.code) m x)) m.encode
        (.scaled (scaleOf k.code) m x) := Parses.map (Parses.parseMode m)
    have hp : Sys2Proof.parseGen (Gen.scaled k m x).code n (Gen.scaled k m x).indexed =
        Sys2Proof.parseMode m.code >>= fun m => Pure.pure (Gen.scaled (scaleOf k.code) m x) := rfl
    rw [hp, scaleOf_code] at *
    exact hm

/-! ### What follows the basic instruction -/

section
variable {a b : Gen} {n1 n2 : Nat}

theorem Parses.g {k : Gen → Instr} (ha : a.fits n1) : Parses (Shape.g a.code n1 k).parse (ext1 a) (k a) :=
  Parses.bind (Parses.parseIndex a) (Parses.map (Parses.parseGen ha))

theorem Parses.gDisp {k : Gen → Disp → Instr} (ha : a.fits n1) (d : Disp) :
    Parses (Shape.gDisp a.code n1 k).parse (ext1 a ++ d.encode) (k a d) :=
  Parses.assoc (Parses.bind (Parses.parseIndex a) (Parses.bind (Parses.parseGen ha) (Parses.map (Parses.parseDisp d))))

/-- Two operands, then what `p` reads (R183). -/
theorem Parses.operands {p : Gen → Gen → Parse α} {bs : List Byte} {x : α} (ha : a.fits n1) (hb : b.fits n2)
    (hp : Parses (p a b) bs x) :
    Parses (Sys2Proof.parseIndex a.code >>= fun x1 => Sys2Proof.parseIndex b.code >>= fun x2 => Sys2Proof.parseGen a.code n1 x1 >>=
      fun a => Sys2Proof.parseGen b.code n2 x2 >>= fun b => p a b) (ext2 a b ++ bs) x := by
  have hgens := Parses.bind (f := fun a => Sys2Proof.parseGen b.code n2 b.indexed >>= fun b => p a b) (Parses.parseGen ha)
    (Parses.bind (f := fun b => p a b) (Parses.parseGen hb) hp)
  have h := Parses.bind (f := fun x1 => Sys2Proof.parseIndex b.code >>= fun x2 => Sys2Proof.parseGen a.code n1 x1 >>=
    fun a => Sys2Proof.parseGen b.code n2 x2 >>= fun b => p a b) (Parses.parseIndex a)
    (Parses.bind (f := fun x2 => Sys2Proof.parseGen a.code n1 a.indexed >>= fun a => Sys2Proof.parseGen b.code n2 x2 >>= fun b => p a b)
      (Parses.parseIndex b) hgens)
  simpa only [ext2, List.append_assoc] using h

theorem Parses.gg {k : Gen → Gen → Instr} (ha : a.fits n1) (hb : b.fits n2) :
    Parses (Shape.gg a.code n1 b.code n2 k).parse (ext2 a b) (k a b) := by
  have h := Parses.operands (p := fun a b => Pure.pure (k a b)) ha hb (Parses.pure (k a b))
  rwa [List.append_nil] at h

theorem Parses.ggDisp {k : Gen → Gen → Disp → Instr} (ha : a.fits n1) (hb : b.fits n2) (d : Disp) :
    Parses (Shape.ggDisp a.code n1 b.code n2 k).parse (ext2 a b ++ d.encode) (k a b d) :=
  Parses.operands ha hb (Parses.map (Parses.parseDisp d))

theorem Parses.ggByte {k : Gen → Gen → Byte → Instr} (ha : a.fits n1) (hb : b.fits n2) (v : Byte) :
    Parses (Shape.ggByte a.code n1 b.code n2 k).parse (ext2 a b ++ [v]) (k a b v) :=
  Parses.operands ha hb (Parses.map (Parses.nextByte v))

end

/-! ### Selecting the format -/

/-- A match on nibbles that end in 10 takes its default on the others. -/
theorem match_low_nibble (x y z u d : α) (n : Nat) :
    n % 4 ≠ 2 → (match n with | 10 => x | 2 => y | 6 => z | 14 => u | _ => d) = d := by
  intro h
  split
  · omega
  · omega
  · omega
  · omega
  · rfl

/-- The low bits 10 are those of the formats told by the low nibble; the others have two bytes (R200). -/
theorem parseInstr_two (c : Codes) {b : Byte} (h : b.toNat % 4 ≠ 2) (bs : List Byte) : parseInstr c (b :: bs) =
    (if b.toNat / 4 % 32 = 31 then parse2 b.toNat format3
    else if b.toNat / 4 % 4 = 3 then parse2 b.toNat format2 else parse2 b.toNat format4) bs :=
  congrFun (match_low_nibble (α := Parse Instr) _ _ _ _ _ (b.toNat % 16) (by omega)) bs

/-- A two-byte format sees the word its bytes make. -/
theorem parse2_word {fmt : Nat → Except BadCode Shape} {w : Nat} {sh : Shape} (hw : w < 2 ^ 16) (h : fmt w = .ok sh) (bs : List Byte) :
    parse2 (w % 256) fmt (BitVec.ofNat 8 (w / 256) :: bs) = sh.parse bs := by
  have hword : w % 256 + 256 * (BitVec.ofNat 8 (w / 256)).toNat = w := by simp; omega
  show fromFormat (fmt (w % 256 + 256 * (BitVec.ofNat 8 (w / 256)).toNat)) bs = _
  rw [hword, h]
  rfl

/-- A three-byte format sees the word its bytes make. -/
theorem parse3_word {fmt : Nat → Except BadCode Shape} {w : Nat} {sh : Shape} (hw : w < 2 ^ 24) (h : fmt w = .ok sh) (bs : List Byte) :
    parse3 (w % 256) fmt (BitVec.ofNat 8 (w / 256) :: BitVec.ofNat 8 (w / 256 / 256) :: bs) = sh.parse bs := by
  have hword : w % 256 + 256 * (BitVec.ofNat 8 (w / 256)).toNat + 65536 * (BitVec.ofNat 8 (w / 256 / 256)).toNat = w := by
    simp; omega
  show fromFormat (fmt (w % 256 + 256 * (BitVec.ofNat 8 (w / 256)).toNat + 65536 * (BitVec.ofNat 8 (w / 256 / 256)).toNat)) bs = _
  rw [hword, h]
  rfl

section
variable {c : Codes} {w : Nat} {sh : Shape} {bs : List Byte} {j : Instr}

/-- A word of format 2: bits 3 and 2 are 11, bits 6-2 not all 1 (R203). -/
theorem Parses.word2 (hw : w < 2 ^ 16) (hid : w / 4 % 4 = 3) (h31 : w / 4 % 32 ≠ 31) (hi : w % 4 ≠ 2) (h : format2 w = .ok sh)
    (hs : Parses sh.parse bs j) : Parses (parseInstr c) (littleBytes 2 w ++ bs) j := fun rest => by
  have hb : (BitVec.ofNat 8 w).toNat = w % 256 := BitVec.toNat_ofNat w 8
  show parseInstr c (BitVec.ofNat 8 w :: BitVec.ofNat 8 (w / 256) :: (bs ++ rest)) = _
  rw [parseInstr_two c (by rw [hb]; omega), hb, if_neg (by omega), if_pos (by omega), parse2_word hw h]
  exact hs rest

/-- A word of format 3: bits 6-2 are all 1 (R204). -/
theorem Parses.word3 (hw : w < 2 ^ 16) (h31 : w / 4 % 32 = 31) (hi : w % 4 ≠ 2) (h : format3 w = .ok sh)
    (hs : Parses sh.parse bs j) : Parses (parseInstr c) (littleBytes 2 w ++ bs) j := fun rest => by
  have hb : (BitVec.ofNat 8 w).toNat = w % 256 := BitVec.toNat_ofNat w 8
  show parseInstr c (BitVec.ofNat 8 w :: BitVec.ofNat 8 (w / 256) :: (bs ++ rest)) = _
  rw [parseInstr_two c (by rw [hb]; omega), hb, if_pos (by omega), parse2_word hw h]
  exact hs rest

/-- A word of format 4: bits 3 and 2 not both 1 (R205). -/
theorem Parses.word4 (hw : w < 2 ^ 16) (hid : w / 4 % 4 ≠ 3) (hi : w % 4 ≠ 2) (h : format4 w = .ok sh)
    (hs : Parses sh.parse bs j) : Parses (parseInstr c) (littleBytes 2 w ++ bs) j := fun rest => by
  have hb : (BitVec.ofNat 8 w).toNat = w % 256 := BitVec.toNat_ofNat w 8
  show parseInstr c (BitVec.ofNat 8 w :: BitVec.ofNat 8 (w / 256) :: (bs ++ rest)) = _
  rw [parseInstr_two c (by rw [hb]; omega), hb, if_neg (by omega), if_neg (by omega), parse2_word hw h]
  exact hs rest

/-- A word of a format of three bytes, told by its first byte (R200). -/
theorem Parses.word {fmt : Nat → Except BadCode Shape} (hw : w < 2 ^ 24)
    (hid : ∀ bs, parseInstr c (BitVec.ofNat 8 w :: bs) = parse3 (w % 256) fmt bs) (h : fmt w = .ok sh) (hs : Parses sh.parse bs j) :
    Parses (parseInstr c) (littleBytes 3 w ++ bs) j := fun rest => by
  show parseInstr c (BitVec.ofNat 8 w :: BitVec.ofNat 8 (w / 256) :: BitVec.ofNat 8 (w / 256 / 256) :: (bs ++ rest)) = _
  rw [hid, parse3_word hw h]
  exact hs rest

/-- The first byte of a word, where it tells the format. -/
theorem parseInstr_byte {fmt : Nat → Except BadCode Shape} {id : Nat} (hid : w % 256 = id)
    (h : ∀ bs, parseInstr c (BitVec.ofNat 8 id :: bs) = parse3 id fmt bs) (bs : List Byte) :
    parseInstr c (BitVec.ofNat 8 w :: bs) = parse3 (w % 256) fmt bs := by
  have hb : BitVec.ofNat 8 w = BitVec.ofNat 8 id := by
    apply BitVec.eq_of_toNat_eq
    simp [← hid]
  rw [hb, hid, h]

end

/-! ### Fields -/

theorem sizeOf?_code (i : Size) : sizeOf? i.code = .ok i := by cases i <;> rfl

theorem Size.code_spec (i : Size) : i.code < 4 ∧ i.code ≠ 2 := by cases i <;> decide

theorem fsizeOf_code (f : FSize) : fsizeOf f.code = f := by cases f <;> rfl

theorem FSize.code_lt (f : FSize) : f.code < 2 := by cases f <;> decide

theorem condOf_code (k : Cond) : condOf k.code = k := by cases k <;> rfl

theorem Cond.code_lt (k : Cond) : k.code < 16 := by cases k <;> decide

theorem aregOf?_code (a : AReg) : aregOf? a.code = .ok a := by cases a <;> rfl

theorem AReg.code_lt (a : AReg) : a.code < 16 := by cases a <;> decide

theorem bits_eq (w lo n : Nat) : bits w lo n = w / 2 ^ lo % 2 ^ n := rfl

end Sys2Proof
end

section
/-! PROOFS. The decoder inverts the encoder: every instruction. -/

namespace Sys2Proof

/-! ### Well-formed operands -/

/-- Whether a place of n immediate bytes is right for an access class (R187). -/
def Access.allows : Access → Nat → Prop
  | .read m, n => m = n
  | .write, _ => True
  | .rmw, _ => True
  | .addr, _ => True
  | .regaddr, _ => True

theorem Gen.fits_of_okFor {g : Gen} {k : Access} {n : Nat} (h : g.okFor k = true) (hk : k.allows n) : g.fits n := by
  rintro v rfl
  cases k with
  | read m => exact (beq_iff_eq.1 h).trans hk
  | write | rmw | addr | regaddr => cases h

/-- The operand of a well-formed instruction of one general operand. -/
theorem fits1 {k : Access} {a : Gen} {x : Bool} {n : Nat} (h : ([(k, a)].all (fun o => o.2.okFor o.1) && x) = true)
    (hk : k.allows n := by simp [Access.allows]) : a.fits n := by
  simp only [List.all_cons, List.all_nil, Bool.and_true, Bool.and_eq_true] at h
  exact Gen.fits_of_okFor h.1 hk

/-- The operands of a well-formed instruction of two general operands. -/
theorem fits2 {k l : Access} {a b : Gen} {x : Bool} {n m : Nat}
    (h : ([(k, a), (l, b)].all (fun o => o.2.okFor o.1) && x) = true) (hk : k.allows n := by simp [Access.allows])
    (hl : l.allows m := by simp [Access.allows]) : a.fits n ∧ b.fits m := by
  simp only [List.all_cons, List.all_nil, Bool.and_true, Bool.and_eq_true] at h
  obtain ⟨⟨ha, hb⟩, -⟩ := h
  exact ⟨Gen.fits_of_okFor ha hk, Gen.fits_of_okFor hb hl⟩

/-! ### Formats of one and two bytes -/

section
variable {c : Codes} {a b : Gen} {op : Nat} {i : Size} {n : Nat} {j : Instr}

/-- A format told by one byte, which holds the whole operation. -/
theorem Parses.enc1 {low : Nat} {sh : Shape} {bs : List Byte}
    (hs : Parses sh.parse bs j) (h : ∀ rest, parseInstr c (Sys2Proof.enc1 op low ++ rest) = sh.parse rest := by exact fun _ => rfl) :
    Parses (parseInstr c) (Sys2Proof.enc1 op low ++ bs) j := fun rest => by
  rw [List.append_assoc, h]
  exact hs rest

/-- The fields of a word of format 2 (R203). -/
theorem fields2 {g q op i : Nat} (hq : q < 16) (hop : op < 8) (hi : i < 4) (hg : g < 32) :
    bits (g * 2048 + q * 128 + op * 16 + 12 + i) 11 5 = g ∧ bits (g * 2048 + q * 128 + op * 16 + 12 + i) 7 4 = q ∧
    bits (g * 2048 + q * 128 + op * 16 + 12 + i) 4 3 = op ∧ bits (g * 2048 + q * 128 + op * 16 + 12 + i) 0 2 = i := by
  simp only [bits_eq]
  refine ⟨?_, ?_, ?_, ?_⟩ <;> omega

theorem Parses.enc2_of {q : Nat} {sh : Nat → Shape} {tail : List Byte} (hq : q < 16) (hop : op < 7)
    (hrow : ∀ w, bits w 7 4 = q → bits w 4 3 = op → bits w 0 2 = i.code → format2 w = .ok (sh (bits w 11 5)))
    (hs : Parses (sh a.code).parse (ext1 a ++ tail) j) : Parses (parseInstr c) (Sys2Proof.enc2 op i q a ++ tail) j := by
  have hg := Gen.code_lt a
  obtain ⟨hi, hi2⟩ := Size.code_spec i
  obtain ⟨h1, h2, h3, h4⟩ := fields2 hq (by omega : op < 8) hi hg
  refine Parses.assoc (Parses.word2 (by omega) (by omega) (by omega) (by omega) ?_ hs)
  rw [hrow _ h2 h3 h4, h1]

theorem Parses.enc2 {q : Nat} {k : Gen → Instr} (ha : a.fits n) (hq : q < 16) (hop : op < 7 := by decide)
    (hrow : ∀ w, bits w 7 4 = q → bits w 4 3 = op → bits w 0 2 = i.code → format2 w = .ok (.g (bits w 11 5) n k) := by
      intro w hq ho hi
      simp only [format2, hq, ho, hi, sizeOf?_code, aregOf?_code, condOf_code, BitVec.ofNat_toNat, BitVec.setWidth_eq]
      rfl) : Parses (parseInstr c) (Sys2Proof.enc2 op i q a) (k a) := by
  have h := Parses.enc2_of (c := c) (tail := []) (sh := fun g => .g g n k) hq hop hrow (by rw [List.append_nil]; exact Parses.g ha)
  rwa [List.append_nil] at h

/-- The fields of a word of format 3 (R204). -/
theorem fields3 {g op i : Nat} (hop : op < 16) (hi : i < 4) (hg : g < 32) :
    bits (g * 2048 + op * 128 + 124 + i) 11 5 = g ∧ bits (g * 2048 + op * 128 + 124 + i) 7 4 = op ∧
    bits (g * 2048 + op * 128 + 124 + i) 0 2 = i := by
  simp only [bits_eq]
  refine ⟨?_, ?_, ?_⟩ <;> omega

theorem Parses.enc3 {k : Gen → Instr} (ha : a.fits i.bytes)
    (hrow : ∀ w, bits w 7 4 = op → bits w 0 2 = i.code → format3 w = .ok (.g (bits w 11 5) i.bytes k) := by
      intro w ho hi
      simp only [format3, ho, hi, sizeOf?_code]
      rfl) (hop : op < 16 := by decide) : Parses (parseInstr c) (Sys2Proof.enc3 op i a) (k a) := by
  have hg := Gen.code_lt a
  obtain ⟨hi, hi2⟩ := Size.code_spec i
  obtain ⟨h1, h2, h3⟩ := fields3 hop hi hg
  refine Parses.word3 (by omega) (by omega) (by omega) ?_ (Parses.g ha)
  rw [hrow _ h2 h3, h1]

/-- The fields of a word of format 4 (R205). -/
theorem fields4 {g h op i : Nat} (hop : op < 16) (hi : i < 4) (hg : g < 32) (hh : h < 32) :
    bits (g * 2048 + h * 64 + op * 4 + i) 11 5 = g ∧ bits (g * 2048 + h * 64 + op * 4 + i) 6 5 = h ∧
    bits (g * 2048 + h * 64 + op * 4 + i) 2 4 = op ∧ bits (g * 2048 + h * 64 + op * 4 + i) 0 2 = i := by
  simp only [bits_eq]
  refine ⟨?_, ?_, ?_, ?_⟩ <;> omega

theorem Parses.enc4 {k : Gen → Gen → Instr} (hab : a.fits i.bytes ∧ b.fits i.bytes) (hop : op < 16 ∧ op % 4 ≠ 3 := by decide)
    (hrow : ∀ w, bits w 2 4 = op → bits w 0 2 = i.code → format4 w = .ok (.gg (bits w 11 5) i.bytes (bits w 6 5) i.bytes k) := by
      intro w ho hi
      simp only [format4, ho, hi, sizeOf?_code]
      rfl) : Parses (parseInstr c) (Sys2Proof.enc4 op i a b) (k a b) := by
  have hg := Gen.code_lt a
  have hh := Gen.code_lt b
  obtain ⟨hi, hi2⟩ := Size.code_spec i
  obtain ⟨h1, h2, h3, h4⟩ := fields4 hop.1 hi hg hh
  refine Parses.word4 (by omega) (by omega) (by omega) ?_ (Parses.gg hab.1 hab.2)
  rw [hrow _ h3 h4, h1, h2]

/-! ### Formats of three bytes -/

/-- The fields of a word of format 6 or 7 (R207, R208). -/
theorem fields67 {g h op i id : Nat} (hid : id < 256) (hop : op < 16) (hi : i < 4) (hg : g < 32) (hh : h < 32) :
    bits (g * 524288 + h * 16384 + op * 1024 + i * 256 + id) 19 5 = g ∧
    bits (g * 524288 + h * 16384 + op * 1024 + i * 256 + id) 14 5 = h ∧
    bits (g * 524288 + h * 16384 + op * 1024 + i * 256 + id) 10 4 = op ∧
    bits (g * 524288 + h * 16384 + op * 1024 + i * 256 + id) 8 2 = i := by
  simp only [bits_eq]
  refine ⟨?_, ?_, ?_, ?_⟩ <;> omega

theorem Parses.enc67 {fmt : Nat → Except BadCode Shape} {id : Nat} {sh : Nat → Nat → Shape} {tail : List Byte} (hid : id < 256)
    (hop : op < 16) (hsel : ∀ bs, parseInstr c (BitVec.ofNat 8 id :: bs) = parse3 id fmt bs)
    (hrow : ∀ w, bits w 10 4 = op → bits w 8 2 = i.code → fmt w = .ok (sh (bits w 19 5) (bits w 14 5)))
    (hs : Parses (sh a.code b.code).parse (ext2 a b ++ tail) j) : Parses (parseInstr c) (Sys2Proof.enc67 id op i a b ++ tail) j := by
  have hg := Gen.code_lt a
  have hh := Gen.code_lt b
  obtain ⟨hi, hi2⟩ := Size.code_spec i
  obtain ⟨h1, h2, h3, h4⟩ := fields67 hid hop hi hg hh
  refine Parses.assoc (Parses.word (by omega) (parseInstr_byte (by omega) hsel) ?_ hs)
  rw [hrow _ h3 h4, h1, h2]

theorem Parses.enc6 {k : Gen → Gen → Instr} (hab : a.fits n ∧ b.fits i.bytes)
    (hrow : ∀ w, bits w 10 4 = op → bits w 8 2 = i.code → format6 w = .ok (.gg (bits w 19 5) n (bits w 14 5) i.bytes k) := by
      intro w ho hi
      simp only [format6, ho, hi, sizeOf?_code]
      rfl) (hop : op < 16 := by decide) : Parses (parseInstr c) (Sys2Proof.enc67 0x4E op i a b) (k a b) := by
  have h := Parses.enc67 (c := c) (fmt := format6) (id := 0x4E) (sh := fun g h => .gg g n h i.bytes k) (tail := []) (by decide) hop
    (fun _ => rfl) hrow (by rw [List.append_nil]; exact Parses.gg hab.1 hab.2)
  rwa [List.append_nil] at h

theorem Parses.enc7 {k : Gen → Gen → Instr} {m : Nat} (hab : a.fits n ∧ b.fits m)
    (hrow : ∀ w, bits w 10 4 = op → bits w 8 2 = i.code → format7 w = .ok (.gg (bits w 19 5) n (bits w 14 5) m k) := by
      intro w ho hi
      simp only [format7, ho, hi, sizeOf?_code]
      rfl) (hop : op < 16 := by decide) : Parses (parseInstr c) (Sys2Proof.enc67 0xCE op i a b) (k a b) := by
  have h := Parses.enc67 (c := c) (fmt := format7) (id := 0xCE) (sh := fun g h => .gg g n h m k) (tail := []) (by decide) hop
    (fun _ => rfl) hrow (by rw [List.append_nil]; exact Parses.gg hab.1 hab.2)
  rwa [List.append_nil] at h

theorem Parses.enc7Disp {k : Gen → Gen → Disp → Instr} (hab : a.fits 4 ∧ b.fits 4) (d : Disp)
    (hrow : ∀ w, bits w 10 4 = op → bits w 8 2 = i.code → format7 w = .ok (.ggDisp (bits w 19 5) 4 (bits w 14 5) 4 k) := by
      intro w ho hi
      simp only [format7, ho, hi, sizeOf?_code]
      rfl) (hop : op < 16 := by decide) : Parses (parseInstr c) (Sys2Proof.enc67 0xCE op i a b ++ d.encode) (k a b d) :=
  Parses.enc67 (fmt := format7) (id := 0xCE) (sh := fun g h => .ggDisp g 4 h 4 k) (by decide) hop (fun _ => rfl) hrow
    (Parses.ggDisp hab.1 hab.2 d)

theorem Parses.enc7Byte {k : Gen → Gen → Byte → Instr} (hab : a.fits i.bytes ∧ b.fits i.bytes) (v : Byte)
    (hrow : ∀ w, bits w 10 4 = op → bits w 8 2 = i.code → format7 w = .ok (.ggByte (bits w 19 5) i.bytes (bits w 14 5) i.bytes k) := by
      intro w ho hi
      simp only [format7, ho, hi, sizeOf?_code]
      rfl) (hop : op < 16 := by decide) : Parses (parseInstr c) (Sys2Proof.enc67 0xCE op i a b ++ [v]) (k a b v) :=
  Parses.enc67 (fmt := format7) (id := 0xCE) (sh := fun g h => .ggByte g i.bytes h i.bytes k) (by decide) hop (fun _ => rfl) hrow
    (Parses.ggByte hab.1 hab.2 v)

/-- The fields of a word of format 8 (R209). -/
theorem fields8 {g h r p q i : Nat} (hr : r < 8) (hp : p < 2) (hq : q < 4) (hi : i < 4) (hg : g < 32) (hh : h < 32) :
    bits (g * 524288 + h * 16384 + r * 2048 + p * 1024 + i * 256 + q * 64 + 0x2E) 19 5 = g ∧
    bits (g * 524288 + h * 16384 + r * 2048 + p * 1024 + i * 256 + q * 64 + 0x2E) 14 5 = h ∧
    bits (g * 524288 + h * 16384 + r * 2048 + p * 1024 + i * 256 + q * 64 + 0x2E) 11 3 = r ∧
    bits (g * 524288 + h * 16384 + r * 2048 + p * 1024 + i * 256 + q * 64 + 0x2E) 10 1 = p ∧
    bits (g * 524288 + h * 16384 + r * 2048 + p * 1024 + i * 256 + q * 64 + 0x2E) 8 2 = i ∧
    bits (g * 524288 + h * 16384 + r * 2048 + p * 1024 + i * 256 + q * 64 + 0x2E) 6 2 = q := by
  simp only [bits_eq]
  refine ⟨?_, ?_, ?_, ?_, ?_, ?_⟩ <;> omega

/-- The first bytes of format 8 hold two bits of its operation (R209). -/
theorem parseInstr_format8 {q : Nat} (hq : q < 4) (bs : List Byte) :
    parseInstr c (BitVec.ofNat 8 (q * 64 + 0x2E) :: bs) = parse3 (q * 64 + 0x2E) format8 bs := by
  interval_cases q <;> rfl

theorem Parses.enc8_of {r : Nat} {sh : Nat → Nat → Shape} {tail : List Byte} (hr : r < 8) (hop : op < 8)
    (hrow : ∀ w, bits w 10 1 = op / 4 → bits w 6 2 = op % 4 → bits w 11 3 = r → bits w 8 2 = i.code →
      format8 w = .ok (sh (bits w 19 5) (bits w 14 5)))
    (hs : Parses (sh a.code b.code).parse (ext2 a b ++ tail) j) : Parses (parseInstr c) (Sys2Proof.enc8 op i r a b ++ tail) j := by
  have hg := Gen.code_lt a
  have hh := Gen.code_lt b
  obtain ⟨hi, hi2⟩ := Size.code_spec i
  have hq : op % 4 < 4 := Nat.mod_lt _ (by decide)
  obtain ⟨h1, h2, h3, h4, h5, h6⟩ := fields8 hr (by omega : op / 4 < 2) hq hi hg hh
  refine Parses.assoc (Parses.word (by omega) (parseInstr_byte (id := op % 4 * 64 + 0x2E) (by omega) (parseInstr_format8 hq)) ?_ hs)
  rw [hrow _ h4 h6 h3 h5, h1, h2]

theorem Parses.enc8 {r m : Nat} {k : Gen → Gen → Instr} (hab : a.fits n ∧ b.fits m) (hr : r < 8)
    (hrow : ∀ w, bits w 10 1 = op / 4 → bits w 6 2 = op % 4 → bits w 11 3 = r → bits w 8 2 = i.code →
      format8 w = .ok (.gg (bits w 19 5) n (bits w 14 5) m k) := by
      intro w h1 h2 hr hi
      simp only [format8, h1, h2, hr, hi, sizeOf?_code, regOf_num]
      rfl) (hop : op < 8 := by decide) : Parses (parseInstr c) (Sys2Proof.enc8 op i r a b) (k a b) := by
  have h := Parses.enc8_of (c := c) (sh := fun g h => .gg g n h m k) (tail := []) hr hop hrow
    (by rw [List.append_nil]; exact Parses.gg hab.1 hab.2)
  rwa [List.append_nil] at h

theorem Parses.enc8Disp {r m : Nat} {k : Gen → Gen → Disp → Instr} (hab : a.fits n ∧ b.fits m) (hr : r < 8) (d : Disp)
    (hrow : ∀ w, bits w 10 1 = op / 4 → bits w 6 2 = op % 4 → bits w 11 3 = r → bits w 8 2 = i.code →
      format8 w = .ok (.ggDisp (bits w 19 5) n (bits w 14 5) m k) := by
      intro w h1 h2 hr hi
      simp only [format8, h1, h2, hr, hi, sizeOf?_code, regOf_num]
      rfl) (hop : op < 8 := by decide) : Parses (parseInstr c) (Sys2Proof.enc8 op i r a b ++ d.encode) (k a b d) :=
  Parses.enc8_of (sh := fun g h => .ggDisp g n h m k) hr hop hrow (Parses.ggDisp hab.1 hab.2 d)

/-! ### Floating-point formats -/

/-- The fields of a word of format 9 (R210). -/
theorem fields9 {g h op f i : Nat} (hop : op < 8) (hf : f < 2) (hi : i < 4) (hg : g < 32) (hh : h < 32) :
    bits (opWord9 op f i g h * 256 + 0x3E) 19 5 = g ∧ bits (opWord9 op f i g h * 256 + 0x3E) 14 5 = h ∧
    bits (opWord9 op f i g h * 256 + 0x3E) 11 3 = op ∧ bits (opWord9 op f i g h * 256 + 0x3E) 10 1 = f ∧
    bits (opWord9 op f i g h * 256 + 0x3E) 8 2 = i := by
  simp only [bits_eq, opWord9]
  refine ⟨?_, ?_, ?_, ?_, ?_⟩ <;> omega

theorem Parses.word9 {g h f z : Nat} {sh : Shape} {bs : List Byte} (hop : op < 8) (hf : f < 2) (hz : z < 4) (hg : g < 32) (hh : h < 32)
    (hrow : ∀ w, bits w 11 3 = op → bits w 10 1 = f → bits w 8 2 = z → bits w 19 5 = g → bits w 14 5 = h → format9 w = .ok sh)
    (hs : Parses sh.parse bs j) : Parses (parseInstr c) (encSlave 0x3E (opWord9 op f z g h) ++ bs) j := by
  obtain ⟨h1, h2, h3, h4, h5⟩ := fields9 hop hf hz hg hh
  refine Parses.word (fmt := format9) ?_ (parseInstr_byte (id := 0x3E) (by omega) (fun _ => rfl)) (hrow _ h3 h4 h5 h1 h2) hs
  simp only [opWord9]
  omega

theorem Parses.enc9 {f z m : Nat} {k : Gen → Gen → Instr} (hab : a.fits n ∧ b.fits m) (hf : f < 2) (hz : z < 4)
    (hrow : ∀ w, bits w 11 3 = op → bits w 10 1 = f → bits w 8 2 = z → bits w 19 5 = a.code → bits w 14 5 = b.code →
      format9 w = .ok (.gg a.code n b.code m k) := by
      intro w ho hf hz ha hb
      simp only [format9, ho, hf, hz, ha, hb, sizeOf?_code, fsizeOf_code, BitVec.ofNat_toNat, BitVec.setWidth_eq]
      rfl) (hop : op < 8 := by decide) : Parses (parseInstr c) (Sys2Proof.enc9 op f z a b) (k a b) :=
  Parses.word9 hop hf hz (Gen.code_lt a) (Gen.code_lt b) hrow (Parses.gg hab.1 hab.2)

/-- The fields of a word of format 11 or 12 (R211, R212). -/
theorem fields11 {g h op f id : Nat} (hid : id < 256) (hop : op < 16) (hf : f < 2) (hg : g < 32) (hh : h < 32) :
    bits (opWord11 op f g h * 256 + id) 19 5 = g ∧ bits (opWord11 op f g h * 256 + id) 14 5 = h ∧
    bits (opWord11 op f g h * 256 + id) 10 4 = op ∧ bits (opWord11 op f g h * 256 + id) 9 1 = 0 ∧
    bits (opWord11 op f g h * 256 + id) 8 1 = f := by
  simp only [bits_eq, opWord11]
  refine ⟨?_, ?_, ?_, ?_, ?_⟩ <;> omega

theorem Parses.word11 {fmt : Nat → Except BadCode Shape} {id : Nat} {f : FSize} {k : Gen → Gen → Instr} (hid : id < 256) (hop : op < 16)
    (hsel : ∀ bs, parseInstr c (BitVec.ofNat 8 id :: bs) = parse3 id fmt bs) (hab : a.fits f.bytes ∧ b.fits f.bytes)
    (hrow : ∀ w, bits w 10 4 = op → bits w 9 1 = 0 → bits w 8 1 = f.code →
      fmt w = .ok (.gg (bits w 19 5) f.bytes (bits w 14 5) f.bytes k)) :
    Parses (parseInstr c) (encSlave id (opWord11 op f.code a.code b.code) ++ ext2 a b) (k a b) := by
  have hg := Gen.code_lt a
  have hh := Gen.code_lt b
  have hf := FSize.code_lt f
  obtain ⟨h1, h2, h3, h4, h5⟩ := fields11 hid hop hf hg hh
  refine Parses.word ?_ (parseInstr_byte (by omega) hsel) ?_ (Parses.gg hab.1 hab.2)
  · simp only [opWord11]
    omega
  · rw [hrow _ h3 h4 h5, h1, h2]

theorem Parses.enc11 {f : FSize} {k : Gen → Gen → Instr} (hab : a.fits f.bytes ∧ b.fits f.bytes)
    (hrow : ∀ w, bits w 10 4 = op → bits w 9 1 = 0 → bits w 8 1 = f.code →
      format11 w = .ok (.gg (bits w 19 5) f.bytes (bits w 14 5) f.bytes k) := by
      intro w ho hc hf
      simp only [format11, ho, hc, hf, fsizeOf_code]
      rfl) (hop : op < 16 := by decide) : Parses (parseInstr c) (Sys2Proof.enc11 op f a b) (k a b) :=
  Parses.word11 (by decide) hop (fun _ => rfl) hab hrow

theorem Parses.enc12 {f : FSize} {k : Gen → Gen → Instr} (hab : a.fits f.bytes ∧ b.fits f.bytes)
    (hrow : ∀ w, bits w 10 4 = op → bits w 9 1 = 0 → bits w 8 1 = f.code →
      format12 w = .ok (.gg (bits w 19 5) f.bytes (bits w 14 5) f.bytes k) := by
      intro w ho hc hf
      simp only [format12, ho, hc, hf, fsizeOf_code]
      rfl) (hop : op < 16 := by decide) : Parses (parseInstr c) (Sys2Proof.enc12 op f a b) (k a b) :=
  Parses.word11 (by decide) hop (fun _ => rfl) hab hrow

end

/-- An instruction that is not for double-words has another length (R232). -/
theorem size_field {i : Size} {x : Bool} (h : (x && (i != .d)) = true) : (i != .d) = true := (Bool.and_eq_true _ _ ▸ h).2

/-- The check of the size field passes. -/
theorem sizeField_ok {i : Size} {sh : Size → Shape} (h : (i != .d) = true) :
    (do
      let i ← Except.ok i
      need .sizeField (i != .d)
      pure (sh i) : Except BadCode Shape) = .ok (sh i) := by
  show (do
    need .sizeField (i != .d)
    pure (sh i) : Except BadCode Shape) = _
  rw [h]
  rfl

/-! ### Format 5 -/

theorem bitOf_le (b : Bool) : bitOf b ≤ 1 := by cases b <;> decide

/-- The fields of a word of format 5 whose short field has four bits (R206). -/
theorem fields5 {s op i : Nat} (hs : s < 16) (hop : op < 16) (hi : i < 4) :
    bits (s * 32768 + op * 1024 + i * 256 + 0x0E) 10 4 = op ∧ bits (s * 32768 + op * 1024 + i * 256 + 0x0E) 15 4 = s ∧
    bits (s * 32768 + op * 1024 + i * 256 + 0x0E) 8 2 = i ∧ bits (s * 32768 + op * 1024 + i * 256 + 0x0E) 14 1 = 0 ∧
    bits (s * 32768 + op * 1024 + i * 256 + 0x0E) 19 5 = 0 := by
  simp only [bits_eq]
  refine ⟨?_, ?_, ?_, ?_, ?_⟩ <;> omega

/-- An instruction of format 5 without the bits above the short field (R206). -/
theorem Parses.enc5 {c : Codes} {s op : Nat} {i : Size} {j : Instr} (hs : s < 16) (hop : op < 16)
    (hrow : ∀ w, bits w 10 4 = op → bits w 15 4 = s → bits w 8 2 = i.code → bits w 14 1 = 0 → bits w 19 5 = 0 →
      format5 c w = .ok (.none j)) : Parses (parseInstr c) (Sys2Proof.enc5 op i s) j := by
  obtain ⟨hi, -⟩ := Size.code_spec i
  obtain ⟨h1, h2, h3, h4, h5⟩ := fields5 hs hop hi
  have h := Parses.word (c := c) (bs := []) (fmt := format5 c) (by omega) (parseInstr_byte (id := 0x0E) (by omega) (fun _ => rfl))
    (hrow _ h1 h2 h3 h4 h5) (Parses.pure j)
  rwa [List.append_nil] at h

theorem StrOpts.code_lt (o : StrOpts) : o.code + 1 < 16 := by
  rcases o with ⟨b, m⟩
  cases b <;> cases m <;> decide

theorem strOptsOf?_code (o : StrOpts) : strOptsOf? o.code = .ok o := by
  rcases o with ⟨b, m⟩
  cases b <;> cases m <;> rfl

/-- The operation of format 5 once its constant bits are checked, but for SETCFG's (R206). -/
def format5Op (c : Codes) (op s : Nat) (i : Size) : Except BadCode Shape :=
  match op with
  | 0 => strShape i s .movsi .movst
  | 1 => strShape i s .cmpsi .cmpst
  | 3 => strShape i s .skpsi .skpst
  | _ => graphicsShape c op s i

theorem format5_op {c : Codes} {w op s : Nat} {i : Size} (hop : op ≠ 15 ∧ op ≠ 2) (h1 : bits w 10 4 = op) (h2 : bits w 15 4 = s)
    (h3 : bits w 8 2 = i.code) (h4 : bits w 14 1 = 0) (h5 : bits w 19 5 = 0) : format5 c w = format5Op c op s i := by
  simp only [format5, h1, h2, h3, h4, h5, sizeOf?_code]
  rw [if_neg hop.1]
  show (if op = 2 then _ else _) = _
  rw [if_neg hop.2]
  rfl

theorem format5_graphics {c : Codes} {w op s : Nat} {i : Size} (hlo : 4 ≤ op) (hhi : op ≤ 14) (h1 : bits w 10 4 = op)
    (h2 : bits w 15 4 = s) (h3 : bits w 8 2 = i.code) (h4 : bits w 14 1 = 0) (h5 : bits w 19 5 = 0) :
    format5 c w = graphicsShape c op s i := by
  rw [format5_op ⟨by omega, by omega⟩ h1 h2 h3 h4 h5]
  obtain ⟨n, rfl⟩ := Nat.exists_eq_add_of_le' hlo
  rfl

/-- A string instruction without translation: bit 0 of the short field is 0 (R219). -/
theorem strShape_plain (i : Size) (o : StrOpts) (p : Size → StrOpts → Instr) (t : StrOpts → Instr) :
    strShape i o.code p t = .ok (.none (p i o)) := by
  rcases o with ⟨b, m⟩
  cases b <;> cases m <;> rfl

/-- A string instruction with translation: bit 0 of the short field is 1, the length a byte (R219). -/
theorem strShape_translated (o : StrOpts) (p : Size → StrOpts → Instr) (t : StrOpts → Instr) :
    strShape .b (o.code + 1) p t = .ok (.none (t o)) := by
  rcases o with ⟨b, m⟩
  cases b <;> cases m <;> rfl

theorem bbOptsOf?_code (o : BBOpts) {x : Nat} (hx : x < 2) : bbOptsOf? (o.code x) x = .ok o := by
  rcases o with ⟨a, b⟩
  interval_cases x <;> cases a <;> cases b <;> rfl

theorem BBOpts.code_lt (o : BBOpts) {x : Nat} (hx : x < 2) : o.code x < 16 := by
  have h1 := bitOf_le o.da
  have h2 := bitOf_le o.negS
  unfold BBOpts.code
  omega

/-- Each graphics operation by its code, the codes being distinct (R206). -/
theorem graphicsShape_code {c : Codes} (h : c.ops.Pairwise (· ≠ ·)) :
    (∀ o, graphicsShape c c.bbstod (BBOpts.code o 0) .w = .ok (.none (.bbstod o))) ∧
    (∀ o, graphicsShape c c.bbor (BBOpts.code o 0) .w = .ok (.none (.bbor o))) ∧
    (∀ o, graphicsShape c c.bbxor (BBOpts.code o 0) .w = .ok (.none (.bbxor o))) ∧
    (∀ o, graphicsShape c c.bband (BBOpts.code o 1) .d = .ok (.none (.bband o))) ∧
    graphicsShape c c.bbfor 0 .w = .ok (.none .bbfor) ∧ graphicsShape c c.bitwt 0 .w = .ok (.none .bitwt) ∧
    graphicsShape c c.extblt 0 .d = .ok (.none .extblt) ∧ (∀ i, graphicsShape c c.movmp 0 i = .ok (.none (.movmpi i))) ∧
    (∀ b, graphicsShape c c.tbits (bitOf b) .d = .ok (.none (.tbits b))) ∧
    graphicsShape c c.sbits 0 .d = .ok (.none .sbits) ∧ graphicsShape c c.sbitps 0 .d = .ok (.none .sbitps) := by
  simp only [Codes.ops, List.pairwise_cons, List.mem_cons, List.not_mem_nil, or_false, forall_eq_or_imp, forall_eq, ne_eq] at h
  have h0 : ∀ o, bbOptsOf? (BBOpts.code o 0) 0 = .ok o := fun o => bbOptsOf?_code o (by decide)
  have h1 : ∀ o, bbOptsOf? (BBOpts.code o 1) 1 = .ok o := fun o => bbOptsOf?_code o (by decide)
  refine ⟨fun o => ?_, fun o => ?_, fun o => ?_, fun o => ?_, ?_, ?_, ?_, fun i => ?_, fun b => ?_, ?_, ?_⟩ <;>
    simp only [graphicsShape, h, if_false, if_true, eq_comm, h0, h1]
  case refine_9 => cases b <;> rfl
  all_goals rfl

/-- The fields of SETCFG's word: the option DE stands at its own bit (R218, D3). -/
theorem fieldsSetcfg {s p d : Nat} (hs : s < 16) (hp : p ≤ 1) (hlo : 19 ≤ d) (hhi : d ≤ 23) :
    let w := (s + p * 2 ^ (d - 15)) * 32768 + 2 * 1024 + 3 * 256 + 0x0E
    w < 2 ^ 24 ∧ bits w 10 4 = 2 ∧ bits w 15 4 = s ∧ bits w 8 2 = 3 ∧ bits w 14 1 = 0 ∧ bits w 19 5 = p * 2 ^ (d - 19) ∧
      bits w d 1 = p := by
  simp only [bits_eq]
  interval_cases d <;> refine ⟨?_, ?_, ?_, ?_, ?_, ?_, ?_⟩ <;> omega

theorem format5_setcfg {c : Codes} {w : Nat} (o : CfgOpts) (h1 : bits w 10 4 = 2)
    (h2 : bits w 15 4 = bitOf o.i + bitOf o.f * 2 + bitOf o.m * 4 + bitOf o.c * 8) (h3 : bits w 8 2 = 3) (h4 : bits w 14 1 = 0)
    (h5 : bits w 19 5 = bitOf o.de * 2 ^ (c.deBit - 19)) (h6 : bits w c.deBit 1 = bitOf o.de) :
    format5 c w = .ok (.none (.setcfg o)) := by
  simp only [format5, h1, h2, h3, h4, h5, h6, beq_self_eq_true]
  rcases o with ⟨i, f, m, k, de⟩
  cases i <;> cases f <;> cases m <;> cases k <;> cases de <;> rfl

theorem Parses.setcfg {c : Codes} (hlo : 19 ≤ c.deBit) (hhi : c.deBit ≤ 23) (o : CfgOpts) :
    Parses (parseInstr c) (Sys2Proof.enc5 2 .d (o.code c.deBit)) (.setcfg o) := by
  have hi := bitOf_le o.i
  have hf := bitOf_le o.f
  have hm := bitOf_le o.m
  have hc := bitOf_le o.c
  obtain ⟨hw, h1, h2, h3, h4, h5, h6⟩ := fieldsSetcfg (s := bitOf o.i + bitOf o.f * 2 + bitOf o.m * 4 + bitOf o.c * 8) (by omega)
    (bitOf_le o.de) hlo hhi
  have h := Parses.word (c := c) (bs := []) (fmt := format5 c) hw (parseInstr_byte (id := 0x0E) (by omega) (fun _ => rfl))
    (format5_setcfg o h1 h2 h3 h4 h5 h6) (Parses.pure _)
  rw [List.append_nil] at h
  rw [Sys2Proof.enc5, CfgOpts.code, show Size.d.code = 3 from rfl]
  exact h

/-- What the choice of the open codes must satisfy (R206, R230, D3). -/
theorem Codes.wf_iff {c : Codes} : c.wf = true ↔
    c.ops.Pairwise (· ≠ ·) ∧ (∀ op ∈ c.ops, 4 ≤ op ∧ op ≤ 14) ∧ 19 ≤ c.deBit ∧ c.deBit ≤ 23 := by
  simp [Codes.wf, and_assoc]

/-- The encoder's bytes are read back, whatever follows them. -/
theorem Parses.encode {c : Codes} (hc : c.wf = true) {j : Instr} (hw : j.wellFormed = true) :
    Parses (parseInstr c) (encodeWith c j) j := by
  obtain ⟨hpair, hops, hlo, hhi⟩ := Codes.wf_iff.1 hc
  obtain ⟨hbbstod, hbbor, hbbxor, hbband, hbbfor, hbitwt, hextblt, hmovmp, htbits, hsbits, hsbitps⟩ := graphicsShape_code hpair
  have graphics {op s : Nat} {i : Size} {j : Instr} (hm : op ∈ c.ops) (hs : s < 16) (h : graphicsShape c op s i = .ok (.none j)) :
      Parses (parseInstr c) (Sys2Proof.enc5 op i s) j := by
    obtain ⟨h4, h14⟩ := hops op hm
    exact Parses.enc5 hs (by omega) fun w h1 h2 h3 h5 h6 => (format5_graphics h4 h14 h1 h2 h3 h5 h6).trans h
  cases j <;> unfold encodeWith
  case beq d => exact Parses.enc1 (sh := .disp .beq) (Parses.map (Parses.parseDisp d))
  case bne d => exact Parses.enc1 (sh := .disp .bne) (Parses.map (Parses.parseDisp d))
  case bcs d => exact Parses.enc1 (sh := .disp .bcs) (Parses.map (Parses.parseDisp d))
  case bcc d => exact Parses.enc1 (sh := .disp .bcc) (Parses.map (Parses.parseDisp d))
  case bhi d => exact Parses.enc1 (sh := .disp .bhi) (Parses.map (Parses.parseDisp d))
  case bls d => exact Parses.enc1 (sh := .disp .bls) (Parses.map (Parses.parseDisp d))
  case bgt d => exact Parses.enc1 (sh := .disp .bgt) (Parses.map (Parses.parseDisp d))
  case ble d => exact Parses.enc1 (sh := .disp .ble) (Parses.map (Parses.parseDisp d))
  case bfs d => exact Parses.enc1 (sh := .disp .bfs) (Parses.map (Parses.parseDisp d))
  case bfc d => exact Parses.enc1 (sh := .disp .bfc) (Parses.map (Parses.parseDisp d))
  case blo d => exact Parses.enc1 (sh := .disp .blo) (Parses.map (Parses.parseDisp d))
  case bhs d => exact Parses.enc1 (sh := .disp .bhs) (Parses.map (Parses.parseDisp d))
  case blt d => exact Parses.enc1 (sh := .disp .blt) (Parses.map (Parses.parseDisp d))
  case bge d => exact Parses.enc1 (sh := .disp .bge) (Parses.map (Parses.parseDisp d))
  case br d => exact Parses.enc1 (sh := .disp .br) (Parses.map (Parses.parseDisp d))
  case bnever d => exact Parses.enc1 (sh := .disp .bnever) (Parses.map (Parses.parseDisp d))
  case bsr d => exact Parses.enc1 (sh := .disp .bsr) (Parses.map (Parses.parseDisp d))
  case ret d => exact Parses.enc1 (sh := .disp .ret) (Parses.map (Parses.parseDisp d))
  case cxp d => exact Parses.enc1 (sh := .disp .cxp) (Parses.map (Parses.parseDisp d))
  case rxp d => exact Parses.enc1 (sh := .disp .rxp) (Parses.map (Parses.parseDisp d))
  case rett d => exact Parses.enc1 (sh := .disp .rett) (Parses.map (Parses.parseDisp d))
  case reti  => exact Parses.enc1 (bs := []) (sh := .none .reti) (Parses.pure _)
  case nop  => exact Parses.enc1 (bs := []) (sh := .none .nop) (Parses.pure _)
  case wait  => exact Parses.enc1 (bs := []) (sh := .none .wait) (Parses.pure _)
  case dia  => exact Parses.enc1 (bs := []) (sh := .none .dia) (Parses.pure _)
  case flag  => exact Parses.enc1 (bs := []) (sh := .none .flag) (Parses.pure _)
  case svc  => exact Parses.enc1 (bs := []) (sh := .none .svc) (Parses.pure _)
  case bpt  => exact Parses.enc1 (bs := []) (sh := .none .bpt) (Parses.pure _)
  case save l => exact Parses.enc1 (sh := .byte .save) (Parses.map (Parses.nextByte l))
  case restore l => exact Parses.enc1 (sh := .byte .restore) (Parses.map (Parses.nextByte l))
  case exit l => exact Parses.enc1 (sh := .byte .exit) (Parses.map (Parses.nextByte l))
  case enter l d =>
    exact Parses.assoc (Parses.enc1 (sh := .byteDisp .enter) (Parses.bind (Parses.nextByte l) (Parses.map (Parses.parseDisp d))))
  case addqi i q g => exact Parses.enc2 (n := i.bytes) (k := .addqi i q) (fits1 hw) q.isLt
  case cmpqi i q g => exact Parses.enc2 (n := i.bytes) (k := .cmpqi i q) (fits1 hw) q.isLt
  case movqi i q g => exact Parses.enc2 (n := i.bytes) (k := .movqi i q) (fits1 hw) q.isLt
  case spri i a g => exact Parses.enc2 (n := i.bytes) (k := .spri i a) (fits1 hw) (AReg.code_lt a)
  case lpri i a g => exact Parses.enc2 (n := i.bytes) (k := .lpri i a) (fits1 hw) (AReg.code_lt a)
  case scondi i k g => exact Parses.enc2 (n := i.bytes) (k := .scondi i k) (fits1 hw) (Cond.code_lt k)
  case acbi i q g d =>
    exact Parses.enc2_of (sh := fun g => .gDisp g i.bytes (.acbi i q)) q.isLt (by decide) (fun w hq ho hi => by
      simp only [format2, hq, ho, hi, sizeOf?_code, BitVec.ofNat_toNat, BitVec.setWidth_eq]
      rfl) (Parses.gDisp (fits1 hw) d)
  case cxpd g => exact Parses.enc3 (fits1 hw)
  case jump g => exact Parses.enc3 (fits1 hw)
  case jsr g => exact Parses.enc3 (fits1 hw)
  case bicpsri i g =>
    exact Parses.enc3 (fits1 hw) fun w ho hi => by
      simp only [format3, ho, hi, sizeOf?_code]
      exact sizeField_ok (size_field hw)
  case bispsri i g =>
    exact Parses.enc3 (fits1 hw) fun w ho hi => by
      simp only [format3, ho, hi, sizeOf?_code]
      exact sizeField_ok (size_field hw)
  case adjspi i g => exact Parses.enc3 (fits1 hw)
  case casei i g => exact Parses.enc3 (fits1 hw)
  case addi i a b => exact Parses.enc4 (fits2 hw)
  case cmpi i a b => exact Parses.enc4 (fits2 hw)
  case bici i a b => exact Parses.enc4 (fits2 hw)
  case addci i a b => exact Parses.enc4 (fits2 hw)
  case movi i a b => exact Parses.enc4 (fits2 hw)
  case ori i a b => exact Parses.enc4 (fits2 hw)
  case subi i a b => exact Parses.enc4 (fits2 hw)
  case andi i a b => exact Parses.enc4 (fits2 hw)
  case subci i a b => exact Parses.enc4 (fits2 hw)
  case tbiti i a b => exact Parses.enc4 (fits2 hw)
  case xori i a b => exact Parses.enc4 (fits2 hw)
  case addr a b => exact Parses.enc4 (fits2 hw)
  case roti i a b => exact Parses.enc6 (n := 1) (fits2 hw)
  case ashi i a b => exact Parses.enc6 (n := 1) (fits2 hw)
  case lshi i a b => exact Parses.enc6 (n := 1) (fits2 hw)
  case cbiti i a b => exact Parses.enc6 (n := i.bytes) (fits2 hw)
  case cbitii i a b => exact Parses.enc6 (n := i.bytes) (fits2 hw)
  case sbiti i a b => exact Parses.enc6 (n := i.bytes) (fits2 hw)
  case sbitii i a b => exact Parses.enc6 (n := i.bytes) (fits2 hw)
  case negi i a b => exact Parses.enc6 (n := i.bytes) (fits2 hw)
  case noti i a b => exact Parses.enc6 (n := i.bytes) (fits2 hw)
  case subpi i a b => exact Parses.enc6 (n := i.bytes) (fits2 hw)
  case absi i a b => exact Parses.enc6 (n := i.bytes) (fits2 hw)
  case comi i a b => exact Parses.enc6 (n := i.bytes) (fits2 hw)
  case ibiti i a b => exact Parses.enc6 (n := i.bytes) (fits2 hw)
  case addpi i a b => exact Parses.enc6 (n := i.bytes) (fits2 hw)
  case movmi i a b d => exact Parses.enc7Disp (fits2 hw) d
  case cmpmi i a b d => exact Parses.enc7Disp (fits2 hw) d
  case inssi i a b v => exact Parses.enc7Byte (fits2 hw) v
  case extsi i a b v => exact Parses.enc7Byte (fits2 hw) v
  case movxbw a b => exact Parses.enc7 (n := 1) (m := 2) (fits2 hw)
  case movzbw a b => exact Parses.enc7 (n := 1) (m := 2) (fits2 hw)
  case movzid i a b =>
    exact Parses.enc7 (n := i.bytes) (m := 4) (fits2 hw) fun w ho hi => by
      simp only [format7, ho, hi, sizeOf?_code]
      exact sizeField_ok (size_field hw)
  case movxid i a b =>
    exact Parses.enc7 (n := i.bytes) (m := 4) (fits2 hw) fun w ho hi => by
      simp only [format7, ho, hi, sizeOf?_code]
      exact sizeField_ok (size_field hw)
  case muli i a b => exact Parses.enc7 (n := i.bytes) (m := i.bytes) (fits2 hw)
  case meii i a b => exact Parses.enc7 (n := i.bytes) (m := i.bytes) (fits2 hw)
  case deii i a b => exact Parses.enc7 (n := i.bytes) (m := i.bytes) (fits2 hw)
  case quoi i a b => exact Parses.enc7 (n := i.bytes) (m := i.bytes) (fits2 hw)
  case remi i a b => exact Parses.enc7 (n := i.bytes) (m := i.bytes) (fits2 hw)
  case modi i a b => exact Parses.enc7 (n := i.bytes) (m := i.bytes) (fits2 hw)
  case divi i a b => exact Parses.enc7 (n := i.bytes) (m := i.bytes) (fits2 hw)
  case exti i r a b d => exact Parses.enc8Disp (n := i.bytes) (m := i.bytes) (k := .exti i r) (fits2 hw) (Reg.num_lt r) d
  case insi i r a b d => exact Parses.enc8Disp (n := i.bytes) (m := i.bytes) (k := .insi i r) (fits2 hw) (Reg.num_lt r) d
  case cvtp r a b => exact Parses.enc8 (n := 4) (m := 4) (k := .cvtp r) (fits2 hw) (Reg.num_lt r)
  case checki i r a b => exact Parses.enc8 (n := 4) (m := i.bytes) (k := .checki i r) (fits2 hw) (Reg.num_lt r)
  case indexi i r a b => exact Parses.enc8 (n := i.bytes) (m := i.bytes) (k := .indexi i r) (fits2 hw) (Reg.num_lt r)
  case ffsi i a b => exact Parses.enc8 (n := i.bytes) (m := 1) (k := .ffsi i) (fits2 hw) (by decide)
  case movif f i a b => exact Parses.enc9 (n := i.bytes) (m := f.bytes) (fits2 hw) (FSize.code_lt f) (Size.code_spec i).1
  case roundfi f i a b => exact Parses.enc9 (n := f.bytes) (m := i.bytes) (fits2 hw) (FSize.code_lt f) (Size.code_spec i).1
  case truncfi f i a b => exact Parses.enc9 (n := f.bytes) (m := i.bytes) (fits2 hw) (FSize.code_lt f) (Size.code_spec i).1
  case floorfi f i a b => exact Parses.enc9 (n := f.bytes) (m := i.bytes) (fits2 hw) (FSize.code_lt f) (Size.code_spec i).1
  case movlf x a b => exact Parses.enc9 (n := 8) (m := 4) (fits2 hw) x.f.isLt x.i.isLt
  case movfl x a b => exact Parses.enc9 (n := 4) (m := 8) (fits2 hw) x.f.isLt x.i.isLt
  case lfsr x a =>
    exact Parses.word9 (sh := .g a.code 4 (.lfsr x)) (by decide) x.f.isLt x.i.isLt (Gen.code_lt a) (by decide) (fun w ho hf hz ha hb => by
      simp only [format9, ho, hf, hz, ha, hb, BitVec.ofNat_toNat, BitVec.setWidth_eq]
      rfl) (Parses.g (fits1 hw))
  case sfsr x b =>
    exact Parses.word9 (sh := .g b.code 4 (.sfsr x)) (by decide) x.f.isLt x.i.isLt (by decide) (Gen.code_lt b) (fun w ho hf hz ha hb => by
      simp only [format9, ho, hf, hz, ha, hb, BitVec.ofNat_toNat, BitVec.setWidth_eq]
      rfl) (Parses.g (fits1 hw))
  case addf f a b => exact Parses.enc11 (fits2 hw)
  case movf f a b => exact Parses.enc11 (fits2 hw)
  case cmpf f a b => exact Parses.enc11 (fits2 hw)
  case subf f a b => exact Parses.enc11 (fits2 hw)
  case negf f a b => exact Parses.enc11 (fits2 hw)
  case divf f a b => exact Parses.enc11 (fits2 hw)
  case mulf f a b => exact Parses.enc11 (fits2 hw)
  case absf f a b => exact Parses.enc11 (fits2 hw)
  case polyf f a b => exact Parses.enc12 (fits2 hw)
  case dotf f a b => exact Parses.enc12 (fits2 hw)
  case scalbf f a b => exact Parses.enc12 (fits2 hw)
  case logbf f a b => exact Parses.enc12 (fits2 hw)
  case movsi i o =>
    exact Parses.enc5 (Nat.lt_of_succ_lt (StrOpts.code_lt o)) (by decide) fun w h1 h2 h3 h4 h5 =>
      (format5_op (by decide) h1 h2 h3 h4 h5).trans (strShape_plain i o _ _)
  case movst o =>
    exact Parses.enc5 (StrOpts.code_lt o) (by decide) fun w h1 h2 h3 h4 h5 =>
      (format5_op (by decide) h1 h2 h3 h4 h5).trans (strShape_translated o _ _)
  case cmpsi i o =>
    exact Parses.enc5 (Nat.lt_of_succ_lt (StrOpts.code_lt o)) (by decide) fun w h1 h2 h3 h4 h5 =>
      (format5_op (by decide) h1 h2 h3 h4 h5).trans (strShape_plain i o _ _)
  case cmpst o =>
    exact Parses.enc5 (StrOpts.code_lt o) (by decide) fun w h1 h2 h3 h4 h5 =>
      (format5_op (by decide) h1 h2 h3 h4 h5).trans (strShape_translated o _ _)
  case skpsi i o =>
    exact Parses.enc5 (Nat.lt_of_succ_lt (StrOpts.code_lt o)) (by decide) fun w h1 h2 h3 h4 h5 =>
      (format5_op (by decide) h1 h2 h3 h4 h5).trans (strShape_plain i o _ _)
  case skpst o =>
    exact Parses.enc5 (StrOpts.code_lt o) (by decide) fun w h1 h2 h3 h4 h5 =>
      (format5_op (by decide) h1 h2 h3 h4 h5).trans (strShape_translated o _ _)
  case setcfg o => exact Parses.setcfg hlo hhi o
  case bbstod o => exact graphics (by simp [Codes.ops]) (BBOpts.code_lt o (by decide)) (hbbstod o)
  case bbor o => exact graphics (by simp [Codes.ops]) (BBOpts.code_lt o (by decide)) (hbbor o)
  case bbxor o => exact graphics (by simp [Codes.ops]) (BBOpts.code_lt o (by decide)) (hbbxor o)
  case bband o => exact graphics (by simp [Codes.ops]) (BBOpts.code_lt o (by decide)) (hbband o)
  case bbfor => exact graphics (by simp [Codes.ops]) (by decide) hbbfor
  case bitwt => exact graphics (by simp [Codes.ops]) (by decide) hbitwt
  case extblt => exact graphics (by simp [Codes.ops]) (by decide) hextblt
  case sbits => exact graphics (by simp [Codes.ops]) (by decide) hsbits
  case sbitps => exact graphics (by simp [Codes.ops]) (by decide) hsbitps
  case movmpi i => exact graphics (by simp [Codes.ops]) (by decide) (hmovmp i)
  case tbits b => exact graphics (by simp [Codes.ops]) (Nat.lt_of_le_of_lt (bitOf_le b) (by decide)) (htbits b)

end Sys2Proof

namespace Sys2Proof.Machine

open Sys2Proof

/-- Settles O1: the parser reads back exactly the encoder's bytes. -/
theorem decodeInvertsEncode : Obligations.DecodeInvertsEncode := by
  intro c i rest hc hw
  unfold decodeWith
  rw [Parses.encode hc hw rest]

end Sys2Proof.Machine
end

section
/-! PROOFS. The floating-point instructions; undefined opcodes. -/

namespace Sys2Proof.Machine

open Sys2Proof

/-! ### What a floating-point instruction does around the protocol -/

section
variable {g : Gen} {n : Nat} {s t : State}

theorem SameRegs.of_fread {v : Option (BitVec 64)} (h : fread g n s = .ok (v, t)) : SameRegs s t := by
  rcases fread_cases g n with hg | hg <;> rw [hg] at h
  · cases h
    exact .of_eq rfl
  · obtain ⟨x, u, hx, hu⟩ := bind_eq_ok.1 h
    cases hu
    exact SameRegs.of_rd hx

theorem SameRegs.of_fwrite {d : Option Dest} (h : fwrite g s = .ok (d, t)) : SameRegs s t := by
  rcases fwrite_cases g with hg | hg <;> rw [hg] at h
  · cases h
    exact .of_eq rfl
  · obtain ⟨x, u, hx, hu⟩ := bind_eq_ok.1 h
    cases hu
    exact SameRegs.of_dstWrite hx

theorem SameRegs.of_fmodify {d : Option Dest × Option (BitVec 64)} (h : fmodify g n s = .ok (d, t)) : SameRegs s t := by
  rcases fmodify_cases g n with hg | hg <;> rw [hg] at h
  · cases h
    exact .of_eq rfl
  · obtain ⟨x, u, hx, h⟩ := bind_eq_ok.1 h
    obtain ⟨v, w, hv, hu⟩ := bind_eq_ok.1 h
    cases hu
    exact (SameRegs.of_dstModify hx).trans (SameRegs.of_getDest hv)

end

theorem run_needFpu {s : State} (h : s.cfg.f = true) : needFpu s = .ok ((), s) := by
  unfold needFpu
  rw [run_peek_bind, h]
  rfl

theorem run_needFpu_absent {s : State} (h : s.cfg.f = false) : needFpu s = .error (.trap .und s) := by
  unfold needFpu
  rw [run_peek_bind, h]
  rfl

/-- The result written to the place of an instruction, if there is one (R512 step 7). -/
def ResultWritten (d : Option Dest) (n : Nat) (v : BitVec 64) (u w : State) : Prop :=
  match d with
  | none => w = u
  | some x => putDest x n (v.setWidth (8 * n)) u = .ok ((), w)

/-- An instruction whose operands are evaluated is the protocol with its request, and what it does with a reply beside taking it. -/
def RunsProtocol (i : Instr) (s t : State) (q : FpuRequest) (d : Option Dest) (n : Nat) : Prop :=
  ∃ op1 op2 m k, (∀ u, exec i u = finish i m u) ∧ m s = protocol i op1 op2 k t ∧ q = requestOf i op1 op2 ∧ SameRegs s t ∧
    ∀ r u w, ResultWritten d n (floatResult i t r) u w → ∃ x, k r u = .ok ((), x) ∧ s.after i x = s.after i (w.replied i q r)

theorem run_fresult {d : Option Dest} {n : Nat} {r : FpuReply} {u w : State} (h : ResultWritten d n r.result u w) :
    fresult d n r u = .ok ((), w) := by
  cases d with
  | none => exact congrArg (fun x => Except.ok ((), x)) h.symm
  | some x => exact h

section
variable {i : Instr} {f : FSize} {x y : Gen} {s t s1 : State} {a b : Option (BitVec 64)} {d : Option Dest} {m n : Nat}

/-- An instruction whose reply is only written. -/
theorem runsProtocol_result {op1 op2 : Option (BitVec 64)} {k : M Next} (hexec : ∀ u, exec i u = finish i k u)
    (hk : k s = protocol i op1 op2 (fresult d n) t) (hs : SameRegs s t) (hres : ∀ r, floatResult i t r = r.result)
    (hrep : ∀ (w : State) r, w.replied i (requestOf i op1 op2) r = w) : RunsProtocol i s t (requestOf i op1 op2) d n :=
  ⟨op1, op2, k, fresult d n, hexec, hk, rfl, hs, fun r u w h => ⟨w, run_fresult (by rw [← hres]; exact h), by rw [hrep]⟩⟩

theorem run_floatModify (hf : s.cfg.f = true) (ha : fread x f.bytes s = .ok (a, s1)) (hb : fmodify y f.bytes s1 = .ok ((d, b), t)) :
    floatModify i f x y s = protocol i a b (fresult d f.bytes) t := by
  unfold floatModify
  rw [run_bind_of_ok (run_needFpu hf), run_bind_of_ok ha, run_bind_of_ok hb]

theorem run_floatMove (hf : s.cfg.f = true) (ha : fread x m s = .ok (a, s1)) (hd : fwrite y s1 = .ok (d, t)) :
    floatMove i m n x y s = protocol i a none (fresult d n) t := by
  unfold floatMove
  rw [run_bind_of_ok (run_needFpu hf), run_bind_of_ok ha, run_bind_of_ok hd]

theorem run_floatRead {k : FpuReply → M Unit} (hf : s.cfg.f = true) (ha : fread x f.bytes s = .ok (a, s1))
    (hb : fread y f.bytes s1 = .ok (b, t)) : floatRead i f x y k s = protocol i a b k t := by
  unfold floatRead
  rw [run_bind_of_ok (run_needFpu hf), run_bind_of_ok ha, run_bind_of_ok hb]

theorem run_floatToInt {z : Size} {e : Dest} (hf : s.cfg.f = true) (ha : fread x f.bytes s = .ok (a, s1))
    (he : dstWrite y s1 = .ok (e, t)) : floatToInt i f z x y s = protocol i a none (fresult (some e) z.bytes) t := by
  unfold floatToInt
  rw [run_bind_of_ok (run_needFpu hf), run_bind_of_ok ha, run_bind_of_ok he]

end

/-- The twenty instructions, by the shape of their operands (R514, R520-R539). -/
theorem FloatIssues.runsProtocol {i : Instr} {s t : State} {q : FpuRequest} {d : Option Dest} {n : Nat}
    (h : FloatIssues i s t q d n) (hf : s.cfg.f = true) : RunsProtocol i s t q d n := by
  cases i
  case addf f x y | subf f x y | mulf f x y | divf f x y | scalbf f x y =>
    obtain ⟨rfl, a, s1, b, ha, hb, rfl⟩ := h
    exact runsProtocol_result (fun _ => rfl) (run_floatModify hf ha hb) ((SameRegs.of_fread ha).trans (SameRegs.of_fmodify hb))
      (fun _ => rfl) (fun _ _ => rfl)
  case movf f x y | absf f x y | negf f x y | logbf f x y =>
    obtain ⟨rfl, a, s1, ha, hd, rfl⟩ := h
    exact runsProtocol_result (fun _ => rfl) (run_floatMove hf ha hd) ((SameRegs.of_fread ha).trans (SameRegs.of_fwrite hd))
      (fun _ => rfl) (fun _ _ => rfl)
  case movfl f x y | movlf f x y =>
    obtain ⟨rfl, a, s1, ha, hd, rfl⟩ := h
    exact runsProtocol_result (fun _ => rfl) (run_floatMove hf ha hd) ((SameRegs.of_fread ha).trans (SameRegs.of_fwrite hd))
      (fun _ => rfl) (fun _ _ => rfl)
  case floorfi f z x y | truncfi f z x y | roundfi f z x y =>
    obtain ⟨rfl, a, s1, e, ha, he, rfl, rfl⟩ := h
    exact runsProtocol_result (fun _ => rfl) (run_floatToInt hf ha he) ((SameRegs.of_fread ha).trans (SameRegs.of_dstWrite he))
      (fun _ => rfl) (fun _ _ => rfl)
  case polyf f x y | dotf f x y =>
    obtain ⟨rfl, a, s1, b, ha, hb, rfl⟩ := h
    exact ⟨a, b, _, fun _ => pure (), fun _ => rfl, run_floatRead hf ha hb, rfl, (SameRegs.of_fread ha).trans (SameRegs.of_fread hb),
      fun r u w hw => ⟨u, rfl, congrArg _ hw.symm⟩⟩
  case cmpf f x y =>
    obtain ⟨rfl, a, s1, b, ha, hb, rfl⟩ := h
    refine ⟨a, b, _, _, fun _ => rfl, run_floatRead hf ha hb, rfl, (SameRegs.of_fread ha).trans (SameRegs.of_fread hb),
      fun r u w hw => ?_⟩
    obtain rfl : w = u := hw
    exact ⟨_, run_updPsr _ _, rfl⟩
  case movif f z x y =>
    obtain ⟨rfl, a, s1, ha, hd, rfl⟩ := h
    refine runsProtocol_result (k := needFpu >>= fun _ => rd x z.bytes >>= fun a => fwrite y >>= fun d =>
      protocol (.movif f z x y) (some (a.setWidth 64)) none (fresult d f.bytes)) (fun _ => rfl) ?_
      ((SameRegs.of_rd ha).trans (SameRegs.of_fwrite hd)) (fun _ => rfl) (fun _ _ => rfl)
    rw [run_bind_of_ok (run_needFpu hf), run_bind_of_ok ha, run_bind_of_ok hd]
  case lfsr z x =>
    obtain ⟨rfl, a, ha, rfl⟩ := h
    refine ⟨some (a.setWidth 64), none, needFpu >>= fun _ => rd x 4 >>= fun a => protocol (.lfsr z x) (some (a.setWidth 64)) none
      (fun _ => upd (fun s => { s with fpu := { s.fpu with st := { s.fpu.st with fsr := a } } })), _, fun _ => rfl,
      (run_bind_of_ok (run_needFpu hf)).trans (run_bind_of_ok ha), rfl, SameRegs.of_rd ha, fun r u w hw => ?_⟩
    obtain rfl : w = u := hw
    have hback : (a.setWidth 64).setWidth 32 = a := BitVec.setWidth_setWidth_of_le _ (by decide)
    refine ⟨_, rfl, ?_⟩
    show _ = s.after _ { w with fpu := { w.fpu with st := { w.fpu.st with fsr := (a.setWidth 64).setWidth 32 } } }
    rw [hback]
  case sfsr z y =>
    obtain ⟨rfl, e, he, rfl, rfl⟩ := h
    refine ⟨none, none, needFpu >>= fun _ => dstWrite y >>= fun d => peek (·.fpu.st.fsr) >>= fun fsr =>
      protocol (.sfsr z y) none none (fun _ => putDest d 4 fsr), _, fun _ => rfl,
      (run_bind_of_ok (run_needFpu hf)).trans ((run_bind_of_ok he).trans (run_peek_bind _ _ _)), rfl, SameRegs.of_dstWrite he,
      fun r u w hw => ⟨w, ?_, rfl⟩⟩
    have hback : (t.fpu.st.fsr.setWidth 64).setWidth 32 = t.fpu.st.fsr := BitVec.setWidth_setWidth_of_le _ (by decide)
    rw [← hback]
    exact hw
  all_goals exact h.elim

/-! ### The protocol -/

section
variable {i : Instr} {op1 op2 : Option (BitVec 64)} {k : FpuReply → M Unit} {t : State}

/-- A reply without the Q bit is handled (R512). -/
theorem run_protocol {x : State} (hfpu : t.plat.hasFpu = true) (hq : (t.fpu.reply (requestOf i op1 op2)).status.getLsbD 0 = false)
    (hk : k (t.fpu.reply (requestOf i op1 op2)) (t.sent (requestOf i op1 op2)) = .ok ((), x)) :
    protocol i op1 op2 k t = .ok (.seq, x) := by
  unfold protocol
  rw [run_peek_bind, hfpu, run_peek_bind]
  show (onlyIf ((t.fpu.reply (requestOf i op1 op2)).status.getLsbD 0) (raise .slave) >>= fun _ =>
    k (t.fpu.reply (requestOf i op1 op2)) >>= fun _ => pure Next.seq) (t.sent (requestOf i op1 op2)) = _
  rw [hq, run_bind_of_ok (run_onlyIf_false _ _), run_bind_of_ok hk]
  rfl

/-- The Q bit raises Trap (SLAVE) with nothing written (R512 step 6). -/
theorem run_protocol_trap (hfpu : t.plat.hasFpu = true) (hq : (t.fpu.reply (requestOf i op1 op2)).status.getLsbD 0 = true) :
    protocol i op1 op2 k t = .error (.trap .slave (t.sent (requestOf i op1 op2))) := by
  unfold protocol
  rw [run_peek_bind, hfpu, run_peek_bind]
  show (onlyIf ((t.fpu.reply (requestOf i op1 op2)).status.getLsbD 0) (raise .slave) >>= fun _ =>
    k (t.fpu.reply (requestOf i op1 op2)) >>= fun _ => pure Next.seq) (t.sent (requestOf i op1 op2)) = _
  rw [hq]
  rfl

/-- With no unit attached the CPU waits (R511). -/
theorem run_protocol_waits (hfpu : t.plat.hasFpu = false) : protocol i op1 op2 k t =
    .ok (.stay, { t with fpu := { t.fpu with last := some (requestOf i op1 op2) }, op := .waitingForSlave }) := by
  unfold protocol
  rw [run_peek_bind, hfpu, run_peek_bind]
  rfl

end

/-- Settles O51: the protocol's reply, then what the instruction does with it. -/
theorem floatsComplete : Obligations.FloatsComplete := by
  intro i s t q d n u hi hf hfpu hq hd
  obtain ⟨op1, op2, m, k, hexec, hm, rfl, hs, hk⟩ := hi.runsProtocol hf
  obtain ⟨x, hx, hafter⟩ := hk (t.fpu.reply (requestOf i op1 op2)) (t.sent (requestOf i op1 op2)) u (by cases d <;> exact hd)
  rw [hexec, ← hafter]
  exact finish_seq_after (hm.trans (run_protocol (by rw [hs.plat]; exact hfpu) hq hx))

/-- A floating-point instruction asks for the unit first (R510). -/
theorem exec_float_undefined {i : Instr} {s : State} (hi : isFloat i = true) (hf : s.cfg.f = false) :
    exec i s = settled (trapSequence .und s) s := by
  cases i
  case movif | lfsr | movlf | movfl | roundfi | truncfi | sfsr | floorfi | addf | movf | cmpf | subf | negf | divf | mulf | absf |
      polyf | dotf | scalbf | logbf => exact finish_of_trap (run_bind_of_error (run_needFpu_absent hf))
  all_goals exact absurd hi Bool.false_ne_true

/-- Settles O52. -/
theorem floatsTrap : Obligations.FloatsTrap := by
  refine ⟨fun i s hi hf => exec_float_undefined hi hf, fun i s t q d n hi hf hfpu hq _ => ?slave, fun i s t q d n hi hf hfpu => ?waits⟩
  case slave =>
    obtain ⟨op1, op2, m, k, hexec, hm, rfl, hs, -⟩ := hi.runsProtocol hf
    rw [hexec]
    exact finish_of_trap (hm.trans (run_protocol_trap (by rw [hs.plat]; exact hfpu) hq))
  case waits =>
    obtain ⟨op1, op2, m, k, hexec, hm, -, hs, -⟩ := hi.runsProtocol hf
    exact ⟨_, (hexec s).trans (finish_stay (hm.trans (run_protocol_waits (by rw [hs.plat]; exact hfpu)))), rfl, hs.pc, rfl⟩

/-! ### What the floating-point formats decode to -/

/-- Every instruction a shape completes has a property. -/
def ShapeAll (p : Instr → Bool) : Shape → Prop
  | .none i => p i = true
  | .disp k => ∀ d, p (k d) = true
  | .byte k => ∀ b, p (k b) = true
  | .byteDisp k => ∀ b d, p (k b d) = true
  | .g _ _ k => ∀ a, p (k a) = true
  | .gDisp _ _ k => ∀ a d, p (k a d) = true
  | .gg _ _ _ _ k => ∀ a b, p (k a b) = true
  | .ggDisp _ _ _ _ k => ∀ a b d, p (k a b d) = true
  | .ggByte _ _ _ _ k => ∀ a b v, p (k a b v) = true

theorem parse_bind_eq_ok {α β : Type} {p : Parse α} {f : α → Parse β} {bs rest : List Byte} {y : β} (h : (p >>= f) bs = .ok (y, rest)) :
    ∃ x cs, f x cs = .ok (y, rest) := by
  change (p bs >>= fun r => f r.1 r.2) = _ at h
  cases hp : p bs with
  | error e =>
    rw [hp] at h
    cases h
  | ok r =>
    rw [hp] at h
    exact ⟨r.1, r.2, h⟩

/-- What a shape's parser answers is an instruction the shape completes. -/
theorem ShapeAll.of_parse {p : Instr → Bool} {sh : Shape} (h : ShapeAll p sh) {bs rest : List Byte} {i : Instr}
    (hp : sh.parse bs = .ok (i, rest)) : p i = true := by
  cases sh with
  | none j =>
    cases hp
    exact h
  | disp k =>
    obtain ⟨d, cs, hp⟩ := parse_bind_eq_ok hp
    cases hp
    exact h d
  | byte k =>
    obtain ⟨b, cs, hp⟩ := parse_bind_eq_ok hp
    cases hp
    exact h b
  | byteDisp k =>
    obtain ⟨b, cs, hp⟩ := parse_bind_eq_ok hp
    obtain ⟨d, cs, hp⟩ := parse_bind_eq_ok hp
    cases hp
    exact h b d
  | g g1 n1 k =>
    obtain ⟨x, cs, hp⟩ := parse_bind_eq_ok hp
    obtain ⟨a, cs, hp⟩ := parse_bind_eq_ok hp
    cases hp
    exact h a
  | gDisp g1 n1 k =>
    obtain ⟨x, cs, hp⟩ := parse_bind_eq_ok hp
    obtain ⟨a, cs, hp⟩ := parse_bind_eq_ok hp
    obtain ⟨d, cs, hp⟩ := parse_bind_eq_ok hp
    cases hp
    exact h a d
  | gg g1 n1 g2 n2 k =>
    obtain ⟨x, cs, hp⟩ := parse_bind_eq_ok hp
    obtain ⟨y, cs, hp⟩ := parse_bind_eq_ok hp
    obtain ⟨a, cs, hp⟩ := parse_bind_eq_ok hp
    obtain ⟨b, cs, hp⟩ := parse_bind_eq_ok hp
    cases hp
    exact h a b
  | ggDisp g1 n1 g2 n2 k | ggByte g1 n1 g2 n2 k =>
    obtain ⟨x, cs, hp⟩ := parse_bind_eq_ok hp
    obtain ⟨y, cs, hp⟩ := parse_bind_eq_ok hp
    obtain ⟨a, cs, hp⟩ := parse_bind_eq_ok hp
    obtain ⟨b, cs, hp⟩ := parse_bind_eq_ok hp
    obtain ⟨v, cs, hp⟩ := parse_bind_eq_ok hp
    cases hp
    exact h a b v

/-- Every shape a format answers completes instructions with a property. -/
def Makes (p : Instr → Bool) (r : Except BadCode Shape) : Prop := ∀ sh, r = .ok sh → ShapeAll p sh

theorem Makes.ok {p : Instr → Bool} {sh : Shape} (h : ShapeAll p sh) : Makes p (.ok sh) := fun _ e => Except.ok.inj e ▸ h

theorem Makes.error {p : Instr → Bool} (why : BadCode) : Makes p (.error why) := fun _ e => nomatch e

theorem Makes.bind {p : Instr → Bool} {α : Type} {x : Except BadCode α} {f : α → Except BadCode Shape} (h : ∀ a, Makes p (f a)) :
    Makes p (x >>= f) := fun sh e => by
  cases x with
  | error why => cases e
  | ok a => exact h a sh e

theorem format9_floats (w : Nat) : Makes isFloat (format9 w) := by
  unfold format9
  dsimp only
  split
  · exact Makes.bind fun _ => Makes.ok fun _ _ => rfl
  · exact Makes.bind fun _ => Makes.ok fun _ => rfl
  · exact Makes.ok fun _ _ => rfl
  · exact Makes.ok fun _ _ => rfl
  · exact Makes.bind fun _ => Makes.ok fun _ _ => rfl
  · exact Makes.bind fun _ => Makes.ok fun _ _ => rfl
  · exact Makes.bind fun _ => Makes.ok fun _ => rfl
  · exact Makes.bind fun _ => Makes.ok fun _ _ => rfl

theorem format11_floats (w : Nat) : Makes isFloat (format11 w) := by
  unfold format11
  refine Makes.bind fun _ => ?_
  split
  case h_9 => exact Makes.error _
  all_goals exact Makes.ok fun _ _ => rfl

theorem format12_floats (w : Nat) : Makes isFloat (format12 w) := by
  unfold format12
  refine Makes.bind fun _ => ?_
  split
  case h_5 => exact Makes.error _
  all_goals exact Makes.ok fun _ _ => rfl

/-- A format's parser answers what the format makes. -/
theorem Makes.of_parse3 {p : Instr → Bool} {fmt : Nat → Except BadCode Shape} (h : ∀ w, Makes p (fmt w)) {b0 : Nat}
    {bs rest : List Byte} {i : Instr} (hp : parse3 b0 fmt bs = .ok (i, rest)) : p i = true := by
  obtain ⟨b1, cs, hp⟩ := parse_bind_eq_ok hp
  obtain ⟨b2, cs, hp⟩ := parse_bind_eq_ok hp
  cases hr : fmt (b0 + 256 * b1.toNat + 65536 * b2.toNat) with
  | ok sh =>
    rw [hr] at hp
    exact (h _ sh hr).of_parse hp
  | error why =>
    rw [hr] at hp
    cases hp

/-- The three ID bytes lead to floating-point instructions (R210-R212). -/
theorem isFloat_of_fpuFirst {c : Codes} {bs rest : List Byte} {i : Instr} (hf : fpuFirst bs = true) (hd : decodeWith c bs = .ok i rest) :
    isFloat i = true := by
  have hp : parseInstr c bs = .ok (i, rest) := by
    unfold decodeWith at hd
    split at hd
    · next h =>
      cases hd
      exact h
    · cases hd
  cases bs with
  | nil => cases hf
  | cons b bs =>
    have hb : b = 0x3E ∨ b = 0xBE ∨ b = 0xFE := by simpa [fpuFirst, or_assoc] using hf
    rcases hb with rfl | rfl | rfl
    · exact Makes.of_parse3 (b0 := 0x3E) format9_floats hp
    · exact Makes.of_parse3 (b0 := 0xBE) format11_floats hp
    · exact Makes.of_parse3 (b0 := 0xFE) format12_floats hp

/-! ### Undefined opcodes -/

theorem decodeWith_of_error {c : Codes} {bs : List Byte} {why : BadCode} (h : parseInstr c bs = .error why) :
    decodeWith c bs = .bad why := by
  unfold decodeWith
  rw [h]

/-- A low nibble of 6 names no format (R231). -/
theorem parseInstr_six {c : Codes} {b : Byte} (h : b &&& 0x0F = 0x06) (bs : List Byte) : parseInstr c (b :: bs) = .error .undefined := by
  have hb : b.toNat % 16 = 6 := by
    have h := congrArg BitVec.toNat h
    rw [BitVec.toNat_and] at h
    exact (Nat.and_two_pow_sub_one_eq_mod b.toNat 4).symm.trans h
  show (match b.toNat % 16 with
    | 10 => (format0 b.toNat).parse
    | 2 => (format1 b.toNat).parse
    | 6 => reject .undefined
    | 14 => _
    | _ => _ : Parse Instr) bs = _
  rw [hb]
  rfl

theorem aregOf?_undefined {n : Nat} (h : n ∉ [0, 8, 9, 10, 13, 14, 15]) : aregOf? n = .error .undefined := by
  unfold aregOf?
  split <;> simp_all

theorem sizeOf?_of_ne {n : Nat} (hn : n < 4) (h : n ≠ 2) : ∃ i, sizeOf? n = .ok i := by
  interval_cases n
  · exact ⟨.b, rfl⟩
  · exact ⟨.w, rfl⟩
  · exact absurd rfl h
  · exact ⟨.d, rfl⟩

/-- SPR and LPR with an undefined register code (R217). -/
theorem format2_undefined {w : Nat} (hi : w % 4 ≠ 2) (ho : bits w 4 3 = 2 ∨ bits w 4 3 = 6) (hq : bits w 7 4 ∉ [0, 8, 9, 10, 13, 14, 15]) :
    format2 w = .error .undefined := by
  obtain ⟨i, hi⟩ := sizeOf?_of_ne (n := bits w 0 2) (by rw [bits_eq]; omega) (by rw [bits_eq]; omega)
  rcases ho with ho | ho <;> simp only [format2, hi, ho, aregOf?_undefined hq] <;> rfl

/-- The undefined operations of format 3 (R204). -/
theorem format3_undefined {w : Nat} (hi : w % 4 ≠ 2) (ho : bits w 7 4 = 8 ∨ bits w 7 4 % 2 = 1) : format3 w = .error .undefined := by
  obtain ⟨i, hi⟩ := sizeOf?_of_ne (n := bits w 0 2) (by rw [bits_eq]; omega) (by rw [bits_eq]; omega)
  have hlt : bits w 7 4 < 16 := by rw [bits_eq]; omega
  generalize hn : bits w 7 4 = n at ho hlt
  have hn' : n = 8 ∨ n = 1 ∨ n = 3 ∨ n = 5 ∨ n = 7 ∨ n = 9 ∨ n = 11 ∨ n = 13 ∨ n = 15 := by omega
  simp only [format3, hi, hn]
  rcases hn' with rfl | rfl | rfl | rfl | rfl | rfl | rfl | rfl | rfl <;> rfl

theorem format5_undefined (c : Codes) {w : Nat} (h : bits w 10 4 = 15) : format5 c w = .error .undefined := by
  simp only [format5, h]
  rfl

theorem format6_undefined {w : Nat} (h : bits w 10 4 = 4 ∨ bits w 10 4 = 10) : format6 w = .error .undefined := by
  rcases h with h | h <;> simp only [format6, h] <;> rfl

theorem format7_undefined {w : Nat} (h : bits w 10 4 = 10) : format7 w = .error .undefined := by
  simp only [format7, h]
  rfl

theorem format8_undefined {w : Nat} (h1 : bits w 10 1 = 1) (h2 : bits w 6 2 = 2 ∨ bits w 6 2 = 3) : format8 w = .error .undefined := by
  rcases h2 with h2 | h2 <;> simp only [format8, h1, h2] <;> rfl

theorem fromFormat_error {r : Except BadCode Shape} {why : BadCode} (h : r = .error why) (bs : List Byte) :
    fromFormat r bs = .error why := by
  rw [h]
  rfl

/-- The undefined words of two bytes (R203, R204, R217). -/
theorem parseInstr_two_undefined {c : Codes} {b0 b1 : Byte} {rest : List Byte}
    (h : (b0 ∈ [(0x2C : Byte), 0x2D, 0x2F, 0xAC, 0xAD, 0xAF, 0x6C, 0x6D, 0x6F, 0xEC, 0xED, 0xEF] ∧
      b0.toNat / 128 + 2 * (b1.toNat % 8) ∉ [0, 8, 9, 10, 13, 14, 15]) ∨
    (b0 ∈ [(0x7C : Byte), 0x7D, 0x7F] ∧ b1.toNat % 8 = 4) ∨ b0 ∈ [(0xFC : Byte), 0xFD, 0xFF]) :
    parseInstr c (b0 :: b1 :: rest) = .error .undefined := by
  have hlt0 := b0.isLt
  have hlt1 := b1.isLt
  rcases h with ⟨hb, hq⟩ | h
  · have hsel : b0.toNat % 4 ≠ 2 ∧ b0.toNat / 4 % 4 = 3 ∧ b0.toNat / 4 % 32 ≠ 31 ∧ (b0.toNat / 16 % 8 = 2 ∨ b0.toNat / 16 % 8 = 6) := by
      simp only [List.mem_cons, List.not_mem_nil, or_false] at hb
      rcases hb with rfl | rfl | rfl | rfl | rfl | rfl | rfl | rfl | rfl | rfl | rfl | rfl <;> decide
    obtain ⟨hi, h3, h31, ho⟩ := hsel
    rw [parseInstr_two c hi, if_neg h31, if_pos h3]
    refine fromFormat_error (format2_undefined (by omega) ?_ ?_) rest
    · simp only [bits_eq]
      omega
    · rw [show bits (b0.toNat + 256 * b1.toNat) 7 4 = b0.toNat / 128 + 2 * (b1.toNat % 8) by rw [bits_eq]; omega]
      exact hq
  · have hsel : b0.toNat % 4 ≠ 2 ∧ b0.toNat / 4 % 32 = 31 ∧ (b0.toNat / 128 = 0 ∧ b1.toNat % 8 = 4 ∨ b0.toNat / 128 = 1) := by
      simp only [List.mem_cons, List.not_mem_nil, or_false] at h
      rcases h with ⟨rfl | rfl | rfl, h4⟩ | rfl | rfl | rfl <;> simp [*]
    obtain ⟨hi, h31, ho⟩ := hsel
    rw [parseInstr_two c hi, if_pos h31]
    refine fromFormat_error (format3_undefined (by omega) ?_) rest
    simp only [bits_eq]
    omega

/-- The undefined operations of the formats of three bytes (R206-R209). -/
theorem parseInstr_three_undefined {c : Codes} {b0 b1 b2 : Byte} {rest : List Byte}
    (h : (b0 = 0x0E ∧ b1.toNat / 4 % 16 = 15) ∨ (b0 = 0x4E ∧ (b1.toNat / 4 % 16 = 4 ∨ b1.toNat / 4 % 16 = 10)) ∨
      (b0 = 0xCE ∧ b1.toNat / 4 % 16 = 10) ∨ ((b0 = 0xAE ∨ b0 = 0xEE) ∧ b1.toNat / 4 % 16 % 2 = 1)) :
    parseInstr c (b0 :: b1 :: b2 :: rest) = .error .undefined := by
  have hlt1 := b1.isLt
  rcases h with ⟨rfl, ho⟩ | ⟨rfl, ho⟩ | ⟨rfl, ho⟩ | ⟨rfl | rfl, ho⟩
  · refine fromFormat_error (r := format5 c (0x0E + 256 * b1.toNat + 65536 * b2.toNat)) (format5_undefined c ?_) rest
    rw [bits_eq]
    omega
  · refine fromFormat_error (r := format6 (0x4E + 256 * b1.toNat + 65536 * b2.toNat)) (format6_undefined ?_) rest
    rw [bits_eq]
    omega
  · refine fromFormat_error (r := format7 (0xCE + 256 * b1.toNat + 65536 * b2.toNat)) (format7_undefined ?_) rest
    rw [bits_eq]
    omega
  · refine fromFormat_error (r := format8 (0xAE + 256 * b1.toNat + 65536 * b2.toNat)) (format8_undefined ?_ (.inl ?_)) rest
    all_goals
      rw [bits_eq]
      omega
  · refine fromFormat_error (r := format8 (0xEE + 256 * b1.toNat + 65536 * b2.toNat)) (format8_undefined ?_ (.inr ?_)) rest
    all_goals
      rw [bits_eq]
      omega

/-! ### Trap (UND) from the traced state -/

/-- An exception sequence's outcome depends on what it does from the state alone: nothing of it is due (R760). -/
theorem settled_entry_congr {α : Type} {m k : M α} {s t : State} (h : asEntry m s = asEntry k t) :
    settled (asEntry m) s = settled (asEntry k) t := by
  unfold settled
  rw [h]
  cases hk : asEntry k t with
  | ok y => rfl
  | error e =>
    cases e with
    | cut post d c =>
      have hentry : d = .entry := asEntry_cut hk
      rw [hentry]
    | trap x v => rfl
    | fault f => rfl
    | refuse r => rfl

/-- Trap (UND) restores the PSR the instruction started with and clears its P, which is all the copy of T to P changed (R650). -/
theorem settled_und_traced (s : State) : settled (trapSequence .und s.traced) s.traced = settled (trapSequence .und s) s :=
  settled_entry_congr rfl

/-- Settles O3: the decoder's refusals byte by byte, then the trap sequence, from the traced state where a floating-point
instruction is decoded before it is refused. -/
theorem undefinedOpcodesTrap : Obligations.UndefinedOpcodesTrap := by
  refine ⟨fun c b rest hb => decodeWith_of_error ?first, fun c b0 b1 rest h => decodeWith_of_error (parseInstr_two_undefined h),
    fun c b0 b1 b2 rest => ?three, fun s hd => ?bad, fun s hf hcfg => ?float⟩
  case first =>
    rcases hb with hb | hb
    · simp only [List.mem_cons, List.not_mem_nil, or_false] at hb
      rcases hb with rfl | rfl | rfl | rfl | rfl | rfl <;> rfl
    · exact parseInstr_six hb rest
  case three =>
    intro op h
    exact decodeWith_of_error (parseInstr_three_undefined h)
  case bad =>
    unfold runInstruction
    rw [hd]
    show (if _ then undefinedTrap s else undefinedTrap s) = _
    rw [ite_self]
    rfl
  case float =>
    unfold runInstruction
    split
    · next i rest hd =>
      rw [exec_float_undefined (s := s.traced) (isFloat_of_fpuFirst hf hd) hcfg]
      exact settled_und_traced s
    · rw [hf, hcfg]
      rfl

end Sys2Proof.Machine
end

section
/-! PROOFS. The interrupt control unit's level; the entry of an exception and the return from it. -/

namespace Sys2Proof.Machine

open Sys2Proof

/-! ### The interrupt control unit -/

theorem le_highestRequest {x : Bool × Nat} {l : List (Bool × Nat)} (hx : x ∈ l) (h : x.1 = true) : x.2 ≤ highestRequest l := by
  induction l with
  | nil => cases hx
  | cons y t ih =>
    unfold highestRequest
    rcases List.mem_cons.1 hx with rfl | ht
    · rw [if_pos h]
      exact Nat.le_max_left _ _
    · split
      · exact (ih ht).trans (Nat.le_max_right _ _)
      · exact ih ht

theorem highestRequest_eq (l : List (Bool × Nat)) : highestRequest l = 0 ∨ ∃ x ∈ l, x.1 = true ∧ x.2 = highestRequest l := by
  induction l with
  | nil => exact .inl rfl
  | cons y t ih =>
    have hrest : highestRequest t = 0 ∨ ∃ x ∈ y :: t, x.1 = true ∧ x.2 = highestRequest t :=
      ih.imp_right fun ⟨x, hx, h⟩ => ⟨x, List.mem_cons_of_mem _ hx, h⟩
    unfold highestRequest
    split
    next hy =>
      rcases Nat.le_total (highestRequest t) y.2 with hle | hle
      · exact .inr ⟨y, List.mem_cons_self, hy, (Nat.max_eq_left hle).symm⟩
      · rw [Nat.max_eq_right hle]
        exact hrest
    next => exact hrest

theorem State.externalLevel_eq (s : State) : s.externalLevel = 15 - s.irPins.toNat :=
  BitVec.toNat_not

/-- No internal request lies above level 14 (Table 3-5). -/
theorem highestRequest_internal_le (s : State) : highestRequest s.internalRequests ≤ 15 := by
  rcases highestRequest_eq s.internalRequests with h | ⟨x, hx, -, h⟩
  · omega
  · rw [← h]
    simp only [State.internalRequests, List.mem_cons, List.not_mem_nil, or_false] at hx
    rcases hx with rfl | rfl | rfl | rfl | rfl | rfl | rfl | rfl <;> exact Nat.le_of_ble_eq_true rfl

theorem State.irqLevel_le (s : State) : s.irqLevel ≤ 15 := by
  refine max_le ?_ (highestRequest_internal_le s)
  rw [s.externalLevel_eq]
  omega

/-- IVCT's eight bits hold the vector (R90). -/
theorem State.ivct_toNat (s : State) : s.ivct.toNat = 0x10 + s.irqLevel := by
  have := s.irqLevel_le
  rw [State.ivct, BitVec.toNat_ofNat]
  omega

theorem highestBit_le (v : Half) (n : Nat) : highestBit v n ≤ n := by
  induction n with
  | zero => exact Nat.le_refl 0
  | succ n ih => unfold highestBit; split <;> omega

theorem le_highestBit {v : Half} {n l : Nat} (hl : l ≤ n) (h : v.getLsbD l = true) : l ≤ highestBit v n := by
  induction n with
  | zero => exact hl
  | succ n ih =>
    unfold highestBit
    split
    · exact hl
    next hn =>
      have hne : l ≠ n + 1 := fun e => hn (e ▸ h)
      exact ih (by omega)

theorem getLsbD_highestBit {v : Half} {n : Nat} (h : highestBit v n ≠ 0) : v.getLsbD (highestBit v n) = true := by
  induction n with
  | zero => exact absurd rfl h
  | succ n ih =>
    unfold highestBit at h ⊢
    split
    next hn => exact hn
    next hn =>
      rw [if_neg hn] at h
      exact ih h

theorem State.irqRequest_iff (s : State) :
    s.irqRequest = true ↔ 0 < s.irqLevel ∧ ∀ l, 1 ≤ l → l ≤ 15 → s.isrv.getLsbD l = true → l < s.irqLevel := by
  rw [State.irqRequest, decide_eq_true_iff, State.inService]
  refine ⟨fun h => ⟨by omega, fun l _ h15 hb => (le_highestBit h15 hb).trans_lt h⟩, fun ⟨h0, h⟩ => ?_⟩
  by_cases hz : highestBit s.isrv 15 = 0
  · rw [hz]
    exact h0
  · exact h _ (Nat.pos_of_ne_zero hz) (highestBit_le _ _) (getLsbD_highestBit hz)

theorem getLsbD_serviceMask {l : Nat} (hl : l < 16) : (0xFFFE : Half).getLsbD l = (l != 0) := by
  revert l
  decide

theorem State.acknowledge_getLsbD (s : State) {l : Nat} (hl : l < 16) :
    s.acknowledge.isrv.getLsbD l = (l != 0 && (s.isrv.getLsbD l || l == s.irqLevel)) := by
  simp only [State.acknowledge, BitVec.getLsbD_and, BitVec.getLsbD_or, BitVec.getLsbD_twoPow, getLsbD_serviceMask hl]
  have heq : (decide (s.irqLevel < 16) && decide (s.irqLevel = l)) = (l == s.irqLevel) := by
    rw [decide_eq_true (Nat.lt_succ_of_le s.irqLevel_le), Bool.true_and]
    exact decide_eq_decide.2 eq_comm
  rw [heq, Bool.and_comm]

theorem State.endOfInterrupt_getLsbD (s : State) {l : Nat} (hl : l < 16) : s.endOfInterrupt.isrv.getLsbD l = true ↔
    s.isrv.getLsbD l = true ∧ (l = 0 ∨ ∃ h, h < 16 ∧ l < h ∧ s.isrv.getLsbD h = true) := by
  have hisrv : s.endOfInterrupt.isrv =
    if s.inService = 0 then s.isrv else s.isrv &&& ~~~BitVec.twoPow 16 s.inService := rfl
  rw [hisrv]
  split
  next hz =>
    have hzero (b : Nat) (hb : b < 16) (h : s.isrv.getLsbD b = true) : b = 0 :=
      Nat.eq_zero_of_le_zero (hz ▸ le_highestBit (n := 15) (by omega) h)
    exact ⟨fun h => ⟨h, .inl (hzero l hl h)⟩, And.left⟩
  next hz =>
    have htop : s.isrv.getLsbD s.inService = true := getLsbD_highestBit hz
    have hle : s.inService ≤ 15 := highestBit_le _ _
    have hbit : (s.isrv &&& ~~~BitVec.twoPow 16 s.inService).getLsbD l = true ↔
        s.isrv.getLsbD l = true ∧ s.inService ≠ l := by
      simp only [BitVec.getLsbD_and, BitVec.getLsbD_not, BitVec.getLsbD_twoPow]
      simp [hl, show s.inService < 16 by omega]
    rw [hbit]
    refine and_congr_right fun hlb => ⟨fun hne => ?_, fun h he => ?_⟩
    · exact .inr ⟨s.inService, by omega, Nat.lt_of_le_of_ne (le_highestBit (by omega) hlb) (Ne.symm hne), htop⟩
    · rcases h with h0 | ⟨b, hb, hlt, h⟩
      · exact hz (he.trans h0)
      · have : b ≤ s.inService := le_highestBit (by omega) h
        omega

theorem DmaChan.irq_and_dip (c e : DmaChan) (b : Bool) : ({ ch0 := c, ch1 := e } : Dma).irq b =
    (c.irq && (if b then c.dip else !c.dip) || e.irq && (if b then e.dip else !e.dip)) := by
  unfold Dma.irq
  cases b <;> cases c.dip <;> cases e.dip <;> rfl

/-- Settles O45: the level is the maximum of the pins' and the requests', the level in service the highest bit of ISRV. -/
theorem interruptLevels : Obligations.InterruptLevels := by
  intro s dma high low a b requests
  have hreq : s.internalRequests = requests := by
    have htimerA (t : Timer) : t.reqA = a t := Bool.and_or_distrib_right _ _ _
    unfold State.internalRequests
    simp only [htimerA, Timer.reqB]
    rw [show s.dma.irq true = high from DmaChan.irq_and_dip s.dma.ch0 s.dma.ch1 true,
      show s.dma.irq false = low from DmaChan.irq_and_dip s.dma.ch0 s.dma.ch1 false]
  have hlevel : s.irqLevel = max (15 - s.irPins.toNat) (highestRequest requests) := by
    rw [← hreq, ← s.externalLevel_eq]
    rfl
  refine ⟨hlevel ▸ Nat.le_max_left _ _, s.irqLevel_le, fun x hx h => ?above, ?reached, s.irqRequest_iff,
    fun l hl => s.acknowledge_getLsbD hl, fun l hl => s.endOfInterrupt_getLsbD hl⟩
  case above =>
    rw [hlevel]
    exact (le_highestRequest hx h).trans (Nat.le_max_right _ _)
  case reached =>
    rw [hlevel]
    rcases Nat.le_total (highestRequest requests) (15 - s.irPins.toNat) with hle | hle
    · exact .inl (Nat.max_eq_left hle)
    · rw [Nat.max_eq_right hle]
      exact (highestRequest_eq requests).imp_left fun h0 => by omega

/-! ### The entry of an exception -/

theorem run_pushInterrupt {n : Nat} (v : BitVec (8 * n)) {s : State} (hs : s.calm) (hn : 0 < n)
    (hw : s.writable (s.sp0 - BitVec.ofNat 32 n) n) : pushInterrupt n v s =
    .ok ((), { s.poke (s.sp0 - BitVec.ofNat 32 n) n v with sp0 := s.sp0 - BitVec.ofNat 32 n }) := by
  unfold pushInterrupt
  rw [run_peek_bind, run_bind_of_ok (run_memWrite_of_writable _ hs hn hw)]
  rfl

/-- The state with the entry's new PC, SB and MOD, its frame stored: `t` is the state the stores left. -/
def State.entered (s t : State) (pc sb : Word) (m : Half) : State :=
  { s with mem := t.mem, written := t.written, pc := pc, sb := sb, mod := m, sp0 := s.sp0 - 8, dirty := [] }

/-- The frame of an entry in Direct-Exception mode (R623). -/
def State.frameDirect (s : State) (copy : Half) (ret : Word) : State := (s.poke (s.sp0 - 2) 2 copy).poke (s.sp0 - 8) 4 ret

/-- The frame of an entry without Direct-Exception mode (R622). -/
def State.frameModular (s : State) (copy : Half) (ret : Word) : State :=
  ((s.poke (s.sp0 - 2) 2 copy).poke (s.sp0 - 4) 2 s.mod).poke (s.sp0 - 8) 4 ret

/-- The dispatch table's entry of a vector (R611). -/
def State.dispatch (s : State) (vector : Nat) : Word := s.valueAt (s.intbase + BitVec.ofNat 32 (4 * vector)) 4

/-- The state after an entry in Direct-Exception mode (R623). -/
def State.enteredDirect (s : State) (vector : Nat) (copy : Half) (ret : Word) : State :=
  s.entered (s.frameDirect copy ret) (s.dispatch vector) s.sb s.mod

/-- The state after an entry without Direct-Exception mode (R622). -/
def State.enteredModular (s : State) (vector : Nat) (copy : Half) (ret : Word) : State :=
  s.entered (s.frameModular copy ret)
    (s.valueAt ((moduleOf (s.dispatch vector)).setWidth 32 + 8) 4 + offsetOf (s.dispatch vector))
    (s.valueAt ((moduleOf (s.dispatch vector)).setWidth 32) 4) (moduleOf (s.dispatch vector))

/-- The frame of an entry: the double-word of the return address, then the slots of MOD and of the PSR. -/
theorem bytesOf_entryFrame (sp : Word) :
    bytesOf (sp - 8) 8 = bytesOf (sp - 8) 4 ++ (bytesOf (sp - 4) 2 ++ bytesOf (sp - 2) 2) := by
  rw [show (8 : Nat) = 4 + (2 + 2) from rfl, bytesOf_append, bytesOf_append]
  congr 3 <;> bv_omega

/-- The three parts of an entry's frame lie apart. -/
theorem entryFrame_apart (sp : Word) :
    Apart (sp - 2) 2 (sp - 8) 4 ∧ Apart (sp - 2) 2 (sp - 4) 2 ∧ Apart (sp - 4) 2 (sp - 8) 4 := by
  have hnd := bytesOf_nodup (sp - 8) (n := 8) (by decide)
  rw [bytesOf_entryFrame] at hnd
  obtain ⟨-, hupper, hlow⟩ := List.nodup_append.1 hnd
  obtain ⟨-, -, hslots⟩ := List.nodup_append.1 hupper
  exact ⟨fun x hx hy => hlow x hy x (List.mem_append_right _ hx) rfl, fun x hx hy => hslots x hy x hx rfl,
    fun x hx hy => hlow x hy x (List.mem_append_left _ hx) rfl⟩

theorem entryFrame_writable {s : State} (h : s.writable (s.sp0 - 8) 8) :
    s.writable (s.sp0 - 8) 4 ∧ s.writable (s.sp0 - 4) 2 ∧ s.writable (s.sp0 - 2) 2 := by
  unfold State.writable at h
  rw [bytesOf_entryFrame] at h
  exact ⟨fun x hx => h x (List.mem_append_left _ hx),
    fun x hx => h x (List.mem_append_right _ (List.mem_append_left _ hx)),
    fun x hx => h x (List.mem_append_right _ (List.mem_append_right _ hx))⟩

/-- A number in memory is memory's alone. -/
theorem State.valueAt_of_mem {s t : State} (h : t.mem = s.mem) (a : Word) (n : Nat) : t.valueAt a n = s.valueAt a n :=
  State.valueAt_congr fun x _ => by rw [h]

/-- A store changes memory and what is recorded of it alone. -/
theorem State.poke_eq (s : State) (a : Word) (n : Nat) (v : BitVec (8 * n)) : ∃ m d w,
    s.poke a n v = { s with mem := m, dirty := d, written := w } := ⟨_, _, _, rfl⟩

theorem State.frameDirect_eq (s : State) (w : Half) (ret : Word) : ∃ m d l,
    s.frameDirect w ret = { s with mem := m, dirty := d, written := l } := by
  obtain ⟨m, d, l, h⟩ := s.poke_eq (s.sp0 - 2) 2 w
  unfold State.frameDirect
  rw [h]
  exact State.poke_eq _ _ _ _

theorem State.frameModular_eq (s : State) (w : Half) (ret : Word) : ∃ m d l,
    s.frameModular w ret = { s with mem := m, dirty := d, written := l } := by
  obtain ⟨m, d, l, h⟩ := s.poke_eq (s.sp0 - 2) 2 w
  unfold State.frameModular
  rw [h]
  obtain ⟨m', d', l', h'⟩ := State.poke_eq { s with mem := m, dirty := d, written := l } (s.sp0 - 4) 2 s.mod
  rw [h']
  exact State.poke_eq _ _ _ _

theorem State.entered_eq {s t : State} (h : ∃ m d l, t = { s with mem := m, dirty := d, written := l }) (pc sb : Word) (m : Half) :
    s.entered t pc sb m = { t with pc := pc, sb := sb, mod := m, sp0 := s.sp0 - 8, dirty := [] } := by
  obtain ⟨_, _, _, rfl⟩ := h
  rfl

/-- The first push of an entry, and what it leaves: the dispatch table reads as before. -/
theorem run_pushCopy {s : State} (w : Half) (hs : s.calm) (hw : s.writable (s.sp0 - 2) 2) : ∃ p : State,
    s.poke (s.sp0 - 2) 2 w = p ∧ (∃ m d l, p = { s with mem := m, dirty := d, written := l }) ∧
    pushInterrupt 2 w s = .ok ((), { p with sp0 := s.sp0 - 2 }) ∧
    ∀ a, s.readable a 4 → Apart a 4 (s.sp0 - 2) 2 →
      memRead a 4 { p with sp0 := s.sp0 - 2 } = .ok (s.valueAt a 4, { p with sp0 := s.sp0 - 2 }) := by
  have hvalue {a : Word} (ha : Apart a 4 (s.sp0 - 2) 2) : (s.poke (s.sp0 - 2) 2 w).valueAt a 4 = s.valueAt a 4 :=
    State.valueAt_poke_apart (m := 2) w ha
  have hpush := run_pushInterrupt (n := 2) w hs (by decide) hw
  obtain ⟨m, d, l, heq⟩ := s.poke_eq (s.sp0 - 2) 2 w
  refine ⟨_, rfl, ⟨m, d, l, heq⟩, hpush, fun a hr ha => ?_⟩
  have hread := hvalue ha
  generalize s.poke (s.sp0 - 2) 2 w = p at heq hread ⊢
  subst heq
  rw [← hread]
  have hrun := run_memRead_of_readable (s := { s with mem := m, dirty := d, written := l, sp0 := s.sp0 - 2 }) (n := 4) (a := a) hs
    (by decide) hr
  refine hrun.trans ?_
  congr 2

theorem run_service_direct {v : Nat} {s : State} (w : Half) (ret : Word) (h : DirectReady v s) :
    service v w ret s = .ok ((), s.enteredDirect v w ret) := by
  obtain ⟨hlow, -, htop⟩ := entryFrame_writable h.stack
  obtain ⟨p, hp, hstored, hcopy, hread⟩ := run_pushCopy w h.calm htop
  have hframe : s.frameDirect w ret = p.poke (s.sp0 - 8) 4 ret := by rw [← hp, State.frameDirect]
  have h8 : s.sp0 - 2 - 2 - BitVec.ofNat 32 4 = s.sp0 - 8 := by bv_omega
  have hret (pc : Word) : pushInterrupt 4 ret { p with pc := pc, sp0 := s.sp0 - 2 - 2 } =
      .ok ((), { s.frameDirect w ret with pc := pc, sp0 := s.sp0 - 8 }) := by
    obtain ⟨m, d, l, rfl⟩ := hstored
    have hrun := run_pushInterrupt (n := 4) ret (s := { s with mem := m, dirty := d, written := l, pc := pc, sp0 := s.sp0 - 2 - 2 })
      h.calm (by decide) (by rw [h8]; exact hlow)
    rw [hframe]
    rw [h8] at hrun
    exact hrun
  have hde : p.cfg.de = true := by
    obtain ⟨_, _, _, rfl⟩ := hstored
    exact h.mode
  have hbase : p.intbase = s.intbase := by
    obtain ⟨_, _, _, rfl⟩ := hstored
    rfl
  have hentry (base : Word) (hb : base = s.intbase) : memRead (base + BitVec.ofNat 32 (4 * v)) 4 { p with sp0 := s.sp0 - 2 } =
      .ok (s.dispatch v, { p with sp0 := s.sp0 - 2 }) := by
    subst hb
    exact hread _ h.entry h.apart
  unfold service
  rw [run_bind_of_ok hcopy, run_peek_bind, run_bind_of_ok (hentry _ hbase), run_peek_bind, if_pos hde,
    run_upd_bind, run_bind_of_ok (hret _), State.enteredDirect, State.entered_eq (s.frameDirect_eq w ret)]
  obtain ⟨m, d, l, hf⟩ := s.frameDirect_eq w ret
  rw [hf]
  rfl

theorem run_service_modular {v : Nat} {s : State} (w : Half) (ret : Word) (h : ModularReady v s) :
    service v w ret s = .ok ((), s.enteredModular v w ret) := by
  obtain ⟨hlow, hslot, htop⟩ := entryFrame_writable h.stack
  have hstatic : s.readable ((moduleOf (s.dispatch v)).setWidth 32) 4 := h.table.1
  have hprogram : s.readable ((moduleOf (s.dispatch v)).setWidth 32 + 8) 4 := h.table.2
  have hm : BitVec.setWidth 16 (s.dispatch v) = moduleOf (s.dispatch v) := by
    apply BitVec.eq_of_toNat_eq
    simp [moduleOf]
  obtain ⟨p, hp, hstored, hcopy, hread⟩ := run_pushCopy w h.calm htop
  have hframe : s.frameModular w ret = (p.poke (s.sp0 - 4) 2 s.mod).poke (s.sp0 - 8) 4 ret := by rw [← hp, State.frameModular]
  have h4 : s.sp0 - 2 - BitVec.ofNat 32 2 = s.sp0 - 4 := by bv_omega
  have h8 : s.sp0 - 4 - BitVec.ofNat 32 4 = s.sp0 - 8 := by bv_omega
  have hold (pc sb : Word) (old : Half) (hold : old = s.mod) :
      pushInterrupt 2 old { p with pc := pc, sb := sb, sp0 := s.sp0 - 2 } =
      .ok ((), { p.poke (s.sp0 - 4) 2 s.mod with pc := pc, sb := sb, sp0 := s.sp0 - 4 }) := by
    subst hold
    obtain ⟨m, d, l, rfl⟩ := hstored
    have hrun := run_pushInterrupt (n := 2) s.mod
      (s := { s with mem := m, dirty := d, written := l, pc := pc, sb := sb, sp0 := s.sp0 - 2 }) h.calm (by decide)
      (by rw [h4]; exact hslot)
    rw [h4] at hrun
    exact hrun
  have hret (pc sb : Word) (md : Half) :
      pushInterrupt 4 ret { p.poke (s.sp0 - 4) 2 s.mod with pc := pc, sb := sb, mod := md, sp0 := s.sp0 - 4 } =
      .ok ((), { s.frameModular w ret with pc := pc, sb := sb, mod := md, sp0 := s.sp0 - 8 }) := by
    rw [hframe]
    obtain ⟨m₀, d₀, l₀, rfl⟩ := hstored
    obtain ⟨m, d, l, hq⟩ := State.poke_eq { s with mem := m₀, dirty := d₀, written := l₀ } (s.sp0 - 4) 2 s.mod
    have hrun := run_pushInterrupt (n := 4) ret
      (s := { s with mem := m, dirty := d, written := l, pc := pc, sb := sb, mod := md, sp0 := s.sp0 - 4 }) h.calm (by decide)
      (by rw [h8]; exact hlow)
    rw [h8] at hrun
    rw [hq]
    exact hrun
  have hde : ¬ p.cfg.de = true := by
    obtain ⟨_, _, _, rfl⟩ := hstored
    exact fun hc => Bool.false_ne_true (h.mode.symm.trans hc)
  have hbase : p.intbase = s.intbase := by
    obtain ⟨_, _, _, rfl⟩ := hstored
    rfl
  have hmod : p.mod = s.mod := by
    obtain ⟨_, _, _, rfl⟩ := hstored
    rfl
  have hentry (base : Word) (hb : base = s.intbase) : memRead (base + BitVec.ofNat 32 (4 * v)) 4 { p with sp0 := s.sp0 - 2 } =
      .ok (s.dispatch v, { p with sp0 := s.sp0 - 2 }) := by
    subst hb
    exact hread _ h.entry h.apart
  unfold service
  rw [run_bind_of_ok hcopy, run_peek_bind, run_bind_of_ok (hentry _ hbase), run_peek_bind, if_neg hde, hm,
    run_bind_of_ok (hread _ hprogram h.tableApart.2), run_bind_of_ok (hread _ hstatic h.tableApart.1), run_upd_bind,
    run_peek_bind, run_bind_of_ok (hold _ _ _ hmod), run_upd_bind, run_bind_of_ok (hret _ _ _), State.enteredModular,
    State.entered_eq (s.frameModular_eq w ret)]
  obtain ⟨m, d, l, hf⟩ := s.frameModular_eq w ret
  rw [hf]
  rfl

/-- What an entry leaves of the interrupt state: it changes with the acknowledge, before Service. -/
structure EntryKept (s t : State) : Prop where
  nmiLatch : t.nmiLatch = s.nmiLatch
  op : t.op = s.op
  isrv : t.isrv = s.isrv

section
variable (s t : State) (pc sb : Word) (m : Half)

theorem State.entered_mem : (s.entered t pc sb m).mem = t.mem := rfl

theorem State.entered_same : EntrySame s (s.entered t pc sb m) ∧ EntryKept s (s.entered t pc sb m) :=
  ⟨⟨⟨rfl, rfl, rfl, rfl, rfl⟩, rfl, rfl, rfl, rfl, rfl, rfl⟩, rfl, rfl, rfl⟩

end

/-- The frame read back: the copy of the PSR and the return address. -/
theorem State.frameDirect_reads {s : State} (w : Half) (ret : Word) (h : s.mem.wf) :
    (s.frameDirect w ret).valueAt (s.sp0 - 2) 2 = w ∧ (s.frameDirect w ret).valueAt (s.sp0 - 8) 4 = ret := by
  unfold State.frameDirect
  have hp : (s.poke (s.sp0 - 2) 2 w).mem.wf := State.poke_mem_wf h _ _ _
  have hcopy : (s.poke (s.sp0 - 2) 2 w).valueAt (s.sp0 - 2) 2 = w := State.valueAt_poke (n := 2) h _ (by decide) w
  generalize s.poke (s.sp0 - 2) 2 w = p at hp hcopy
  exact ⟨(State.valueAt_poke_apart (m := 4) ret (entryFrame_apart s.sp0).1).trans hcopy,
    State.valueAt_poke (n := 4) hp _ (by decide) ret⟩

/-- The frame read back: the copy of the PSR, MOD and the return address. -/
theorem State.frameModular_reads {s : State} (w : Half) (ret : Word) (h : s.mem.wf) :
    (s.frameModular w ret).valueAt (s.sp0 - 2) 2 = w ∧ (s.frameModular w ret).valueAt (s.sp0 - 4) 2 = s.mod ∧
      (s.frameModular w ret).valueAt (s.sp0 - 8) 4 = ret := by
  obtain ⟨hpsrPc, hpsrMod, hmodPc⟩ := entryFrame_apart s.sp0
  unfold State.frameModular
  have hp : (s.poke (s.sp0 - 2) 2 w).mem.wf := State.poke_mem_wf h _ _ _
  have hcopy : (s.poke (s.sp0 - 2) 2 w).valueAt (s.sp0 - 2) 2 = w := State.valueAt_poke (n := 2) h _ (by decide) w
  generalize s.poke (s.sp0 - 2) 2 w = p at hp hcopy
  have hq : (p.poke (s.sp0 - 4) 2 s.mod).mem.wf := State.poke_mem_wf hp _ _ _
  have hmod : (p.poke (s.sp0 - 4) 2 s.mod).valueAt (s.sp0 - 4) 2 = s.mod := State.valueAt_poke (n := 2) hp _ (by decide) _
  have hcopy' : (p.poke (s.sp0 - 4) 2 s.mod).valueAt (s.sp0 - 2) 2 = w :=
    (State.valueAt_poke_apart (m := 2) s.mod hpsrMod).trans hcopy
  generalize p.poke (s.sp0 - 4) 2 s.mod = q at hq hmod hcopy'
  exact ⟨(State.valueAt_poke_apart (m := 4) ret hpsrPc).trans hcopy', (State.valueAt_poke_apart (m := 4) ret hmodPc).trans hmod,
    State.valueAt_poke (n := 4) hq _ (by decide) ret⟩

theorem enteredDirect_spec {v : Nat} {s : State} (w : Half) (ret : Word) (h : s.mem.wf) :
    EnteredDirect v (Psr.ofBits w) s.psr ret s (s.enteredDirect v w ret) := by
  obtain ⟨hpsr, hpc⟩ := State.frameDirect_reads w ret h
  have hother (a : Nat) (htop : a ∉ bytesOf (s.sp0 - 2) 2) (hlow : a ∉ bytesOf (s.sp0 - 8) 4) :
      (s.frameDirect w ret).mem.read a = s.mem.read a := by
    rw [State.frameDirect, State.read_poke_other _ ret hlow, State.read_poke_other s w htop]
  rw [← State.valueAt_of_mem (State.entered_mem s (s.frameDirect w ret) (s.dispatch v) s.sb s.mod)] at hpsr hpc
  rw [State.enteredDirect]
  exact ⟨rfl, rfl, rfl, rfl, congrArg _ hpsr, hpc, rfl, ⟨rfl, rfl, rfl, rfl, rfl⟩, rfl, hother⟩

theorem enteredModular_spec {v : Nat} {s : State} (w : Half) (ret : Word) (h : s.mem.wf) :
    EnteredModular v (Psr.ofBits w) s.psr ret s (s.enteredModular v w ret) := by
  obtain ⟨hpsr, hmod, hpc⟩ := State.frameModular_reads w ret h
  have hother (a : Nat) (ha : a ∉ bytesOf (s.sp0 - 8) 8) : (s.frameModular w ret).mem.read a = s.mem.read a := by
    rw [bytesOf_entryFrame, List.mem_append, List.mem_append, not_or, not_or] at ha
    obtain ⟨hlow, hslot, htop⟩ := ha
    rw [State.frameModular, State.read_poke_other _ ret hlow, State.read_poke_other _ s.mod hslot,
      State.read_poke_other _ w htop]
  rw [← State.valueAt_of_mem (State.entered_mem s (s.frameModular w ret)
    (s.valueAt ((moduleOf (s.dispatch v)).setWidth 32 + 8) 4 + offsetOf (s.dispatch v))
    (s.valueAt ((moduleOf (s.dispatch v)).setWidth 32) 4) (moduleOf (s.dispatch v)))] at hpsr hmod hpc
  rw [State.enteredModular]
  exact ⟨rfl, rfl, rfl, rfl, rfl, rfl, congrArg _ hpsr, hmod, hpc, rfl, ⟨rfl, rfl, rfl⟩, rfl, hother⟩

/-- An entry from a state that differs from `s` in the PSR, the free values and the interrupt state alone is one from `s`. -/
theorem EnteredDirect.of_start {s u t : State} {v : Nat} {saved new p : Psr} {ret : Word} {b : Bool} {k : Nat} {l : Bool}
    {o : OpState} {i : Half} (hu : u = { s with psr := p, psrTouched := b, freeCount := k, nmiLatch := l, op := o, isrv := i })
    (h : EnteredDirect v saved new ret u t) : EnteredDirect v saved new ret s t.ended := by
  subst hu
  exact ⟨h.pc, h.psr, h.sp0, h.sp1, h.savedPsr, h.savedPc, h.purged, h.address, h.regs, h.mem⟩

theorem EnteredModular.of_start {s u t : State} {v : Nat} {saved new p : Psr} {ret : Word} {b : Bool} {k : Nat} {l : Bool}
    {o : OpState} {i : Half} (hu : u = { s with psr := p, psrTouched := b, freeCount := k, nmiLatch := l, op := o, isrv := i })
    (h : EnteredModular v saved new ret u t) : EnteredModular v saved new ret s t.ended := by
  subst hu
  exact ⟨h.mod, h.sb, h.pc, h.psr, h.sp0, h.sp1, h.savedPsr, h.savedMod, h.savedPc, h.purged, h.address, h.regs, h.mem⟩

theorem EntrySame.of_start {s u t : State} {p : Psr} {b : Bool} {k : Nat} {l : Bool} {o : OpState} {i : Half}
    (hu : u = { s with psr := p, psrTouched := b, freeCount := k, nmiLatch := l, op := o, isrv := i })
    (h : EntrySame u t) : EntrySame s t.ended := by
  subst hu
  exact ⟨h.chip, h.outside⟩

/-- A sequence that comes to Service from a state that differs from `s` in the PSR, the free values and the interrupt state
alone enters as from `s`. -/
theorem settled_entry {q m : M Unit} {r s u : State} {v : Nat} {w : Half} {ret : Word} {p : Psr} {b : Bool} {k : Nat} {l : Bool}
    {o : OpState} {i : Half} (hu : u = { s with psr := p, psrTouched := b, freeCount := k, nmiLatch := l, op := o, isrv := i })
    (hq : q = asEntry m) (hm : m r = service v w ret u) :
    (DirectReady v s → ∃ t, settled q r = .next t ∧ EnteredDirect v (Psr.ofBits w) p ret s t ∧ EntrySame s t ∧
      EntryKept u t) ∧
    (ModularReady v s → ∃ t, settled q r = .next t ∧ EnteredModular v (Psr.ofBits w) p ret s t ∧ EntrySame s t ∧
      EntryKept u t) := by
  subst hq
  have hsettled {t : State} (h : service v w ret u = .ok ((), t)) : settled (asEntry m) r = .next t.ended := by
    have hok : asEntry m r = .ok ((), { t with written := r.written }) := by
      unfold asEntry
      rw [hm, h]
    exact settled_of_ok (u := { t with written := r.written }) hok
  have hpsr : u.psr = p := by rw [hu]
  refine ⟨fun hd => ?_, fun hd => ?_⟩
  · have hd' : DirectReady v u := by
      subst hu
      exact ⟨hd.calm, hd.mode, hd.wf, hd.stack, hd.entry, hd.apart⟩
    obtain ⟨hsame, hkept⟩ := State.entered_same u (u.frameDirect w ret) (u.dispatch v) u.sb u.mod
    exact ⟨_, hsettled (run_service_direct w ret hd'), .of_start hu (hpsr ▸ enteredDirect_spec w ret hd'.wf),
      .of_start hu hsame, hkept.nmiLatch, hkept.op, hkept.isrv⟩
  · have hd' : ModularReady v u := by
      subst hu
      exact ⟨hd.calm, hd.mode, hd.wf, hd.stack, hd.entry, hd.table, hd.apart, hd.tableApart⟩
    obtain ⟨hsame, hkept⟩ := State.entered_same u (u.frameModular w ret)
      (u.valueAt ((moduleOf (u.dispatch v)).setWidth 32 + 8) 4 + offsetOf (u.dispatch v))
      (u.valueAt ((moduleOf (u.dispatch v)).setWidth 32) 4) (moduleOf (u.dispatch v))
    exact ⟨_, hsettled (run_service_modular w ret hd'), .of_start hu (hpsr ▸ enteredModular_spec w ret hd'.wf),
      .of_start hu hsame, hkept.nmiLatch, hkept.op, hkept.isrv⟩

/-- The copy of the PSR names its bits (R45, R59). -/
theorem run_readPsr_bind {α : Type} (s : State) : ∃ (w : Half) (k : Nat), Psr.ofBits w = s.psr ∧
    ∀ f : Half → M α, (readPsr >>= f) s = f w { s with freeCount := k } := by
  obtain ⟨w, k, hread, hw, -⟩ := readPsr_spec s
  exact ⟨w, k, hw, fun f => run_bind_of_ok hread⟩

/-- The trap sequence takes the start's stack pointers and PSR, clears P for UND, copies and comes to Service (R620). -/
theorem trapSequence_serves (x : Trap) (s : State) (a b : Word) (k : Nat) : ∃ m w k', trapSequence x s = asEntry m ∧
    Psr.ofBits w = (if x = .und then { s.psr with p := false } else s.psr) ∧
    m { s with sp0 := a, sp1 := b, freeCount := k } = service x.vector w s.pc
      { s with psr := { s.psr with t := false, u := false, s := false, p := false }, psrTouched := true, freeCount := k' } := by
  generalize hp : (if x = .und then { s.psr with p := false } else s.psr) = p
  have hclear : onlyIf (x == .und) clearPending { s with psr := s.psr, psrTouched := true, freeCount := k } =
      .ok ((), { s with psr := p, psrTouched := true, freeCount := k }) := by
    rw [← hp]
    by_cases hx : x = .und
    · rw [if_pos hx, hx]
      rfl
    · rw [if_neg hx, beq_eq_false_iff_ne.2 hx]
      rfl
  have hnew : Psr.afterTrap p = { s.psr with t := false, u := false, s := false, p := false } := by
    rw [← hp]
    split <;> rfl
  obtain ⟨w, k', hw, hread⟩ := run_readPsr_bind (α := Unit) { s with psr := p, psrTouched := true, freeCount := k }
  refine ⟨_, w, k', rfl, hw, ?_⟩
  rw [run_upd_bind]
  refine (run_bind_of_ok hclear).trans ((hread _).trans ?_)
  rw [← hnew]
  rfl

/-- Settles O40: the sequence's copy and PSR, then Service. -/
theorem trapSequenceEnters : Obligations.TrapSequenceEnters := by
  rintro x s u ⟨a, b, k, rfl⟩
  obtain ⟨m, w, k', hq, hw, hm⟩ := trapSequence_serves x s a b k
  obtain ⟨hdirect, hmodular⟩ := settled_entry (s := s) rfl hq hm
  rw [hw] at hdirect hmodular
  exact ⟨fun h => (hdirect h).imp fun _ ⟨ht, hentered, hsame, _⟩ => ⟨ht, hentered, hsame⟩,
    fun h => (hmodular h).imp fun _ ⟨ht, hentered, hsame, _⟩ => ⟨ht, hentered, hsame⟩⟩

/-- Settles O39: the three instructions raise their trap at their start. -/
theorem trapInstructionsEnter : Obligations.TrapInstructionsEnter := by
  intro s new
  refine ⟨fun i x hix hf => ?_, by decide⟩
  have hexec : exec i s = settled (trapSequence x s) s := by
    rcases hix with h | h | h <;> obtain ⟨rfl, rfl⟩ := Prod.mk.inj h
    · exact finish_of_trap rfl
    · exact finish_of_trap rfl
    · refine finish_of_trap ?_
      rw [run_peek_bind, if_pos (hf rfl)]
      rfl
  have hsaved : (if x = Trap.und then { s.psr with p := false } else s.psr) = s.psr := by
    rcases hix with h | h | h <;> obtain ⟨-, rfl⟩ := Prod.mk.inj h <;> rfl
  have h := trapSequenceEnters x s s ⟨s.sp0, s.sp1, s.freeCount, rfl⟩
  rw [hsaved] at h
  rw [hexec]
  exact h

/-- The sequence of the non-maskable interrupt comes to Service with the latch cleared (R635). -/
theorem nmiSequence_serves {s : State} (ret : Word) (hs : s.calm) : ∃ m w k, nmiSequence ret = asEntry m ∧ Psr.ofBits w = s.psr ∧
    m s = service 1 w ret { s with psr := s.psr.afterInterrupt, psrTouched := true, freeCount := k, nmiLatch := false, op := .executing } := by
  obtain ⟨w, k, hw, hread⟩ := run_readPsr_bind (α := Unit) s
  refine ⟨_, w, k, rfl, hw, (hread _).trans ?_⟩
  rw [run_bind_of_ok (run_updPsr _ _)]
  exact run_bind_of_ok (run_gap_calm (s := { s with psr := s.psr.afterInterrupt, psrTouched := true, freeCount := k }) hs)

/-- The sequence of a maskable interrupt comes to Service with its level in service (R631, R664). -/
theorem maskableSequence_serves {s : State} (ret : Word) (hs : s.calm) : ∃ m w k, maskableSequence ret = asEntry m ∧
    Psr.ofBits w = s.psr ∧ m s = service (if s.cfg.i then 0x10 + s.irqLevel else 0) w ret
      { s with psr := s.psr.afterInterrupt, psrTouched := true, freeCount := k, op := .executing, isrv := s.acknowledge.isrv } := by
  obtain ⟨w, k, hw, hread⟩ := run_readPsr_bind (α := Unit) s
  refine ⟨_, w, k, rfl, hw, (hread _).trans ?_⟩
  rw [run_bind_of_ok (run_updPsr _ _), ← s.ivct_toNat]
  exact run_bind_of_ok (run_gap_calm (s := { s with psr := s.psr.afterInterrupt, psrTouched := true, freeCount := k }) hs)

/-- The sequence of the trace trap clears P before its copy (R651). -/
theorem traceSequence_serves (s : State) : ∃ m w k, traceSequence = asEntry m ∧ Psr.ofBits w = { s.psr with p := false } ∧
    m s = service 9 w s.pc
      { s with psr := { s.psr with t := false, u := false, s := false, p := false }, psrTouched := true, freeCount := k } := by
  obtain ⟨w, k, hw, hread⟩ := run_readPsr_bind (α := Unit) { s with psr := { s.psr with p := false }, psrTouched := true }
  have hclear : clearPending s = .ok ((), { s with psr := { s.psr with p := false }, psrTouched := true }) := rfl
  exact ⟨_, w, k, rfl, hw, (run_bind_of_ok hclear).trans (hread _)⟩

/-- Settles O44: each sequence's copy, its cleared bits and the acknowledge, then Service. -/
theorem interruptAndTraceEntry : Obligations.InterruptAndTraceEntry := by
  intro s irqPsr trcPsr
  refine ⟨fun _ => ⟨fun h => ?_, fun h => ?_⟩, fun _ _ => ⟨fun h => ?_, fun h => ?_⟩, fun _ => ?_⟩
  · obtain ⟨m, w, k, hq, hw, hm⟩ := nmiSequence_serves s.pc h.calm
    obtain ⟨t, ht, hentered, hsame, hnmi, hop, hisrv⟩ := (settled_entry (s := s) rfl hq hm).1 h
    exact ⟨t, ht, hw ▸ hentered, hsame, hnmi, hop, hisrv⟩
  · obtain ⟨m, w, k, hq, hw, hm⟩ := nmiSequence_serves s.pc h.calm
    obtain ⟨t, ht, hentered, hsame, hnmi, hop, hisrv⟩ := (settled_entry (s := s) rfl hq hm).2 h
    exact ⟨t, ht, hw ▸ hentered, hsame, hnmi, hop, hisrv⟩
  · obtain ⟨m, w, k, hq, hw, hm⟩ := maskableSequence_serves s.pc h.calm
    obtain ⟨t, ht, hentered, hsame, -, hop, hisrv⟩ := (settled_entry (s := s) rfl hq hm).1 h
    exact ⟨t, ht, hw ▸ hentered, hsame, hop, hisrv⟩
  · obtain ⟨m, w, k, hq, hw, hm⟩ := maskableSequence_serves s.pc h.calm
    obtain ⟨t, ht, hentered, hsame, -, hop, hisrv⟩ := (settled_entry (s := s) rfl hq hm).2 h
    exact ⟨t, ht, hw ▸ hentered, hsame, hop, hisrv⟩
  · obtain ⟨m, w, k, hq, hw, hm⟩ := traceSequence_serves s
    obtain ⟨hdirect, hmodular⟩ := settled_entry (s := s) rfl hq hm
    rw [hw] at hdirect hmodular
    exact ⟨fun h => (hdirect h).imp fun _ ⟨ht, hentered, hsame, _⟩ => ⟨ht, hentered, hsame⟩,
      fun h => (hmodular h).imp fun _ ⟨ht, hentered, hsame, _⟩ => ⟨ht, hentered, hsame⟩⟩

/-! ### Returning -/

/-- The frame of the interrupt stack popped, before the stack pointer the restored PSR selects moves (R460). -/
def State.unwound (s : State) : State :=
  if s.cfg.de then { s with sp0 := s.sp0 + 8, psr := Psr.ofBits (s.valueAt (s.sp0 + 6) 2), psrTouched := true }
  else { s with
    sp0 := s.sp0 + 8, psr := Psr.ofBits (s.valueAt (s.sp0 + 6) 2), psrTouched := true, mod := s.valueAt (s.sp0 + 4) 2,
    sb := s.valueAt ((s.valueAt (s.sp0 + 4) 2).setWidth 32) 4 }

theorem State.returned_eq (s : State) (disp : Word) :
    s.returned disp = (s.unwound.setSp (s.unwound.sp + disp)).goto (s.valueAt s.sp0 4) := rfl

theorem run_returnFromException {s : State} (disp : Word) (h : ReturnReady s) :
    returnFromException disp s = .ok (s.valueAt s.sp0 4, s.unwound.setSp (s.unwound.sp + disp)) := by
  have hpc := run_memRead_of_readable h.calm (by decide) h.pc
  unfold returnFromException State.unwound
  rw [run_peek_bind, run_bind_of_ok hpc, run_peek_bind]
  by_cases hde : s.cfg.de = true
  · have hpsr := run_memRead_of_readable h.calm (by decide) h.psr
    rw [if_pos hde, hde]
    exact (run_bind_of_ok (run_onlyIf_false _ s)).trans (run_bind_of_ok hpsr)
  · obtain ⟨hslot, htable⟩ := h.mod (Bool.eq_false_iff.2 hde)
    generalize hm : s.valueAt (s.sp0 + 4) 2 = m at htable
    have hmod : restoreMod s.sp0 s = .ok ((), { s with mod := m }) := by
      unfold restoreMod
      rw [run_bind_of_ok (run_memRead_of_readable h.calm (by decide) hslot), hm]
      rfl
    have hpsr : memRead (s.sp0 + 6) 2 { s with mod := m } = .ok (s.valueAt (s.sp0 + 6) 2, { s with mod := m }) :=
      run_memRead_of_same (s := s) h.calm (by decide) h.psr rfl rfl
    have hsb (p : Psr) : reloadSb { s with mod := m, sp0 := s.sp0 + 8, psr := p, psrTouched := true } =
        .ok ((), { s with mod := m, sp0 := s.sp0 + 8, psr := p, psrTouched := true, sb := s.valueAt (m.setWidth 32) 4 }) := by
      have hread : memRead (m.setWidth 32) 4 { s with mod := m, sp0 := s.sp0 + 8, psr := p, psrTouched := true } = _ :=
        run_memRead_of_same (s := s) h.calm (by decide) htable rfl rfl
      unfold reloadSb
      rw [run_peek_bind]
      exact run_bind_of_ok hread
    rw [if_neg hde, Bool.eq_false_iff.2 hde]
    refine (run_bind_of_ok hmod).trans ((run_bind_of_ok hpsr).trans ?_)
    have hload (t : State) (v : Half) : loadPsr v t = .ok ((), { t with psr := Psr.ofBits v, psrTouched := true }) := rfl
    rw [run_upd_bind, run_bind_of_ok (hload _ _)]
    exact run_bind_of_ok (hsb _)

theorem State.unwound_reads (s : State) : s.unwound.psr = Psr.ofBits (s.valueAt (s.sp0 + 6) 2) ∧ s.unwound.sp0 = s.sp0 + 8 ∧
    s.unwound.sp1 = s.sp1 ∧ s.unwound.regs = s.regs := by
  unfold State.unwound
  split <;> exact ⟨rfl, rfl, rfl, rfl⟩

theorem exec_rett {d : Disp} {s : State} (hu : s.psr.u = false) (h : ReturnReady s) :
    exec (.rett d) s = .next (s.returned d.value) := by
  show execRett d s = _
  unfold execRett
  rw [State.returned_eq]
  refine finish_jump_goto ?_
  rw [run_bind_of_ok (run_privileged_supervisor hu), run_bind_of_ok (run_returnFromException _ h)]
  rfl

/-- Settles O41: RETI is RETT 0 from the state with the highest interrupt in service ended. -/
theorem returnFromExceptions : Obligations.ReturnFromExceptions := by
  intro s hu h
  refine ⟨fun d => exec_rett hu h, ?_⟩
  have hend : ReturnReady s.endOfInterrupt := ⟨h.calm, h.pc, h.psr, h.mod⟩
  show execReti s = _
  unfold execReti
  rw [State.returned_eq]
  refine finish_jump_goto ?_
  rw [run_bind_of_ok (run_privileged_supervisor hu), run_bind_of_ok (run_gap_calm h.calm), run_upd_bind,
    run_bind_of_ok (run_returnFromException _ hend)]
  rfl

theorem State.returned_zero (s : State) : s.returned 0 = s.unwound.goto (s.valueAt s.sp0 4) := by
  have h : s.unwound.sp + 0 = s.unwound.sp := by simp
  rw [State.returned_eq, h, State.setSp_sp]

/-- A return of no bytes leaves both stack pointers at the popped frame's end. -/
theorem State.returned_stacks (s : State) : (s.returned 0).sp0 = s.sp0 + 8 ∧ (s.returned 0).sp1 = s.sp1 := by
  obtain ⟨-, hsp0, hsp1, -⟩ := s.unwound_reads
  rw [State.returned_zero]
  exact ⟨hsp0, hsp1⟩

/-- What a return of no bytes restores. -/
theorem State.returned_reads (s : State) : (s.returned 0).pc = s.valueAt s.sp0 4 ∧
    (s.returned 0).psr = Psr.ofBits (s.valueAt (s.sp0 + 6) 2) ∧ (s.returned 0).regs = s.regs ∧
    (s.returned 0).mod = s.unwound.mod ∧ (s.returned 0).sb = s.unwound.sb := by
  obtain ⟨hpsr, -, -, hregs⟩ := s.unwound_reads
  rw [State.returned_zero]
  exact ⟨rfl, hpsr, hregs, rfl, rfl⟩

theorem State.unwound_direct {s : State} (h : s.cfg.de = true) : s.unwound.mod = s.mod ∧ s.unwound.sb = s.sb := by
  rw [State.unwound, if_pos h]
  exact ⟨rfl, rfl⟩

theorem State.unwound_modular {s : State} (h : s.cfg.de = false) : s.unwound.mod = s.valueAt (s.sp0 + 4) 2 ∧
    s.unwound.sb = s.valueAt ((s.valueAt (s.sp0 + 4) 2).setWidth 32) 4 := by
  rw [State.unwound, if_neg (by rw [h]; decide)]
  exact ⟨rfl, rfl⟩

/-- A return of no bytes from a state `t` whose frame holds the PSR and the PC of `s` restores them, and the stacks. -/
theorem exec_rett_entered {s t : State} (hs : s.calm) (hw : s.writable (s.sp0 - 8) 8) (hsame : EntrySame s t)
    (hsp0 : t.sp0 = s.sp0 - 8) (hsp1 : t.sp1 = s.sp1) (hregs : t.regs = s.regs) (hu : t.psr.u = false)
    (hpsr : Psr.ofBits (t.valueAt (s.sp0 - 2) 2) = s.psr) (hpc : t.valueAt (s.sp0 - 8) 4 = s.pc)
    (htable : t.cfg.de = false → s.readable ((t.valueAt (s.sp0 - 4) 2).setWidth 32) 4) :
    ∃ u, exec (.rett (.d7 0)) t = .next u ∧ u.pc = s.pc ∧ u.psr = s.psr ∧ StacksSame s u ∧ u.regs = s.regs ∧
      u.mod = t.unwound.mod ∧ u.sb = t.unwound.sb := by
  obtain ⟨-, hplat, -, hwithin, -, -⟩ := hsame.outside
  obtain ⟨hpcSlot, hmodSlot, hpsrSlot⟩ := entryFrame_writable hw
  have h2 : t.sp0 + 6 = s.sp0 - 2 := by rw [hsp0]; bv_omega
  have h4 : t.sp0 + 4 = s.sp0 - 4 := by rw [hsp0]; bv_omega
  have h8 : t.sp0 + 8 = s.sp0 := by rw [hsp0]; bv_omega
  have hready : ReturnReady t := by
    refine ⟨hwithin.trans hs, ?_, ?_, fun hde => ⟨?_, ?_⟩⟩
    · rw [hsp0]
      exact hpcSlot.readable.of_plat hplat
    · rw [h2]
      exact hpsrSlot.readable.of_plat hplat
    · rw [h4]
      exact hmodSlot.readable.of_plat hplat
    · rw [h4]
      exact (htable hde).of_plat hplat
  obtain ⟨hupc, hupsr, huregs, humod, husb⟩ := t.returned_reads
  obtain ⟨husp0, husp1⟩ := t.returned_stacks
  refine ⟨t.returned 0, exec_rett hu hready, ?_, ?_, ⟨husp0.trans h8, husp1.trans hsp1⟩, huregs.trans hregs, humod, husb⟩
  · rw [hupc, hsp0, hpc]
  · rw [hupsr, h2, hpsr]

/-- Settles O42: the return reads back the frame the entry left. -/
theorem supervisorCallRoundTrip : Obligations.SupervisorCallRoundTrip := by
  intro s hready
  obtain ⟨hdirect, hmodular⟩ := (trapInstructionsEnter s).1 .svc .svc (.inl rfl) (fun h => nomatch h)
  rcases hready with h | ⟨h, hsb, htable, hapart⟩
  · obtain ⟨t, hexec, he, hsame⟩ := hdirect h
    obtain ⟨-, hsb, -, hmod, hcfg⟩ := he.address
    have hde : t.cfg.de = true := hcfg ▸ h.mode
    have hu : t.psr.u = false := by rw [he.psr]
    obtain ⟨u, hrett, hpc, hpsr, hstacks, hregs, humod, husb⟩ := exec_rett_entered h.calm h.stack hsame he.sp0 he.sp1 he.regs hu
      he.savedPsr he.savedPc (fun hc => absurd (hde.symm.trans hc) (by decide))
    obtain ⟨hmod', hsb'⟩ := State.unwound_direct hde
    exact ⟨t, u, hexec, hrett, hpc, hpsr, hstacks, hregs, humod.trans (hmod'.trans hmod), husb.trans (hsb'.trans hsb)⟩
  · obtain ⟨t, hexec, he, hsame⟩ := hmodular h
    obtain ⟨-, -, hcfg⟩ := he.address
    have hde : t.cfg.de = false := hcfg ▸ h.mode
    have hu : t.psr.u = false := by rw [he.psr]
    obtain ⟨u, hrett, hpc, hpsr, hstacks, hregs, humod, husb⟩ := exec_rett_entered h.calm h.stack hsame he.sp0 he.sp1 he.regs hu
      he.savedPsr he.savedPc (fun _ => by rw [he.savedMod]; exact htable)
    obtain ⟨hmod', hsb'⟩ := State.unwound_modular hde
    have h4 : t.sp0 + 4 = s.sp0 - 4 := by rw [he.sp0]; bv_omega
    rw [h4, he.savedMod] at hmod' hsb'
    have hkept : t.valueAt (s.mod.setWidth 32) 4 = s.valueAt (s.mod.setWidth 32) 4 :=
      State.valueAt_congr fun x hx => he.mem x (hapart x hx)
    exact ⟨t, u, hexec, hrett, hpc, hpsr, hstacks, hregs, humod.trans hmod', husb.trans (hsb'.trans (hkept.trans hsb.symm))⟩

end Sys2Proof.Machine
end

section
/-! PROOFS. The frames of the two-operand instructions: what writing a place off the chip leaves. -/

namespace Sys2Proof.Machine

open Sys2Proof

variable {α β : Type}

/-! ### Stops that are no trap -/

/-- A computation that stops with a fault or a refusal. -/
def Halts (r : Except Stop (α × State)) : Prop := (∃ f, r = .error (.fault f)) ∨ ∃ x, r = .error (.refuse x)

theorem Halts.bind {m : M α} {s : State} (h : Halts (m s)) (k : α → M β) : Halts ((m >>= k) s) :=
  h.imp (fun ⟨f, h⟩ => ⟨f, run_bind_of_error h⟩) (fun ⟨x, h⟩ => ⟨x, run_bind_of_error h⟩)

/-- A meaning that halts leads to no next state. -/
theorem Halts.finish_ne_next {i : Instr} {m : M Next} {s : State} (h : Halts (m s)) (t : State) : finish i m s ≠ .next t := by
  intro hn
  unfold finish settled complete at hn
  rcases h with ⟨_, h⟩ | ⟨_, h⟩ <;> rw [h] at hn <;> cases hn

theorem run_allow_cases (w : Bool) (as : List Word) (s : State) : allow w as s = .ok ((), s) ∨ Halts (allow w as s) := by
  cases h : allow w as s with
  | ok x =>
    obtain ⟨u, t⟩ := x
    obtain ⟨-, rfl⟩ := allow_eq_ok.1 h
    exact .inl rfl
  | error e => exact .inr ((allow_stops h).imp (fun ⟨f, hf⟩ => ⟨f, by rw [hf]⟩) (fun ⟨r, hr⟩ => ⟨r, by rw [hr]⟩))

/-- A read off the chip, with nothing laid down: it answers and changes nothing, or halts (R137). -/
theorem memRead_offChip {a : Word} {n : Nat} {s : State} (hs : s.calm) (hr : s.plat.regAt a = none) :
    (∃ v, memRead a n s = .ok (v, s)) ∨ Halts (memRead a n s) := by
  rcases run_allow_cases false (byteAddrs a n) s with h | h
  · exact .inl ⟨_, run_memRead_external hs hr (allow_eq_ok.1 h).1⟩
  · right
    unfold memRead
    rw [run_peek_bind, hr]
    exact h.bind _

/-- A write off the chip, with nothing laid down: one store, or it halts (R137). -/
theorem memWrite_offChip {a : Word} {n : Nat} (v : BitVec (8 * n)) {s : State} (hs : s.calm) (hr : s.plat.regAt a = none) :
    memWrite a n v s = .ok ((), s.poke a n v) ∨ Halts (memWrite a n v s) := by
  rcases run_allow_cases true (byteAddrs a n) s with h | h
  · exact .inl (run_memWrite_external hs hr (allow_eq_ok.1 h).1)
  · right
    unfold memWrite
    rw [run_peek_bind, hr]
    exact h.bind _

/-! ### Frames -/

theorem Quiet.refl (s : State) : Quiet s s [] [] :=
  ⟨⟨fun _ _ => rfl, fun _ _ => rfl, ⟨rfl, rfl, rfl, rfl⟩, ⟨rfl, rfl⟩, rfl, rfl, rfl, rfl, rfl, rfl⟩, ⟨rfl, rfl, rfl, rfl, rfl, rfl⟩, rfl⟩

/-- What comes before and after a change that only the stack pointers, the PSR, PC and the records of the run tell apart. -/
theorem Quiet.congr {s s' t t' : State} {rs : List Reg} {bs : List Nat} (h : Quiet s t rs bs)
    (hs : ∃ x y k, s = { s' with sp0 := x, sp1 := y, freeCount := k })
    (ht : ∃ p x y k w q c, t' = { t with psr := p, sp0 := x, sp1 := y, freeCount := k, written := w, psrTouched := q, pc := c }) :
    Quiet s' t' rs bs := by
  obtain ⟨_, _, _, rfl⟩ := hs
  obtain ⟨_, _, _, _, _, _, _, rfl⟩ := ht
  exact ⟨⟨h.frame.regs, h.frame.mem, h.frame.address, h.frame.control, h.frame.outside⟩,
    ⟨h.chip.bpu, h.chip.dma, h.chip.isrv, h.chip.timers⟩, h.fpu⟩

theorem quiet_regs {s : State} {x : Regs} {rs : List Reg} (h : ∀ q, q ∉ rs → x.get q = s.regs.get q) :
    Quiet s { s with regs := x } rs [] :=
  ⟨⟨h, fun _ _ => rfl, ⟨rfl, rfl, rfl, rfl⟩, ⟨rfl, rfl⟩, rfl, rfl, rfl, rfl, rfl, rfl⟩, ⟨rfl, rfl, rfl, rfl, rfl, rfl⟩, rfl⟩

theorem quiet_poke (s : State) (a : Word) (n : Nat) (v : BitVec (8 * n)) : Quiet s (s.poke a n v) [] (bytesOf a n) := by
  have hmem (x : Nat) (hx : x ∉ bytesOf a n) := State.read_poke_other s v hx
  obtain ⟨m, d, w, h⟩ := s.poke_eq a n v
  rw [h] at hmem ⊢
  exact ⟨⟨fun _ _ => rfl, hmem, ⟨rfl, rfl, rfl, rfl⟩, ⟨rfl, rfl⟩, rfl, rfl, rfl, rfl, rfl, rfl⟩, ⟨rfl, rfl, rfl, rfl, rfl, rfl⟩, rfl⟩

/-! ### Places -/

/-- The stack pointers after a write to a place: a push moves the selected one down (R39). -/
def State.putSp (s : State) (d : Dest) (n : Nat) : State := if d = .push then s.setSp (s.sp - BitVec.ofNat 32 n) else s

/-- What a write to a place off the chip leaves. -/
structure PutFrame (d : Dest) (n : Nat) (s t : State) : Prop where
  quiet : Quiet s t d.regs (d.bytes n s)
  pointers : StacksSame (s.putSp d n) t
  psr : t.psr = s.psr

theorem putDest_offChip {d : Dest} {n : Nat} (v : BitVec (8 * n)) {s : State} (hs : s.calm) (hd : d.onChip n s = false) :
    (∃ t, putDest d n v s = .ok ((), t) ∧ PutFrame d n s t) ∨ Halts (putDest d n v s) := by
  cases d with
  | reg r =>
    refine .inl ⟨_, rfl, quiet_regs fun q hq => ?_, ⟨rfl, rfl⟩, rfl⟩
    exact Regs.get_set_other _ _ (fun h => hq (h ▸ List.mem_singleton_self _))
  | pair r =>
    refine .inl ⟨_, rfl, quiet_regs fun q hq => ?_, ⟨rfl, rfl⟩, rfl⟩
    have hlow : q ≠ r := fun h => hq (by rw [h]; exact List.mem_cons_self)
    have hhigh : q ≠ nextReg r := fun h => hq (by rw [h]; exact List.mem_cons_of_mem _ (List.mem_singleton_self _))
    exact (Regs.get_set_other _ _ hhigh).trans (Regs.get_set_other _ _ hlow)
  | mem a =>
    have hr : s.plat.regAt a = none := Option.isNone_iff_eq_none.1 (by rw [← Option.not_isSome, Bool.not_eq_true']; exact hd)
    rcases memWrite_offChip v hs hr with h | h
    · exact .inl ⟨_, h, quiet_poke s a n v, ⟨rfl, rfl⟩, rfl⟩
    · exact .inr h
  | push =>
    have hr : s.plat.regAt (s.sp - BitVec.ofNat 32 n) = none :=
      Option.isNone_iff_eq_none.1 (by rw [← Option.not_isSome, Bool.not_eq_true']; exact hd)
    have hpush : putDest .push n v s = ((do
      memWrite (s.sp - BitVec.ofNat 32 n) n v
      setSp (s.sp - BitVec.ofNat 32 n)) : M Unit) s := rfl
    rcases memWrite_offChip v hs hr with h | h
    · refine .inl ⟨_, hpush.trans (run_bind_of_ok h), ?_, ?_, State.setSp_psr (s.poke _ n v) _⟩
      · have hsp := onlySp_setSp (s.poke (s.sp - BitVec.ofNat 32 n) n v) (s.sp - BitVec.ofNat 32 n)
        obtain ⟨x, y, k, hsp⟩ := hsp
        exact (quiet_poke s _ n v).congr ⟨_, _, _, rfl⟩ ⟨_, x, y, k, _, _, _, hsp⟩
      · have hcomm := State.poke_setSp s (s.sp - BitVec.ofNat 32 n) (s.sp - BitVec.ofNat 32 n) n v
        rw [State.putSp, if_pos rfl]
        show StacksSame _ ((s.poke _ n v).setSp _)
        rw [← hcomm]
        exact ⟨rfl, rfl⟩
    · exact .inr (hpush ▸ h.bind _)

theorem getDest_offChip {d : Dest} {n : Nat} {s : State} (hs : s.calm) (hd : d.onChip n s = false) (hp : d ≠ .push) :
    (∃ v, getDest d n s = .ok (v, s)) ∨ Halts (getDest d n s) := by
  cases d with
  | reg r => exact .inl ⟨_, rfl⟩
  | pair r => exact .inl ⟨_, rfl⟩
  | mem a => exact memRead_offChip hs (Option.isNone_iff_eq_none.1 (by rw [← Option.not_isSome, Bool.not_eq_true']; exact hd))
  | push => exact absurd rfl hp

/-- The place of an operand that is read and written is no push (R251). -/
theorem dstModify_ne_push {g : Gen} {s t : State} {d : Dest} (h : dstModify g s = .ok (d, t)) : d ≠ .push := by
  have hm {g : Gen} (h : (do
      let a ← ea g
      pure (.mem a) : M Dest) s = .ok (d, t)) : d ≠ .push := by
    obtain ⟨a, u, -, h⟩ := bind_eq_ok.1 h
    cases h
    exact fun h => nomatch h
  cases g with
  | imm v => cases h
  | scaled k b x => exact hm h
  | mode m =>
    cases m with
    | reg r => cases h; exact fun h => nomatch h
    | _ => exact hm h

/-- The place of an operand that is written is a push for Top of Stack alone (R251). -/
theorem dstWrite_push_iff {g : Gen} {s t : State} {d : Dest} (h : dstWrite g s = .ok (d, t)) : (d = .push ↔ g = .mode .tos) := by
  have hm {g : Gen} (hg : g ≠ .mode .tos) (h : (do
      let a ← ea g
      pure (.mem a) : M Dest) s = .ok (d, t)) : (d = .push ↔ g = .mode .tos) := by
    obtain ⟨a, u, -, h⟩ := bind_eq_ok.1 h
    cases h
    exact ⟨(fun h => nomatch h), fun h => absurd h hg⟩
  cases g with
  | imm v => cases h
  | scaled k b x => exact hm (fun h => nomatch h) h
  | mode m =>
    cases m with
    | reg r => cases h; exact ⟨(fun h => nomatch h), (fun h => nomatch h)⟩
    | tos => cases h; exact ⟨fun _ => rfl, fun _ => rfl⟩
    | _ => exact hm (fun h => nomatch h) h

/-- A source moves the selected stack pointer for Top of Stack alone (R251). -/
theorem rd_stacks {g : Gen} {n : Nat} {s t : State} {v : BitVec (8 * n)} (hs : s.calm) (h : rd g n s = .ok (v, t)) :
    StacksSame (s.popped g n) t ∧ (s.popped g n).psr = s.psr := by
  by_cases hg : g = .mode .tos
  · subst hg
    obtain ⟨u, hu, rfl⟩ := pop_ok h
    obtain ⟨k, rfl⟩ := memRead_onlyFree hs hu
    rw [State.popped, if_pos rfl]
    refine ⟨?_, State.setSp_psr _ _⟩
    by_cases hps : s.psr.s = true <;> simp [State.setSp, StacksSame, hps]
  · obtain ⟨k, rfl⟩ := rd_onlyFree hs hg h
    rw [State.popped, if_neg hg]
    exact ⟨⟨rfl, rfl⟩, rfl⟩

/-! ### The two shapes -/

/-- The condition codes an instruction may write: C, if `cf`, and F, if `ff`. -/
def FlagsOf (cf ff : Bool) (f : Psr → Psr) : Prop :=
  ∀ p, f p = { p with c := if cf then (f p).c else p.c, f := if ff then (f p).f else p.f }

/-- The place of a written operand, from the state `s` the instruction started in to the state `t` it left. -/
theorem frame_of_put {d : Dest} {n : Nat} {s s2 u : State} (hsp : ∃ x y k, s2 = { s with sp0 := x, sp1 := y, freeCount := k })
    (h : PutFrame d n s2 u) {flags : Psr → Psr} {cf ff : Bool} (hflags : FlagsOf cf ff flags) (i : Instr) :
    let t := s.after i { u with psr := flags u.psr, psrTouched := true }
    Quiet s t d.regs (d.bytes n s2) ∧ StacksSame (s2.putSp d n) t ∧
      t.psr = { s.psr with c := if cf then t.psr.c else s.psr.c, f := if ff then t.psr.f else s.psr.f } := by
  intro t
  refine ⟨h.quiet.congr hsp ⟨_, _, _, _, _, _, _, rfl⟩, h.pointers, ?_⟩
  have hpsr : u.psr = s.psr := by
    rw [h.psr]
    obtain ⟨_, _, _, rfl⟩ := hsp
    rfl
  have ht : t.psr = flags s.psr := congrArg flags hpsr
  rw [ht]
  exact hflags s.psr

theorem modify_frame {i : Instr} {src dst : Gen} {m n : Nat} {cf ff : Bool}
    {f : BitVec (8 * m) → BitVec (8 * n) → M (Result (8 * n))} {s s1 s2 t : State} {a : BitVec (8 * m)} {d : Dest}
    (hf : ∀ a b u, ∃ r, f a b u = .ok (r, u) ∧ FlagsOf cf ff r.flags) (ha : rd src m s = .ok (a, s1))
    (hd : dstModify dst s1 = .ok (d, s2)) (hchip : d.onChip n s2 = false) (hs : s.calm)
    (ht : finish i (modifyOp src dst m n f) s = .next t) :
    Quiet s t d.regs (d.bytes n s2) ∧ StacksSame (s.popped src m) t ∧
      t.psr = { s.psr with c := if cf then t.psr.c else s.psr.c, f := if ff then t.psr.f else s.psr.f } := by
  have h1 := rd_onlySp hs ha
  have h2 := dstModify_onlyFree (h1.calm hs) hd
  have hs2 : s2.calm := h2.calm (h1.calm hs)
  have hpush := dstModify_ne_push hd
  have hsp : ∃ x y k, s2 = { s with sp0 := x, sp1 := y, freeCount := k } := by
    obtain ⟨x, y, k, rfl⟩ := h1
    obtain ⟨k', rfl⟩ := h2
    exact ⟨x, y, k', rfl⟩
  rcases getDest_offChip hs2 hchip hpush with ⟨b, hb⟩ | hb
  · obtain ⟨r, hr, hflags⟩ := hf a b s2
    rcases putDest_offChip r.val hs2 hchip with ⟨u, hu, hframe⟩ | hu
    · rw [finish_seq_after (run_modifyOp ha hd hb hr hu)] at ht
      cases ht
      obtain ⟨hquiet, hpointers, hpsr⟩ := frame_of_put hsp hframe hflags i
      refine ⟨hquiet, ?_, hpsr⟩
      rw [State.putSp, if_neg hpush] at hpointers
      obtain ⟨hpop, -⟩ := rd_stacks hs ha
      obtain ⟨k, rfl⟩ := h2
      exact ⟨hpointers.1.trans hpop.1, hpointers.2.trans hpop.2⟩
    · refine absurd ht (Halts.finish_ne_next ?_ t)
      unfold modifyOp
      rw [run_bind_of_ok ha, run_bind_of_ok hd, run_bind_of_ok hb, run_bind_of_ok hr]
      exact hu.bind _
  · refine absurd ht (Halts.finish_ne_next ?_ t)
    unfold modifyOp
    rw [run_bind_of_ok ha, run_bind_of_ok hd]
    exact hb.bind _

/-- Equal stack pointers, one of them moved down alike. -/
theorem StacksSame.setSp {s t : State} (h : StacksSame s t) (hp : s.psr = t.psr) (k : Word) :
    StacksSame (s.setSp (s.sp - k)) (t.setSp (t.sp - k)) := by
  obtain ⟨h0, h1⟩ := h
  unfold State.setSp State.sp
  rw [hp, h0, h1]
  by_cases hps : t.psr.s = true
  · rw [if_pos hps, if_pos hps, if_pos hps]
    exact ⟨rfl, rfl⟩
  · rw [if_neg hps, if_neg hps, if_neg hps]
    exact ⟨rfl, rfl⟩

theorem move_frame {i : Instr} {src dst : Gen} {m n : Nat} {cf ff : Bool} {f : BitVec (8 * m) → M (Result (8 * n))}
    {s s1 s2 t : State} {a : BitVec (8 * m)} {d : Dest} (hf : ∀ a u, ∃ r, f a u = .ok (r, u) ∧ FlagsOf cf ff r.flags)
    (ha : rd src m s = .ok (a, s1)) (hd : dstWrite dst s1 = .ok (d, s2)) (hchip : d.onChip n s2 = false) (hs : s.calm)
    (ht : finish i (moveOp src dst m n f) s = .next t) :
    Quiet s t d.regs (d.bytes n s2) ∧ StacksSame ((s.popped src m).pushed dst n) t ∧
      t.psr = { s.psr with c := if cf then t.psr.c else s.psr.c, f := if ff then t.psr.f else s.psr.f } := by
  have h1 := rd_onlySp hs ha
  have h2 := dstWrite_onlyFree (h1.calm hs) hd
  have hs2 : s2.calm := h2.calm (h1.calm hs)
  have hsp : ∃ x y k, s2 = { s with sp0 := x, sp1 := y, freeCount := k } := by
    obtain ⟨x, y, k, rfl⟩ := h1
    obtain ⟨k', rfl⟩ := h2
    exact ⟨x, y, k', rfl⟩
  obtain ⟨r, hr, hflags⟩ := hf a s2
  rcases putDest_offChip r.val hs2 hchip with ⟨u, hu, hframe⟩ | hu
  · rw [finish_seq_after (run_moveOp ha hd hr hu)] at ht
    cases ht
    obtain ⟨hquiet, hpointers, hpsr⟩ := frame_of_put hsp hframe hflags i
    refine ⟨hquiet, ?_, hpsr⟩
    obtain ⟨hpop, hpoppsr⟩ := rd_stacks hs ha
    have hpop2 : StacksSame (s.popped src m) s2 := by
      obtain ⟨k, rfl⟩ := h2
      exact hpop
    have hpsr2 : (s.popped src m).psr = s2.psr := by
      obtain ⟨_, _, _, rfl⟩ := hsp
      exact hpoppsr
    have hput : StacksSame ((s.popped src m).pushed dst n) (s2.putSp d n) := by
      unfold State.pushed State.putSp
      by_cases hg : dst = .mode .tos
      · rw [if_pos hg, if_pos ((dstWrite_push_iff hd).2 hg)]
        exact hpop2.setSp hpsr2 _
      · rw [if_neg hg, if_neg (fun h => hg ((dstWrite_push_iff hd).1 h))]
        exact hpop2
    exact ⟨hpointers.1.trans hput.1, hpointers.2.trans hput.2⟩
  · refine absurd ht (Halts.finish_ne_next ?_ t)
    unfold moveOp
    rw [run_bind_of_ok ha, run_bind_of_ok hd, run_bind_of_ok hr]
    exact hu.bind _

theorem flagsOf_id : FlagsOf false false id := fun _ => rfl

theorem flagsOf_addResult {w : Nat} (a b : BitVec w) (c : Bool) : FlagsOf true true (addResult a b c).flags := fun _ => rfl

theorem flagsOf_subResult {w : Nat} (a b : BitVec w) (c : Bool) : FlagsOf true true (subResult a b c).flags := fun _ => rfl

/-- Settles O27: each instruction is the shape of classes read and rmw, with the flags its result names. -/
theorem modifyFrame : Obligations.ModifyFrame := by
  intro i src dst m n cf ff s a s1 d s2 t hi ha hd hchip hs ht
  cases i
  case addi z x y =>
    obtain ⟨rfl, rfl, rfl, rfl, rfl, rfl⟩ := hi
    exact modify_frame (fun a b u => ⟨_, rfl, flagsOf_addResult a b false⟩) ha hd hchip hs ht
  case addci z x y =>
    obtain ⟨rfl, rfl, rfl, rfl, rfl, rfl⟩ := hi
    exact modify_frame (fun a b u => ⟨_, rfl, flagsOf_addResult a b u.psr.c⟩) ha hd hchip hs ht
  case subi z x y =>
    obtain ⟨rfl, rfl, rfl, rfl, rfl, rfl⟩ := hi
    exact modify_frame (fun a b u => ⟨_, rfl, flagsOf_subResult a b false⟩) ha hd hchip hs ht
  case subci z x y =>
    obtain ⟨rfl, rfl, rfl, rfl, rfl, rfl⟩ := hi
    exact modify_frame (fun a b u => ⟨_, rfl, flagsOf_subResult a b u.psr.c⟩) ha hd hchip hs ht
  case ffsi z x y =>
    obtain ⟨rfl, rfl, rfl, rfl, rfl, rfl⟩ := hi
    refine modify_frame (fun b o u => ?_) ha hd hchip hs ht
    cases firstSet b (8 * z.bytes - o.toNat) o.toNat with
    | none => exact ⟨_, rfl, fun _ => rfl⟩
    | some k => exact ⟨_, rfl, fun _ => rfl⟩
  case muli z x y | andi z x y | ori z x y | bici z x y | xori z x y | lshi z x y | ashi z x y | roti z x y =>
    obtain ⟨rfl, rfl, rfl, rfl, rfl, rfl⟩ := hi
    exact modify_frame (fun _ _ _ => ⟨_, rfl, flagsOf_id⟩) ha hd hchip hs ht
  all_goals exact hi.elim

/-- Settles O28: each instruction is the shape of classes read and write, with the flags its result names. -/
theorem moveFrame : Obligations.MoveFrame := by
  intro i src dst m n cf ff s a s1 d s2 t hi ha hd hchip hs ht
  cases i
  case negi z x y =>
    obtain ⟨rfl, rfl, rfl, rfl, rfl, rfl⟩ := hi
    exact move_frame (fun _ _ => ⟨_, rfl, fun _ => rfl⟩) ha hd hchip hs ht
  case absi z x y =>
    obtain ⟨rfl, rfl, rfl, rfl, rfl, rfl⟩ := hi
    exact move_frame (fun _ _ => ⟨_, rfl, fun _ => rfl⟩) ha hd hchip hs ht
  case movi z x y | comi z x y | noti z x y | movzid z x y | movxid z x y =>
    obtain ⟨rfl, rfl, rfl, rfl, rfl, rfl⟩ := hi
    exact move_frame (fun _ _ => ⟨_, rfl, flagsOf_id⟩) ha hd hchip hs ht
  case movzbw x y | movxbw x y =>
    obtain ⟨rfl, rfl, rfl, rfl, rfl, rfl⟩ := hi
    exact move_frame (fun _ _ => ⟨_, rfl, flagsOf_id⟩) ha hd hchip hs ht
  all_goals exact hi.elim

end Sys2Proof.Machine
end

section
/-! PROOFS. The BITBLT Processing Unit's result, bit by bit. -/

namespace Sys2Proof.Machine

open Sys2Proof

theorem getLsbD_rightMask (rm : BitVec 4) {k : Nat} (hk : k < 16) : (rightMask rm).getLsbD k = decide (k ≤ rm.toNat) := by
  rw [rightMask, BitVec.getLsbD_ofNat, Nat.testBit_two_pow_sub_one, decide_eq_true hk, Bool.true_and]
  exact decide_eq_decide.2 Nat.lt_succ_iff

theorem getLsbD_leftMask (lm : BitVec 4) {k : Nat} (hk : k < 16) : (leftMask lm).getLsbD k = decide (lm.toNat ≤ k) := by
  have hlm : 2 ^ lm.toNat ≤ 2 ^ 16 := Nat.pow_le_pow_right (by decide) (by omega)
  have hsub : 2 ^ 16 - 2 ^ lm.toNat = 2 ^ 16 - ((2 ^ lm.toNat - 1) + 1) := by
    have := Nat.two_pow_pos lm.toNat
    omega
  rw [leftMask, BitVec.getLsbD_ofNat, hsub, Nat.testBit_two_pow_sub_succ (by omega), Nat.testBit_two_pow_sub_one,
    decide_eq_true hk, Bool.true_and, Bool.true_and, ← decide_not]
  exact decide_eq_decide.2 Nat.not_lt

theorem getLsbD_full {k : Nat} (hk : k < 16) : (0xFFFF : Half).getLsbD k = true := by
  have h : (0xFFFF : Half) = BitVec.allOnes 16 := rfl
  rw [h, BitVec.getLsbD_allOnes, decide_eq_true hk]

theorem getLsbD_ite {w : Nat} (c : Prop) [Decidable c] (x y : BitVec w) (k : Nat) :
    (if c then x else y).getLsbD k = if c then x.getLsbD k else y.getLsbD k :=
  apply_ite (fun v : BitVec w => v.getLsbD k) c x y

/-- A bit of a mask lets the result through where every condition that counts holds (R685). -/
theorem Bpu.mask_getLsbD (b : Bpu) (w : Nat) {k : Nat} (hk : k < 16) : (b.mask w).getLsbD k = true ↔
    (w ≠ 0 ∨ ((b.brme = true → k ≤ b.rm.toNat) ∧ (b.blme = true → b.lm.toNat ≤ k))) ∧
      (w + 1 ≠ 256 - b.wcnt.toNat ∨ ((b.erme = true → k ≤ b.rm.toNat) ∧ (b.elme = true → b.lm.toNat ≤ k))) := by
  have hif (c : Prop) [Decidable c] (x : Bool) : (if c then x else true) = true ↔ (c → x = true) := by
    split
    next h => exact ⟨fun hx _ => hx, fun hx => hx h⟩
    next h => exact ⟨fun _ hc => absurd hc h, fun _ => rfl⟩
  unfold Bpu.mask Bpu.lineWords
  simp only [BitVec.getLsbD_and, getLsbD_ite, getLsbD_rightMask _ hk, getLsbD_leftMask _ hk, getLsbD_full hk, Bool.and_eq_true,
    hif, decide_eq_true_eq]
  tauto

theorem getLsbD_barrel (a b : Half) (sn : BitVec 4) {k : Nat} (hk : k < 16) : (barrel a b sn).getLsbD k =
    if k + sn.toNat < 16 then a.getLsbD (k + sn.toNat) else b.getLsbD (k + sn.toNat - 16) := by
  rw [barrel, BitVec.getLsbD_setWidth, BitVec.getLsbD_ushiftRight, BitVec.getLsbD_append, Nat.add_comm, decide_eq_true hk,
    Bool.true_and]

/-- The two bits select one of the four of FS (R73). -/
theorem getLsbD_bltFunction (fs : BitVec 4) (s d : Half) {k : Nat} (hk : k < 16) : (bltFunction fs s d).getLsbD k =
    fs.getLsbD (3 - 2 * (s.getLsbD k).toNat - (d.getLsbD k).toNat) := by
  unfold bltFunction
  simp only [BitVec.getLsbD_or, getLsbD_ite, BitVec.getLsbD_and, BitVec.getLsbD_not, decide_eq_true hk, Bool.true_and]
  cases s.getLsbD k <;> cases d.getLsbD k <;> simp

/-- Settles O55: the mask chooses bit by bit between the function's bit and the destination's. -/
theorem bpuResultBits : Obligations.BpuResultBits := by
  intro b w sdil bil ddil k hk low high c d enabled
  have hsource : (if b.bis then barrel bil sdil b.sn else barrel sdil bil b.sn).getLsbD k = c := by
    have hbarrel : (if b.bis then barrel bil sdil b.sn else barrel sdil bil b.sn) = barrel low high b.sn := by
      show _ = barrel (if b.bis then bil else sdil) (if b.bis then sdil else bil) b.sn
      split <;> rfl
    rw [hbarrel, getLsbD_barrel _ _ _ hk]
  have hresult : (b.result w sdil bil ddil).getLsbD k =
      if (b.mask w).getLsbD k then b.fs.getLsbD (3 - 2 * c.toNat - d.toNat) else d := by
    unfold Bpu.result
    simp only [BitVec.getLsbD_or, BitVec.getLsbD_and, BitVec.getLsbD_not, decide_eq_true hk, Bool.true_and,
      getLsbD_bltFunction _ _ _ hk, hsource]
    cases (b.mask w).getLsbD k <;> simp [d]
  have hmask : (b.mask w).getLsbD k = true ↔ enabled := b.mask_getLsbD w hk
  refine ⟨fun h => ?_, fun h => ?_⟩
  · rw [hresult, if_pos (hmask.2 h)]
  · rw [hresult, if_neg (fun hm => h (hmask.1 hm))]

end Sys2Proof.Machine
end

section
/-! PROOFS. Accesses: where they stop, their bus cycles one by one, and reset between two of them. -/

namespace Sys2Proof.Machine

open Sys2Proof

variable {α β : Type}

/-! ### Where an access stops -/

/-- The first byte of an access is checked first (R137). -/
theorem run_allow_of_first {w : Bool} {a : Word} {n : Nat} {s : State} {e : Stop} (hn : 0 < n) (h : s.plat.byteStop w a = some e) :
    allow w (byteAddrs a n) s = .error e := by
  obtain ⟨k, rfl⟩ := Nat.exists_eq_add_of_lt hn
  rw [Nat.zero_add, byteAddrs, allow, List.findSome?_cons_of_isSome (by rw [h]; rfl), h]

theorem run_memRead_stops {a : Word} {n : Nat} {s : State} {e : Stop} (hn : 0 < n) (hr : s.plat.regAt a = none)
    (h : s.plat.byteStop false a = some e) : memRead a n s = .error e := by
  unfold memRead
  rw [run_peek_bind, hr]
  exact run_bind_of_error (run_allow_of_first hn h)

theorem run_memWrite_stops {a : Word} {n : Nat} (v : BitVec (8 * n)) {s : State} {e : Stop} (hn : 0 < n)
    (hr : s.plat.regAt a = none) (h : s.plat.byteStop true a = some e) : memWrite a n v s = .error e := by
  unfold memWrite
  rw [run_peek_bind, hr]
  exact run_bind_of_error (run_allow_of_first hn h)

theorem table_width_pos (r : PReg) : 0 < r.width := by
  cases r <;> exact Nat.lt_of_sub_eq_succ rfl

/-- An address that no register owns is none's start (R132). -/
theorem regAt_eq_none_of_not_owned {p : Platform} {a : Word} (h : p.ownsByte a = false) : p.regAt a = none := by
  unfold Platform.regAt
  split
  · rfl
  · rw [Option.map_eq_none_iff, List.find?_eq_none]
    intro x hx hxa
    have hnot := List.any_eq_false.1 h x hx
    rw [beq_iff_eq] at hxa
    subst hxa
    exact hnot (by simpa using table_width_pos x.2)

/-- Settles O13: the kind of the first byte gives the stop's name; a register of another width refuses. -/
theorem accessesOutsideMemoryStop : Obligations.AccessesOutsideMemoryStop := by
  intro s a n v hn
  have hblocks : Config.externalEnd ≤ Config.topBlock := by decide
  refine ⟨fun hlo hhi => ?gap, fun htop hown => ?reserved, fun hlt hnone => ?absent, fun hlt hrom => ?rom, fun r hr hw => ?width⟩
  case gap =>
    have hr : s.plat.regAt a = none := if_pos hhi
    have hstop (w : Bool) : s.plat.byteStop w a = some (.fault .unavailableAddress) := by
      rw [Platform.byteStop, if_neg (Nat.not_lt.2 hlo), if_pos hhi]
    exact ⟨run_memRead_stops hn hr (hstop _), run_memWrite_stops v hn hr (hstop _)⟩
  case reserved =>
    have hr := regAt_eq_none_of_not_owned hown
    have hstop (w : Bool) : s.plat.byteStop w a = some (.fault .reservedAddress) := by
      rw [Platform.byteStop, if_neg (Nat.not_lt.2 (hblocks.trans htop)), if_neg (Nat.not_lt.2 htop), hown]
      rfl
    exact ⟨run_memRead_stops hn hr (hstop _), run_memWrite_stops v hn hr (hstop _)⟩
  case absent =>
    have hstop (w : Bool) : s.plat.byteStop w a = some (.fault .noExternalMemory) := by
      rw [Platform.byteStop, if_pos hlt, hnone]
    exact ⟨run_memRead_stops hn (regAt_none_of_external hlt) (hstop _),
      run_memWrite_stops v hn (regAt_none_of_external hlt) (hstop _)⟩
  case rom =>
    have hstop : s.plat.byteStop true a = some (.fault .romWrite) := by
      rw [Platform.byteStop, if_pos hlt, hrom]
      rfl
    exact run_memWrite_stops v hn (regAt_none_of_external hlt) hstop
  case width =>
    have hreq : require .registerAccess (r.width == n) s = .error (.refuse .registerAccess) := by
      rw [beq_eq_false_iff_ne.2 hw]
      rfl
    unfold memRead memWrite
    constructor
    · rw [run_peek_bind, hr]
      exact run_bind_of_error hreq
    · rw [run_peek_bind, hr]
      exact run_bind_of_error hreq

/-! ### The bus cycles of an operand -/

theorem getLsbD_zero_eq (a : Word) : a.getLsbD 0 = (a.toNat % 2 == 1) := by
  rw [BitVec.getLsbD, Nat.testBit_zero]
  rfl

/-- The cycles of an operand of the table's lengths (R140). -/
theorem busCycles_eq_table {a : Word} {n : Nat} (hn : n ∈ [1, 2, 4, 8]) : busCycles a n = tableCycles (a.toNat % 2 == 1) n := by
  unfold busCycles
  rw [getLsbD_zero_eq]
  simp only [List.mem_cons, List.not_mem_nil, or_false] at hn
  rcases hn with rfl | rfl | rfl | rfl <;> cases (a.toNat % 2 == 1) <;> rfl

theorem run_readCycles_of_readsBy {l : List Nat} {a : Word} {s t : State} {v : Nat} (h : ReadsBy l a s v t) :
    readCycles l a s = .ok (v, t) := by
  induction l generalizing a s v with
  | nil =>
    obtain ⟨rfl, rfl⟩ := h
    rfl
  | cons k l ih =>
    obtain ⟨u, w, hgap, hrest, rfl⟩ := h
    unfold readCycles
    rw [run_bind_of_ok hgap, run_peek_bind, run_bind_of_ok (ih hrest), State.toNat_valueAt]
    rfl

theorem leBytes_mod (n v : Nat) : leBytes n (v % 2 ^ (8 * n)) = leBytes n v := by
  refine List.ext_getElem? fun k => ?_
  by_cases hk : k < n
  · rw [leBytes_getElem? _ hk, leBytes_getElem? _ hk]
    congr 1
    obtain ⟨m, rfl⟩ := Nat.exists_eq_add_of_lt hk
    have hsplit : 2 ^ (8 * (k + m + 1)) = 2 ^ (8 * k) * (2 ^ 8 * 2 ^ (8 * m)) := by
      rw [← Nat.pow_add, ← Nat.pow_add]
      congr 1
      omega
    apply BitVec.eq_of_toNat_eq
    rw [BitVec.toNat_ofNat, BitVec.toNat_ofNat, hsplit, Nat.mod_mul_right_div_self, Nat.mod_mul_right_mod]
  · rw [List.getElem?_eq_none (by simpa using hk), List.getElem?_eq_none (by simpa using hk)]

theorem run_writeCycles_of_writesBy {l : List Nat} {a : Word} {v : Nat} {s t : State} (h : WritesBy l a v s t) :
    writeCycles l a v s = .ok ((), t) := by
  induction l generalizing a s v with
  | nil =>
    cases h
    rfl
  | cons k l ih =>
    obtain ⟨u, hgap, hrest⟩ := h
    rw [State.poke, BitVec.toNat_ofNat, leBytes_mod] at hrest
    unfold writeCycles
    rw [run_bind_of_ok hgap, run_upd_bind]
    exact ih hrest

theorem run_outside_of_no_reset {l : List Event} (h : Event.rstiLow ∉ l) (s : State) : outside l s = events l s := by
  induction l generalizing s with
  | nil => rfl
  | cons e l ih =>
    rw [List.mem_cons, not_or] at h
    unfold outside events
    rw [if_neg (Ne.symm h.1), run_bind, run_bind]
    cases event e s with
    | ok x => exact ih h.2 _
    | error e => rfl

/-! ### Reset inside an instruction -/

/-- What the end that reset makes changes: not what R99 states, and of memory the bytes listed alone. -/
structure Freed (bytes : List Nat) (s t : State) : Prop where
  reset : InReset s → InReset t
  mem : ∀ a, a ∉ bytes → t.mem.read a = s.mem.read a
  kept : bytes = [] → t.mem = s.mem

/-- A computation that always goes on, to a state in relation to its start. -/
def Yields (R : State → State → Prop) (m : M α) : Prop := ∀ s, ∃ a t, m s = .ok (a, t) ∧ R s t

section
variable {l : List Nat}

theorem Freed.trans {s t u : State} (h : Freed l s t) (k : Freed l t u) : Freed l s u :=
  ⟨k.reset ∘ h.reset, fun a ha => (k.mem a ha).trans (h.mem a ha), fun hl => (k.kept hl).trans (h.kept hl)⟩

theorem Freed.of_mem {s t : State} (hr : InReset s → InReset t) (hm : t.mem = s.mem) : Freed l s t :=
  ⟨hr, fun _ _ => by rw [hm], fun _ => hm⟩

theorem Yields.bind {m : M α} {k : α → M β} (hm : Yields (Freed l) m) (hk : ∀ a, Yields (Freed l) (k a)) :
    Yields (Freed l) (m >>= k) := by
  intro s
  obtain ⟨a, t, ht, h⟩ := hm s
  obtain ⟨b, u, hu, h'⟩ := hk a t
  exact ⟨b, u, (run_bind_of_ok ht).trans hu, h.trans h'⟩

theorem Yields.upd {f : State → State} (h : ∀ s, Freed l s (f s)) : Yields (Freed l) (upd f) := fun s => ⟨(), f s, rfl, h s⟩

theorem Yields.pure (a : α) : Yields (Freed l) (pure a : M α) := fun s => ⟨a, s, rfl, .of_mem id rfl⟩

theorem Yields.fresh (n : Nat) : Yields (Freed l) (fresh n) := fun _ => ⟨_, _, rfl, .of_mem (fun h => ⟨h.cpu, h.bpu, h.dma, h.chan, h.icu⟩) rfl⟩

theorem yields_freeRegs (rs : List Reg) : Yields (Freed l) (freeRegs rs) := by
  induction rs with
  | nil => exact .pure ()
  | cons r t ih =>
    exact .bind (.fresh 32) fun v => .bind
      (.upd fun _ => .of_mem (fun h => ⟨h.cpu, h.bpu, h.dma, h.chan, h.icu⟩) rfl) fun _ => ih

theorem yields_freeAddressRegs : Yields (Freed l) freeAddressRegs :=
  .bind (.fresh 32) fun _ => .bind (.fresh 32) fun _ => .bind (.fresh 32) fun _ => .bind (.fresh 32) fun _ =>
    .bind (.fresh 32) fun _ => .bind (.fresh 16) fun _ =>
      .upd fun _ => .of_mem (fun h => ⟨h.cpu, h.bpu, h.dma, h.chan, h.icu⟩) rfl

theorem yields_freeBpu : Yields (Freed l) freeBpu :=
  .bind (.fresh 5) fun _ => .bind (.fresh 4) fun _ => .bind (.fresh 4) fun _ => .bind (.fresh 4) fun _ =>
    .bind (.fresh 8) fun _ => .upd fun _ => .of_mem (fun h => ⟨h.cpu, h.bpu, h.dma, h.chan, h.icu⟩) rfl

/-- The counting registers of a channel are not among those R99 gives a value. -/
theorem InReset.modChan {s : State} (h : InReset s) (ch : Chan) (adc adr : Word) :
    InReset (s.modChan ch (fun c => { c with adc := adc, adr := adr })) := by
  refine ⟨h.cpu, h.bpu, fun l => ?_, fun ch' => ?_, h.icu⟩
  · cases ch <;> exact h.dma l
  · have := h.chan ch'
    cases ch <;> cases ch' <;> exact this

theorem yields_freeChan (ch : Chan) : Yields (Freed l) (freeChan ch) :=
  .bind (.fresh 32) fun adc => .bind (.fresh 32) fun adr => .upd fun _ => .of_mem (fun h => h.modChan ch adc adr) rfl

theorem yields_freeTimer (k : TimerId) : Yields (Freed l) (freeTimer k) :=
  .bind (.fresh 16) fun _ => .bind (.fresh 16) fun _ => .bind (.fresh 16) fun _ =>
    .upd fun _ => .of_mem (fun h => by cases k <;> exact ⟨h.cpu, h.bpu, h.dma, h.chan, h.icu⟩) (by cases k <;> rfl)

theorem yields_freeBytes {k : List Nat} (hk : ∀ a ∈ k, a ∈ l) : Yields (Freed l) (freeBytes k) := by
  induction k with
  | nil => exact .pure ()
  | cons a t ih =>
    have ha := hk a List.mem_cons_self
    refine .bind (.fresh 8) fun v => .bind (.upd fun _ => ⟨fun h => ⟨h.cpu, h.bpu, h.dma, h.chan, h.icu⟩, fun b hb => ?_, fun hl => ?_⟩)
      fun _ => ih fun b hb => hk b (List.mem_cons_of_mem _ hb)
    · exact Memory.read_write_other _ v (fun h => hb (h ▸ ha))
    · rw [hl] at ha
      cases ha

end

/-- The end that reset makes: the values of R99, and memory but for the bytes due (R602, R760). -/
theorem run_cutByReset (due : List Nat) (c : State) : ∃ t, cutByReset due [] c = .ok ((), t) ∧ InReset t ∧
    (∀ a, a ∉ due → t.mem.read a = c.mem.read a) ∧ (due = [] → t.mem = c.mem) := by
  obtain ⟨_, t, ht, hreset, hmem, hkept⟩ := (Yields.bind (l := due)
    (yields_freeRegs [.r0, .r1, .r2, .r3, .r4, .r5, .r6, .r7]) fun _ => .bind yields_freeAddressRegs fun _ => .bind yields_freeBpu fun _ =>
      .bind (yields_freeChan .ch0) fun _ => .bind (yields_freeChan .ch1) fun _ => .bind (yields_freeTimer .t0) fun _ =>
        .bind (yields_freeTimer .t1) fun _ => .bind (yields_freeTimer .t2) fun _ =>
          .bind (yields_freeBytes fun _ h => h) fun _ => .pure ()) c.resetLow
  have hkeep : c.resetLow.mem = c.mem := rfl
  rw [hkeep] at hmem hkept
  refine ⟨t, ?_, hreset (inReset_resetLow c), hmem, hkept⟩
  unfold cutByReset
  rw [run_upd_bind]
  exact ht

theorem InReset.ended {s : State} (h : InReset s) : InReset s.ended := ⟨h.cpu, h.bpu, h.dma, h.chan, h.icu⟩

/-- Settles O12: the cycles are the model's own; reset inside an instruction ends in `cutByReset`. -/
theorem betweenBusCycles : Obligations.BetweenBusCycles := by
  refine ⟨fun s t a n v hn => ⟨fun hr h => ?read, fun hw hv h => ?write⟩, fun s t => ⟨fun w rest hs hno h => ?events, fun hs => run_gap_calm hs⟩,
    fun s w hs => ?cut, fun m s c h => ?instr, fun m s c h => ?entry, fun x ret m s u c p d hm h => ?sequence⟩
  case read =>
    have hpos : 0 < n := by
      rcases n with _ | n
      · exact absurd hn (by decide)
      · exact Nat.succ_pos n
    have hallow : allow false (byteAddrs a n) s = .ok ((), s) := allow_eq_ok.2 ⟨fun x hx =>
      have ⟨hlt, hmem⟩ := hr x.toNat (mem_bytesOf_of_mem hx)
      byteStop_read_eq_none hlt hmem, rfl⟩
    rw [← busCycles_eq_table hn] at h
    unfold memRead
    rw [run_peek_bind, State.readable.regAt_eq_none hpos hr]
    exact (run_bind_of_ok hallow).trans (run_bind_of_ok (run_readCycles_of_readsBy h))
  case write =>
    have hpos : 0 < n := by
      rcases n with _ | n
      · exact absurd hn (by decide)
      · exact Nat.succ_pos n
    have hallow : allow true (byteAddrs a n) s = .ok ((), s) := allow_eq_ok.2 ⟨fun x hx =>
      have ⟨hlt, hram⟩ := hw x.toNat (mem_bytesOf_of_mem hx)
      byteStop_write_eq_none hlt hram, rfl⟩
    rw [← busCycles_eq_table hn] at h
    unfold memWrite
    rw [run_peek_bind, State.readable.regAt_eq_none hpos (State.writable.readable hw)]
    refine (run_bind_of_ok hallow).trans ?_
    rw [BitVec.toNat_ofNat, Nat.mod_eq_of_lt hv]
    exact run_writeCycles_of_writesBy h
  case events =>
    unfold gap
    rw [run_peek_bind, run_upd_bind, hs]
    exact (run_outside_of_no_reset hno _).trans h
  case cut =>
    unfold gap
    rw [run_peek_bind, run_upd_bind, hs]
    rfl
  case instr =>
    obtain ⟨t, ht, hreset, hmem, -⟩ := run_cutByReset (dueBytes m s c) c
    refine ⟨t.ended, ?_, hreset.ended, hmem⟩
    unfold settled
    rw [h]
    show outcomeOf (cutByReset (dueBytes m s c) [] c) = _
    rw [ht]
    rfl
  case entry =>
    obtain ⟨t, ht, hreset, -, hkept⟩ := run_cutByReset [] c
    refine ⟨t.ended, ?_, hreset.ended, hkept rfl⟩
    unfold settled
    rw [h]
    show outcomeOf (cutByReset [] [] c) = _
    rw [ht]
    rfl
  case sequence =>
    simp only [List.mem_cons, List.not_mem_nil, or_false] at hm
    rcases hm with rfl | rfl | rfl | rfl | rfl
    · exact asEntry_cut h
    · exact asEntry_cut h
    · exact asEntry_cut h
    · exact asEntry_cut h
    · unfold interruptSequence at h
      rw [run_peek_bind] at h
      split at h
      · exact asEntry_cut h
      · exact asEntry_cut h

end Sys2Proof.Machine
end

section
/-! PROOFS. The on-chip registers: what a write stores and what a read answers. -/

namespace Sys2Proof.Machine

open Sys2Proof

variable {s : State} {a : Word} {r : PReg}

/-! ### Reading a register in bus cycles -/

/-- In every bit `mask` has, a read of the register answers `val`, and nothing changes but the place in the free values. -/
def ReadsAs (r : PReg) (s : State) (mask val : Word) : Prop := ∀ k, ∃ w k',
  regRead r { s with freeCount := k } = .ok (w, { s with freeCount := k' }) ∧ ∀ j, mask.getLsbD j = true → w.getLsbD j = val.getLsbD j

theorem run_require_width (r : PReg) (s : State) : require .registerAccess (r.width == r.width) s = .ok ((), s) := by
  rw [beq_self_eq_true]
  rfl

theorem run_memWrite_reg (hs : s.calm) (hr : s.plat.regAt a = some r) (v : BitVec (8 * r.width)) :
    memWrite a r.width v s = regWrite r (v.setWidth 32) s := by
  unfold memWrite
  rw [run_peek_bind, hr]
  exact (run_bind_of_ok (run_require_width r s)).trans (run_writeRegCycles_calm hs r _ _)

theorem run_readRegCycles_free (hs : s.calm) {mask val : Word} (h : ReadsAs r s mask val) (l : List Nat) (o k : Nat) :
    ∃ n k', readRegCycles r l o { s with freeCount := k } = .ok (n, { s with freeCount := k' }) ∧
      ∀ j, j < 8 * l.sum → mask.getLsbD (o + j) = true → n.testBit j = val.getLsbD (o + j) := by
  induction l generalizing o k with
  | nil => exact ⟨0, k, rfl, fun j hj => absurd hj (Nat.not_lt_zero j)⟩
  | cons c l ih =>
    obtain ⟨w, k1, hw, hbits⟩ := h k
    obtain ⟨n, k2, hn, hrest⟩ := ih (o + 8 * c) k1
    refine ⟨w.toNat / 2 ^ o % 2 ^ (8 * c) + 2 ^ (8 * c) * n, k2, ?_, fun j hj hm => ?_⟩
    · unfold readRegCycles
      refine (run_bind_of_ok (run_gap_calm (s := { s with freeCount := k }) hs)).trans ((run_bind_of_ok hw).trans ?_)
      exact run_bind_of_ok hn
    · rw [Nat.add_comm, Nat.testBit_two_pow_mul_add _ (Nat.mod_lt _ (Nat.two_pow_pos _))]
      split
      next hlt =>
        rw [Nat.testBit_mod_two_pow, decide_eq_true hlt, Bool.true_and, Nat.testBit_div_two_pow, Nat.add_comm j o]
        exact hbits (o + j) hm
      next hge =>
        have hsum : 8 * (c :: l).sum = 8 * c + 8 * l.sum := by rw [List.sum_cons, Nat.mul_add]
        have hoff : o + 8 * c + (j - 8 * c) = o + j := by omega
        have hbit := hrest (j - 8 * c) (by omega) (by rwa [hoff])
        rwa [hoff] at hbit

theorem run_memRead_reg (hs : s.calm) (hr : s.plat.regAt a = some r) {mask val : Word} (h : ReadsAs r s mask val) : ∃ x k,
    memRead a r.width s = .ok (x, { s with freeCount := k }) ∧
      ∀ j, j < 8 * r.width → mask.getLsbD j = true → x.getLsbD j = val.getLsbD j := by
  obtain ⟨n, k, hn, hbits⟩ := run_readRegCycles_free hs h (busCycles a r.width) 0 s.freeCount
  refine ⟨BitVec.ofNat _ n, k, ?_, fun j hj hm => ?_⟩
  · unfold memRead
    rw [run_peek_bind, hr]
    refine (run_bind_of_ok (run_require_width r s)).trans ?_
    exact run_bind_of_ok hn
  · have := hbits j (by rwa [busCycles_sum]) (by rwa [Nat.zero_add])
    rw [Nat.zero_add] at this
    rw [BitVec.getLsbD_ofNat, decide_eq_true hj, Bool.true_and, this]

theorem run_memRead_width (hs : s.calm) (hr : s.plat.regAt a = some r) {mask val : Word} (h : ReadsAs r s mask val) {n : Nat}
    (hn : r.width = n) : ∃ (x : BitVec (8 * n)) (k : Nat), memRead a n s = .ok (x, { s with freeCount := k }) ∧
      ∀ j, j < 8 * n → mask.getLsbD j = true → x.getLsbD j = val.getLsbD j := by
  subst hn
  exact run_memRead_reg hs hr h

/-- A register that is read without free bits reads whole. -/
theorem run_readRegCycles_of_pure (hs : s.calm) {w : Word} (h : regRead r s = .ok (w, s)) (l : List Nat) (o : Nat) :
    readRegCycles r l o s = .ok (w.toNat / 2 ^ o % 2 ^ (8 * l.sum), s) := by
  induction l generalizing o with
  | nil =>
    rw [List.sum_nil, Nat.mul_zero, Nat.pow_zero, Nat.mod_one]
    rfl
  | cons c l ih =>
    unfold readRegCycles
    rw [run_bind_of_ok (run_gap_calm hs), run_bind_of_ok h, run_bind_of_ok (ih _), run_pure, List.sum_cons, Nat.mul_add,
      Nat.pow_add 2 (8 * c), Nat.mod_mul, Nat.div_div_eq_div_mul, ← Nat.pow_add]

theorem run_memRead_reg_of_pure (hs : s.calm) (hr : s.plat.regAt a = some r) {w : Word} (h : regRead r s = .ok (w, s)) :
    memRead a r.width s = .ok (w.setWidth (8 * r.width), s) := by
  unfold memRead
  rw [run_peek_bind, hr]
  refine (run_bind_of_ok (run_require_width r s)).trans ((run_bind_of_ok (run_readRegCycles_of_pure hs h _ 0)).trans ?_)
  rw [run_pure, busCycles_sum, Nat.pow_zero, Nat.div_one]
  congr 2
  apply BitVec.eq_of_toNat_eq
  rw [BitVec.toNat_ofNat, BitVec.toNat_setWidth, Nat.mod_mod]

/-! ### Free bits -/

theorem run_withFree_bits {n : Nat} (mask v : BitVec n) (s : State) : ∃ w k, withFree mask v s = .ok (w, { s with freeCount := k }) ∧
    ∀ j, mask.getLsbD j = false → w.getLsbD j = v.getLsbD j := by
  refine ⟨_, _, run_bind_of_ok (run_fresh n s), fun j hj => ?_⟩
  by_cases hn : j < n
  · rw [BitVec.getLsbD_or, BitVec.getLsbD_and, BitVec.getLsbD_and, BitVec.getLsbD_not, hj, decide_eq_true hn]
    simp
  · rw [BitVec.getLsbD_of_ge _ _ (by omega), BitVec.getLsbD_of_ge _ _ (by omega)]

theorem readsAs_of_word {mask val free v : Word} (h : ∀ k, regRead r { s with freeCount := k } = withFree free v { s with freeCount := k })
    (hm : ∀ j, mask.getLsbD j = true → free.getLsbD j = false) (hv : ∀ j, mask.getLsbD j = true → v.getLsbD j = val.getLsbD j) :
    ReadsAs r s mask val := by
  intro k
  obtain ⟨w, k', hw, hbits⟩ := run_withFree_bits free v { s with freeCount := k }
  exact ⟨w, k', (h k).trans hw, fun j hj => (hbits j (hm j hj)).trans (hv j hj)⟩

theorem readsAs_of_part {n : Nat} {mask val : Word} {free v : BitVec n}
    (h : ∀ k, regRead r { s with freeCount := k } = (withFree free v >>= fun w => pure (w.setWidth 32)) { s with freeCount := k })
    (hm : ∀ j, mask.getLsbD j = true → free.getLsbD j = false) (hv : ∀ j, mask.getLsbD j = true → v.getLsbD j = val.getLsbD j) :
    ReadsAs r s mask val := by
  intro k
  obtain ⟨w, k', hw, hbits⟩ := run_withFree_bits free v { s with freeCount := k }
  refine ⟨w.setWidth 32, k', (h k).trans (run_bind_of_ok hw), fun j hj => ?_⟩
  rw [BitVec.getLsbD_setWidth, decide_eq_true (BitVec.lt_of_getLsbD hj), Bool.true_and, hbits j (hm j hj), hv j hj]

theorem readsAs_of_pure {mask val v : Word} (h : ∀ k, regRead r { s with freeCount := k } = .ok (v, { s with freeCount := k }))
    (hv : ∀ j, mask.getLsbD j = true → v.getLsbD j = val.getLsbD j) : ReadsAs r s mask val := fun k => ⟨v, k, h k, hv⟩

/-- Bits that two disjoint masks have apart. -/
theorem getLsbD_of_disjoint {n : Nat} {mask : Word} {free : BitVec n} (h : mask &&& free.setWidth 32 = 0) (j : Nat)
    (hj : mask.getLsbD j = true) : free.getLsbD j = false := by
  have hlt := BitVec.lt_of_getLsbD hj
  have := congrArg (fun v => BitVec.getLsbD v j) h
  simpa [hj, hlt] using this

/-! ### Layouts of the DMA registers -/

theorem getLsbD_bitAt (p : Nat) (v : Bool) (j : Nat) : (bitAt p v).getLsbD j = (v && (decide (j < 32) && decide (p = j))) := by
  unfold bitAt
  cases v
  · simp
  · rw [if_pos rfl, BitVec.getLsbD_twoPow, Bool.true_and]
    by_cases h : p = j
    · rw [h]
    · rw [decide_eq_false h, Bool.and_false, Bool.and_false]

/-- A bit stored from its own position. -/
theorem and_position (v : Word) (p j : Nat) : (v.getLsbD p && (decide (j < 32) && decide (p = j))) =
    (v.getLsbD j && (decide (j < 32) && decide (p = j))) := by
  by_cases h : p = j
  · rw [h]
  · rw [decide_eq_false h, Bool.and_false, Bool.and_false, Bool.and_false]

/-- Four items stored from a value stand where the layout puts them. -/
theorem ChanBits.getLsbD_word (l : ChanBits) (v : Word) (j : Nat) :
    (l.word (v.getLsbD l.tc) (v.getLsbD l.eot) (v.getLsbD l.ovr) (v.getLsbD l.last)).getLsbD j =
      (v.getLsbD j && (l.word true true true true).getLsbD j) := by
  unfold ChanBits.word
  simp only [BitVec.getLsbD_or, getLsbD_bitAt, and_position v _ j, Bool.and_or_distrib_left, Bool.true_and]

/-- Three items stored from a value stand where the layout puts them, the fourth is 0. -/
theorem ChanBits.getLsbD_word_sticky (l : ChanBits) (v : Word) (j : Nat) :
    (l.word (v.getLsbD l.tc) (v.getLsbD l.eot) (v.getLsbD l.ovr) false).getLsbD j =
      (v.getLsbD j && (l.word true true true false).getLsbD j) := by
  unfold ChanBits.word
  simp only [BitVec.getLsbD_or, getLsbD_bitAt, and_position v _ j, Bool.and_or_distrib_left, Bool.true_and, Bool.false_and,
    Bool.and_false]

/-- The bits DSTAT's write stores: the sticky ones. -/
theorem getLsbD_stickyBits (l : DmaLayout) (j : Nat) :
    ((l.ch0.sticky ++ l.ch1.sticky).foldr (fun k x => bitAt k true ||| x) 0).getLsbD j =
      ((l.ch0.word true true true false).getLsbD j || (l.ch1.word true true true false).getLsbD j) := by
  have hnone (p : Nat) : (bitAt p false).getLsbD j = false := by rw [getLsbD_bitAt, Bool.false_and]
  have hzero : (0 : Word).getLsbD j = false := BitVec.getLsbD_zero
  simp only [ChanBits.sticky, ChanBits.word, List.cons_append, List.nil_append, List.foldr_cons, List.foldr_nil,
    BitVec.getLsbD_or, hnone, hzero, Bool.or_false, Bool.or_assoc]

/-! ### What a write leaves to read -/

/-- A write that goes on, and the register's answer in the state it leaves. -/
theorem takes_of_readsAs {v : BitVec (8 * r.width)} {t : State} (hs : s.calm) (hr : s.plat.regAt a = some r)
    (hw : regWrite r (v.setWidth 32) s = .ok ((), t)) (hread : ReadsAs r t (r.plainBits s.plat) (v.setWidth 32)) :
    ∃ t x u, memWrite a r.width v s = .ok ((), t) ∧ memRead a r.width t = .ok (x, u) ∧ t.mem = s.mem ∧ t.regs = s.regs ∧
      ∀ k, (r.plainBits s.plat).getLsbD k = true → x.getLsbD k = v.getLsbD k := by
  obtain ⟨hcalm, hplat, hmem, hregs⟩ : t.calm ∧ t.plat = s.plat ∧ t.mem = s.mem ∧ t.regs = s.regs := by
    obtain ⟨_, _, _, _, _, _, _, rfl⟩ := (regWrite_onlyChip r _ s).ok _ _ hw
    exact ⟨hs, rfl, rfl, rfl⟩
  obtain ⟨x, k, hx, hbits⟩ := run_memRead_reg (a := a) hcalm (hplat ▸ hr) hread
  refine ⟨t, x, _, (run_memWrite_reg hs hr v).trans hw, hx, hmem, hregs, fun j hj => ?_⟩
  by_cases hlt : j < 8 * r.width
  · rw [hbits j hlt hj, BitVec.getLsbD_setWidth, decide_eq_true (BitVec.lt_of_getLsbD hj), Bool.true_and]
  · rw [BitVec.getLsbD_of_ge _ _ (by omega), BitVec.getLsbD_of_ge _ _ (by omega)]

/-- Bits of a field at the register's low end. -/
theorem getLsbD_field {mask : Word} {m : Nat} (h : mask.toNat < 2 ^ m) {j : Nat} (hj : mask.getLsbD j = true) : j < m := by
  by_contra hge
  rw [BitVec.getLsbD, Nat.testBit_lt_two_pow (h.trans_le (Nat.pow_le_pow_right (by decide) (by omega)))] at hj
  cases hj

theorem getLsbD_low {v : Word} {m n j : Nat} (hm : j < m) (hn : j < n) : ((v.setWidth m).setWidth n).getLsbD j = v.getLsbD j := by
  rw [BitVec.getLsbD_setWidth, BitVec.getLsbD_setWidth, decide_eq_true hm, decide_eq_true hn, Bool.true_and, Bool.true_and]

/-- The bits of a MODE value that may be written (R87, R774). -/
theorem modeLegal_of_takes {v : Word} (hz : ∀ k, k < 32 → k ∉ [0, 3, 7, 9, 10, 11, 12, 13, 14] → v.getLsbD k = false)
    (hblt : (v.extractLsb' 10 5).toNat ∈ [0, 1, 2, 4, 8, 16]) : modeLegal v = true := by
  have hreserved : v &&& 0xFFFF8176 = 0 := by
    apply BitVec.eq_of_getLsbD_eq
    intro k hk
    have hmask : ∀ k, k < 32 → (0xFFFF8176 : Word).getLsbD k = true → k ∉ [0, 3, 7, 9, 10, 11, 12, 13, 14] := by decide
    have hzero : (0 : Word).getLsbD k = false := BitVec.getLsbD_zero
    rw [BitVec.getLsbD_and, hzero]
    cases hb : (0xFFFF8176 : Word).getLsbD k with
    | false => rw [Bool.and_false]
    | true => rw [hz k hk (hmask k hk hb), Bool.false_and]
  have hlegal : bltLegal (v.extractLsb' 10 5) = true := by
    generalize v.extractLsb' 10 5 = w at hblt
    revert w
    decide
  rw [modeLegal, hreserved, hlegal]
  rfl

/-- A program's change of a channel that may be made (R702, R704). -/
theorem run_chanStore_of_takes {ch : Chan} {f : DmaChan → DmaChan} {s : State}
    (h : (f (s.dma.chan ch)).chen = true → DmaEven (f (s.dma.chan ch))) : chanStore ch f s = .ok ((), s.modChan ch f) := by
  rw [run_chanStore, if_pos]
  by_cases hc : (f (s.dma.chan ch)).chen = true
  · exact .inr (h hc)
  · exact .inl (Bool.eq_false_iff.2 hc)

/-- What follows a requirement that holds. -/
theorem run_require_then {x : Refusal} {b : Bool} (h : b = true) (m : M Unit) (s : State) :
    (do
      require x b
      m : M Unit) s = m s := by
  rw [h]
  rfl

theorem not_eq_true_of {b : Bool} (h : b = false) : (!b) = true := by rw [h]; rfl

/-- A register of a channel that is read whole, after a change of the channel. -/
theorem readsAs_modChan {ch : Chan} {q : ChanReg} {part : DmaChan → Word} {f : DmaChan → DmaChan} {s : State} {mask v : Word}
    (hq : ∀ t, regRead (.chan ch q) t = .ok (part (t.dma.chan ch), t)) (hv : part (f (s.dma.chan ch)) = v) :
    ReadsAs (.chan ch q) (s.modChan ch f) mask v := by
  refine readsAs_of_pure (v := v) (fun k => ?_) fun _ _ => rfl
  rw [hq, ← hv]
  exact congrArg (fun c => Except.ok (part c, _)) (Dma.chan_setChan s.dma ch (f (s.dma.chan ch)))

/-- MODE's bits as a written value has them (R87). -/
theorem getLsbD_modeBits_storeMode (c : DmaChan) {v : Word} (hreserved : v.getLsbD 8 = false) {j : Nat}
    (hj : (0x7F89 : Word).getLsbD j = true) : (c.storeMode v).modeBits.getLsbD j = v.getLsbD j := by
  have hpos : ∀ j, j < 32 → (0x7F89 : Word).getLsbD j = true → j ∈ [0, 3, 7, 8, 9, 10, 11, 12, 13, 14] := by decide
  have hmem := hpos j (BitVec.lt_of_getLsbD hj) hj
  simp only [List.mem_cons, List.not_mem_nil, or_false] at hmem
  simp only [DmaChan.modeBits, DmaChan.storeMode, BitVec.getLsbD_or, BitVec.getLsbD_setWidth, BitVec.getLsbD_ofBoolListLE,
    BitVec.getLsbD_shiftLeft, BitVec.getLsbD_extractLsb']
  rcases hmem with rfl | rfl | rfl | rfl | rfl | rfl | rfl | rfl | rfl | rfl <;> simp [-BitVec.getLsbD_eq_getElem, hreserved]

/-- A channel's registers: what is written is stored and reads back (R83-R87, R774). -/
theorem chan_takes {s : State} (ch : Chan) (q : ChanReg) {v : Word} (h : (PReg.chan ch q).takes s v) :
    ∃ t, regWrite (.chan ch q) v s = .ok ((), t) ∧ ReadsAs (.chan ch q) t ((PReg.chan ch q).plainBits s.plat) v := by
  have hoff {c : DmaChan} {P : Prop} (hc : c.chen = false) (hc' : c.chen = true) : P :=
    absurd (hc.symm.trans hc') Bool.false_ne_true
  cases q with
  | adc =>
    have hc : (s.dma.chan ch).chen = false := h
    have hstore : chanStore ch (fun c => { c with adc := v }) s = .ok ((), s.modChan ch (fun c => { c with adc := v })) :=
      run_chanStore_of_takes (hoff hc)
    refine ⟨_, ?_, readsAs_modChan (s := s) (f := fun c => { c with adc := v }) (fun _ => rfl) rfl⟩
    exact (run_require_then (not_eq_true_of hc) _ s).trans hstore
  | bltc =>
    have hc : (s.dma.chan ch).chen = false := h
    have hstore : chanStore ch (fun c => { c with bltc := v }) s = .ok ((), s.modChan ch (fun c => { c with bltc := v })) :=
      run_chanStore_of_takes (hoff hc)
    refine ⟨_, ?_, readsAs_modChan (s := s) (f := fun c => { c with bltc := v }) (fun _ => rfl) rfl⟩
    exact (run_require_then (not_eq_true_of hc) _ s).trans hstore
  | adr =>
    refine ⟨_, ?_, readsAs_modChan (s := s) (f := fun c => { c with adr := v, adrSet := true }) (fun _ => rfl) rfl⟩
    exact run_chanStore_of_takes (f := fun c => { c with adr := v, adrSet := true }) h
  | bltr =>
    obtain ⟨heven, hzero⟩ := h
    have hlegal : (v == 0 && (s.dma.chan ch).vld && (s.dma.chan ch).chen) = false := by
      cases hv : (v == 0) && (s.dma.chan ch).vld with
      | false => rfl
      | true =>
        obtain ⟨hv, hvld⟩ := Bool.and_eq_true_iff.1 hv
        exact hzero (eq_of_beq hv) hvld
    have hstore : chanStore ch (fun c => { c with bltr := v }) s = .ok ((), s.modChan ch (fun c => { c with bltr := v })) :=
      run_chanStore_of_takes heven
    refine ⟨_, ?_, readsAs_modChan (s := s) (f := fun c => { c with bltr := v }) (fun _ => rfl) rfl⟩
    exact (run_require_then (not_eq_true_of hlegal) _ s).trans hstore
  | mode =>
    obtain ⟨hc, hz, hblt⟩ := h
    have hstore : chanStore ch (fun c => c.storeMode v) s = .ok ((), s.modChan ch (fun c => c.storeMode v)) :=
      run_chanStore_of_takes (hoff hc)
    have hmask : (0x7F89 : Word) &&& (0xFFFF8076 : Word).setWidth 32 = 0 := by decide
    refine ⟨s.modChan ch (·.storeMode v), ?_, readsAs_of_word (v := ((s.dma.chan ch).storeMode v).modeBits) (free := 0xFFFF8076)
      (fun k => ?_) (getLsbD_of_disjoint hmask) fun j hj => getLsbD_modeBits_storeMode _ (hz 8 (by decide) (by decide)) hj⟩
    · exact (run_require_then (not_eq_true_of hc) _ s).trans ((run_require_then (modeLegal_of_takes hz hblt) _ s).trans hstore)
    · exact congrArg (fun c : DmaChan => withFree 0xFFFF8076 c.modeBits _) (Dma.chan_setChan s.dma ch _)
  | cntl => exact h.elim

/-- A timer's counting registers: what is written is stored and reads back (R93, R94). -/
theorem timer_takes {s : State} (k : TimerId) (q : TimerReg) {v : Word} (h : (PReg.timer k q).takes s v) :
    ∃ t, regWrite (.timer k q) v s = .ok ((), t) ∧ ReadsAs (.timer k q) t ((PReg.timer k q).plainBits s.plat) v := by
  have hbits (j : Nat) (hj : (0xFFFF : Word).getLsbD j = true) : ((v.setWidth 16).setWidth 32).getLsbD j = v.getLsbD j :=
    getLsbD_low (getLsbD_field (by decide) hj) (BitVec.lt_of_getLsbD hj)
  have hread (x : Timer) (n : Nat) : ({ s.setTimer k x with freeCount := n } : State).timer k = x := by cases k <;> rfl
  cases q with
  | tc => exact ⟨_, rfl, readsAs_of_pure (fun n => congrArg (fun x : Timer => Except.ok (x.tc.setWidth 32, _)) (hread _ n)) hbits⟩
  | trca => exact ⟨_, rfl, readsAs_of_pure (fun n => congrArg (fun x : Timer => Except.ok (x.trca.setWidth 32, _)) (hread _ n)) hbits⟩
  | trcb => exact ⟨_, rfl, readsAs_of_pure (fun n => congrArg (fun x : Timer => Except.ok (x.trcb.setWidth 32, _)) (hread _ n)) hbits⟩
  | tcntl => exact h.elim

/-- IMSK and DSTAT: what is written stands where the layout puts it (R81, R82). -/
theorem imsk_reads (s : State) (v : Word) : ∃ t, regWrite .imsk v s = .ok ((), t) ∧ ReadsAs .imsk t s.plat.imskBits.mask v := by
  generalize ht : (s.modChan .ch0 (·.storeMask s.plat.imskBits.ch0 v)).modChan .ch1 (·.storeMask s.plat.imskBits.ch1 v) = t
  have hplat : t.plat = s.plat := ht ▸ rfl
  have hbits (j : Nat) (hj : s.plat.imskBits.mask.getLsbD j = true) : (t.dma.imsk s.plat.imskBits).getLsbD j = v.getLsbD j := by
    rw [← ht]
    generalize s.plat.imskBits = l at hj
    show ((l.ch0.word _ _ _ _) ||| (l.ch1.word _ _ _ _)).getLsbD j = _
    rw [BitVec.getLsbD_or]
    refine (congrArg₂ _ (l.ch0.getLsbD_word v j) (l.ch1.getLsbD_word v j)).trans ?_
    rw [← Bool.and_or_distrib_left, ← BitVec.getLsbD_or]
    exact (congrArg _ hj).trans (Bool.and_true _)
  refine ⟨t, ht ▸ rfl, readsAs_of_word (v := t.dma.imsk s.plat.imskBits) (free := ~~~s.plat.imskBits.mask) (fun k => ?_)
    (fun j hj => ?_) hbits⟩
  · rw [← hplat]
    rfl
  · rw [BitVec.getLsbD_not, hj, Bool.not_true, Bool.and_false]

theorem dstat_reads {s : State} {v : Word} (h : PReg.dstat.takes s v) :
    ∃ t, regWrite .dstat v s = .ok ((), t) ∧ ReadsAs .dstat t (PReg.dstat.plainBits s.plat) v := by
  obtain ⟨h0, h1⟩ := h
  generalize ht : (s.modChan .ch0 (·.storeStat s.plat.statBits.ch0 v)).modChan .ch1 (·.storeStat s.plat.statBits.ch1 v) = t
  have hplat : t.plat = s.plat := ht ▸ rfl
  have hidle {c : DmaChan} (hc : c.chen = false) (l : ChanBits) : (c.storeStat l v).active = false := by
    show (c.chen && _ && _) = false
    rw [hc]
    rfl
  have hbits (j : Nat) (hj : (PReg.dstat.plainBits s.plat).getLsbD j = true) : (t.dma.stat s.plat.statBits).getLsbD j = v.getLsbD j := by
    have hj' := (getLsbD_stickyBits s.plat.statBits j).symm.trans hj
    rw [← ht]
    generalize s.plat.statBits = l at hj'
    show ((l.ch0.word _ _ _ (s.dma.ch0.storeStat l.ch0 v).active) ||| (l.ch1.word _ _ _ (s.dma.ch1.storeStat l.ch1 v).active)).getLsbD j = _
    rw [hidle h0, hidle h1, BitVec.getLsbD_or]
    refine (congrArg₂ _ (l.ch0.getLsbD_word_sticky v j) (l.ch1.getLsbD_word_sticky v j)).trans ?_
    rw [← Bool.and_or_distrib_left, hj', Bool.and_true]
  have hmask (j : Nat) (hj : (PReg.dstat.plainBits s.plat).getLsbD j = true) : s.plat.statBits.mask.getLsbD j = true := by
    have hj' := (getLsbD_stickyBits s.plat.statBits j).symm.trans hj
    have hword (l : ChanBits) (hl : (l.word true true true false).getLsbD j = true) : (l.word true true true true).getLsbD j = true := by
      unfold ChanBits.word at hl ⊢
      rw [BitVec.getLsbD_or] at hl ⊢
      rw [getLsbD_bitAt l.last false, Bool.false_and, Bool.or_false] at hl
      rw [hl, Bool.true_or]
    rw [DmaLayout.mask, BitVec.getLsbD_or, Bool.or_eq_true]
    exact (Bool.or_eq_true_iff.1 hj').imp (hword _) (hword _)
  refine ⟨t, ?_, readsAs_of_word (v := t.dma.stat s.plat.statBits) (free := ~~~s.plat.statBits.mask) (fun k => ?_)
    (fun j hj => ?_) hbits⟩
  · have hoff : (!s.dma.ch0.chen && !s.dma.ch1.chen) = true := by
      rw [h0, h1]
      rfl
    exact (run_require_then hoff _ s).trans (ht ▸ rfl)
  · rw [← hplat]
    rfl
  · rw [BitVec.getLsbD_not, hmask j hj, Bool.not_true, Bool.and_false]

/-- A mask register or the function select, read after a write: the low four bits. -/
theorem readsAs_nibble {r : PReg} {t : State} {v : Word} (h : ∀ k, regRead r { t with freeCount := k } =
    (withFree (0xF0 : Byte) ((v.setWidth 4).setWidth 8) >>= fun w => pure (w.setWidth 32)) { t with freeCount := k }) :
    ReadsAs r t 0x0F v := by
  have hmask : (0x0F : Word) &&& (0xF0 : Byte).setWidth 32 = 0 := by decide
  refine readsAs_of_part h (getLsbD_of_disjoint hmask) fun j hj => ?_
  have hlt : j < 4 := getLsbD_field (by decide) hj
  exact getLsbD_low hlt (by omega)

theorem bbsc_reads (s : State) (v : Word) : ∃ t, regWrite .bbsc v s = .ok ((), t) ∧ ReadsAs .bbsc t 0x1F v := by
  have hmask : (0x1F : Word) &&& (0xE0 : Byte).setWidth 32 = 0 := by decide
  have hpos : ∀ j, j < 32 → (0x1F : Word).getLsbD j = true → j ∈ [0, 1, 2, 3, 4] := by decide
  refine ⟨_, rfl, readsAs_of_part (v := ((BitVec.ofBool (v.getLsbD 4)).setWidth 8 <<< 4) ||| (v.setWidth 4).setWidth 8)
    (free := 0xE0) (fun _ => rfl) (getLsbD_of_disjoint hmask) fun j hj => ?_⟩
  have hmem := hpos j (BitVec.lt_of_getLsbD hj) hj
  simp only [List.mem_cons, List.not_mem_nil, or_false] at hmem
  rcases hmem with rfl | rfl | rfl | rfl | rfl <;> simp [-BitVec.getLsbD_eq_getElem]

theorem bcntl_reads (s : State) (v : Word) : ∃ t, regWrite .bcntl v s = .ok ((), t) ∧ ReadsAs .bcntl t 0xF6 v := by
  have hmask : (0xF6 : Word) &&& (0x09 : Byte).setWidth 32 = 0 := by decide
  have hpos : ∀ j, j < 32 → (0xF6 : Word).getLsbD j = true → j ∈ [1, 2, 4, 5, 6, 7] := by decide
  refine ⟨_, rfl, readsAs_of_part (v := BitVec.ofBoolListLE [false, v.getLsbD 1, v.getLsbD 2, false, v.getLsbD 4, v.getLsbD 5,
    v.getLsbD 6, v.getLsbD 7]) (free := (0x09 : Byte)) (fun _ => rfl) (getLsbD_of_disjoint hmask) fun j hj => ?_⟩
  have hmem := hpos j (BitVec.lt_of_getLsbD hj) hj
  simp only [List.mem_cons, List.not_mem_nil, or_false] at hmem
  rw [BitVec.getLsbD_ofBoolListLE]
  rcases hmem with rfl | rfl | rfl | rfl | rfl | rfl <;> rfl

theorem bc_reads (s : State) (v : Word) : ∃ t, regWrite .bc v s = .ok ((), t) ∧ ReadsAs .bc t 0xFF v :=
  ⟨_, rfl, readsAs_of_pure (v := (v.setWidth 8).setWidth 32) (fun _ => rfl) fun _ hj =>
    getLsbD_low (getLsbD_field (m := 8) (by decide) hj) (BitVec.lt_of_getLsbD hj)⟩

/-- Every register a value may be written to takes it (R59, R76, R774). -/
theorem regWrite_takes {s : State} {r : PReg} {v : Word} (h : r.takes s v) :
    ∃ t, regWrite r v s = .ok ((), t) ∧ ReadsAs r t (r.plainBits s.plat) v := by
  cases r with
  | stat | ivct | isrv => exact h.elim
  | chan ch q => exact chan_takes ch q h
  | timer k q => exact timer_takes k q h
  | imsk => exact imsk_reads s v
  | dstat => exact dstat_reads h
  | bbsc => exact bbsc_reads s v
  | brm => exact ⟨_, rfl, readsAs_nibble fun _ => rfl⟩
  | blm => exact ⟨_, rfl, readsAs_nibble fun _ => rfl⟩
  | bfs => exact ⟨_, rfl, readsAs_nibble fun _ => rfl⟩
  | bcntl => exact bcntl_reads s v
  | bc => exact bc_reads s v

/-! ### The registers whose writes do something else -/

/-- Eight items at different places of a double-word: each stands at its own. -/
theorem getLsbD_places {l : List (Nat × Bool)} (hne : (l.map (·.1)).Pairwise (· ≠ ·)) (hlt : ∀ p ∈ l, p.1 < 32) {p : Nat × Bool}
    (hp : p ∈ l) : (l.foldr (fun q x => bitAt q.1 q.2 ||| x) 0).getLsbD p.1 = p.2 := by
  have hzero {l : List (Nat × Bool)} {j : Nat} (h : ∀ q ∈ l, q.1 ≠ j) :
      (l.foldr (fun q x => bitAt q.1 q.2 ||| x) 0).getLsbD j = false := by
    induction l with
    | nil => exact BitVec.getLsbD_zero
    | cons q t ih =>
      obtain ⟨hq, ht⟩ := List.forall_mem_cons.1 h
      rw [List.foldr_cons, BitVec.getLsbD_or, getLsbD_bitAt, decide_eq_false hq, Bool.and_false, Bool.and_false, Bool.false_or, ih ht]
  induction l with
  | nil => cases hp
  | cons q t ih =>
    rw [List.map_cons, List.pairwise_cons] at hne
    obtain ⟨hq, ht⟩ := hne
    obtain ⟨hqlt, htlt⟩ := List.forall_mem_cons.1 hlt
    rw [List.foldr_cons, BitVec.getLsbD_or, getLsbD_bitAt]
    rcases List.mem_cons.1 hp with rfl | hpt
    · rw [decide_eq_true hqlt, decide_eq_true rfl, Bool.and_true, Bool.and_true,
        hzero fun x hx => (hq x.1 (List.mem_map_of_mem hx)).symm, Bool.or_false]
    · rw [decide_eq_false (hq p.1 (List.mem_map_of_mem hpt)), Bool.and_false, Bool.and_false, Bool.false_or, ih ht htlt hpt]

/-- STAT as a list of its items with their places (R79, R80). -/
def statItems (d : Dma) (l : DmaLayout) : List (Nat × Bool) :=
  [(l.ch0.tc, d.ch0.tc), (l.ch0.eot, d.ch0.eot), (l.ch0.ovr, d.ch0.ovr), (l.ch1.tc, d.ch1.tc), (l.ch1.eot, d.ch1.eot),
    (l.ch1.ovr, d.ch1.ovr), (l.ch0.last, d.ch0.active), (l.ch1.last, d.ch1.active)]

theorem getLsbD_stat (d : Dma) (l : DmaLayout) (j : Nat) :
    (d.stat l).getLsbD j = ((statItems d l).foldr (fun q x => bitAt q.1 q.2 ||| x) 0).getLsbD j := by
  have hzero : (0 : Word).getLsbD j = false := BitVec.getLsbD_zero
  simp only [Dma.stat, DmaChan.stat, ChanBits.word, statItems, List.foldr_cons, List.foldr_nil, BitVec.getLsbD_or, hzero,
    Bool.or_false]
  ac_rfl

/-- STAT's items stand at different places (R79, R80), and the layout's mask has all of them. -/
theorem stat_reads {d : Dma} {l : DmaLayout} (h : l.statWf = true) {p : Nat × Bool} (hp : p ∈ statItems d l) :
    (d.stat l).getLsbD p.1 = p.2 ∧ l.mask.getLsbD p.1 = true ∧ p.1 < 32 := by
  rw [DmaLayout.statWf, Bool.and_eq_true, decide_eq_true_eq, List.all_eq_true] at h
  obtain ⟨hne, hlt⟩ := h
  have hlt' : ∀ q ∈ statItems d l, q.1 < 32 := fun q hq => of_decide_eq_true (hlt q.1 (List.mem_map_of_mem (f := (·.1)) hq))
  refine ⟨(getLsbD_stat d l p.1).trans (getLsbD_places (l := statItems d l) hne hlt' hp), ?_, hlt' p hp⟩
  have hself (q : Nat) (hq : q < 32) : (bitAt q true).getLsbD q = true := by
    rw [getLsbD_bitAt, decide_eq_true hq, decide_eq_true rfl]
    rfl
  have hbit := hself p.1 (hlt' p hp)
  simp only [DmaLayout.mask, ChanBits.word, BitVec.getLsbD_or, Bool.or_eq_true]
  simp only [statItems, List.mem_cons, List.not_mem_nil, or_false] at hp
  rcases hp with rfl | rfl | rfl | rfl | rfl | rfl | rfl | rfl <;> simp only [hbit, true_or, or_true]

theorem readsAs_stat {s : State} : ReadsAs .stat s s.plat.statBits.mask (s.dma.stat s.plat.statBits) :=
  readsAs_of_word (free := ~~~s.plat.statBits.mask) (fun _ => rfl)
    (fun j hj => by rw [BitVec.getLsbD_not, hj, Bool.not_true, Bool.and_false]) fun _ _ => rfl

/-- CNTL's bits: CHEN and VLD (R84). -/
theorem readsAs_cntl (s : State) (ch : Chan) :
    ReadsAs (.chan ch .cntl) s 3 ((BitVec.ofBoolListLE [(s.dma.chan ch).chen, (s.dma.chan ch).vld]).setWidth 32) :=
  have hmask : (3 : Word) &&& (0xFFFFFFFC : Word).setWidth 32 = 0 := by decide
  readsAs_of_word (free := 0xFFFFFFFC) (fun _ => rfl) (getLsbD_of_disjoint hmask) fun _ _ => rfl

/-- A channel after a write of CNTL (R84). -/
def DmaChan.storeCntl (v : Word) (c : DmaChan) : DmaChan := { c with chen := v.getLsbD 0, vld := v.getLsbD 1 }.settle

/-- A channel enabled unless EOT, or an unmasked OVR, is set (R88, R704). -/
theorem DmaChan.storeCntl_eq (v : Word) (c : DmaChan) :
    c.storeCntl v = { c with vld := v.getLsbD 1, chen := v.getLsbD 0 && !c.eot && !(c.ovr && c.mOvr) } := by
  unfold DmaChan.storeCntl DmaChan.settle DmaChan.blocked
  rw [Bool.not_or, Bool.and_assoc]

theorem regWrite_cntl (ch : Chan) (v : Word) (s : State) :
    regWrite (.chan ch .cntl) v s = chanStore ch (DmaChan.storeCntl v) s := rfl

theorem run_memWrite_chan (hs : s.calm) {ch : Chan} {q : ChanReg} (hr : s.plat.regAt a = some (.chan ch q)) (v : Word) :
    memWrite a 4 v s = regWrite (.chan ch q) v s := by
  have h : memWrite a 4 v s = regWrite (.chan ch q) (v.setWidth 32) s := run_memWrite_reg (r := .chan ch q) hs hr v
  rwa [BitVec.setWidth_eq] at h

/-- An enabled channel whose parameters are wrong is refused (R702, R774 c). -/
theorem run_chanStore_refused {ch : Chan} {f : DmaChan → DmaChan} {s : State} (hf : (f (s.dma.chan ch)).chen = true)
    (hodd : ¬DmaEven (f (s.dma.chan ch))) : chanStore ch f s = .error (.refuse .dmaProgramming) := by
  rw [run_chanStore, if_neg]
  exact fun h => h.elim (fun h => Bool.false_ne_true (h.symm.trans hf)) hodd

/-- TCNTL's write, with the inhibit bits' effect, as it reads back (R95, R736). -/
theorem getLsbD_tcntl_storeTcntl (c : Timer) {m : TimerMode} {v : Half} (hm : m.code = v.extractLsb' 5 3) (level : Bool) :
    (∀ j, j ∈ [0, 2, 5, 6, 7, 8] → (c.storeTcntl m v level).tcntl.getLsbD j = v.getLsbD j) ∧
    (c.storeTcntl m v level).tcntl.getLsbD 4 = (if v.getLsbD 11 then c.tcs else v.getLsbD 4) ∧
    (c.storeTcntl m v level).tcntl.getLsbD 3 = (if v.getLsbD 10 then c.ipfa else v.getLsbD 3) ∧
    (c.storeTcntl m v level).tcntl.getLsbD 1 = (if v.getLsbD 9 then c.ipfb else v.getLsbD 1) := by
  simp only [Timer.tcntl, Timer.storeTcntl, hm, BitVec.getLsbD_or, BitVec.getLsbD_setWidth, BitVec.getLsbD_ofBoolListLE,
    BitVec.getLsbD_shiftLeft, BitVec.getLsbD_extractLsb', BitVec.getLsbD_ofBool]
  refine ⟨fun j hj => ?_, ?_, ?_, ?_⟩
  · simp only [List.mem_cons, List.not_mem_nil, or_false] at hj
    rcases hj with rfl | rfl | rfl | rfl | rfl | rfl <;> simp [-BitVec.getLsbD_eq_getElem]
  all_goals simp [-BitVec.getLsbD_eq_getElem]

theorem readsAs_tcntl (s : State) (k : TimerId) : ReadsAs (.timer k .tcntl) s 0x1FF ((s.timer k).tcntl.setWidth 32) := by
  have hmask : (0x1FF : Word) &&& (0xFE00 : Half).setWidth 32 = 0 := by decide
  have htimer (n : Nat) : ({ s with freeCount := n } : State).timer k = s.timer k := by cases k <;> rfl
  refine readsAs_of_part (v := (s.timer k).tcntl) (free := 0xFE00) (fun n => ?_) (getLsbD_of_disjoint hmask) fun j hj => ?_
  · exact congrArg (fun x : Timer => (withFree (0xFE00 : Half) x.tcntl >>= fun w => pure (w.setWidth 32)) _) (htimer n)
  · rw [BitVec.getLsbD_setWidth, decide_eq_true (BitVec.lt_of_getLsbD hj), Bool.true_and]

/-- The modes TMC names (R730). -/
theorem timerModeOf?_of_legal {v : BitVec 3} (h : v.toNat ∈ [0, 1, 2, 4]) : ∃ m, timerModeOf? v = some m ∧ m.code = v := by
  revert v
  decide

theorem isrv_spec (hs : s.calm) (hr : s.plat.regAt a = some .isrv) (v : BitVec (8 * 2)) :
    memWrite a 2 v s = .ok ((), { s with isrv := v &&& 0xFFFE }) ∧ memRead a 2 s = .ok (s.isrv, s) := by
  have hv : (v.setWidth 32).setWidth 16 = v := by
    rw [BitVec.setWidth_setWidth_of_le _ (by decide)]
    exact BitVec.setWidth_eq v
  have hw : (s.isrv.setWidth 32).setWidth 16 = s.isrv := by
    rw [BitVec.setWidth_setWidth_of_le _ (by decide), BitVec.setWidth_eq]
  have hstore : regWrite .isrv (v.setWidth 32) s = .ok ((), { s with isrv := (v.setWidth 32).setWidth 16 &&& 0xFFFE }) := rfl
  have hread : memRead a 2 s = .ok ((s.isrv.setWidth 32).setWidth 16, s) :=
    run_memRead_reg_of_pure (r := .isrv) (w := s.isrv.setWidth 32) hs hr rfl
  rw [hv] at hstore
  exact ⟨(run_memWrite_reg (r := .isrv) hs hr v).trans hstore, hw ▸ hread⟩

theorem ivct_spec (hs : s.calm) (hr : s.plat.regAt a = some .ivct) (v : BitVec (8 * 1)) :
    memWrite a 1 v s = .error (.refuse .ivctWrite) ∧ memRead a 1 s = .ok (BitVec.ofNat 8 (0x10 + s.irqLevel), s) := by
  have hw : (s.ivct.setWidth 32).setWidth 8 = s.ivct := by
    rw [BitVec.setWidth_setWidth_of_le _ (by decide), BitVec.setWidth_eq]
  have hread : memRead a 1 s = .ok ((s.ivct.setWidth 32).setWidth 8, s) :=
    run_memRead_reg_of_pure (r := .ivct) (w := s.ivct.setWidth 32) hs hr rfl
  rw [hw] at hread
  exact ⟨run_memWrite_reg (r := .ivct) hs hr v, hread⟩

/-- A write of CNTL: the channel enabled if nothing blocks it, refused if its parameters are then wrong (R84, R88, R702). -/
theorem cntl_spec (hs : s.calm) {ch : Chan} (hr : s.plat.regAt a = some (.chan ch .cntl)) (v : BitVec (8 * 4)) :
    let c := s.dma.chan ch
    let c' := { c with vld := v.getLsbD 1, chen := v.getLsbD 0 && !c.eot && !(c.ovr && c.mOvr) }
    ((c'.chen = true → DmaEven c') → memWrite a 4 v s = .ok ((), { s with dma := s.dma.setChan ch c' })) ∧
    (c'.chen = true → ¬DmaEven c' → memWrite a 4 v s = .error (.refuse .dmaProgramming)) ∧
    ∃ x u, memRead a 4 s = .ok (x, u) ∧ x.getLsbD 0 = c.chen ∧ x.getLsbD 1 = c.vld := by
  intro c c'
  have hchange : c.storeCntl v = c' := c.storeCntl_eq v
  have hwrite : memWrite a 4 v s = chanStore ch (DmaChan.storeCntl v) s := (run_memWrite_chan hs hr v).trans (regWrite_cntl ch v s)
  obtain ⟨x, k, hx, hbits⟩ := run_memRead_width (n := 4) hs hr (readsAs_cntl s ch) rfl
  refine ⟨fun h => ?_, fun hc hodd => ?_, x, _, hx, ?_, ?_⟩
  · rw [hwrite, run_chanStore_of_takes (f := DmaChan.storeCntl v) (by rw [hchange]; exact h), State.modChan, hchange]
  · rw [hwrite, run_chanStore_refused (f := DmaChan.storeCntl v) (by rw [hchange]; exact hc) (by rw [hchange]; exact hodd)]
  · rw [hbits 0 (by decide) (by decide)]
    rw [BitVec.getLsbD_setWidth, BitVec.getLsbD_ofBoolListLE]
    rfl
  · rw [hbits 1 (by decide) (by decide)]
    rw [BitVec.getLsbD_setWidth, BitVec.getLsbD_ofBoolListLE]
    rfl

/-- An odd ADR or BLTR in an enabled channel of 16-bit transfers (R702, R774 c, U17). -/
theorem odd_parameter_refused (hs : s.calm) {ch : Chan} {q : ChanReg} (hr : s.plat.regAt a = some (.chan ch q))
    (hq : q = .adr ∨ q = .bltr) {v : BitVec (8 * 4)} (hv : v.getLsbD 0 = true) (hc : (s.dma.chan ch).chen = true)
    (hw : (s.dma.chan ch).bwWord = true) : memWrite a 4 v s = .error (.refuse .dmaProgramming) := by
  rw [run_memWrite_chan hs hr v]
  rcases hq with rfl | rfl
  · refine run_chanStore_refused (f := fun c => { c with adr := v, adrSet := true }) hc fun h => ?_
    obtain ⟨-, -, -, hadr⟩ := h hw
    exact Bool.false_ne_true ((hadr (.inl rfl)).symm.trans hv)
  · have hnot : (v == 0 && (s.dma.chan ch).vld && (s.dma.chan ch).chen) = false := by
      have hne : (v == (0 : Word)) = false := by
        rw [beq_eq_false_iff_ne]
        rintro rfl
        cases hv
      rw [hne]
      rfl
    refine (run_require_then (not_eq_true_of hnot) _ s).trans ?_
    refine run_chanStore_refused (f := fun c => { c with bltr := v }) hc fun h => ?_
    obtain ⟨-, -, hbltr, -⟩ := h hw
    exact Bool.false_ne_true (hbltr.symm.trans hv)

/-- A write of TCNTL and what it then reads (R95, R736). -/
theorem tcntl_spec (hs : s.calm) {k : TimerId} (hr : s.plat.regAt a = some (.timer k .tcntl)) {v : BitVec (8 * 2)}
    (hv : (v.extractLsb' 5 3).toNat ∈ [0, 1, 2, 4]) : ∃ m level n t, memWrite a 2 v s = .ok ((), t) ∧ m.code = v.extractLsb' 5 3 ∧
      t = { s with freeCount := n }.setTimer k ((s.timer k).storeTcntl m v level) := by
  obtain ⟨m, hm, hcode⟩ := timerModeOf?_of_legal hv
  have hfield : (v.setWidth 32).extractLsb' 5 3 = v.extractLsb' 5 3 := by
    apply BitVec.eq_of_getLsbD_eq
    intro j hj
    simp only [BitVec.getLsbD_extractLsb', BitVec.getLsbD_setWidth, decide_eq_true (show 5 + j < 32 by omega), Bool.true_and]
  have hlow : (v.setWidth 32).setWidth 16 = v := by
    rw [BitVec.setWidth_setWidth_of_le _ (by decide)]
    exact BitVec.setWidth_eq v
  have hwrite : ∃ level n, regWrite (.timer k .tcntl) (v.setWidth 32) s =
      .ok ((), { s with freeCount := n }.setTimer k ((s.timer k).storeTcntl m v level)) := by
    refine ⟨(Config.freeWord s.freeCount).setWidth 1 == (1 : BitVec 1), s.freeCount + 1, ?_⟩
    unfold regWrite
    simp only [hfield, hm, hlow]
    rw [run_bind_of_ok (run_fresh 1 s)]
    cases k <;> rfl
  obtain ⟨level, n, h⟩ := hwrite
  exact ⟨m, level, n, _, (run_memWrite_reg (r := .timer k .tcntl) hs hr v).trans h, hcode, rfl⟩

/-- Settles O14: register by register, through the value each write stores and the bits each read answers. -/
theorem peripheralRegisters : Obligations.PeripheralRegisters := by
  intro s a r hs hr
  refine ⟨fun v h => ?plain, ?isrv, ?ivct, ?stat, ?cntl, ?odd, ?tcntl⟩
  case plain =>
    obtain ⟨t, hw, hread⟩ := regWrite_takes h
    exact takes_of_readsAs hs hr hw hread
  case isrv =>
    rintro rfl v
    exact isrv_spec hs hr v
  case ivct =>
    rintro rfl v
    exact ivct_spec hs hr v
  case stat =>
    rintro rfl l
    refine ⟨fun v => ?_, fun hl => ?_⟩
    · have hw : memWrite a 4 v s = regWrite .stat (v.setWidth 32) s := run_memWrite_reg (r := .stat) hs hr v
      rw [show BitVec.setWidth 32 v = v from BitVec.setWidth_eq v] at hw
      exact ⟨_, hw, ⟨rfl, rfl, rfl⟩, ⟨rfl, rfl, rfl⟩, rfl, rfl⟩
    · obtain ⟨x, k, hx, hbits⟩ := run_memRead_width (n := 4) hs hr readsAs_stat rfl
      have hitems : ∀ p ∈ statItems s.dma l, x.getLsbD p.1 = p.2 := fun p hp => by
        obtain ⟨hval, hmask, hlt⟩ := stat_reads hl hp
        exact (hbits p.1 hlt hmask).trans hval
      simp only [statItems, List.forall_mem_cons] at hitems
      obtain ⟨htc0, heot0, hovr0, htc1, heot1, hovr1, hlast0, hlast1, -⟩ := hitems
      exact ⟨x, _, hx, ⟨htc0, heot0, hovr0, hlast0⟩, htc1, heot1, hovr1, hlast1⟩
  case cntl =>
    rintro ch rfl v
    exact cntl_spec hs hr v
  case odd =>
    rintro ch (rfl | rfl) v hv hc hw
    · exact odd_parameter_refused hs hr (.inl rfl) hv hc hw
    · exact odd_parameter_refused hs hr (.inr rfl) hv hc hw
  case tcntl =>
    rintro k rfl v hv c
    obtain ⟨m, level, n, t, hw, hcode, ht⟩ := tcntl_spec hs hr hv
    have htimer : t.timer k = c.storeTcntl m v level := by
      rw [ht]
      cases k <;> rfl
    have hcalm : t.calm ∧ t.plat.regAt a = some (.timer k .tcntl) := by
      rw [ht]
      cases k <;> exact ⟨hs, hr⟩
    obtain ⟨x, j, hx, hbits⟩ := run_memRead_width (n := 2) hcalm.1 hcalm.2 (readsAs_tcntl t k) rfl
    obtain ⟨hplain, htcs, hipfa, hipfb⟩ := getLsbD_tcntl_storeTcntl c hcode level
    rw [htimer] at hbits
    have hread {j : Nat} (hj : j < 9) : x.getLsbD j = (c.storeTcntl m v level).tcntl.getLsbD j := by
      have hmask : ∀ j, j < 9 → (0x1FF : Word).getLsbD j = true := by decide
      rw [hbits j (by omega) (hmask j hj), BitVec.getLsbD_setWidth, decide_eq_true (show j < 32 by omega), Bool.true_and]
    refine ⟨t, x, _, hw, hx, fun j hj => ?_, ?_, ?_, ?_, ?_⟩
    · have hlt : ∀ j ∈ [0, 2, 5, 6, 7, 8], j < 9 := by decide
      exact (hread (hlt j hj)).trans (hplain j hj)
    · exact (hread (by decide)).trans htcs
    · exact (hread (by decide)).trans hipfa
    · exact (hread (by decide)).trans hipfb
    · rw [htimer]
      exact ⟨rfl, rfl, rfl⟩

end Sys2Proof.Machine
end

section
/-! PROOFS. Sequences of stores; block moves and block comparisons. -/

namespace Sys2Proof.Machine

open Sys2Proof

/-! ### Sequences of stores -/

section
variable (addr : Nat → Word) (n : Nat) (val : Nat → State → BitVec (8 * n))

/-- Stores change memory and what is recorded of it alone. -/
theorem pokes_eq (j : Nat) (s : State) : ∃ m d w, pokes addr n val j s = { s with mem := m, dirty := d, written := w } := by
  induction j with
  | zero => exact ⟨_, _, _, rfl⟩
  | succ j ih =>
    obtain ⟨m, d, w, h⟩ := ih
    rw [pokes, h]
    exact State.poke_eq _ _ _ _

theorem pokes_plat (j : Nat) (s : State) : (pokes addr n val j s).plat = s.plat := by
  obtain ⟨_, _, _, h⟩ := pokes_eq addr n val j s
  rw [h]

theorem pokes_calm (j : Nat) {s : State} (hs : s.calm) : (pokes addr n val j s).calm := by
  obtain ⟨_, _, _, h⟩ := pokes_eq addr n val j s
  rw [h]
  exact hs

end

/-! ### Blocks -/

/-- The address of the element after element l. -/
theorem element_succ (a : Word) (k l : Nat) : a + BitVec.ofNat 32 (l * k) + BitVec.ofNat 32 k = a + BitVec.ofNat 32 ((l + 1) * k) := by
  rw [BitVec.add_assoc, ← BitVec.ofNat_add, Nat.succ_mul]

theorem element_zero (a : Word) (k : Nat) : a + BitVec.ofNat 32 (0 * k) = a := by
  rw [Nat.zero_mul]
  exact BitVec.add_zero a

/-- The count of a block of 1 to 16 bytes (R303). -/
theorem run_blockCount {i : Size} {d : Disp} {m : Nat} (hm : 1 ≤ m) (hlen : m * i.bytes ≤ 16)
    (hd : d.value = BitVec.ofNat 32 ((m - 1) * i.bytes)) (s : State) : blockCount i d s = .ok (m, s) := by
  obtain ⟨k, rfl⟩ := Nat.exists_eq_add_of_le' hm
  have hpos : 0 < i.bytes := by cases i <;> decide
  rw [Nat.add_sub_cancel] at hd
  rw [Nat.succ_mul] at hlen
  have htoNat : (BitVec.ofNat 32 (k * i.bytes)).toNat = k * i.bytes := by
    rw [BitVec.toNat_ofNat]
    exact Nat.mod_eq_of_lt (by omega)
  have hmsb : (BitVec.ofNat 32 (k * i.bytes)).msb = false := by
    rw [BitVec.msb_eq_false_iff_two_mul_lt, htoNat]
    omega
  unfold blockCount
  simp only [hd, htoNat, hmsb, Nat.mul_mod_left, Nat.mul_div_cancel k hpos]
  rw [if_neg (by simp; omega)]
  rfl

/-- The source element l of a block copied one element after another. -/
def blockElem (a : Word) (n : Nat) (l : Nat) (t : State) : BitVec (8 * n) := t.valueAt (a + BitVec.ofNat 32 (l * n)) n

theorem run_copyBlock {n : Nat} (hn : 0 < n) {a1 a2 : Word} {s : State} (hs : s.calm) {m j k : Nat} (hm : j + k = m)
    (hr : ∀ l, l < m → s.readable (a1 + BitVec.ofNat 32 (l * n)) n) (hw : ∀ l, l < m → s.writable (a2 + BitVec.ofNat 32 (l * n)) n) :
    copyBlock n k (a1 + BitVec.ofNat 32 (j * n)) (a2 + BitVec.ofNat 32 (j * n))
      (pokes (fun l => a2 + BitVec.ofNat 32 (l * n)) n (blockElem a1 n) j s) =
    .ok ((), pokes (fun l => a2 + BitVec.ofNat 32 (l * n)) n (blockElem a1 n) m s) := by
  induction k generalizing j with
  | zero =>
    obtain rfl : j = m := hm
    rfl
  | succ k ih =>
    have hread := run_memRead_of_readable (pokes_calm _ n (blockElem a1 n) j hs) hn
      ((hr j (by omega)).of_plat (pokes_plat (fun l => a2 + BitVec.ofNat 32 (l * n)) n _ j s))
    have hwrite := run_memWrite_of_writable (blockElem a1 n j (pokes (fun l => a2 + BitVec.ofNat 32 (l * n)) n (blockElem a1 n) j s))
      (pokes_calm _ n (blockElem a1 n) j hs) hn
      ((hw j (by omega)).of_plat (pokes_plat (fun l => a2 + BitVec.ofNat 32 (l * n)) n _ j s))
    unfold copyBlock
    rw [run_bind_of_ok hread]
    refine (run_bind_of_ok hwrite).trans ?_
    rw [element_succ, element_succ]
    exact ih (by omega)

/-- One pair of a comparison (R342). -/
theorem run_compareBlock_step {n k j : Nat} (hn : 0 < n) {a1 a2 : Word} {s : State} (hs : s.calm)
    (hx : s.readable (a1 + BitVec.ofNat 32 (j * n)) n) (hy : s.readable (a2 + BitVec.ofNat 32 (j * n)) n) :
    compareBlock n (k + 1) (a1 + BitVec.ofNat 32 (j * n)) (a2 + BitVec.ofNat 32 (j * n)) s =
      (if blockElem a1 n j s = blockElem a2 n j s then
        compareBlock n k (a1 + BitVec.ofNat 32 ((j + 1) * n)) (a2 + BitVec.ofNat 32 ((j + 1) * n)) s
      else updPsr (cmpFlags (blockElem a1 n j s) (blockElem a2 n j s)) s) := by
  rw [compareBlock, run_bind_of_ok (run_memRead_of_readable hs hn hx), run_bind_of_ok (run_memRead_of_readable hs hn hy),
    element_succ, element_succ]
  unfold blockElem
  split <;> rfl

/-- Elements that are all equal. -/
theorem run_compareBlock_equal {n : Nat} (hn : 0 < n) {a1 a2 : Word} {s : State} (hs : s.calm) {m j k : Nat} (hm : j + k = m)
    (hx : ∀ l, l < m → s.readable (a1 + BitVec.ofNat 32 (l * n)) n) (hy : ∀ l, l < m → s.readable (a2 + BitVec.ofNat 32 (l * n)) n)
    (heq : ∀ l, l < m → blockElem a1 n l s = blockElem a2 n l s) :
    compareBlock n k (a1 + BitVec.ofNat 32 (j * n)) (a2 + BitVec.ofNat 32 (j * n)) s =
      .ok ((), { s with psr := { s.psr with z := true, n := false, l := false }, psrTouched := true }) := by
  induction k generalizing j with
  | zero => rfl
  | succ k ih =>
    rw [run_compareBlock_step hn hs (hx j (by omega)) (hy j (by omega)), if_pos (heq j (by omega))]
    exact ih (by omega)

/-- Elements of which number l is the first unequal pair. -/
theorem run_compareBlock_unequal {n : Nat} (hn : 0 < n) {a1 a2 : Word} {s : State} (hs : s.calm) {m j k l : Nat} (hm : j + k = m)
    (hx : ∀ l, l < m → s.readable (a1 + BitVec.ofNat 32 (l * n)) n) (hy : ∀ l, l < m → s.readable (a2 + BitVec.ofNat 32 (l * n)) n)
    (hj : j ≤ l) (hl : l < m) (heq : ∀ h, h < l → blockElem a1 n h s = blockElem a2 n h s) (hne : blockElem a1 n l s ≠ blockElem a2 n l s) :
    compareBlock n k (a1 + BitVec.ofNat 32 (j * n)) (a2 + BitVec.ofNat 32 (j * n)) s =
      .ok ((), { s with psr := cmpFlags (blockElem a1 n l s) (blockElem a2 n l s) s.psr, psrTouched := true }) := by
  induction k generalizing j with
  | zero => omega
  | succ k ih =>
    rw [run_compareBlock_step hn hs (hx j (by omega)) (hy j (by omega))]
    rcases Nat.lt_or_eq_of_le hj with hlt | rfl
    · rw [if_pos (heq j hlt)]
      exact ih (by omega) hlt
    · rw [if_neg hne]
      rfl

/-- Settles O26: both loops go element by element from the first address. -/
theorem blockMoveAndCompare : Obligations.BlockMoveAndCompare := by
  intro i x y d m s a1 s1 a2 s2 hx hy hs hm hlen hd hr1
  have hpos : 0 < i.bytes := by cases i <;> decide
  have hcount := run_blockCount hm hlen hd s2
  have hpsr : s2.psr = s.psr := (SameRegs.of_ea hy).psr.trans (SameRegs.of_ea hx).psr
  refine ⟨fun hw => ?move, fun hr2 => ?compare⟩
  case move =>
    have hcopy := run_copyBlock hpos hs (j := 0) (Nat.zero_add m) hr1 hw
    rw [element_zero, element_zero] at hcopy
    show execMovmi i x y d s = _
    unfold execMovmi
    refine finish_seq_after ?_
    rw [run_bind_of_ok hx, run_bind_of_ok hy, run_bind_of_ok hcount]
    exact run_bind_of_ok hcopy
  case compare =>
    intro p q
    have hexec {u : State} (h : compareBlock i.bytes m a1 a2 s2 = .ok ((), u)) :
        exec (.cmpmi i x y d) s = .next (s.after (.cmpmi i x y d) u) := by
      show execCmpmi i x y d s = _
      unfold execCmpmi
      refine finish_seq_after ?_
      rw [run_bind_of_ok hx, run_bind_of_ok hy, run_bind_of_ok hcount]
      exact run_bind_of_ok h
    refine ⟨fun heq => ?_, fun l hl heq hne => ?_⟩
    · have h := run_compareBlock_equal hpos hs (j := 0) (Nat.zero_add m) hr1 hr2 heq
      rw [element_zero, element_zero, hpsr] at h
      exact (hexec h).trans rfl
    · have h := run_compareBlock_unequal hpos hs (j := 0) (Nat.zero_add m) hr1 hr2 (Nat.zero_le l) hl heq hne
      have hz : (p l == q l) = false := beq_eq_false_iff_ne.2 hne
      rw [element_zero, element_zero, hpsr] at h
      have hflags : cmpFlags (p l) (q l) s.psr = { s.psr with
          z := false, n := decide ((q l).toInt < (p l).toInt), l := decide ((q l).toNat < (p l).toNat) } := by
        rw [cmpFlags, hz]
      rw [← hflags]
      exact (hexec h).trans rfl

end Sys2Proof.Machine
end

section
/-! PROOFS. The interruptible loop and the string instructions. -/

namespace Sys2Proof.Machine

open Sys2Proof

/-! ### The interruptible loop -/

/-- An iteration after which another follows, with no request pending (R640). -/
theorem run_loop_again {body : M Bool} {n : Nat} {s t : State} (h : body s = .ok (true, t)) (ht : t.quiet) :
    loop body (n + 1) s = loop body n t := by
  obtain ⟨hcalm, hnone⟩ := ht
  have hpoint : point t = .ok (.goOn, t) := by rw [run_point_calm hcalm, hnone]; rfl
  rw [loop, run_bind_of_ok h, if_pos rfl, run_bind_of_ok hpoint]

/-- The iteration that is the last. -/
theorem run_loop_last {body : M Bool} {n : Nat} {s t : State} (h : body s = .ok (false, t)) :
    loop body (n + 1) s = .ok (.done, t) := by
  rw [loop, run_bind_of_ok h]
  rfl

/-- An iteration after which another follows, with a request pending (R631, R640). -/
theorem run_loop_interrupted {body : M Bool} {n : Nat} {s t : State} (h : body s = .ok (true, t)) (ht : t.calm)
    (hreq : t.interruptPending = true) : loop body (n + 1) s = .ok (.interrupted, t) := by
  have hpoint : point t = .ok (.interrupt, t) := by rw [run_point_calm ht, hreq]; rfl
  rw [loop, run_bind_of_ok h, if_pos rfl, run_bind_of_ok hpoint]
  rfl

/-- A loop whose iterations run through the states `st` until the one numbered j, which is the last. -/
theorem run_loop_through {body : M Bool} {n j : Nat} {st : Nat → State} {u : State} (hj : j < n)
    (hgo : ∀ l, l < j → body (st l) = .ok (true, st (l + 1)) ∧ (st (l + 1)).quiet) (hend : body (st j) = .ok (false, u)) :
    loop body n (st 0) = .ok (.done, u) := by
  induction j generalizing n st with
  | zero =>
    obtain ⟨k, rfl⟩ := Nat.exists_eq_add_of_lt hj
    rw [Nat.zero_add]
    exact run_loop_last hend
  | succ j ih =>
    obtain ⟨k, rfl⟩ := Nat.exists_eq_add_of_le' hj
    obtain ⟨hbody, hquiet⟩ := hgo 0 (Nat.succ_pos j)
    rw [show k + (j + 1).succ = k + j + 1 + 1 by omega, run_loop_again hbody hquiet]
    exact ih (st := fun l => st (l + 1)) (by omega) (fun l hl => hgo (l + 1) (by omega)) hend

/-- A loop all of whose n iterations run through the states `st`, the last of them saying so. -/
theorem run_loop_all {body : M Bool} {n : Nat} {st : Nat → State}
    (hbody : ∀ l, l < n → body (st l) = .ok (decide (l + 1 < n), st (l + 1))) (hquiet : ∀ l, l < n → (st l).quiet) :
    loop body n (st 0) = .ok (.done, st n) := by
  cases n with
  | zero => rfl
  | succ n =>
    refine run_loop_through (Nat.lt_succ_self n) (fun l hl => ⟨?_, hquiet (l + 1) (by omega)⟩) ?_
    · have h := hbody l (by omega)
      rwa [decide_eq_true (show l + 1 < n + 1 by omega)] at h
    · have h := hbody n (Nat.lt_succ_self n)
      rwa [decide_eq_false (Nat.lt_irrefl (n + 1))] at h

/-! ### A counter of iterations -/

theorem count_succ (r : Word) (l : Nat) : r - BitVec.ofNat 32 l - 1 = r - BitVec.ofNat 32 (l + 1) := by
  rw [BitVec.ofNat_add]
  exact sub_sub _ _ _

theorem count_self (r : Word) : r - BitVec.ofNat 32 r.toNat = 0 := by
  rw [BitVec.ofNat_toNat, BitVec.setWidth_eq]
  exact sub_self r

/-- A counter that has been lowered l times is not used up before its last iteration. -/
theorem count_goesOn {r : Word} {l : Nat} (hl : l < r.toNat) :
    (r - BitVec.ofNat 32 l - 1 != 0) = decide (l + 1 < r.toNat) := by
  have hlt : l + 1 < 2 ^ 32 := by omega
  rw [count_succ, Bool.eq_iff_iff, bne_iff_ne, decide_eq_true_iff]
  constructor
  · intro hne
    by_contra hge
    refine hne ?_
    have heq : r.toNat = l + 1 := by omega
    bv_omega
  · intro hlt' h0
    bv_omega

/-! ### A string instruction's states -/

section
variable (s : State) (k : StrKind) (o : StrOpts) (n : Nat) (trans : Bool)

/-- The state after j iterations. -/
def State.strAt (j : Nat) : State :=
  { s.strRun k o n trans j with regs := s.strRegs k o n j, psr := s.psr.strStart k, psrTouched := true }

theorem State.strRun_eq (j : Nat) : ∃ m d w, s.strRun k o n trans j = { s with mem := m, dirty := d, written := w } := by
  unfold State.strRun
  split
  · exact pokes_eq _ _ _ _ _
  · exact ⟨_, _, _, rfl⟩

theorem State.strRun_zero : s.strRun k o n trans 0 = s := by
  unfold State.strRun
  split <;> rfl

theorem State.strRun_succ_move (j : Nat) : s.strRun .move o n trans (j + 1) =
    (s.strRun .move o n trans j).poke (strAddr o n s.regs.r2 j) n (s.strX .move o n trans j) := rfl

theorem State.strRun_of_ne {k : StrKind} (hk : k ≠ .move) (j : Nat) : s.strRun k o n trans j = s := if_neg hk

theorem strAddr_zero (base : Word) : strAddr o n base 0 = base := by
  unfold strAddr
  rw [Nat.zero_mul]
  split
  · exact BitVec.sub_zero base
  · exact BitVec.add_zero base

theorem strAddr_succ (base : Word) (j : Nat) : strAddr o n base j + strStep o n = strAddr o n base (j + 1) := by
  unfold strAddr strStep
  rw [Nat.succ_mul, BitVec.ofNat_add]
  split <;> ring

theorem strAddr_strAddr (base : Word) (j l : Nat) : strAddr o n (strAddr o n base j) l = strAddr o n base (j + l) := by
  unfold strAddr
  rw [Nat.add_mul, BitVec.ofNat_add]
  split <;> ring

theorem State.strRegs_zero : s.strRegs k o n 0 = s.regs := by
  have h0 : s.regs.r0 - BitVec.ofNat 32 0 = s.regs.r0 := BitVec.sub_zero _
  unfold State.strRegs
  rw [strAddr_zero, strAddr_zero, h0, ite_self]

theorem Psr.strStart_i (p : Psr) : (p.strStart k).i = p.i := by cases k <;> rfl

theorem State.strAt_pending (j : Nat) : (s.strAt k o n trans j).interruptPending = s.interruptPending := by
  obtain ⟨m, d, w, h⟩ := s.strRun_eq k o n trans j
  rw [State.strAt, h]
  show (s.nmiLatch || ((s.psr.strStart k).i && s.irqRequest)) = _
  rw [Psr.strStart_i]
  rfl

theorem State.strAt_calm (hs : s.calm) (j : Nat) : (s.strAt k o n trans j).calm := by
  obtain ⟨m, d, w, h⟩ := s.strRun_eq k o n trans j
  rw [State.strAt, h]
  exact hs

theorem State.strAt_plat (j : Nat) : (s.strAt k o n trans j).plat = s.plat := by
  obtain ⟨m, d, w, h⟩ := s.strRun_eq k o n trans j
  rw [State.strAt, h]

theorem State.strRun_regs (j : Nat) : (s.strRun k o n trans j).regs = s.regs := by
  obtain ⟨m, d, w, h⟩ := s.strRun_eq k o n trans j
  rw [h]

theorem State.valueAt_strAt (j : Nat) (a : Word) (m : Nat) : (s.strAt k o n trans j).valueAt a m = (s.strRun k o n trans j).valueAt a m :=
  State.valueAt_of_mem rfl a m

end

/-! ### One iteration -/

section
variable {s : State} {k : StrKind} {o : StrOpts} {n : Nat} {trans : Bool} {j : Nat}

/-- The element an iteration reads (R422, R423). -/
theorem run_strElement (hn : 0 < n) (hone : trans = true → n = 1) (hs : s.calm) (h : StringReady k o n trans s) (hj : j < s.regs.r0.toNat) :
    strElement n trans (s.strAt k o n trans j) = .ok (s.strX k o n trans j, s.strAt k o n trans j) := by
  have hcalm := s.strAt_calm k o n trans hs j
  have hplat := s.strAt_plat k o n trans j
  have hvalue := s.valueAt_strAt k o n trans j
  have hx : memRead (strAddr o n s.regs.r1 j) n (s.strAt k o n trans j) =
      .ok ((s.strRun k o n trans j).valueAt (strAddr o n s.regs.r1 j) n, s.strAt k o n trans j) := by
    rw [run_memRead_of_readable hcalm hn ((h.first j hj).of_plat hplat), hvalue]
  have hr1 : (s.strAt k o n trans j).regs.get .r1 = strAddr o n s.regs.r1 j := rfl
  have hr3 : (s.strAt k o n trans j).regs.get .r3 = s.regs.r3 := rfl
  unfold strElement State.strX State.strElem
  rw [run_bind_of_ok (run_getReg .r1 _), hr1, run_bind_of_ok hx, State.strRun_regs]
  generalize (s.strRun k o n trans j).valueAt (strAddr o n s.regs.r1 j) n = x
  split
  next ht =>
    obtain rfl := hone ht
    have hy : memRead (s.regs.r3 + x.setWidth 32) 1 (s.strAt k o 1 trans j) =
        .ok ((s.strRun k o 1 trans j).valueAt (s.regs.r3 + x.setWidth 32) 1, s.strAt k o 1 trans j) := by
      rw [run_memRead_of_readable hcalm (by decide) ((h.table ht x).of_plat hplat), hvalue]
    rw [run_bind_of_ok (run_getReg .r3 _), hr3, run_bind_of_ok hy]
    rfl
  next => rfl

/-- The registers after an element (R423, R426). -/
theorem run_strAdvance (t : State) (ht : t.regs = s.strRegs k o n j) (hj : j < s.regs.r0.toNat) :
    strAdvance k o n t = .ok (decide (j + 1 < s.regs.r0.toNat), { t with regs := s.strRegs k o n (j + 1) }) := by
  have hcount := count_succ s.regs.r0 j
  have hr0 : t.regs.r0 = s.regs.r0 - BitVec.ofNat 32 j := by rw [ht, State.strRegs]
  have hr1 : t.regs.r1 + strStep o n = strAddr o n s.regs.r1 (j + 1) := by rw [ht, State.strRegs, ← strAddr_succ]
  have hset (hk : k ≠ .skip) : t.regs.r2 + strStep o n = strAddr o n s.regs.r2 (j + 1) := by
    rw [ht, State.strRegs, ← strAddr_succ]
    exact congrArg (· + _) (if_neg hk)
  rw [← count_goesOn hj, ← hr0]
  unfold strAdvance
  rw [run_bind_of_ok (run_getReg .r1 t), run_bind_of_ok (run_setReg _ _ t)]
  by_cases hk : k = .skip
  · have hregs : ((t.regs.set .r1 (t.regs.r1 + strStep o n)).set .r0 (t.regs.r0 - 1)) = s.strRegs k o n (j + 1) := by
      rw [hr1, hr0, hcount, State.strRegs, if_pos hk, ht, State.strRegs, if_pos hk]
      rfl
    rw [hk, ← hk, ← hregs]
    subst hk
    rfl
  · have hregs : (((t.regs.set .r1 (t.regs.r1 + strStep o n)).set .r2 (t.regs.r2 + strStep o n)).set .r0 (t.regs.r0 - 1)) =
        s.strRegs k o n (j + 1) := by
      rw [hr1, hset hk, hr0, hcount, State.strRegs, if_neg hk, ht, State.strRegs]
      rfl
    have honly : (k != .skip) = true := bne_iff_ne.2 hk
    rw [← hregs, honly]
    rfl

theorem strBody_move (x : BitVec (8 * n)) (t : State) : strBody .move n x t = (do
    memWrite (t.regs.get .r2) n x
    pure true : M Bool) t := rfl

theorem strBody_compare (x : BitVec (8 * n)) (t : State) : strBody .compare n x t = (do
    let y ← memRead (t.regs.get .r2) n
    if x = y then pure true
    else do
      updPsr (cmpFlags x y)
      pure false : M Bool) t := rfl

theorem State.poke_regs_psr (q : State) (r : Regs) (p : Psr) (a : Word) (v : BitVec (8 * n)) :
    ({ q with regs := r, psr := p, psrTouched := true } : State).poke a n v =
      { q.poke a n v with regs := r, psr := p, psrTouched := true } := rfl

/-- The String 2 element of a comparison (R425). -/
theorem run_strSecond (hn : 0 < n) (hs : s.calm) (h : StringReady .compare o n trans s) (hj : j < s.regs.r0.toNat) :
    memRead ((s.strAt .compare o n trans j).regs.get .r2) n (s.strAt .compare o n trans j) =
      .ok (s.strY o n j, s.strAt .compare o n trans j) := by
  have hr2 : (s.strAt .compare o n trans j).regs.get .r2 = strAddr o n s.regs.r2 j := rfl
  rw [hr2, run_memRead_of_readable (s.strAt_calm .compare o n trans hs j) hn
    ((h.second (by decide) j hj).of_plat (s.strAt_plat .compare o n trans j)), State.valueAt_strAt,
    State.strRun_of_ne s o n trans (by decide)]
  rfl

/-- An iteration's body where the element goes on (R424-R426). -/
theorem run_strBody (hn : 0 < n) (hs : s.calm) (h : StringReady k o n trans s)
    (hj : j < s.regs.r0.toNat) (heq : k = .compare → s.strX k o n trans j = s.strY o n j) :
    strBody k n (s.strX k o n trans j) (s.strAt k o n trans j) =
      .ok (true, { s.strAt k o n trans (j + 1) with regs := s.strRegs k o n j }) := by
  cases k with
  | move =>
    have hr2 : (s.strAt .move o n trans j).regs.get .r2 = strAddr o n s.regs.r2 j := rfl
    have hw := run_memWrite_of_writable (s.strX .move o n trans j) (s.strAt_calm .move o n trans hs j) hn
      ((h.stored rfl j hj).of_plat (s.strAt_plat .move o n trans j))
    rw [strBody_move, hr2, run_bind_of_ok hw, State.strAt, State.poke_regs_psr, State.strAt, State.strRun_succ_move]
    rfl
  | compare =>
    rw [strBody_compare, run_bind_of_ok (run_strSecond hn hs h hj), if_pos (heq rfl), State.strAt, State.strAt,
      State.strRun_of_ne s o n trans (by decide), State.strRun_of_ne s o n trans (by decide)]
    rfl
  | skip =>
    rw [State.strAt, State.strAt, State.strRun_of_ne s o n trans (by decide), State.strRun_of_ne s o n trans (by decide)]
    rfl

theorem run_strIteration_bind (hn : 0 < n) (hone : trans = true → n = 1) (hs : s.calm) (h : StringReady k o n trans s)
    (hj : j < s.regs.r0.toNat) : strIteration k o n trans (s.strAt k o n trans j) =
    (if strStops o (s.strX k o n trans j) (s.strR4 n) then do
      updPsr (fun p => { p with f := true })
      pure false
    else do
      let on ← strBody k n (s.strX k o n trans j)
      if on then strAdvance k o n else pure false : M Bool) (s.strAt k o n trans j) := by
  have hr4 : ((s.strAt k o n trans j).regs.get .r4).setWidth (8 * n) = s.strR4 n := rfl
  rw [strIteration, run_bind_of_ok (run_strElement hn hone hs h hj), run_bind_of_ok (run_getReg .r4 _), hr4]

/-- An iteration that goes on to the next element (R423-R426). -/
theorem run_strIteration (hn : 0 < n) (hone : trans = true → n = 1) (hs : s.calm) (h : StringReady k o n trans s)
    (hj : j < s.regs.r0.toNat) (hgo : StringGoesOn k o n trans s j) :
    strIteration k o n trans (s.strAt k o n trans j) = .ok (decide (j + 1 < s.regs.r0.toNat), s.strAt k o n trans (j + 1)) := by
  obtain ⟨hstop, heq⟩ := hgo
  rw [run_strIteration_bind hn hone hs h hj, if_neg (by rw [hstop]; decide), run_bind_of_ok (run_strBody hn hs h hj heq), if_pos rfl,
    run_strAdvance { s.strAt k o n trans (j + 1) with regs := s.strRegs k o n j } rfl hj]
  rfl

/-- An iteration the Until or While option ends (R423). -/
theorem run_strIteration_stop (hn : 0 < n) (hone : trans = true → n = 1) (hs : s.calm) (h : StringReady k o n trans s)
    (hj : j < s.regs.r0.toNat) (hstop : strStops o (s.strX k o n trans j) (s.strR4 n) = true) :
    strIteration k o n trans (s.strAt k o n trans j) =
      .ok (false, { s.strAt k o n trans j with psr := { s.psr.strStart k with f := true } }) := by
  rw [run_strIteration_bind hn hone hs h hj, if_pos hstop]
  rfl

/-- The first unequal pair of a comparison (R425). -/
theorem run_strIteration_unequal (hn : 0 < n) (hone : trans = true → n = 1) (hs : s.calm) (h : StringReady .compare o n trans s)
    (hj : j < s.regs.r0.toNat) (hstop : strStops o (s.strX .compare o n trans j) (s.strR4 n) = false)
    (hne : s.strX .compare o n trans j ≠ s.strY o n j) :
    strIteration .compare o n trans (s.strAt .compare o n trans j) = .ok (false, { s.strAt .compare o n trans j with
      psr := cmpFlags (s.strX .compare o n trans j) (s.strY o n j) (s.psr.strStart .compare) }) := by
  have hbody : strBody .compare n (s.strX .compare o n trans j) (s.strAt .compare o n trans j) = .ok (false, { s.strAt .compare o n trans j with
      psr := cmpFlags (s.strX .compare o n trans j) (s.strY o n j) (s.psr.strStart .compare) }) := by
    rw [strBody_compare, run_bind_of_ok (run_strSecond hn hs h hj), if_neg hne]
    rfl
  rw [run_strIteration_bind hn hone hs h hj, if_neg (by rw [hstop]; decide), run_bind_of_ok hbody]
  rfl

/-! ### Whole instructions -/

/-- The PSR a string instruction ends with at element e: after all elements, at the option's element, or at the first unequal
pair (R423-R426). -/
def State.strEnd (s : State) (k : StrKind) (o : StrOpts) (n : Nat) (trans : Bool) (e : Nat) : Psr :=
  if e = s.regs.r0.toNat then s.psr.strStart k
  else if strStops o (s.strX k o n trans e) (s.strR4 n) then { s.psr.strStart k with f := true }
  else cmpFlags (s.strX k o n trans e) (s.strY o n e) (s.psr.strStart k)

/-- The element e at which a string instruction ends. -/
structure StringEnds (k : StrKind) (o : StrOpts) (n : Nat) (trans : Bool) (s : State) (e : Nat) : Prop where
  le : e ≤ s.regs.r0.toNat
  before : ∀ l, l < e → StringGoesOn k o n trans s l
  last : e < s.regs.r0.toNat → ¬StringGoesOn k o n trans s e

/-- The iteration at which the instruction ends (R423, R425). -/
theorem run_strIteration_last (hn : 0 < n) (hone : trans = true → n = 1) (hs : s.calm) (h : StringReady k o n trans s) {e : Nat}
    (he : e < s.regs.r0.toNat) (hlast : ¬StringGoesOn k o n trans s e) : strIteration k o n trans (s.strAt k o n trans e) =
      .ok (false, { s.strAt k o n trans e with psr := s.strEnd k o n trans e }) := by
  rw [State.strEnd, if_neg (Nat.ne_of_lt he)]
  by_cases hstop : strStops o (s.strX k o n trans e) (s.strR4 n) = true
  · rw [if_pos hstop]
    exact run_strIteration_stop hn hone hs h he hstop
  · have hgo : strStops o (s.strX k o n trans e) (s.strR4 n) = false := Bool.eq_false_iff.2 hstop
    rw [if_neg hstop]
    by_cases hk : k = .compare
    · subst hk
      exact run_strIteration_unequal hn hone hs h he hgo fun heq => hlast ⟨hgo, fun _ => heq⟩
    · exact absurd ⟨hgo, fun hc => absurd hc hk⟩ hlast

theorem run_stringOp (hn : 0 < n) (hone : trans = true → n = 1) (hs : s.quiet) (h : StringReady k o n trans s) {e : Nat}
    (he : StringEnds k o n trans s e) : stringOp k o n trans s =
      .ok (.seq, { s.strAt k o n trans e with psr := s.strEnd k o n trans e }) := by
  obtain ⟨hcalm, hnone⟩ := hs
  have hquiet (l : Nat) : (s.strAt k o n trans l).quiet := ⟨s.strAt_calm k o n trans hcalm l, (s.strAt_pending k o n trans l).trans hnone⟩
  have hstart : (updPsr (strFlags k)) s = .ok ((), s.strAt k o n trans 0) := by
    rw [State.strAt, State.strRun_zero, State.strRegs_zero]
    cases k <;> rfl
  have hr0 : (s.strAt k o n trans 0).regs.get .r0 = s.regs.r0 := by
    rw [State.strAt, State.strRegs_zero]
    rfl
  have hloop : loop (strIteration k o n trans) s.regs.r0.toNat (s.strAt k o n trans 0) =
      .ok (.done, { s.strAt k o n trans e with psr := s.strEnd k o n trans e }) := by
    have hgo (l : Nat) (hl : l < e) : strIteration k o n trans (s.strAt k o n trans l) = _ :=
      run_strIteration hn hone hcalm h (hl.trans_le he.le) (he.before l hl)
    rcases Nat.lt_or_eq_of_le he.le with hlt | heq
    · have hlast := run_strIteration_last hn hone hcalm h hlt (he.last hlt)
      refine run_loop_through hlt (fun l hl => ⟨?_, hquiet (l + 1)⟩) hlast
      rw [hgo l hl, decide_eq_true (show l + 1 < s.regs.r0.toNat by omega)]
    · have := run_loop_all (body := strIteration k o n trans) (n := s.regs.r0.toNat) (st := s.strAt k o n trans)
        (fun l hl => hgo l (heq ▸ hl)) (fun l _ => hquiet l)
      rw [State.strEnd, if_pos heq, heq]
      exact this
  unfold stringOp
  rw [run_bind_of_ok hstart, run_bind_of_ok (run_getReg .r0 _), hr0, run_bind_of_ok hloop]
  rfl

/-- A string instruction is its operation (R424-R426). -/
structure IsString (i : Instr) (k : StrKind) (o : StrOpts) (n : Nat) (trans : Bool) : Prop where
  pos : 0 < n
  one : trans = true → n = 1
  exec : ∀ s, exec i s = finish i (stringOp k o n trans) s

variable {i : Instr}

theorem IsString.ends (hi : IsString i k o n trans) (hs : s.quiet) (h : StringReady k o n trans s) {e : Nat}
    (he : StringEnds k o n trans s e) : Machine.exec i s =
      .next (s.after i { s.strRun k o n trans e with regs := s.strRegs k o n e, psr := s.strEnd k o n trans e }) := by
  rw [hi.exec, finish_seq_after (run_stringOp hi.pos hi.one hs h he)]
  rfl

theorem IsString.completes (hi : IsString i k o n trans) : StringCompletes i k o n trans := by
  intro s j hs h hj hbefore u x
  refine ⟨fun heq => ?_, fun hlt hstop => ?_, fun hlt hstop hk hne => ?_⟩
  · rw [hi.ends hs h ⟨hj, hbefore, fun hlt => absurd heq (Nat.ne_of_lt hlt)⟩, State.strEnd, if_pos heq]
  · rw [hi.ends hs h ⟨hj, hbefore, fun _ hgo => Bool.false_ne_true (hgo.1.symm.trans hstop)⟩, State.strEnd,
      if_neg (Nat.ne_of_lt hlt), if_pos hstop]
  · have hz : (x == s.strY o n j) = false := beq_eq_false_iff_ne.2 hne
    subst hk
    rw [hi.ends hs h ⟨hj, hbefore, fun _ hgo => hne (hgo.2 rfl)⟩, State.strEnd, if_neg (Nat.ne_of_lt hlt),
      if_neg (by rw [hstop]; decide), cmpFlags, hz]
    rfl

/-- Interrupted after its first element (R428, R631). -/
theorem IsString.interrupted (hi : IsString i k o n trans) : StringInterrupted i k o n trans := by
  intro s t hs hreq h hcount hgo ht
  have hfirst := run_strIteration hi.pos hi.one hs h (show 0 < s.regs.r0.toNat by omega) hgo
  rw [decide_eq_true (show 0 + 1 < s.regs.r0.toNat by omega)] at hfirst
  have hstart : (updPsr (strFlags k)) s = .ok ((), s.strAt k o n trans 0) := by
    rw [State.strAt, State.strRun_zero, State.strRegs_zero]
    cases k <;> rfl
  have hr0 : (s.strAt k o n trans 0).regs.get .r0 = s.regs.r0 := by
    rw [State.strAt, State.strRegs_zero]
    rfl
  obtain ⟨r, hr⟩ := Nat.exists_eq_add_of_le' (show 1 ≤ s.regs.r0.toNat by omega)
  have hpc : (s.strAt k o n trans 1).pc = s.pc := by
    obtain ⟨m, d, w, h⟩ := s.strRun_eq k o n trans 1
    rw [State.strAt, h]
  have hclear : onlyIf true clearPending (s.strAt k o n trans 1) = .ok ((), { s.strRun k o n trans 1 with
      regs := s.strRegs k o n 1, psr := { s.psr.strStart k with p := false }, psrTouched := true }) := rfl
  have hend : endLoop true .interrupted (s.strAt k o n trans 1) = .ok (.stay, t) := by
    unfold endLoop
    refine (run_bind_of_ok hclear).trans ?_
    rw [run_peek_bind]
    refine (run_bind_of_ok (a := ()) (t := t) ?_).trans rfl
    rw [← ht]
    exact congrArg (fun a => interruptSequence a _) hpc
  have hop : stringOp k o n trans s = .ok (.stay, t) := by
    unfold stringOp
    rw [run_bind_of_ok hstart, run_bind_of_ok (run_getReg .r0 _), hr0, hr,
      run_bind_of_ok (run_loop_interrupted hfirst (s.strAt_calm k o n trans hs 1) ((s.strAt_pending k o n trans 1).trans hreq))]
    exact hend
  rw [hi.exec, finish_stay hop]

/-! ### Resumption -/

/-- An instruction with ready memory ends at some element. -/
theorem exists_stringEnds (k : StrKind) (o : StrOpts) (n : Nat) (trans : Bool) (s : State) : ∃ e, StringEnds k o n trans s e := by
  classical
  have hend : ∃ e, e < s.regs.r0.toNat → ¬StringGoesOn k o n trans s e := ⟨s.regs.r0.toNat, fun h => absurd h (Nat.lt_irrefl _)⟩
  refine ⟨Nat.find hend, Nat.find_min' hend fun h => absurd h (Nat.lt_irrefl _), fun l hl => ?_, Nat.find_spec hend⟩
  have hnot := Nat.find_min hend hl
  rw [Classical.not_imp, not_not] at hnot
  exact hnot.2

theorem State.strResumed_eq (s : State) (k : StrKind) (o : StrOpts) (n : Nat) (trans : Bool) (j : Nat) : ∃ d,
    s.strResumed k o n trans j = { s with
      mem := (s.strRun k o n trans j).mem, dirty := d, written := [], regs := s.strRegs k o n j,
      psr := { s.psr.strStart k with p := false } } := by
  obtain ⟨m, d, w, h⟩ := s.strRun_eq k o n trans j
  refine ⟨d, ?_⟩
  rw [State.strResumed, h]

/-- An element is memory's and the table's alone. -/
theorem State.strElem_congr {s t : State} (hm : t.mem = s.mem) (hr : t.regs.r3 = s.regs.r3) (n : Nat) (trans : Bool) (a : Word) :
    t.strElem n trans a = s.strElem n trans a := by
  unfold State.strElem
  rw [hr, State.valueAt_of_mem hm, State.valueAt_of_mem hm]

/-- Stores of the same value leave the same memory. -/
theorem State.poke_mem_congr {s t : State} (h : t.mem = s.mem) (a : Word) (n : Nat) (v : BitVec (8 * n)) :
    (t.poke a n v).mem = (s.poke a n v).mem := by
  show t.mem.writeAll _ = s.mem.writeAll _
  rw [h]

theorem State.strRegs_r2 (s : State) {k : StrKind} (hk : k ≠ .skip) (o : StrOpts) (n j : Nat) :
    (s.strRegs k o n j).r2 = strAddr o n s.regs.r2 j := if_neg hk

section
variable (s) (k) (o) (n) (trans) (j)

theorem State.strResumed_regs : (s.strResumed k o n trans j).regs = s.strRegs k o n j := rfl

theorem State.strResumed_mem : (s.strResumed k o n trans j).mem = (s.strRun k o n trans j).mem := rfl

/-- The resumed instruction's stores are the uninterrupted one's. -/
theorem State.strRun_resumed (l : Nat) :
    ((s.strResumed k o n trans j).strRun k o n trans l).mem = (s.strRun k o n trans (j + l)).mem ∧
    (s.strResumed k o n trans j).strX k o n trans l = s.strX k o n trans (j + l) := by
  have hr1 (l : Nat) : strAddr o n (s.strResumed k o n trans j).regs.r1 l = strAddr o n s.regs.r1 (j + l) :=
    strAddr_strAddr o n s.regs.r1 j l
  have helem (l : Nat) (hm : ((s.strResumed k o n trans j).strRun k o n trans l).mem = (s.strRun k o n trans (j + l)).mem) :
      (s.strResumed k o n trans j).strX k o n trans l = s.strX k o n trans (j + l) := by
    unfold State.strX
    rw [hr1]
    refine State.strElem_congr hm ?_ n trans _
    rw [State.strRun_regs, State.strRun_regs]
    rfl
  have hmem : ((s.strResumed k o n trans j).strRun k o n trans l).mem = (s.strRun k o n trans (j + l)).mem := by
    by_cases hk : k = .move
    · subst hk
      have hr2 (l : Nat) : strAddr o n (s.strResumed .move o n trans j).regs.r2 l = strAddr o n s.regs.r2 (j + l) :=
        strAddr_strAddr o n s.regs.r2 j l
      induction l with
      | zero =>
        rw [State.strRun_zero, Nat.add_zero]
        rfl
      | succ l ih =>
        rw [State.strRun_succ_move, ← Nat.add_assoc, State.strRun_succ_move, helem l ih, hr2]
        exact State.poke_mem_congr ih _ _ _
    · rw [State.strRun_of_ne _ o n trans hk, State.strRun_of_ne s o n trans hk, State.strResumed_mem, State.strRun_of_ne s o n trans hk]
  exact ⟨hmem, helem l hmem⟩

theorem State.strRegs_resumed (l : Nat) : (s.strResumed k o n trans j).strRegs k o n l = s.strRegs k o n (j + l) := by
  have h0 : s.regs.r0 - BitVec.ofNat 32 j - BitVec.ofNat 32 l = s.regs.r0 - BitVec.ofNat 32 (j + l) := by
    rw [BitVec.ofNat_add]
    exact sub_sub _ _ _
  unfold State.strRegs
  rw [State.strResumed_regs]
  unfold State.strRegs
  by_cases hk : k = .skip
  · simp only [if_pos hk, strAddr_strAddr, h0]
  · simp only [if_neg hk, strAddr_strAddr, h0]

end

/-- The count of a resumed instruction. -/
theorem State.strResumed_count (hj : j ≤ s.regs.r0.toNat) :
    (s.strResumed k o n trans j).regs.r0.toNat = s.regs.r0.toNat - j := by
  show (s.regs.r0 - BitVec.ofNat 32 j).toNat = _
  have := s.regs.r0.isLt
  bv_omega

theorem State.strY_resumed (s : State) (o : StrOpts) (n : Nat) (trans : Bool) (j l : Nat) :
    (s.strResumed .compare o n trans j).strY o n l = s.strY o n (j + l) := by
  have hr2 : strAddr o n (s.strResumed .compare o n trans j).regs.r2 l = strAddr o n s.regs.r2 (j + l) :=
    strAddr_strAddr o n s.regs.r2 j l
  unfold State.strY
  rw [hr2]
  refine State.valueAt_of_mem ?_ _ n
  rw [State.strResumed_mem, State.strRun_of_ne s o n trans (by decide)]

theorem stringGoesOn_resumed (l : Nat) :
    StringGoesOn k o n trans (s.strResumed k o n trans j) l ↔ StringGoesOn k o n trans s (j + l) := by
  have hx := (s.strRun_resumed k o n trans j l).2
  have hr4 : (s.strResumed k o n trans j).strR4 n = s.strR4 n := rfl
  unfold StringGoesOn
  rw [hx, hr4]
  refine and_congr_right fun _ => forall_congr' fun hk => ?_
  subst hk
  rw [State.strY_resumed]

theorem Psr.strStart_resumed (p : Psr) (k : StrKind) :
    ({ p.strStart k with p := false } : Psr).strStart k = { p.strStart k with p := false } := by
  cases k <;> rfl

theorem State.strEnd_resumed {e : Nat} (hj : j < s.regs.r0.toNat) (hje : j ≤ e) (he : StringEnds k o n trans s e) :
    (s.strResumed k o n trans j).strEnd k o n trans (e - j) = { s.strEnd k o n trans e with p := false } := by
  have hadd : j + (e - j) = e := by omega
  have hx := (s.strRun_resumed k o n trans j (e - j)).2
  have hr4 : (s.strResumed k o n trans j).strR4 n = s.strR4 n := rfl
  have hpsr : (s.strResumed k o n trans j).psr.strStart k = { s.psr.strStart k with p := false } := s.psr.strStart_resumed k
  have hcount := State.strResumed_count (k := k) (o := o) (n := n) (trans := trans) hj.le
  rw [hadd] at hx
  unfold State.strEnd
  rw [hcount, hx, hr4, hpsr]
  by_cases hlast : e = s.regs.r0.toNat
  · rw [if_pos hlast, if_pos (by omega)]
  · have hlt : e < s.regs.r0.toNat := Nat.lt_of_le_of_ne he.le hlast
    rw [if_neg hlast, if_neg (by omega)]
    by_cases hstop : strStops o (s.strX k o n trans e) (s.strR4 n) = true
    · rw [if_pos hstop, if_pos hstop]
    · rw [if_neg hstop, if_neg hstop]
      by_cases hk : k = .compare
      · subst hk
        rw [State.strY_resumed, hadd]
        rfl
      · exact absurd ⟨Bool.eq_false_iff.2 hstop, fun hc => absurd hc hk⟩ (he.last hlt)

theorem StringEnds.resumed {e : Nat} (hj : j < s.regs.r0.toNat) (hje : j ≤ e) (he : StringEnds k o n trans s e) :
    StringEnds k o n trans (s.strResumed k o n trans j) (e - j) := by
  have hcount := State.strResumed_count (k := k) (o := o) (n := n) (trans := trans) hj.le
  have hle := he.le
  refine ⟨by omega, fun l hl => stringGoesOn_resumed l |>.2 (he.before (j + l) (by omega)), fun hlt hgo => ?_⟩
  have hgo' := (stringGoesOn_resumed (e - j)).1 hgo
  rw [show j + (e - j) = e by omega] at hgo'
  exact he.last (by omega) hgo'

theorem StringReady.resumed (h : StringReady k o n trans s) (hj : j < s.regs.r0.toNat) :
    StringReady k o n trans (s.strResumed k o n trans j) := by
  have hcount := State.strResumed_count (k := k) (o := o) (n := n) (trans := trans) hj.le
  have hplat : (s.strResumed k o n trans j).plat = s.plat := by
    obtain ⟨d, h⟩ := s.strResumed_eq k o n trans j
    rw [h]
  have hr1 (l : Nat) : strAddr o n (s.strResumed k o n trans j).regs.r1 l = strAddr o n s.regs.r1 (j + l) :=
    strAddr_strAddr o n s.regs.r1 j l
  have hr2 (hk : k ≠ .skip) (l : Nat) : strAddr o n (s.strResumed k o n trans j).regs.r2 l = strAddr o n s.regs.r2 (j + l) := by
    rw [State.strResumed_regs, State.strRegs_r2 s hk, strAddr_strAddr]
  refine ⟨fun l hl => ?_, fun hk l hl => ?_, fun hk l hl => ?_, fun ht b => (h.table ht b).of_plat hplat⟩
  · rw [hr1]
    exact (h.first (j + l) (by omega)).of_plat hplat
  · rw [hr2 hk]
    exact (h.second hk (j + l) (by omega)).of_plat hplat
  · rw [hr2 (by rw [hk]; decide)]
    exact (h.stored hk (j + l) (by omega)).of_plat hplat

theorem IsString.resumes (hi : IsString i k o n trans) : StringResumes i k o n trans := by
  intro s j hs h hj hbefore
  obtain ⟨e, he⟩ := exists_stringEnds k o n trans s
  have hje : j ≤ e := by
    by_contra hlt
    exact he.last (by omega) (hbefore e (by omega))
  have hadd : j + (e - j) = e := by omega
  have hquiet : (s.strResumed k o n trans j).quiet := by
    obtain ⟨d, heq⟩ := s.strResumed_eq k o n trans j
    rw [heq]
    refine ⟨hs.1, ?_⟩
    show (s.nmiLatch || ((s.psr.strStart k).i && s.irqRequest)) = false
    rw [Psr.strStart_i]
    exact hs.2
  have hpc : (s.strResumed k o n trans j).pc = s.pc := by
    obtain ⟨d, heq⟩ := s.strResumed_eq k o n trans j
    rw [heq]
  refine ⟨_, _, hi.ends hs h he, hi.ends hquiet (h.resumed hj) (he.resumed hj hje), ?_, ?_, ?_, ?_⟩
  · have hregs := s.strRegs_resumed k o n trans j (e - j)
    rw [hadd] at hregs
    exact hregs
  · have hmem := (s.strRun_resumed k o n trans j (e - j)).1
    rw [hadd] at hmem
    exact hmem
  · show (s.strResumed k o n trans j).pc + _ = s.pc + _
    rw [hpc]
  · exact State.strEnd_resumed hj hje he

end

/-! ### The obligations -/

theorem size_bytes_pos (i : Size) : 0 < i.bytes := by cases i <;> decide

/-- The six string instructions, for the kinds and lengths of R424-R426. -/
theorem isString_sized (i : Size) (o : StrOpts) : IsString (.movsi i o) .move o i.bytes false ∧
    IsString (.cmpsi i o) .compare o i.bytes false ∧ IsString (.skpsi i o) .skip o i.bytes false :=
  ⟨⟨size_bytes_pos i, (fun h => nomatch h), fun _ => rfl⟩, ⟨size_bytes_pos i, (fun h => nomatch h), fun _ => rfl⟩,
    ⟨size_bytes_pos i, (fun h => nomatch h), fun _ => rfl⟩⟩

theorem isString_translated (o : StrOpts) : IsString (.movst o) .move o 1 true ∧ IsString (.cmpst o) .compare o 1 true ∧
    IsString (.skpst o) .skip o 1 true :=
  ⟨⟨by decide, fun _ => rfl, fun _ => rfl⟩, ⟨by decide, fun _ => rfl, fun _ => rfl⟩, ⟨by decide, fun _ => rfl, fun _ => rfl⟩⟩

/-- Settles O49: the loop of iterations, for each of the six. -/
theorem stringsComplete : Obligations.StringsComplete := by
  refine ⟨fun i o => ?_, fun o => ?_⟩
  · obtain ⟨hmove, hcompare, hskip⟩ := isString_sized i o
    exact ⟨hmove.completes, hcompare.completes, hskip.completes⟩
  · obtain ⟨hmove, hcompare, hskip⟩ := isString_translated o
    exact ⟨hmove.completes, hcompare.completes, hskip.completes⟩

/-- Settles O50: the first point takes the request; the resumed loop runs through the states the first run had left to go. -/
theorem stringsInterrupted : Obligations.StringsInterrupted := by
  refine ⟨fun i o => ?_, fun o => ?_, fun i o => ?_, fun o => ?_⟩
  · obtain ⟨hmove, hcompare, hskip⟩ := isString_sized i o
    exact ⟨hmove.interrupted, hcompare.interrupted, hskip.interrupted⟩
  · obtain ⟨hmove, hcompare, hskip⟩ := isString_translated o
    exact ⟨hmove.interrupted, hcompare.interrupted, hskip.interrupted⟩
  · obtain ⟨hmove, hcompare, hskip⟩ := isString_sized i o
    exact ⟨hmove.resumes, hcompare.resumes, hskip.resumes⟩
  · obtain ⟨hmove, hcompare, hskip⟩ := isString_translated o
    exact ⟨hmove.resumes, hcompare.resumes, hskip.resumes⟩

end Sys2Proof.Machine
end

section
/-! PROOFS. Transfer cycles of the DMA channels. -/

namespace Sys2Proof.Machine

open Sys2Proof

section
variable {s : State} {a : Word} {n : Nat}

theorem allow_read_of_readable (h : s.readable a n) : allow false (byteAddrs a n) s = .ok ((), s) := by
  refine allow_eq_ok.2 ⟨fun x hx => ?_, rfl⟩
  obtain ⟨hlt, hmem⟩ := h x.toNat (List.mem_map.2 ⟨x, hx, rfl⟩)
  exact byteStop_read_eq_none hlt hmem

theorem allow_write_of_writable (h : s.writable a n) : allow true (byteAddrs a n) s = .ok ((), s) := by
  refine allow_eq_ok.2 ⟨fun x hx => ?_, rfl⟩
  obtain ⟨hlt, hmem⟩ := h x.toNat (List.mem_map.2 ⟨x, hx, rfl⟩)
  exact byteStop_write_eq_none hlt hmem

/-- Another agent reads memory in one bus cycle. -/
theorem run_busRead_of_readable (hn : 0 < n) (h : s.readable a n) : busRead a n s = .ok (s.valueAt a n, s) := by
  unfold busRead
  rw [run_peek_bind, h.regAt_eq_none hn]
  exact run_bind_of_ok (allow_read_of_readable h)

/-- Another agent writes memory in one bus cycle. -/
theorem run_busWrite_of_writable (v : BitVec (8 * n)) (hn : 0 < n) (h : s.writable a n) :
    busWrite a n v s = .ok ((), s.pokeBus a n v) := by
  unfold busWrite
  rw [run_peek_bind, h.readable.regAt_eq_none hn]
  exact run_bind_of_ok (allow_write_of_writable h)

end

section
variable {s : State} {ch : Chan} {v : Half} {e : Bool}

theorem dmaCycle_idle (h : (s.dma.chan ch).active = false) : dmaCycle ch v e s = .ok ((), s) := by
  unfold dmaCycle
  rw [run_peek_bind, h]
  rfl

theorem dmaCycle_refused (h : (s.dma.chan ch).active = true) (hodd : ¬DmaEven (s.dma.chan ch)) :
    dmaCycle ch v e s = .error (.refuse .dmaProgramming) := by
  have hparams : (s.dma.chan ch).paramsOk = false := Bool.eq_false_iff.2 fun hp => hodd ((DmaChan.paramsOk_iff _).1 hp)
  unfold dmaCycle
  rw [run_peek_bind, h, hparams]
  rfl

/-- A cycle of an active channel is its transfer, then the counters (R702). -/
theorem dmaCycle_active {t : State} (h : (s.dma.chan ch).active = true) (heven : DmaEven (s.dma.chan ch))
    (ht : dmaTransfer ch (s.dma.chan ch) v s = .ok ((), t)) :
    dmaCycle ch v e s = .ok ((), t.modChan ch (·.endCycle e)) := by
  unfold dmaCycle
  rw [run_peek_bind, h, if_pos rfl, run_require_then ((DmaChan.paramsOk_iff _).2 heven)]
  exact run_bind_of_ok ht

/-- A transfer from memory to the device (R702). -/
theorem dmaTransfer_out {c : DmaChan} (hd : c.dir = false) (h : s.readable c.adc (if c.bwWord then 2 else 1)) :
    dmaTransfer ch c v s = .ok ((), { s with
      dmaOut := s.dmaOut ++ [⟨ch, c.bwWord, (s.valueAt c.adc (if c.bwWord then 2 else 1)).setWidth 16⟩] }) := by
  unfold dmaTransfer
  rw [hd]
  cases hb : c.bwWord with
  | false =>
    rw [hb] at h
    exact run_bind_of_ok (run_busRead_of_readable (n := 1) (by decide) h)
  | true =>
    rw [hb] at h
    exact run_bind_of_ok (run_busRead_of_readable (n := 2) (by decide) h)

/-- A transfer from the device to memory (R702). -/
theorem dmaTransfer_in {c : DmaChan} (hd : c.dir = true) (h : s.writable c.adc (if c.bwWord then 2 else 1)) :
    dmaTransfer ch c v s = .ok ((), s.pokeBus c.adc (if c.bwWord then 2 else 1) (v.setWidth _)) := by
  unfold dmaTransfer
  rw [hd]
  cases hb : c.bwWord with
  | false =>
    rw [hb] at h
    exact run_busWrite_of_writable (n := 1) _ (by decide) h
  | true =>
    rw [hb] at h
    exact run_busWrite_of_writable (n := 2) _ (by decide) h

end

/-- The counters before EOT and terminal count are looked at (R702). -/
def DmaChan.stepped (c : DmaChan) : DmaChan :=
  { c with bltc := c.bltc - (if c.bwWord then 2 else 1), adc := if c.ad then c.adc + (if c.bwWord then 2 else 1) else c.adc }

theorem DmaChan.endCycle_eot (c : DmaChan) : c.endCycle true = { c.stepped with eot := true, chen := false } := by
  have hend : c.endCycle true = { c.stepped with eot := true, chen := c.chen && false } := rfl
  rw [hend, Bool.and_false]

theorem DmaChan.endCycle_of_ne {c : DmaChan} (h : c.bltc ≠ if c.bwWord then 2 else 1) : c.endCycle false = c.stepped := by
  have hne : ¬c.stepped.bltc = 0 := fun h0 => h (sub_eq_zero.1 h0)
  exact if_neg hne

theorem DmaChan.endCycle_of_eq {c : DmaChan} (h : c.bltc = if c.bwWord then 2 else 1) :
    c.endCycle false = c.stepped.terminalCount := by
  have h0 : c.stepped.bltc = 0 := sub_eq_zero.2 h
  exact if_pos h0

theorem DmaChan.terminalCount_reload {c : DmaChan} (h : c.ot = true) :
    c.terminalCount = { c with tc := true, adc := c.adr, bltc := c.bltr } := if_pos h

theorem DmaChan.terminalCount_next {c : DmaChan} (hot : c.ot = false) (hvld : c.vld = true) :
    c.terminalCount = { c with tc := true, adc := c.adr, bltc := c.bltr, vld := false } :=
  (if_neg (by rw [hot]; decide)).trans (if_pos hvld)

theorem DmaChan.terminalCount_end {c : DmaChan} (hot : c.ot = false) (hvld : c.vld = false) (heot : c.eot = false) :
    c.terminalCount = { c with tc := true, ovr := true, chen := c.chen && !c.mOvr } := by
  refine (if_neg (by rw [hot]; decide)).trans ((if_neg (by rw [hvld]; decide)).trans ?_)
  show { c with tc := true, ovr := true, chen := c.chen && !(c.eot || (true && c.mOvr)) } = _
  rw [heot, Bool.false_or, Bool.true_and]

/-- Settles O59: the transfer, then the channel's counters; requests asserted together are the single ones in R710's order. -/
theorem dmaCycles : Obligations.DmaCycles := by
  refine ⟨fun s ch v e h => dmaCycle_idle h, fun s ch v e => ?_, fun c => ?_, fun s t u a w v0 v1 e0 e1 h0 h1 => ?_⟩
  · intro c n hact
    exact ⟨dmaCycle_refused hact, fun heven => ⟨fun hd h => dmaCycle_active hact heven (dmaTransfer_out hd h),
      fun hd h => dmaCycle_active hact heven (dmaTransfer_in hd h)⟩⟩
  · intro w u
    refine ⟨c.endCycle_eot, DmaChan.endCycle_of_ne, fun h => ⟨fun hot => ?_, fun hot hvld => ?_, fun hot hvld heot => ?_⟩⟩
    · exact (DmaChan.endCycle_of_eq h).trans (DmaChan.terminalCount_reload (c := c.stepped) hot)
    · exact (DmaChan.endCycle_of_eq h).trans (DmaChan.terminalCount_next (c := c.stepped) hot hvld)
    · exact (DmaChan.endCycle_of_eq h).trans (DmaChan.terminalCount_end (c := c.stepped) hot hvld heot)
  · exact (run_bind_of_ok (f := fun _ => event (.drq .ch1 v1 e1)) h0).trans h1

end Sys2Proof.Machine
end

section
/-! PROOFS. Counting the bits of a bit string. -/

namespace Sys2Proof.Machine

open Sys2Proof

/-- TBITS after l bits: R1 stands behind them (R572). -/
def State.tbitsAt (s : State) (l : Nat) : State :=
  { s with regs := { s.regs with r1 := s.regs.r1 + BitVec.ofNat 32 l } }

/-- The byte of bit l (R572). -/
def State.tbitsCell (s : State) (l : Nat) : Word := s.regs.r0 + BitVec.ofNat 32 ((s.regs.r1.toNat + l) / 8)

/-- Bit l (R572). -/
def State.tbitsBit (s : State) (l : Nat) : Bool := (s.valueAt (s.tbitsCell l) 1).getLsbD ((s.regs.r1.toNat + l) % 8)

theorem State.tbitsAt_get_r0 (s : State) (l : Nat) : (s.tbitsAt l).regs.get .r0 = s.regs.r0 := rfl

theorem State.tbitsAt_get_r1 (s : State) (l : Nat) : (s.tbitsAt l).regs.get .r1 = s.regs.r1 + BitVec.ofNat 32 l := rfl

section
variable {s : State} {opt : Bool}

/-- An offset below the limit R4 does not wrap. -/
theorem toNat_offset {l : Nat} (hl : l < s.regs.r4.toNat - s.regs.r1.toNat) :
    (s.regs.r1 + BitVec.ofNat 32 l).toNat = s.regs.r1.toNat + l := by
  bv_omega

theorem tbitsCell_eq {l : Nat} (hl : l < s.regs.r4.toNat - s.regs.r1.toNat) :
    s.regs.r0 + (s.regs.r1 + BitVec.ofNat 32 l) >>> 3 = s.tbitsCell l := by
  refine congrArg (s.regs.r0 + ·) (BitVec.eq_of_toNat_eq ?_)
  rw [BitVec.toNat_ushiftRight, toNat_offset hl, Nat.shiftRight_eq_div_pow, BitVec.toNat_ofNat, Nat.mod_eq_of_lt]
  omega

/-- One more bit is tested (R572). -/
theorem run_tbitsLoop_succ (hs : s.calm) {l : Nat} (hl : l < s.regs.r4.toNat - s.regs.r1.toNat) (h : s.readable (s.tbitsCell l) 1)
    (n m count : Nat) : tbitsLoop opt (n + 1) (m + 1) count (s.tbitsAt l) =
      if s.tbitsBit l = opt then tbitsLoop opt n m (count + 1) (s.tbitsAt (l + 1))
      else .ok ((count, s.tbitsBit l, true), s.tbitsAt (l + 1)) := by
  have hread : memRead ((s.tbitsAt l).regs.get .r0 + (s.tbitsAt l).regs.get .r1 >>> 3) 1 (s.tbitsAt l) =
      .ok (s.valueAt (s.tbitsCell l) 1, s.tbitsAt l) := by
    rw [State.tbitsAt_get_r0, State.tbitsAt_get_r1, tbitsCell_eq hl, run_memRead_of_readable (s := s.tbitsAt l) hs (by decide) h]
    exact congrArg (fun v => Except.ok (v, s.tbitsAt l)) (State.valueAt_of_mem rfl _ 1)
  have hbit : (s.valueAt (s.tbitsCell l) 1).getLsbD (((s.tbitsAt l).regs.get .r1).toNat % 8) = s.tbitsBit l := by
    rw [State.tbitsAt_get_r1, toNat_offset hl]
    rfl
  have hset : (s.tbitsAt l).setReg .r1 ((s.tbitsAt l).regs.get .r1 + 1) = s.tbitsAt (l + 1) := by
    have hr1 : s.regs.r1 + BitVec.ofNat 32 l + 1 = s.regs.r1 + BitVec.ofNat 32 (l + 1) := by
      rw [BitVec.ofNat_add, ← BitVec.add_assoc]
      rfl
    rw [State.tbitsAt_get_r1, hr1]
    rfl
  rw [tbitsLoop, run_bind_of_ok (run_getReg .r0 _), run_bind_of_ok (run_getReg .r1 _), run_bind_of_ok hread,
    run_bind_of_ok (run_setReg .r1 _ _), hset, hbit]
  split <;> rfl

/-- The first j bits, all equal to the option, are counted (R572). -/
theorem run_tbitsLoop_through (hs : s.calm) {n m j : Nat} (hm : m = s.regs.r4.toNat - s.regs.r1.toNat)
    (h : ∀ l, l < j → s.readable (s.tbitsCell l) 1) (hn : j ≤ n) (hjm : j ≤ m) (hbits : ∀ l, l < j → s.tbitsBit l = opt) :
    tbitsLoop opt n m 0 s = tbitsLoop opt (n - j) (m - j) j (s.tbitsAt j) := by
  induction j with
  | zero =>
    have h0 : s.tbitsAt 0 = s := by
      rw [State.tbitsAt, show s.regs.r1 + BitVec.ofNat 32 0 = s.regs.r1 from BitVec.add_zero _]
    rw [h0, Nat.sub_zero, Nat.sub_zero]
  | succ j ih =>
    have hnext (x : Nat) (hx : j + 1 ≤ x) : x - j = x - (j + 1) + 1 := by omega
    rw [ih (fun l hl => h l (by omega)) (by omega) (by omega) (fun l hl => hbits l (by omega)), hnext n hn, hnext m hjm,
      run_tbitsLoop_succ hs (by omega) (h j (Nat.lt_succ_self j)), if_pos (hbits j (Nat.lt_succ_self j))]

/-- TBITS is its loop, then R2, F and L (R572). -/
theorem exec_tbits {c : Nat} {f l : Bool} {t : State}
    (h : tbitsLoop opt s.regs.r3.toNat (s.regs.r4.toNat - s.regs.r1.toNat) 0 s = .ok ((c, f, l), t)) :
    exec (.tbits opt) s = .next (s.after (.tbits opt) { t with
      regs := { t.regs with r2 := BitVec.ofNat 32 c }
      psr := { t.psr with f := f, l := l } }) := by
  have hrun : (do
      let r1 ← getReg .r1
      let r3 ← getReg .r3
      let r4 ← getReg .r4
      let x ← tbitsLoop opt r3.toNat (r4.toNat - r1.toNat) 0
      setReg .r2 (BitVec.ofNat 32 x.1)
      updPsr (fun p => { p with f := x.2.1, l := x.2.2 })
      pure .seq : M Next) s = .ok (.seq, { t with
      regs := { t.regs with r2 := BitVec.ofNat 32 c }
      psr := { t.psr with f := f, l := l }
      psrTouched := true }) := by
    rw [run_bind_of_ok (run_getReg .r1 s), run_bind_of_ok (run_getReg .r3 s), run_bind_of_ok (run_getReg .r4 s)]
    exact run_bind_of_ok h
  exact (finish_seq_after (i := .tbits opt) hrun).trans rfl

/-- Settles O58: after the bits that are counted, each of the three limits ends the loop. -/
theorem bitStringCount : Obligations.BitStringCount := by
  intro opt s j n m cell bit done hs hread hn hm hbits
  have hthrough := run_tbitsLoop_through (n := n) (m := m) hs rfl (fun l hl => hread l (by omega) (by omega)) hn hm hbits
  refine ⟨fun heq => ?_, fun hlt heq => ?_, fun hlt hltm hbit => ?_⟩
  · have hend : tbitsLoop opt n m 0 s = .ok ((j, opt, true), s.tbitsAt j) := by
      rw [hthrough, ← heq, Nat.sub_self]
      rfl
    exact exec_tbits hend
  · have hend : tbitsLoop opt n m 0 s = .ok ((j, opt, false), s.tbitsAt j) := by
      rw [hthrough, ← heq, Nat.sub_self, show n - j = n - (j + 1) + 1 by omega]
      rfl
    exact exec_tbits hend
  · have hne : ¬s.tbitsBit j = opt := by
      intro h
      rw [show s.tbitsBit j = !opt from hbit] at h
      cases opt <;> contradiction
    have hlast : tbitsLoop opt n m 0 s = .ok ((j, !opt, true), s.tbitsAt (j + 1)) := by
      rw [hthrough, show n - j = n - (j + 1) + 1 by omega, show m - j = m - (j + 1) + 1 by omega,
        run_tbitsLoop_succ hs hltm (hread j hlt hltm), if_neg hne, show s.tbitsBit j = !opt from hbit]
    exact exec_tbits hlast

end

end Sys2Proof.Machine
end

section
/-! PROOFS. BITWT, the bit strings set from a table, and patterns. -/

namespace Sys2Proof.Machine

open Sys2Proof

/-! ### Parts shared by the graphics instructions -/

theorem run_bbShift {s : State} (h : s.regs.r2.toNat ≤ 15) : bbShift s = .ok ((), s) := by
  have hreq : require .shiftRange (decide (s.regs.r2.toNat ≤ 15)) s = .ok ((), s) := by
    rw [decide_eq_true h]
    rfl
  exact (run_bind_of_ok (run_getReg .r2 s)).trans hreq

theorem bitAddr_eq (a o : Word) : bitAddr a o = bitByte a o := by
  rw [bitAddr, bitByte, sshiftRight_eq_ofInt]
  rfl

theorem State.valueAt_regs (q : State) (x : Regs) (a : Word) (n : Nat) : ({ q with regs := x } : State).valueAt a n = q.valueAt a n :=
  State.valueAt_of_mem rfl a n

/-- Stores with other registers leave the machine quiet. -/
theorem pokes_quiet {addr : Nat → Word} {n : Nat} {val : Nat → State → BitVec (8 * n)} {s : State} (hs : s.quiet) (j : Nat) (x : Regs) :
    ({ pokes addr n val j s with regs := x } : State).quiet := by
  obtain ⟨m, d, w, h⟩ := pokes_eq addr n val j s
  rw [h]
  exact hs

@[simp] theorem Regs.get_r0 (x : Regs) : x.get .r0 = x.r0 := rfl
@[simp] theorem Regs.get_r1 (x : Regs) : x.get .r1 = x.r1 := rfl
@[simp] theorem Regs.get_r2 (x : Regs) : x.get .r2 = x.r2 := rfl
@[simp] theorem Regs.get_r3 (x : Regs) : x.get .r3 = x.r3 := rfl
@[simp] theorem Regs.get_r4 (x : Regs) : x.get .r4 = x.r4 := rfl
@[simp] theorem Regs.get_r5 (x : Regs) : x.get .r5 = x.r5 := rfl

/-! ### BITWT -/

section
variable {s : State}

theorem run_bitwt (hs : s.calm) (h2 : s.regs.r2.toNat ≤ 15) (hr : s.readable s.regs.r0 2) (hw : s.writable s.regs.r1 4) :
    exec .bitwt s = .next (s.after .bitwt
      { s.poke s.regs.r1 4 (s.valueAt s.regs.r1 4 ||| ((s.valueAt s.regs.r0 2).setWidth 32 <<< s.regs.r2.toNat)) with
        regs := { s.regs with r0 := s.regs.r0 + 2, r1 := s.regs.r1 + 2 } }) := by
  show execBitwt s = _
  unfold execBitwt
  refine finish_seq_after ?_
  rw [run_bind_of_ok (run_bbShift h2), run_bind_of_ok (run_getReg .r0 s), run_bind_of_ok (run_getReg .r1 s),
    run_bind_of_ok (run_getReg .r2 s), Regs.get_r0, Regs.get_r1, Regs.get_r2,
    run_bind_of_ok (run_memRead_of_readable (n := 2) hs (by decide) hr),
    run_bind_of_ok (run_memRead_of_readable (n := 4) hs (by decide) hw.readable),
    run_bind_of_ok (run_memWrite_of_writable (n := 4) _ hs (by decide) hw)]
  obtain ⟨m, d, w, h⟩ := State.poke_eq s s.regs.r1 4
    (s.valueAt s.regs.r1 4 ||| ((s.valueAt s.regs.r0 2).setWidth 32 <<< s.regs.r2.toNat))
  show (_ : M Next) (s.poke s.regs.r1 4
    (s.valueAt s.regs.r1 4 ||| ((s.valueAt s.regs.r0 2).setWidth 32 <<< s.regs.r2.toNat))) = _
  rw [h]
  rfl

/-! ### SBITS -/

theorem run_sbits_long (h : 25 < s.regs.r2.toNat) :
    exec .sbits s = .next (s.after .sbits { s with psr := { s.psr with f := true } }) := by
  show execSbits s = _
  unfold execSbits
  refine (finish_seq_after (u := { s with psr := { s.psr with f := true }, psrTouched := true }) ?_).trans rfl
  have hle : decide (s.regs.r2.toNat ≤ 25) = false := decide_eq_false (by omega)
  have hf : updPsr (fun p => { p with f := decide (25 < s.regs.r2.toNat) }) s =
      .ok ((), { s with psr := { s.psr with f := true }, psrTouched := true }) := by
    rw [decide_eq_true h]
    rfl
  rw [run_bind_of_ok (run_getReg .r0 s), run_bind_of_ok (run_getReg .r1 s), run_bind_of_ok (run_getReg .r2 s),
    run_bind_of_ok (run_getReg .r3 s), run_peek_bind]
  show (updPsr (fun p => { p with f := decide (25 < s.regs.r2.toNat) }) >>= fun _ => _) s = _
  rw [run_bind_of_ok hf]
  show (onlyIf (decide (s.regs.r2.toNat ≤ 25)) _ >>= fun _ => _) _ = _
  rw [hle]
  rfl

theorem run_sbitsStore (hs : s.calm) {a entry : Word} (hr : s.readable entry 4) (hw : s.writable a 4) :
    sbitsStore a entry s = .ok ((), s.poke a 4 (s.valueAt a 4 ||| s.valueAt entry 4)) := by
  unfold sbitsStore
  rw [run_bind_of_ok (run_memRead_of_readable (n := 4) hs (by decide) hr),
    run_bind_of_ok (run_memRead_of_readable (n := 4) hs (by decide) hw.readable)]
  exact run_memWrite_of_writable (n := 4) _ hs (by decide) hw

theorem run_sbitsStore_psr (hs : s.calm) {a entry : Word} (hr : s.readable entry 4) (hw : s.writable a 4) (p : Psr) :
    sbitsStore a entry { s with psr := p, psrTouched := true } = .ok ((),
      { s.poke a 4 (s.valueAt a 4 ||| s.valueAt entry 4) with psr := p, psrTouched := true }) := by
  have hv (b : Word) : ({ s with psr := p, psrTouched := true } : State).valueAt b 4 = s.valueAt b 4 := State.valueAt_of_mem rfl b 4
  rw [run_sbitsStore (s := { s with psr := p, psrTouched := true }) hs hr hw, hv, hv]
  rfl

theorem run_sbits_short (hs : s.calm) (h : s.regs.r2.toNat ≤ 25) {entry a : Word}
    (hentry : s.regs.r3 + BitVec.ofNat 32 (4 * sbitsIndex s.plat.sbitsIndex (s.regs.r1.toNat % 8) s.regs.r2.toNat) = entry)
    (ha : bitByte s.regs.r0 s.regs.r1 = a) (hr : s.readable entry 4) (hw : s.writable a 4) :
    exec .sbits s = .next (s.after .sbits
      { s.poke a 4 (s.valueAt a 4 ||| s.valueAt entry 4) with psr := { s.psr with f := false } }) := by
  have hle : decide (s.regs.r2.toNat ≤ 25) = true := decide_eq_true h
  have hlong : decide (25 < s.regs.r2.toNat) = false := decide_eq_false (by omega)
  show execSbits s = _
  unfold execSbits
  refine (finish_seq_after (u := { s.poke a 4 (s.valueAt a 4 ||| s.valueAt entry 4) with
    psr := { s.psr with f := false }, psrTouched := true }) ?_).trans rfl
  rw [run_bind_of_ok (run_getReg .r0 s), run_bind_of_ok (run_getReg .r1 s), run_bind_of_ok (run_getReg .r2 s),
    run_bind_of_ok (run_getReg .r3 s), run_peek_bind, Regs.get_r0, Regs.get_r1, Regs.get_r2, Regs.get_r3, hle, hlong, bitAddr_eq,
    hentry, ha, run_bind_of_ok (run_updPsr _ s)]
  exact run_bind_of_ok ((run_onlyIf_true _ _).trans (run_sbitsStore_psr hs hr hw { s.psr with f := false }))

/-! ### Patterns and bit strings at equal distances -/

/-- Whether the run stands back on its last place (D17). -/
def State.stepsBack (s : State) : Bool := s.plat.movmpFinal == .last

theorem run_finalStep (t : State) (ran : Bool) (r step : Reg) : finalStep .done ran r step t =
    .ok ((), if (ran && t.stepsBack) = true then t.setReg r (t.regs.get r - t.regs.get step) else t) := by
  unfold finalStep State.stepsBack
  rw [run_peek_bind]
  cases ran with
  | false => rfl
  | true => cases t.plat.movmpFinal <;> rfl

theorem stepsBack_iff (s : State) (r : Word) : ((r != 0) && s.stepsBack) = true ↔ s.plat.movmpFinal = .last ∧ r ≠ 0 := by
  rw [Bool.and_eq_true, bne_iff_ne, State.stepsBack, beq_iff_eq, and_comm]

/-- The registers of MOVMP after l stores (R570). -/
def Regs.movmpAt (x : Regs) (l : Nat) : Regs := { x with r0 := x.r0 + BitVec.ofNat 32 l * x.r1, r2 := x.r2 - BitVec.ofNat 32 l }

/-- The registers of SBITPS after l bits (R585). -/
def Regs.sbitpsAt (x : Regs) (l : Nat) : Regs := { x with r1 := x.r1 + BitVec.ofNat 32 l * x.r3, r2 := x.r2 - BitVec.ofNat 32 l }

theorem stride_succ (a d : Word) (l : Nat) : a + BitVec.ofNat 32 l * d + d = a + BitVec.ofNat 32 (l + 1) * d := by
  have h1 : BitVec.ofNat 32 1 = (1 : Word) := rfl
  rw [BitVec.ofNat_add, h1]
  ring

theorem stride_zero (a d : Word) : a + BitVec.ofNat 32 0 * d = a := by
  have h0 : BitVec.ofNat 32 0 * d = 0 := BitVec.zero_mul
  rw [h0]
  exact BitVec.add_zero a

theorem stride_toNat (a d r : Word) : a + BitVec.ofNat 32 r.toNat * d = a + r * d := by
  rw [BitVec.ofNat_toNat, BitVec.setWidth_eq]

theorem Regs.movmpAt_zero (x : Regs) : x.movmpAt 0 = x := by
  have h0 : x.r2 - BitVec.ofNat 32 0 = x.r2 := BitVec.sub_zero _
  rw [Regs.movmpAt, stride_zero, h0]

theorem Regs.sbitpsAt_zero (x : Regs) : x.sbitpsAt 0 = x := by
  have h0 : x.r2 - BitVec.ofNat 32 0 = x.r2 := BitVec.sub_zero _
  rw [Regs.sbitpsAt, stride_zero, h0]

theorem Regs.movmpAt_succ (x : Regs) (l : Nat) :
    ((x.movmpAt l).set .r0 ((x.movmpAt l).r0 + (x.movmpAt l).r1)).set .r2 ((x.movmpAt l).r2 - 1) = x.movmpAt (l + 1) := by
  have h0 : (x.movmpAt l).r0 + (x.movmpAt l).r1 = x.r0 + BitVec.ofNat 32 (l + 1) * x.r1 := stride_succ _ _ _
  have h2 : (x.movmpAt l).r2 - 1 = x.r2 - BitVec.ofNat 32 (l + 1) := count_succ _ _
  rw [h0, h2]
  rfl

theorem Regs.sbitpsAt_succ (x : Regs) (l : Nat) :
    ((x.sbitpsAt l).set .r1 ((x.sbitpsAt l).r1 + (x.sbitpsAt l).r3)).set .r2 ((x.sbitpsAt l).r2 - 1) = x.sbitpsAt (l + 1) := by
  have h1 : (x.sbitpsAt l).r1 + (x.sbitpsAt l).r3 = x.r1 + BitVec.ofNat 32 (l + 1) * x.r3 := stride_succ _ _ _
  have h2 : (x.sbitpsAt l).r2 - 1 = x.r2 - BitVec.ofNat 32 (l + 1) := count_succ _ _
  rw [h1, h2]
  rfl

/-- One store of a pattern (R570). -/
theorem run_movmpIteration {n l : Nat} {t : State} (hn : 0 < n) (ht : t.calm) (hregs : t.regs = s.regs.movmpAt l) (hl : l < s.regs.r2.toNat)
    (hw : t.writable (s.regs.r0 + BitVec.ofNat 32 l * s.regs.r1) n) : movmpIteration n t =
      .ok (decide (l + 1 < s.regs.r2.toNat),
        { t.poke (s.regs.r0 + BitVec.ofNat 32 l * s.regs.r1) n (s.regs.r3.setWidth _) with regs := s.regs.movmpAt (l + 1) }) := by
  have h0 : (s.regs.movmpAt l).r0 = s.regs.r0 + BitVec.ofNat 32 l * s.regs.r1 := rfl
  have h3 : (s.regs.movmpAt l).r3 = s.regs.r3 := rfl
  have hmore : ((s.regs.movmpAt l).r2 - 1 != 0) = decide (l + 1 < s.regs.r2.toNat) := count_goesOn hl
  unfold movmpIteration
  rw [run_bind_of_ok (run_getReg .r0 t), run_bind_of_ok (run_getReg .r1 t), run_bind_of_ok (run_getReg .r2 t),
    run_bind_of_ok (run_getReg .r3 t), hregs, Regs.get_r0, Regs.get_r1, Regs.get_r2, Regs.get_r3, h0, h3,
    run_bind_of_ok (run_memWrite_of_writable (s.regs.r3.setWidth _) ht hn hw), hmore, ← Regs.movmpAt_succ, ← hregs]
  obtain ⟨m, d, w, h⟩ := State.poke_eq t (s.regs.r0 + BitVec.ofNat 32 l * s.regs.r1) n (s.regs.r3.setWidth _)
  rw [h, ← h0, ← hregs]
  rfl

/-- One bit of a bit string (R585). -/
theorem run_sbitpsIteration {l : Nat} {t : State} (ht : t.calm) (hregs : t.regs = s.regs.sbitpsAt l) (hl : l < s.regs.r2.toNat) {o a : Word}
    (ho : s.regs.r1 + BitVec.ofNat 32 l * s.regs.r3 = o) (ha : bitByte s.regs.r0 o = a) (hw : t.writable a 1) : sbitpsIteration t =
      .ok (decide (l + 1 < s.regs.r2.toNat),
        { t.poke a 1 (putBitAt (t.valueAt a 1) (o.toInt % 8).toNat true) with regs := s.regs.sbitpsAt (l + 1) }) := by
  have h0 : (s.regs.sbitpsAt l).r0 = s.regs.r0 := rfl
  have h1 : (s.regs.sbitpsAt l).r1 = o := ho
  have hmore : ((s.regs.sbitpsAt l).r2 - 1 != 0) = decide (l + 1 < s.regs.r2.toNat) := count_goesOn hl
  have hbit : t.valueAt a 1 ||| BitVec.twoPow 8 (o.toNat % 8) = putBitAt (t.valueAt a 1) (o.toInt % 8).toNat true := by
    rw [toNat_mod_eq_toInt o (.inl rfl)]
    rfl
  unfold sbitpsIteration
  rw [run_bind_of_ok (run_getReg .r0 t), run_bind_of_ok (run_getReg .r1 t), run_bind_of_ok (run_getReg .r2 t),
    run_bind_of_ok (run_getReg .r3 t), hregs, Regs.get_r0, Regs.get_r1, Regs.get_r2, Regs.get_r3, h0, h1, bitAddr_eq, ha,
    run_bind_of_ok (run_memRead_of_readable (n := 1) ht (by decide) hw.readable), hbit,
    run_bind_of_ok (run_memWrite_of_writable (n := 1) _ ht (by decide) hw), hmore, ← Regs.sbitpsAt_succ, ← h1]
  obtain ⟨m, d, w, h⟩ := State.poke_eq t a 1 (putBitAt (t.valueAt a 1) ((s.regs.sbitpsAt l).r1.toInt % 8).toNat true)
  rw [h, ← hregs]
  rfl

/-- The place of store j of MOVMP (R570). -/
def State.movmpPlace (s : State) (j : Nat) : Word := s.regs.r0 + BitVec.ofNat 32 j * s.regs.r1

/-- The bit offset of bit j of SBITPS (R585). -/
def State.sbitpsOffset (s : State) (j : Nat) : Word := s.regs.r1 + BitVec.ofNat 32 j * s.regs.r3

/-- The byte of bit j of SBITPS (R571, R585). -/
def State.sbitpsPlace (s : State) (j : Nat) : Word := bitByte s.regs.r0 (s.sbitpsOffset j)

/-- That byte with the bit set. -/
def State.sbitpsByte (s : State) (j : Nat) (t : State) : BitVec (8 * 1) :=
  putBitAt (t.valueAt (s.sbitpsPlace j) 1) ((s.sbitpsOffset j).toInt % 8).toNat true

/-- MOVMP after l stores. -/
def State.movmpAt (s : State) (n l : Nat) : State :=
  { pokes s.movmpPlace n (fun _ _ => s.regs.r3.setWidth _) l s with regs := s.regs.movmpAt l }

/-- SBITPS after l bits. -/
def State.sbitpsAt (s : State) (l : Nat) : State :=
  { pokes s.sbitpsPlace 1 s.sbitpsByte l s with regs := s.regs.sbitpsAt l }

theorem State.movmpAt_plat (n l : Nat) : (s.movmpAt n l).plat = s.plat := pokes_plat _ _ _ l s

theorem State.sbitpsAt_plat (l : Nat) : (s.sbitpsAt l).plat = s.plat := pokes_plat _ _ _ l s

/-- MOVMP's loop (R570). -/
theorem run_movmpLoop {n : Nat} (hn : 0 < n) (hs : s.quiet) (hw : ∀ j, j < s.regs.r2.toNat → s.writable (s.movmpPlace j) n) :
    loop (movmpIteration n) s.regs.r2.toNat s = .ok (.done, s.movmpAt n s.regs.r2.toNat) := by
  have h0 : s.movmpAt n 0 = s := by
    rw [State.movmpAt, Regs.movmpAt_zero]
    rfl
  have hloop := run_loop_all (body := movmpIteration n) (n := s.regs.r2.toNat) (st := s.movmpAt n) (fun l hl =>
    run_movmpIteration hn (pokes_quiet hs l _).1 rfl hl ((hw l hl).of_plat (State.movmpAt_plat n l))) (fun l _ => pokes_quiet hs l _)
  rwa [h0] at hloop

/-- SBITPS's loop (R585). -/
theorem run_sbitpsLoop (hs : s.quiet) (hw : ∀ j, j < s.regs.r2.toNat → s.writable (s.sbitpsPlace j) 1) :
    loop sbitpsIteration s.regs.r2.toNat s = .ok (.done, s.sbitpsAt s.regs.r2.toNat) := by
  have h0 : s.sbitpsAt 0 = s := by
    rw [State.sbitpsAt, Regs.sbitpsAt_zero]
    rfl
  have hbody (l : Nat) (hl : l < s.regs.r2.toNat) :
      sbitpsIteration (s.sbitpsAt l) = .ok (decide (l + 1 < s.regs.r2.toNat), s.sbitpsAt (l + 1)) := by
    have hv : (s.sbitpsAt l).valueAt (s.sbitpsPlace l) 1 = (pokes s.sbitpsPlace 1 s.sbitpsByte l s).valueAt (s.sbitpsPlace l) 1 :=
      State.valueAt_of_mem rfl _ 1
    rw [run_sbitpsIteration (t := s.sbitpsAt l) (pokes_quiet hs l _).1 rfl hl (o := s.sbitpsOffset l) (a := s.sbitpsPlace l) rfl rfl
      ((hw l hl).of_plat (State.sbitpsAt_plat l)), hv]
    rfl
  have hloop := run_loop_all (body := sbitpsIteration) (n := s.regs.r2.toNat) (st := s.sbitpsAt) hbody (fun l _ => pokes_quiet hs l _)
  rwa [h0] at hloop

theorem Regs.movmpAt_end (x : Regs) : x.movmpAt x.r2.toNat = { x with r0 := x.r0 + x.r2 * x.r1, r2 := 0 } := by
  rw [Regs.movmpAt, stride_toNat, count_self]

theorem Regs.sbitpsAt_end (x : Regs) : x.sbitpsAt x.r2.toNat = { x with r1 := x.r1 + x.r2 * x.r3, r2 := 0 } := by
  rw [Regs.sbitpsAt, stride_toNat, count_self]

theorem exec_movmpi (i : Size) (hs : s.quiet) (hw : ∀ j, j < s.regs.r2.toNat → s.writable (s.movmpPlace j) i.bytes) :
    exec (.movmpi i) s = .next (s.after (.movmpi i)
      { pokes s.movmpPlace i.bytes (fun _ _ => s.regs.r3.setWidth _) s.regs.r2.toNat s with
        regs := { s.regs with
          r0 := if s.plat.movmpFinal = .last ∧ s.regs.r2 ≠ 0 then s.regs.r0 + s.regs.r2 * s.regs.r1 - s.regs.r1
            else s.regs.r0 + s.regs.r2 * s.regs.r1
          r2 := 0 } }) := by
  have hback : (s.movmpAt i.bytes s.regs.r2.toNat).stepsBack = s.stepsBack :=
    congrArg (·.movmpFinal == .last) (State.movmpAt_plat _ _)
  show execMovmpi i s = _
  unfold execMovmpi
  refine finish_seq_after ?_
  rw [run_bind_of_ok (run_getReg .r2 s), Regs.get_r2, run_bind_of_ok (run_movmpLoop (size_bytes_pos i) hs hw),
    run_bind_of_ok (run_finalStep _ _ _ _), hback]
  refine congrArg (fun t => Except.ok (Next.seq, t)) ?_
  rw [State.movmpAt, Regs.movmpAt_end]
  by_cases hc : s.plat.movmpFinal = .last ∧ s.regs.r2 ≠ 0
  · rw [if_pos ((stepsBack_iff s _).2 hc), if_pos hc]
    rfl
  · rw [if_neg (fun h => hc ((stepsBack_iff s _).1 h)), if_neg hc]

theorem exec_sbitps (hs : s.quiet) (hw : ∀ j, j < s.regs.r2.toNat → s.writable (s.sbitpsPlace j) 1) :
    exec .sbitps s = .next (s.after .sbitps
      { pokes s.sbitpsPlace 1 s.sbitpsByte s.regs.r2.toNat s with
        regs := { s.regs with
          r1 := if s.plat.movmpFinal = .last ∧ s.regs.r2 ≠ 0 then s.regs.r1 + s.regs.r2 * s.regs.r3 - s.regs.r3
            else s.regs.r1 + s.regs.r2 * s.regs.r3
          r2 := 0 } }) := by
  have hback : (s.sbitpsAt s.regs.r2.toNat).stepsBack = s.stepsBack := congrArg (·.movmpFinal == .last) (State.sbitpsAt_plat _)
  show execSbitps s = _
  unfold execSbitps
  refine finish_seq_after ?_
  rw [run_bind_of_ok (run_getReg .r2 s), Regs.get_r2, run_bind_of_ok (run_sbitpsLoop hs hw),
    run_bind_of_ok (run_finalStep _ _ _ _), hback]
  refine congrArg (fun t => Except.ok (Next.seq, t)) ?_
  rw [State.sbitpsAt, Regs.sbitpsAt_end]
  by_cases hc : s.plat.movmpFinal = .last ∧ s.regs.r2 ≠ 0
  · rw [if_pos ((stepsBack_iff s _).2 hc), if_pos hc]
    rfl
  · rw [if_neg (fun h => hc ((stepsBack_iff s _).1 h)), if_neg hc]

end

theorem sbitsIndex_eq (p : Platform) (o len : Word) : sbitsIndex p.sbitsIndex (o.toNat % 8) len.toNat = (match p.sbitsIndex with
    | .offsetMajor => (o.toInt % 8).toNat * 32 + len.toNat
    | .lengthMajor => len.toNat * 8 + (o.toInt % 8).toNat) := by
  rw [toNat_mod_eq_toInt o (.inl rfl)]
  cases p.sbitsIndex <;> rfl

/-- Settles O57, one instruction at a time. -/
theorem patternAndBitStrings : Obligations.PatternAndBitStrings := by
  refine ⟨fun s hs h2 hr hw => run_bitwt hs h2 hr hw, fun s h => run_sbits_long h, fun s hs h => ?_, fun i s hs hw => ?_,
    fun s hs => ?_⟩
  · intro off entry a hr hw
    refine run_sbits_short hs h ?_ rfl hr hw
    exact congrArg (fun j => s.regs.r3 + BitVec.ofNat 32 (4 * j)) (sbitsIndex_eq s.plat s.regs.r1 s.regs.r2)
  · exact exec_movmpi i hs hw
  · intro at' hw
    exact exec_sbitps hs hw

end Sys2Proof.Machine
end

section
/-! PROOFS. The BB instructions. -/

namespace Sys2Proof.Machine

open Sys2Proof

/-! ### Addresses of a block -/

section
variable (base step warp : Word) (words l w : Nat)

theorem blockAddr_zero : blockAddr base step warp words 0 0 = base := by
  have h0 (x : Word) : BitVec.ofNat 32 0 * x = 0 := BitVec.zero_mul
  rw [blockAddr, h0, h0]
  exact (BitVec.add_zero _).trans (BitVec.add_zero base)

theorem blockAddr_step : blockAddr base step warp words l w + step = blockAddr base step warp words l (w + 1) := stride_succ _ _ _

theorem blockAddr_warp : blockAddr base step warp words l words + warp = blockAddr base step warp words (l + 1) 0 := by
  have h0 : BitVec.ofNat 32 0 * step = 0 := BitVec.zero_mul
  have h1 : BitVec.ofNat 32 1 = (1 : Word) := rfl
  rw [blockAddr, blockAddr, h0, BitVec.ofNat_add, h1]
  ring

end

/-- Word w of line l is word l · words + w of the block. -/
theorem word_div {words l w : Nat} (hw : w < words) : (l * words + w) / words = l := by
  rw [Nat.mul_comm, Nat.mul_add_div (by omega), Nat.div_eq_of_lt hw, Nat.add_zero]

theorem word_mod {words l w : Nat} (hw : w < words) : (l * words + w) % words = w := by
  rw [Nat.mul_comm, Nat.mul_add_mod, Nat.mod_eq_of_lt hw]

theorem word_lt {words lines l w : Nat} (hl : l < lines) (hw : w < words) : l * words + w < lines * words := by
  have := Nat.mul_le_mul_right words (Nat.succ_le_of_lt hl)
  rw [Nat.succ_mul] at this
  omega

/-! ### One word -/

section
variable {fn : BBFn} {o : BBOpts} {s t : State} {l w : Nat}

/-- The double-word stored for source word `v` and destination double-word `d` (R554). -/
def bbStored (fn : BBFn) (o : BBOpts) (m : Half) (shift : Nat) (v : Half) (d : Word) : Word :=
  bbCombine fn d (((if o.negS then ~~~v else v) &&& m).setWidth 32 <<< shift) (m.setWidth 32 <<< shift)

theorem State.bbValue_eq (s : State) {words : Nat} (hw : w < words) (q : State) : s.bbValue fn o words (l * words + w) q =
    bbStored fn o (bbMask s.regs.r4 s.regs.r5 w words) s.regs.r2.toNat
      (q.valueAt (s.bbSource o words (l * words + w)) 2) (q.valueAt (s.bbTarget o words (l * words + w)) 4) := by
  have hnot (v : Half) : v ^^^ 0xFFFF = ~~~v := by
    rw [BitVec.not_def, BitVec.xor_comm]
    rfl
  unfold State.bbValue bbStored bbMask
  rw [word_mod hw, ← hnot]
  cases fn <;> rfl

/-- One word of a block (R554). -/
theorem run_bbWord {a b v : Word} {words : Nat} (ht : t.calm) (h0 : t.regs.r0 = a) (h1 : t.regs.r1 = b) (hr : t.readable a 2)
    (hw : t.writable b 4)
    (hv : bbStored fn o (bbMask t.regs.r4 t.regs.r5 w words) t.regs.r2.toNat (t.valueAt a 2) (t.valueAt b 4) = v) :
    bbWord fn o w words t = .ok ((), { t.poke b 4 v with regs := { t.regs with r0 := a + bbStep o, r1 := b + bbStep o } }) := by
  unfold bbWord
  rw [run_bind_of_ok (run_getReg .r0 t), run_bind_of_ok (run_getReg .r1 t), run_bind_of_ok (run_getReg .r2 t),
    run_bind_of_ok (run_getReg .r4 t), run_bind_of_ok (run_getReg .r5 t), Regs.get_r0, Regs.get_r1, Regs.get_r2, Regs.get_r4,
    Regs.get_r5, h0, h1, run_bind_of_ok (run_memRead_of_readable (n := 2) ht (by decide) hr),
    run_bind_of_ok (run_memRead_of_readable (n := 4) ht (by decide) hw.readable)]
  show (memWrite b 4 (bbStored fn o (bbMask t.regs.r4 t.regs.r5 w words) t.regs.r2.toNat (t.valueAt a 2) (t.valueAt b 4)) >>=
    fun _ => _) t = _
  rw [hv, run_bind_of_ok (run_memWrite_of_writable (n := 4) v ht (by decide) hw)]
  obtain ⟨m, d, x, h⟩ := State.poke_eq t b 4 v
  rw [h]
  rfl

/-! ### The lines -/

/-- A BB instruction before word w of line l. -/
def State.bbAt (s : State) (fn : BBFn) (o : BBOpts) (l w : Nat) : State :=
  { pokes (s.bbTarget o s.bbWords) 4 (s.bbValue fn o s.bbWords) (l * s.bbWords + w) s with
    regs := { s.regs with
      r0 := blockAddr s.regs.r0 (bbStep o) s.regs.r6 s.bbWords l w
      r1 := blockAddr s.regs.r1 (bbStep o) s.regs.r7 s.bbWords l w
      r3 := s.regs.r3 - BitVec.ofNat 32 l } }

theorem State.bbAt_quiet (hs : s.quiet) : (s.bbAt fn o l w).quiet := pokes_quiet hs _ _

theorem State.bbAt_plat : (s.bbAt fn o l w).plat = s.plat := pokes_plat _ _ _ _ s

theorem State.valueAt_bbAt (a : Word) (n : Nat) : (s.bbAt fn o l w).valueAt a n =
    (pokes (s.bbTarget o s.bbWords) 4 (s.bbValue fn o s.bbWords) (l * s.bbWords + w) s).valueAt a n := State.valueAt_regs _ _ a n

theorem State.bbAt_zero : s.bbAt fn o 0 0 = s := by
  have h3 : s.regs.r3 - BitVec.ofNat 32 0 = s.regs.r3 := BitVec.sub_zero _
  rw [State.bbAt, blockAddr_zero, blockAddr_zero, h3, Nat.zero_mul]
  rfl

/-- A word of a line leads to the next (R554). -/
theorem run_bbWord_bbAt (h : BBReady o s) (hl : l < s.regs.r3.toNat) (hw : w < s.bbWords) :
    bbWord fn o w s.bbWords (s.bbAt fn o l w) = .ok ((), s.bbAt fn o l (w + 1)) := by
  have hsource : s.bbSource o s.bbWords (l * s.bbWords + w) = blockAddr s.regs.r0 (bbStep o) s.regs.r6 s.bbWords l w := by
    rw [State.bbSource, word_div hw, word_mod hw]
  have htarget : s.bbTarget o s.bbWords (l * s.bbWords + w) = blockAddr s.regs.r1 (bbStep o) s.regs.r7 s.bbWords l w := by
    rw [State.bbTarget, word_div hw, word_mod hw]
  have hread := (h.source _ (word_lt hl hw)).of_plat (t := s.bbAt fn o l w) State.bbAt_plat
  have hwrite := (h.target _ (word_lt hl hw)).of_plat (t := s.bbAt fn o l w) State.bbAt_plat
  have hvalue : bbStored fn o (bbMask (s.bbAt fn o l w).regs.r4 (s.bbAt fn o l w).regs.r5 w s.bbWords)
      (s.bbAt fn o l w).regs.r2.toNat ((s.bbAt fn o l w).valueAt (s.bbSource o s.bbWords (l * s.bbWords + w)) 2)
      ((s.bbAt fn o l w).valueAt (s.bbTarget o s.bbWords (l * s.bbWords + w)) 4) = s.bbValue fn o s.bbWords (l * s.bbWords + w)
        (pokes (s.bbTarget o s.bbWords) 4 (s.bbValue fn o s.bbWords) (l * s.bbWords + w) s) := by
    rw [State.valueAt_bbAt, State.valueAt_bbAt, State.bbValue_eq s hw]
    rfl
  rw [run_bbWord (State.bbAt_quiet h.quiet).1 hsource.symm htarget.symm hread hwrite hvalue, hsource, blockAddr_step]
  conv_lhs => rw [htarget, blockAddr_step, ← htarget]
  rfl

theorem run_bbWords_bbAt (h : BBReady o s) (hl : l < s.regs.r3.toNat) {n : Nat} (hn : n ≤ s.bbWords) :
    bbWords fn o s.bbWords n (s.bbAt fn o l (s.bbWords - n)) = .ok ((), s.bbAt fn o l s.bbWords) := by
  induction n with
  | zero => rfl
  | succ n ih =>
    have hnext : s.bbWords - (n + 1) + 1 = s.bbWords - n := by omega
    rw [bbWords, run_bind_of_ok (run_bbWord_bbAt h hl (by omega)), hnext]
    exact ih (by omega)

theorem run_bbLine {words : Nat} {u : State} (h : bbWords fn o words words t = .ok ((), u)) : bbLine fn o words t =
    .ok (u.regs.r3 - 1 != 0, { u with
      regs := { u.regs with r0 := u.regs.r0 + u.regs.r6, r1 := u.regs.r1 + u.regs.r7, r3 := u.regs.r3 - 1 } }) := by
  unfold bbLine
  rw [run_bind_of_ok h]
  rfl

/-- The warps at the end of a line lead to the next line. -/
theorem State.bbAt_warp : ({ s.bbAt fn o l s.bbWords with
    regs := { (s.bbAt fn o l s.bbWords).regs with
      r0 := (s.bbAt fn o l s.bbWords).regs.r0 + (s.bbAt fn o l s.bbWords).regs.r6
      r1 := (s.bbAt fn o l s.bbWords).regs.r1 + (s.bbAt fn o l s.bbWords).regs.r7
      r3 := (s.bbAt fn o l s.bbWords).regs.r3 - 1 } } : State) = s.bbAt fn o (l + 1) 0 := by
  have h0 : (s.bbAt fn o l s.bbWords).regs.r0 + (s.bbAt fn o l s.bbWords).regs.r6 = _ := blockAddr_warp _ _ _ _ _
  have h1 : (s.bbAt fn o l s.bbWords).regs.r1 + (s.bbAt fn o l s.bbWords).regs.r7 = _ := blockAddr_warp _ _ _ _ _
  have h3 : (s.bbAt fn o l s.bbWords).regs.r3 - 1 = _ := count_succ _ _
  rw [h0, h1, h3, State.bbAt, State.bbAt, Nat.succ_mul, Nat.add_zero (l * s.bbWords + s.bbWords)]

/-- A line leads to the next (R554). -/
theorem run_bbLine_bbAt (h : BBReady o s) (hl : l < s.regs.r3.toNat) :
    bbLine fn o s.bbWords (s.bbAt fn o l 0) = .ok (decide (l + 1 < s.regs.r3.toNat), s.bbAt fn o (l + 1) 0) := by
  have hwords := run_bbWords_bbAt (fn := fn) h hl (Nat.le_refl s.bbWords)
  have hmore : ((s.bbAt fn o l s.bbWords).regs.r3 - 1 != 0) = decide (l + 1 < s.regs.r3.toNat) := count_goesOn hl
  rw [Nat.sub_self] at hwords
  rw [run_bbLine hwords, hmore, State.bbAt_warp]

theorem run_bbOp (h : BBReady o s) : bbOp fn o s = .ok (.seq, s.bbAt fn o s.regs.r3.toNat 0) := by
  have hloop := run_loop_all (body := bbLine fn o s.bbWords) (n := s.regs.r3.toNat) (st := fun l => s.bbAt fn o l 0)
    (fun l hl => run_bbLine_bbAt h hl) (fun l _ => State.bbAt_quiet h.quiet)
  rw [State.bbAt_zero] at hloop
  unfold bbOp
  rw [run_bind_of_ok (run_bbShift h.shift), run_bind_of_ok (run_getSp s),
    run_bind_of_ok (run_memRead_of_readable (n := 4) h.quiet.1 (by decide) h.width), run_bind_of_ok (run_getReg .r3 s)]
  exact run_bind_of_ok hloop

/-- An instruction that is the BB operation completes (R554). -/
theorem bbCompletes_of {i : Instr} (hexec : ∀ s, exec i s = finish i (bbOp fn o) s) : BBCompletes i fn o := by
  intro s h
  rw [hexec, finish_seq_after (run_bbOp h), State.bbAt, count_self]
  rfl

end

/-- Settles O54, the five being the one operation. -/
theorem bitBltsComplete : Obligations.BitBltsComplete :=
  ⟨fun _ => ⟨bbCompletes_of fun _ => rfl, bbCompletes_of fun _ => rfl, bbCompletes_of fun _ => rfl, bbCompletes_of fun _ => rfl⟩,
    bbCompletes_of fun _ => rfl⟩

end Sys2Proof.Machine
end

section
/-! PROOFS. EXTBLT. -/

namespace Sys2Proof.Machine

open Sys2Proof

/-! ### A loop that keeps an invariant -/

/-- A loop whose iterations lead from `P l` to `P (l + 1)`, the last of them saying so, ends with `P n`. -/
theorem run_loop_invariant {body : M Bool} {n : Nat} {P : Nat → State → Prop}
    (hbody : ∀ l t, l < n → P l t → ∃ u, body t = .ok (decide (l + 1 < n), u) ∧ P (l + 1) u) (hquiet : ∀ l t, P l t → t.quiet)
    {k j : Nat} (hj : j + k = n) {t : State} (ht : P j t) : ∃ u, loop body k t = .ok (.done, u) ∧ P n u := by
  induction k generalizing j t with
  | zero => exact ⟨t, rfl, hj ▸ ht⟩
  | succ k ih =>
    obtain ⟨u, hu, hP⟩ := hbody j t (by omega) ht
    cases k with
    | zero =>
      rw [decide_eq_false (by omega)] at hu
      rw [Nat.zero_add] at hj
      exact ⟨u, run_loop_last hu, hj ▸ hP⟩
    | succ k =>
      rw [decide_eq_true (by omega)] at hu
      rw [run_loop_again hu (hquiet _ _ hP)]
      exact ih (by omega) hP

/-! ### States that differ in the CPU's registers -/

/-- A state with other registers, PSR and place in the free values. -/
def State.withCpu (q : State) (x : Regs) (p : Psr) (k : Nat) : State := { q with regs := x, psr := p, psrTouched := true, freeCount := k }

/-- Stores and the BPU's latches are all that a state has of its own. -/
def OnlyStores (s t : State) : Prop := ∃ m d w b, t = { s with mem := m, dirty := d, written := w, bpu := b }

section
variable {s t : State}

theorem OnlyStores.refl (s : State) : OnlyStores s s := ⟨_, _, _, _, rfl⟩

theorem OnlyStores.extRead (h : OnlyStores s t) (a : Word) : OnlyStores s (t.extRead a) := by
  obtain ⟨m, d, w, b, rfl⟩ := h
  exact ⟨_, _, _, _, rfl⟩

theorem OnlyStores.poke (h : OnlyStores s t) (b : Bpu) (a : Word) {n : Nat} (v : BitVec (8 * n)) :
    OnlyStores s (({ t with bpu := b } : State).poke a n v) := by
  obtain ⟨m, d, w, hp⟩ := State.poke_eq { t with bpu := b } a n v
  obtain ⟨_, _, _, _, rfl⟩ := h
  exact ⟨m, d, w, b, hp⟩

theorem OnlyStores.plat (h : OnlyStores s t) : t.plat = s.plat := by
  obtain ⟨_, _, _, _, rfl⟩ := h
  rfl

theorem OnlyStores.quiet (h : OnlyStores s t) (hs : s.quiet) (x : Regs) (b : Bool) (k : Nat) :
    (t.withCpu x { s.psr with b := b } k).quiet := by
  obtain ⟨_, _, _, _, rfl⟩ := h
  exact hs

theorem State.valueAt_withCpu (q : State) (x : Regs) (p : Psr) (k : Nat) (a : Word) (n : Nat) :
    (q.withCpu x p k).valueAt a n = q.valueAt a n := State.valueAt_of_mem rfl a n

theorem State.extRead_withCpu (q : State) (x : Regs) (p : Psr) (k : Nat) (a : Word) :
    (q.withCpu x p k).extRead a = (q.extRead a).withCpu x p k := by
  rw [State.extRead, State.valueAt_withCpu]
  rfl

/-! ### One word -/

/-- The destination of a word of EXTBLT: read, combined with the source latches, stored (R564, R682-R685). -/
def State.extDest (u : State) (free : Half) (w : Nat) (b : Word) (d : Half) : State :=
  ({ u with bpu := { u.bpu with ddil := some d } }).poke b 2 (u.bpu.result w (u.bpu.sdil.getD free) (u.bpu.bil.getD free) d)

/-- A word of EXTBLT from the source at `a` to the destination at `b` (R564, R682-R685). -/
def State.extStore (t : State) (free : Half) (w : Nat) (a b : Word) : State :=
  (t.extRead a).extDest free w b ((t.extRead a).valueAt b 2)

theorem OnlyStores.extStore (h : OnlyStores s t) (free : Half) (w : Nat) (a b : Word) : OnlyStores s (t.extStore free w a b) :=
  (h.extRead a).poke _ b _

theorem State.extStore_withCpu (q : State) (x : Regs) (p : Psr) (k : Nat) (free : Half) (w : Nat) (a b : Word) :
    (q.withCpu x p k).extStore free w a b = (q.extStore free w a b).withCpu x p k := by
  rw [State.extStore, State.extRead_withCpu, State.valueAt_withCpu]
  rfl

theorem State.extStore_sdil (t : State) (free : Half) (w : Nat) (a b : Word) : (t.extStore free w a b).bpu.sdil ≠ none :=
  Option.some_ne_none _

/-- A source read steps the source pointer (R564). -/
theorem run_extbltSource (ht : t.calm) (h : t.readable t.regs.r0 2) : extbltSource t =
    .ok ((), { t.extRead t.regs.r0 with regs := { t.regs with r0 := t.regs.r0 + t.regs.r4 } }) := by
  unfold extbltSource
  rw [run_bind_of_ok (run_getReg .r0 t), run_bind_of_ok (run_getReg .r4 t), Regs.get_r0, Regs.get_r4,
    run_bind_of_ok (run_memRead_of_readable (n := 2) ht (by decide) h)]
  rfl

/-- The BPU's result with the latches SDIL and DDIL loaded; BIL, never loaded, takes the next free value (U4). -/
theorem run_bpuResult {x d free : Half} (hs : t.bpu.sdil = some x) (hd : t.bpu.ddil = some d)
    (hfree : t.bpu.bil = none → free = (Config.freeWord t.freeCount).setWidth 16) (w : Nat) :
    ∃ k, bpuResult w t = .ok (t.bpu.result w x (t.bpu.bil.getD free) d, { t with freeCount := k }) := by
  unfold bpuResult
  rw [run_peek_bind, hs, hd]
  cases hb : t.bpu.bil with
  | none =>
    rw [hfree hb]
    exact ⟨_, rfl⟩
  | some y => exact ⟨_, rfl⟩

/-- The part of a word that follows the source read (R564). -/
def extbltDest (w : Nat) : M Unit := do
  let r1 ← getReg .r1
  let r4 ← getReg .r4
  let d ← memRead r1 2
  bpuDest d
  let v ← bpuResult w
  memWrite r1 2 v
  setReg .r1 (r1 + r4)
  let r5 ← getReg .r5
  setReg .r5 (r5 - 2)

/-- The words of a line are its first, then the others (R564). -/
theorem extbltWords_succ (total n : Nat) : extbltWords total (n + 1) = (do
    extbltSource
    extbltDest (total - (n + 1))
    extbltWords total n) := by
  simp only [extbltWords, extbltDest, bind_assoc]

theorem run_extbltDest {u : State} {x free : Half} (hu : u.calm) (hs : u.bpu.sdil = some x)
    (hfree : u.bpu.bil = none → free = (Config.freeWord u.freeCount).setWidth 16) (hw : u.writable u.regs.r1 2) (w : Nat) :
    ∃ k, extbltDest w u = .ok ((), { u.extDest free w u.regs.r1 (u.valueAt u.regs.r1 2) with
      regs := { u.regs with r1 := u.regs.r1 + u.regs.r4, r5 := u.regs.r5 - 2 }
      freeCount := k }) := by
  unfold extbltDest
  rw [run_bind_of_ok (run_getReg .r1 u), run_bind_of_ok (run_getReg .r4 u), Regs.get_r1, Regs.get_r4,
    run_bind_of_ok (run_memRead_of_readable (n := 2) hu (by decide) hw.readable)]
  generalize u.valueAt u.regs.r1 2 = d
  obtain ⟨k, hv⟩ := run_bpuResult (t := { u with bpu := { u.bpu with ddil := some d } }) (x := x) (d := d) (free := free) hs rfl hfree w
  have hdest : bpuDest d u = .ok ((), { u with bpu := { u.bpu with ddil := some d } }) := rfl
  have hstore : memWrite u.regs.r1 2 (u.bpu.result w x (u.bpu.bil.getD free) d)
      { u with bpu := { u.bpu with ddil := some d }, freeCount := k } = .ok ((), { u.extDest free w u.regs.r1 d with freeCount := k }) := by
    rw [run_memWrite_of_writable (s := { u with bpu := { u.bpu with ddil := some d }, freeCount := k }) (n := 2) _ hu (by decide) hw,
      State.extDest, hs]
    rfl
  obtain ⟨m, d', w', h⟩ : ∃ m d' w', u.extDest free w u.regs.r1 d =
      { u with mem := m, dirty := d', written := w', bpu := { u.bpu with ddil := some d } } := State.poke_eq _ _ _ _
  rw [h] at hstore ⊢
  refine ⟨k, ?_⟩
  rw [run_bind_of_ok hdest, run_bind_of_ok hv]
  exact (run_bind_of_ok hstore).trans rfl

/-- The registers after a word (R564). -/
def Regs.extNext (x : Regs) : Regs := { x with r0 := x.r0 + x.r4, r1 := x.r1 + x.r4, r5 := x.r5 - 2 }

theorem run_extbltWords_succ {total n w : Nat} {free : Half} (hw : total - (n + 1) = w) (ht : t.calm)
    (hread : t.readable t.regs.r0 2) (hwrite : t.writable t.regs.r1 2)
    (hfree : t.bpu.sdil = none → free = (Config.freeWord t.freeCount).setWidth 16) : ∃ k, extbltWords total (n + 1) t =
      extbltWords total n { t.extStore free w t.regs.r0 t.regs.r1 with regs := t.regs.extNext, freeCount := k } := by
  have hsource := run_extbltSource ht hread
  obtain ⟨k, hdest⟩ := run_extbltDest (u := { t.extRead t.regs.r0 with regs := { t.regs with r0 := t.regs.r0 + t.regs.r4 } })
    (x := t.valueAt t.regs.r0 2) ht rfl hfree hwrite w
  rw [State.valueAt_regs] at hdest
  refine ⟨k, ?_⟩
  rw [extbltWords_succ, run_bind_of_ok hsource, hw, run_bind_of_ok hdest]
  rfl

theorem run_extbltLine {t1 u : State} (hpre : onlyIf (!t.psr.l) extbltSource (t.setReg .r5 t.regs.r2) = .ok ((), t1))
    (hwords : extbltWords (t.regs.r2.toNat / 2) (t.regs.r2.toNat / 2) t1 = .ok ((), u)) : extbltLine t =
      .ok (u.regs.r3 - 1 != 0, { u with
        regs := { u.regs with r0 := u.regs.r0 + u.regs.r6, r1 := u.regs.r1 + u.regs.r7, r3 := u.regs.r3 - 1 } }) := by
  unfold extbltLine
  rw [run_bind_of_ok (run_getReg .r2 t), Regs.get_r2, run_bind_of_ok (run_setReg .r5 _ t), run_peek_bind]
  show (onlyIf (!t.psr.l) extbltSource >>= fun _ => _) (t.setReg .r5 t.regs.r2) = _
  rw [run_bind_of_ok hpre, run_bind_of_ok hwords]
  rfl

end

/-! ### The lines -/

section
variable (s : State)

/-- What a source latch never loaded holds (U4): the value the model takes. -/
def State.extFree : Half := (Config.freeWord s.freeCount).setWidth 16

/-- The source words read before the first word of a line (R564). -/
def State.extPre : Nat := if s.psr.l then 0 else 1

/-- The registers in line l, with r source words read and w words stored. -/
def State.extRegs (l r w : Nat) (v : Word) : Regs :=
  { s.regs with
    r0 := blockAddr s.regs.r0 s.regs.r4 s.regs.r6 s.extReads l r
    r1 := blockAddr s.regs.r1 s.regs.r4 s.regs.r7 (s.regs.r2.toNat / 2) l w
    r3 := s.regs.r3 - BitVec.ofNat 32 l
    r5 := v }

/-- The start of line l, its first source word read if PSR.L is 0 (R564). -/
def State.extStart (l : Nat) : State :=
  if s.psr.l then s.extLines s.extFree l
  else (s.extLines s.extFree l).extRead (blockAddr s.regs.r0 s.regs.r4 s.regs.r6 s.extReads l 0)

/-- The running EXTBLT stands where memory and latches are those of `E`; a free value is taken only while SDIL is not loaded. -/
def ExtAt (E : State) (x : Regs) (t : State) : Prop :=
  ∃ k, t = E.withCpu x { s.psr with b := true } k ∧ (E.bpu.sdil = none → k = s.freeCount)

theorem State.extReads_eq : s.extReads = s.regs.r2.toNat / 2 + s.extPre := rfl

theorem State.extWord_eq (free : Half) (l w : Nat) (t : State) : s.extWord free l w t = t.extStore free w
    (blockAddr s.regs.r0 s.regs.r4 s.regs.r6 s.extReads l (w + s.extPre))
    (blockAddr s.regs.r1 s.regs.r4 s.regs.r7 (s.regs.r2.toNat / 2) l w) := rfl

theorem State.extLines_succ (l : Nat) : s.extLines s.extFree (l + 1) =
    s.extWords s.extFree l (s.regs.r2.toNat / 2) (s.extStart l) := rfl

theorem State.extRegs_next (l r w : Nat) (v : Word) : (s.extRegs l r w v).extNext = s.extRegs l (r + 1) (w + 1) (v - 2) := by
  have h0 : (s.extRegs l r w v).r0 + (s.extRegs l r w v).r4 = _ := blockAddr_step _ _ _ _ _ _
  have h1 : (s.extRegs l r w v).r1 + (s.extRegs l r w v).r4 = _ := blockAddr_step _ _ _ _ _ _
  rw [Regs.extNext, h0, h1]
  rfl

theorem State.extRegs_warp (l : Nat) (v : Word) : { s.extRegs l s.extReads (s.regs.r2.toNat / 2) v with
    r0 := (s.extRegs l s.extReads (s.regs.r2.toNat / 2) v).r0 + (s.extRegs l s.extReads (s.regs.r2.toNat / 2) v).r6
    r1 := (s.extRegs l s.extReads (s.regs.r2.toNat / 2) v).r1 + (s.extRegs l s.extReads (s.regs.r2.toNat / 2) v).r7
    r3 := (s.extRegs l s.extReads (s.regs.r2.toNat / 2) v).r3 - 1 } = s.extRegs (l + 1) 0 0 v := by
  have h0 : (s.extRegs l s.extReads (s.regs.r2.toNat / 2) v).r0 + (s.extRegs l s.extReads (s.regs.r2.toNat / 2) v).r6 = _ :=
    blockAddr_warp _ _ _ _ _
  have h1 : (s.extRegs l s.extReads (s.regs.r2.toNat / 2) v).r1 + (s.extRegs l s.extReads (s.regs.r2.toNat / 2) v).r7 = _ :=
    blockAddr_warp _ _ _ _ _
  have h3 : (s.extRegs l s.extReads (s.regs.r2.toNat / 2) v).r3 - 1 = _ := count_succ _ _
  rw [h0, h1, h3]
  rfl

variable {s} {t E : State} {l : Nat}

theorem OnlyStores.extWords (h : OnlyStores s E) (free : Half) (n : Nat) : OnlyStores s (s.extWords free l n E) := by
  induction n with
  | zero => exact h
  | succ n ih => exact ih.extStore _ _ _ _

theorem OnlyStores.extLines (s : State) (free : Half) (n : Nat) : OnlyStores s (s.extLines free n) := by
  induction n with
  | zero => exact .refl s
  | succ n ih =>
    rw [State.extLines]
    split
    · exact ih.extWords _ _
    · exact (ih.extRead _).extWords _ _

theorem OnlyStores.extStart (s : State) (l : Nat) : OnlyStores s (s.extStart l) := by
  unfold State.extStart
  split
  · exact .extLines s _ l
  · exact (OnlyStores.extLines s _ l).extRead _

theorem run_extbltPre (h : ExtReady s) (hl : l < s.regs.r3.toNat) (v : Word)
    (ht : ExtAt s (s.extLines s.extFree l) (s.extRegs l 0 0 v) t) :
    ∃ u, onlyIf (!t.psr.l) extbltSource t = .ok ((), u) ∧ ExtAt s (s.extStart l) (s.extRegs l s.extPre 0 v) u := by
  obtain ⟨k, rfl, hk⟩ := ht
  have hpsr : ((s.extLines s.extFree l).withCpu (s.extRegs l 0 0 v) { s.psr with b := true } k).psr.l = s.psr.l := rfl
  have hE := OnlyStores.extLines s s.extFree l
  rw [hpsr, State.extStart, State.extPre]
  cases hbit : s.psr.l with
  | true => exact ⟨_, rfl, k, rfl, hk⟩
  | false =>
    have hread : ((s.extLines s.extFree l).withCpu (s.extRegs l 0 0 v) { s.psr with b := true } k).readable
        (s.extRegs l 0 0 v).r0 2 := by
      refine (h.source l 0 hl ?_).of_plat hE.plat
      rw [State.extReads, hbit]
      exact Nat.succ_pos _
    refine ⟨_, run_extbltSource (hE.quiet h.quiet _ _ _).1 hread, k, ?_, fun hnone => absurd hnone (Option.some_ne_none _)⟩
    have hregs : { s.extRegs l 0 0 v with r0 := (s.extRegs l 0 0 v).r0 + (s.extRegs l 0 0 v).r4 } = s.extRegs l 1 0 v := by
      have h0 : (s.extRegs l 0 0 v).r0 + (s.extRegs l 0 0 v).r4 = _ := blockAddr_step _ _ _ _ _ _
      rw [h0]
      rfl
    have hread' := (s.extLines s.extFree l).extRead_withCpu (s.extRegs l 0 0 v) { s.psr with b := true } k (s.extRegs l 0 0 v).r0
    exact (congrArg (fun q : State => ({ q with
      regs := { s.extRegs l 0 0 v with r0 := (s.extRegs l 0 0 v).r0 + (s.extRegs l 0 0 v).r4 } } : State)) hread').trans
      (congrArg (fun x => State.withCpu _ x _ k) hregs)

/-- The words of a line from word w on (R564). -/
theorem run_extbltWords (h : ExtReady s) (hl : l < s.regs.r3.toNat) {n w : Nat} (hw : w + n = s.regs.r2.toNat / 2)
    (ht : ExtAt s (s.extWords s.extFree l w (s.extStart l))
      (s.extRegs l (w + s.extPre) w (s.regs.r2 - BitVec.ofNat 32 (2 * w))) t) :
    ∃ u, extbltWords (s.regs.r2.toNat / 2) n t = .ok ((), u) ∧ ExtAt s (s.extLines s.extFree (l + 1))
      (s.extRegs l s.extReads (s.regs.r2.toNat / 2) (s.regs.r2 - BitVec.ofNat 32 (2 * (s.regs.r2.toNat / 2)))) u := by
  induction n generalizing w t with
  | zero =>
    rw [Nat.add_zero] at hw
    rw [State.extLines_succ, State.extReads_eq, ← hw]
    exact ⟨t, rfl, ht⟩
  | succ n ih =>
    obtain ⟨k, rfl, hk⟩ := ht
    have hE := (OnlyStores.extStart s l).extWords (l := l) s.extFree w
    have hread := (h.source l (w + s.extPre) hl (by rw [State.extReads_eq]; omega)).of_plat hE.plat
    have hwrite := (h.target l w hl (by omega)).of_plat hE.plat
    obtain ⟨k', hrun⟩ := run_extbltWords_succ (total := s.regs.r2.toNat / 2) (n := n) (w := w) (free := s.extFree) (by omega)
      (hE.quiet h.quiet (s.extRegs l (w + s.extPre) w (s.regs.r2 - BitVec.ofNat 32 (2 * w))) true k).1 hread hwrite
      (fun hnone => by rw [State.extFree, ← hk hnone]; rfl)
    have hcount : s.regs.r2 - BitVec.ofNat 32 (2 * w) - 2 = s.regs.r2 - BitVec.ofNat 32 (2 * (w + 1)) := by
      have h2 : BitVec.ofNat 32 (2 * 1) = (2 : Word) := rfl
      rw [Nat.mul_add, BitVec.ofNat_add, h2]
      exact sub_sub _ _ _
    have hnext : ExtAt s (s.extWords s.extFree l (w + 1) (s.extStart l))
        (s.extRegs l (w + 1 + s.extPre) (w + 1) (s.regs.r2 - BitVec.ofNat 32 (2 * (w + 1)))) _ :=
      ⟨k', rfl, fun hnone => absurd hnone (State.extStore_sdil _ _ _ _ _)⟩
    obtain ⟨u, hu, hat⟩ := ih (by omega) hnext
    refine ⟨u, ?_, hat⟩
    rw [hrun, ← hu, State.extWords, State.extWord_eq, ← hcount, Nat.add_right_comm, ← State.extRegs_next]
    exact congrArg (fun q : State => extbltWords (s.regs.r2.toNat / 2) n { q with
      regs := (s.extRegs l (w + s.extPre) w (s.regs.r2 - BitVec.ofNat 32 (2 * w))).extNext, freeCount := k' })
      (State.extStore_withCpu _ _ _ k _ _ _ _)

/-- A line leads to the next (R564). -/
theorem run_extbltLine_extAt (h : ExtReady s) (heven : s.regs.r2.toNat % 2 = 0) (hl : l < s.regs.r3.toNat) {v : Word}
    (ht : ExtAt s (s.extLines s.extFree l) (s.extRegs l 0 0 v) t) : ∃ u, extbltLine t = .ok (decide (l + 1 < s.regs.r3.toNat), u) ∧
      ExtAt s (s.extLines s.extFree (l + 1)) (s.extRegs (l + 1) 0 0 0) u := by
  have hset : ExtAt s (s.extLines s.extFree l) (s.extRegs l 0 0 s.regs.r2) (t.setReg .r5 t.regs.r2) := by
    obtain ⟨k, rfl, hk⟩ := ht
    exact ⟨k, rfl, hk⟩
  have hr2 : t.regs.r2 = s.regs.r2 := by
    obtain ⟨k, rfl, -⟩ := ht
    rfl
  have hused : s.regs.r2 - BitVec.ofNat 32 (2 * (s.regs.r2.toNat / 2)) = 0 := by
    rw [show 2 * (s.regs.r2.toNat / 2) = s.regs.r2.toNat by omega, count_self]
  have hzero : s.regs.r2 - BitVec.ofNat 32 (2 * 0) = s.regs.r2 := BitVec.sub_zero _
  obtain ⟨t1, hpre, hat1⟩ := run_extbltPre h hl _ hset
  rw [← hzero, ← Nat.zero_add s.extPre] at hat1
  obtain ⟨u, hwords, hat⟩ := run_extbltWords h hl (Nat.zero_add _) hat1
  rw [hused] at hat
  have hwords' : extbltWords (t.regs.r2.toNat / 2) (t.regs.r2.toNat / 2) t1 = .ok ((), u) := by rw [hr2]; exact hwords
  obtain ⟨k, rfl, hk⟩ := hat
  have hmore : ((s.extRegs l s.extReads (s.regs.r2.toNat / 2) 0).r3 - 1 != 0) = decide (l + 1 < s.regs.r3.toNat) := count_goesOn hl
  refine ⟨_, (run_extbltLine (t := t) hpre hwords').trans (congrArg (fun b => Except.ok (b, _)) hmore), k, ?_, hk⟩
  exact congrArg (fun x => (s.extLines s.extFree (l + 1)).withCpu x { s.psr with b := true } k) (s.extRegs_warp l 0)

/-- The loop of EXTBLT (R564). -/
theorem run_extbltLoop (h : ExtReady s) (heven : s.regs.r2.toNat % 2 = 0) :
    ∃ u, loop extbltLine s.regs.r3.toNat { s with psr := { s.psr with b := true }, psrTouched := true } = .ok (.done, u) ∧
      ExtAt s (s.extLines s.extFree s.regs.r3.toNat)
        (s.extRegs s.regs.r3.toNat 0 0 (if s.regs.r3.toNat = 0 then s.regs.r5 else 0)) u := by
  refine run_loop_invariant
    (P := fun l t => ExtAt s (s.extLines s.extFree l) (s.extRegs l 0 0 (if l = 0 then s.regs.r5 else 0)) t)
    (fun l t hl ht => run_extbltLine_extAt h heven hl ht) ?_ (Nat.zero_add _) ?_
  · rintro l t ⟨k, rfl, -⟩
    exact (OnlyStores.extLines s _ l).quiet h.quiet _ _ _
  · refine ⟨s.freeCount, ?_, fun _ => rfl⟩
    have h3 : s.regs.r3 - BitVec.ofNat 32 0 = s.regs.r3 := BitVec.sub_zero _
    rw [State.extRegs, blockAddr_zero, blockAddr_zero, h3]
    rfl

/-- A byte outside the destination words stays. -/
theorem State.extLines_read_other (s : State) (free : Half) {lines a : Nat}
    (ha : ∀ l w, l < lines → w < s.regs.r2.toNat / 2 →
      a ∉ bytesOf (blockAddr s.regs.r1 s.regs.r4 s.regs.r7 (s.regs.r2.toNat / 2) l w) 2) :
    (s.extLines free lines).mem.read a = s.mem.read a := by
  induction lines with
  | zero => rfl
  | succ l ih =>
    have hwords (n : Nat) (hn : n ≤ s.regs.r2.toNat / 2) (q : State) : (s.extWords free l n q).mem.read a = q.mem.read a := by
      induction n with
      | zero => rfl
      | succ n ihn => exact (State.read_poke_other _ _ (ha l n (Nat.lt_succ_self l) (by omega))).trans (ihn (by omega))
    rw [State.extLines, hwords _ (Nat.le_refl _)]
    have hline := ih fun l' w hl' => ha l' w (by omega)
    split <;> exact hline

/-- The end of EXTBLT (R564, U3). -/
theorem run_extbltEnd (t : State) : ∃ v k, extbltEnd t = .ok ((), { t with
    regs := { t.regs with r2 := v }
    psr := { t.psr with b := false }
    psrTouched := true
    freeCount := k }) := ⟨_, _, rfl⟩

theorem ExtReady.even (h : ExtReady s) : s.regs.r2.toNat % 2 = 0 := by
  have hsetup := h.setup
  unfold extbltReady at hsetup
  simp only [Bool.and_eq_true, beq_iff_eq] at hsetup
  obtain ⟨⟨⟨⟨⟨⟨-, heven⟩, -⟩, -⟩, -⟩, -⟩, -⟩ := hsetup
  exact heven

theorem exec_extblt (h : ExtReady s) : ∃ (v : Word) (k : Nat), exec .extblt s = .next (s.after .extblt { s.extLines s.extFree s.regs.r3.toNat with
    regs := { s.regs with
      r0 := blockAddr s.regs.r0 s.regs.r4 s.regs.r6 s.extReads s.regs.r3.toNat 0
      r1 := blockAddr s.regs.r1 s.regs.r4 s.regs.r7 (s.regs.r2.toNat / 2) s.regs.r3.toNat 0
      r2 := v
      r3 := 0
      r5 := if s.regs.r3.toNat = 0 then s.regs.r5 else 0 }
    psr := { s.psr with b := false }
    freeCount := k }) := by
  obtain ⟨t, hloop, k, rfl, -⟩ := run_extbltLoop h h.even
  obtain ⟨v, k', hend⟩ := run_extbltEnd ((s.extLines s.extFree s.regs.r3.toNat).withCpu
    (s.extRegs s.regs.r3.toNat 0 0 (if s.regs.r3.toNat = 0 then s.regs.r5 else 0)) { s.psr with b := true } k)
  refine ⟨v, k', ?_⟩
  show execExtblt s = _
  unfold execExtblt
  refine (finish_seq_after (u := { s.extLines s.extFree s.regs.r3.toNat with
    regs := { s.extRegs s.regs.r3.toNat 0 0 (if s.regs.r3.toNat = 0 then s.regs.r5 else 0) with r2 := v }
    psr := { s.psr with b := false }
    psrTouched := true
    freeCount := k' }) ?_).trans ?_
  · rw [run_peek_bind, h.setup, run_bind_of_ok (run_require_true _ s), run_bind_of_ok (run_updPsr _ s),
      run_bind_of_ok (run_getReg .r3 _)]
    refine (run_bind_of_ok hloop).trans ?_
    exact run_bind_of_ok hend
  · rw [State.extRegs, count_self]
    rfl

end

/-- Settles O56: the loop of lines, each the loop of its words; a latch is free only before the first source read. -/
theorem extbltCompletes : Obligations.ExtbltCompletes := by
  intro s h words lines
  obtain ⟨v, k, hexec⟩ := exec_extblt h
  exact ⟨s.extFree, v, k, hexec, fun a ha => s.extLines_read_other s.extFree ha⟩

end Sys2Proof.Machine
end
